-- ==== Sys2Proof/Word.lean ====
section
/-! DEFINITION. The word types of the 4320's cells and the bounded numbers by which the manual names handles,
lanes, floors, handset addresses, apartment slots and classes (scope section 6: everything is numbered from 0). -/

namespace Sys2Proof

/-- One byte of a cell (R18 to R20). -/
abbrev Byte := BitVec 8

/-- A two-byte field of a cell, a management value word, or a set of event bits (R18, R19). -/
abbrev Word := BitVec 16

/-- The handle of a call record of this switch, 0–47 (R80). -/
abbrev Handle := Fin 48

/-- A lane of a riser segment, 0–11 (R1). -/
abbrev LLane := Fin 12

/-- The number k of floor port Fk, 0–7. -/
abbrev Floor := Fin 8

/-- A handset address on a floor branch, 0–31 (R4). -/
abbrev Addr := Fin 32

/-- A slot of the apartment table, 0–95 (R24). -/
abbrev SlotNo := Fin 96

/-- A class or a quiet level, 0–7. -/
abbrev Class := Fin 8

end Sys2Proof
end

