-- ==== Sys2Proof/Config.lean ====
section
/-! DEFINITION. What the part fixes once for all: sizes and fixed times of the manual, and the one free value of
the model (a word the manual leaves unstated). -/

namespace Sys2Proof.Config

/-- Cells a transmit queue holds (R9). -/
def queueDepth : Nat := 16

/-- Entries the wait list holds (R63). -/
def waitDepth : Nat := 16

/-- The guard time of CLEARING, in timer units; fixed, not a setting (R148). -/
def guardTime : Nat := 20

/-- Retries after the first OFFER of an entry; fixed, not a setting (R110). -/
def maxRetries : Nat := 3

/-- LIMIT_NEAR is given this many units before the talk limit ends (R141). -/
def nearMargin : Nat := 100

/-- A talk limit above this many units carries a near mark (R141). -/
def nearFloor : Nat := 200

/-- Milliseconds of one timer unit (scope section 6, "Time"), the length of one tick of the model. -/
def tickMs : Nat := 100

/-- Milliseconds of unbroken alignment that qualify a riser link (R11). -/
def alignMs : Nat := 100

/-- Milliseconds of fault report that take a floor port to FAULT (R12). -/
def faultMs : Nat := 200

/-- Milliseconds of good report that take a floor port to UP (R12). -/
def goodMs : Nat := 1000

/-- FREE VALUE. A word of a reply whose value the manual does not state (assumption 5). It has no body, so nothing
can be proved of it; it is applied to the model's own counter `State.freeIndex`. -/
opaque freeWord : Nat → BitVec 16

end Sys2Proof.Config
end

