-- ==== Sys2Proof/Syntax.lean ====
section
/-! DEFINITION. The commands of the 4320, one constructor of `Instr` for each row of spec/opcode_table.json, with
the operands each carries, and the names, codes and cells that the manual's tables give (scope section 7, R15 to R20). -/

namespace Sys2Proof

/-- The two riser ports: L faces the head-end, H faces the next switch above. -/
inductive Riser | L | H
  deriving DecidableEq, Repr

/-- The nine owned ports, whose lanes this switch allocates (R2). -/
inductive Owned | H | F (k : Floor)
  deriving DecidableEq, Repr

/-- The ten ports of the part (R9). -/
inductive Port | L | H | F (k : Floor)
  deriving DecidableEq, Repr

/-- The setup side of a key: the end of the segment that sent the SETUP across it (R3). -/
inductive Side | low | high
  deriving DecidableEq, Repr

/-- The key of a call on one riser segment (R3); the reference is 0–63. -/
structure Key where
  side : Side
  ref  : Fin 64
  deriving DecidableEq, Repr

/-- What the input pins read: the four node-number straps, the TOP strap, the debounced FIRE level (scope section 9). -/
structure Pins where
  node     : Fin 16
  top      : Bool
  fireHigh : Bool
  deriving DecidableEq, Repr

/-- The bytes 1 and 3 to 13 of a management cell but its operation (R19). `spare` is bytes 11–13, which the part
ignores and forwards unchanged. -/
structure Request where
  node     : Byte
  item     : Byte
  field    : Byte
  index    : Byte
  result   : Byte
  value    : Word
  expected : Word
  spare    : BitVec 24
  deriving DecidableEq, Repr

/-- The ten riser kinds of the call layout, codes 1–10 in this order (R18). -/
inductive CallKind
  | setup | laneGrant | progress | connect | release | releaseDone | unlatch | fireOn | fireOff | restart
  deriving DecidableEq, Repr

/-- The three riser kinds of the management layout, codes 11–13 in this order (R18, R19). -/
inductive MgmtKind | request | reply | notice
  deriving DecidableEq, Repr

/-- The progress codes, 1–5 in this order (R15, R18). -/
inductive Progress | alerting | queued | held | resumed | limitNear
  deriving DecidableEq, Repr

/-- The causes, codes 1–23 in this order (scope section 7, R18). -/
inductive Cause
  | normal | busy | quiet | refused | handsetAbsent | noAnswer | preempted | congestion
  | laneTimeout | noProgress | talkLimit | noSuchApartment | barred | invalid | tableFull | notInService
  | fireMode | lineFault | portDisabled | linkDown | neighbourRestart | notPermitted | notConnected
  deriving DecidableEq, Repr

/-- The STATUS codes, 1–10 in this order (R17, R20). -/
inductive Status
  | ringback | queued | connected | held | resumed | limitNear | cleared | quietSet | unlatchSent | unlatchRefused
  deriving DecidableEq, Repr

/-- The twelve floor cell kinds (R16, R20). -/
inductive FloorKind
  | offer | cancel | status | restart | alert | answer | refuse | again | dial | hook | quiet | unlatch
  deriving DecidableEq, Repr

/-- The management operations, codes 1–12 in this order (R19). -/
inductive MgmtOp
  | read | write | update | clearEvents | setMasks | laneOut | laneIn | portDisable | portEnable | setService
  | lock | reset
  deriving DecidableEq, Repr

/-- The result codes of a management reply, 1–8 in this order (R19). -/
inductive Result
  | done | clamped | locked | noItem | badValue | duplicate | inUse | compareFailed
  deriving DecidableEq, Repr

/-- The origin kinds (R18). -/
inductive OriginKind | panel | apartment | firePosition
  deriving DecidableEq, Repr

/-- A cell of the call layout as this switch sends it (R18); `none` is the lane NONE. -/
structure CallCell where
  kind   : CallKind
  key    : Key
  lane   : Option Nat
  okind  : OriginKind
  cls    : Class
  dest   : Word
  origin : Word
  code   : Byte
  deriving DecidableEq, Repr

/-- A riser cell in a transmit queue: of the call layout or of the management layout. -/
inductive RiserCell
  | call (c : CallCell)
  | mgmt (kind : MgmtKind) (op : Byte) (q : Request)
  deriving DecidableEq, Repr

/-- A floor cell (R20); a lane or second address of `none` is NONE. -/
structure FloorCell where
  kind   : FloorKind
  lane   : Option Nat
  addr   : Addr
  second : Option Addr
  handle : Nat
  code   : Byte
  value  : Byte
  deriving DecidableEq, Repr

/-- The commands. A command is an event at the part's lines, pins or timers; each constructor's docstring gives its
row's mnemonic and rule. A received cell's command carries the fields of the cell that its kind uses. -/
inductive Instr
  /-- POWER_UP_RESET (R184): `pins` is what the pins read at the reset. -/
  | powerUpReset (pins : Pins)
  /-- REMOTE_RESET (R185): `pins` is what the pins read at the reset. -/
  | remoteReset (pins : Pins)
  /-- LINK_UP (R11). -/
  | linkUp (p : Riser)
  /-- LINK_DOWN (R11). -/
  | linkDown (p : Riser)
  /-- FLOOR_FAULT (R12). -/
  | floorFault (k : Floor)
  /-- FLOOR_LINE_GOOD (R12). -/
  | floorLineGood (k : Floor)
  /-- FIRE_EDGE (R156): the debounced level becomes high or low. -/
  | fireEdge (high : Bool)
  /-- TRANSMIT_CELL (R9). -/
  | transmitCell (p : Port)
  /-- CELL_CHECK_FAILED (R5): the bytes that the framer of port `p` assembled. -/
  | cellCheckFailed (p : Port) (bytes : List Byte)
  /-- SETUP_FROM_BELOW (R88). -/
  | setupFromBelow (key : Key) (lane : Byte) (dest : Word) (cls : Class) (okind : BitVec 2) (origin : Word)
  /-- SETUP_FROM_ABOVE (R131). -/
  | setupFromAbove (key : Key) (lane : Byte) (dest : Word) (cls : Class) (okind : BitVec 2) (origin : Word)
  /-- LANE_GRANT (R133); on port H it fails the port test of R6. -/
  | laneGrant (p : Riser) (key : Key) (lane : Byte)
  /-- ALERTING_FROM_ABOVE (R96). -/
  | alertingFromAbove (key : Key) (lane : Byte)
  /-- QUEUED_FROM_ABOVE (R97). -/
  | queuedFromAbove (key : Key) (lane : Byte)
  /-- HELD_FROM_ABOVE (R98). -/
  | heldFromAbove (key : Key) (lane : Byte)
  /-- RESUMED_FROM_ABOVE (R98). -/
  | resumedFromAbove (key : Key) (lane : Byte)
  /-- LIMIT_NEAR_FROM_ABOVE (R99); the same cell on port L has no row of its own and is this one with port L. -/
  | limitNearFromAbove (p : Riser) (key : Key) (lane : Byte)
  /-- CONNECT_FROM_ABOVE (R100). -/
  | connectFromAbove (key : Key)
  /-- QUEUED_FROM_BELOW (R134). -/
  | queuedFromBelow (key : Key) (lane : Byte)
  /-- ALERTING_FROM_BELOW (R135). -/
  | alertingFromBelow (key : Key) (lane : Byte)
  /-- CONNECT_FROM_BELOW (R136). -/
  | connectFromBelow (key : Key)
  /-- HELD_FROM_BELOW (R150). -/
  | heldFromBelow (key : Key) (lane : Byte)
  /-- RESUMED_FROM_BELOW (R151). -/
  | resumedFromBelow (key : Key) (lane : Byte)
  /-- RELEASE (R146), arriving on port `p` with the cause code `code`. -/
  | release (p : Riser) (key : Key) (code : Byte)
  /-- RELEASE_DONE (R147), arriving on port `p`. -/
  | releaseDone (p : Riser) (key : Key)
  /-- UNLATCH_FROM_ABOVE (R153); on port L it fails the port test of R6. -/
  | unlatchFromAbove (p : Riser) (key : Key) (okind : BitVec 2) (origin : Word)
  /-- RESTART_FROM_BELOW (R171). -/
  | restartFromBelow
  /-- RESTART_FROM_ABOVE (R172). -/
  | restartFromAbove
  /-- FIRE_ON (R158); on port H it fails the port test of R6. -/
  | fireOn (p : Riser)
  /-- FIRE_OFF (R159); on port H it fails the port test of R6. -/
  | fireOff (p : Riser)
  /-- MGMT_REQUEST_FORWARD (R176): a MGMT-REQUEST with operation byte `op` arriving on port `p`. -/
  | mgmtRequestForward (p : Riser) (op : Byte) (q : Request)
  /-- MGMT_RELAY_DOWN (R176): a MGMT-REPLY (or, with `notice`, an EVENT-NOTICE) arriving on port `p`. -/
  | mgmtRelayDown (p : Riser) (notice : Bool) (op : Byte) (q : Request)
  /-- READ (R178): a request of operation READ arriving on port L; so for the eleven below. -/
  | read (q : Request)
  /-- WRITE (R178). -/
  | write (q : Request)
  /-- UPDATE (R40). -/
  | update (q : Request)
  /-- CLEAR_EVENTS (R183). -/
  | clearEvents (q : Request)
  /-- SET_MASKS (R182). -/
  | setMasks (q : Request)
  /-- LANE_OUT (R61). -/
  | laneOut (q : Request)
  /-- LANE_IN (R62). -/
  | laneIn (q : Request)
  /-- PORT_DISABLE (R179). -/
  | portDisable (q : Request)
  /-- PORT_ENABLE (R179). -/
  | portEnable (q : Request)
  /-- SET_SERVICE (R181). -/
  | setService (q : Request)
  /-- LOCK (R180). -/
  | lock (q : Request)
  /-- RESET (R185). -/
  | reset (q : Request)
  /-- ALERT (R113) from handset `a` on floor port `k`, with the handle byte of the cell. -/
  | alert (k : Floor) (a : Addr) (handle : Byte)
  /-- ANSWER (R114). -/
  | answer (k : Floor) (a : Addr) (handle : Byte)
  /-- REFUSE (R115). -/
  | refuse (k : Floor) (a : Addr) (handle : Byte)
  /-- REPEAT (R116). -/
  | repeatOffer (k : Floor) (a : Addr) (handle : Byte)
  /-- RESPONSE_WINDOW_EXPIRY (R116) of offer entry `i` of record `h`. -/
  | responseWindowExpiry (h : Handle) (i : Fin 2)
  /-- DIAL (R126). -/
  | dial (k : Floor) (a : Addr)
  /-- HOOK (R144). -/
  | hook (k : Floor) (a : Addr)
  /-- QUIET (R123), with the level byte of the cell. -/
  | quiet (k : Floor) (a : Addr) (level : Byte)
  /-- UNLATCH (R152). -/
  | unlatch (k : Floor) (a : Addr)
  /-- HANDSET_RESTART (R7). -/
  | handsetRestart (k : Floor) (a : Addr)
  /-- LANE_WAIT_EXPIRY (R68). -/
  | laneWaitExpiry (h : Handle)
  /-- AGEING_STEP (R69). -/
  | ageingStep (h : Handle)
  /-- PROGRESS_WAIT_EXPIRY (R102, R138). -/
  | progressWaitExpiry (h : Handle)
  /-- GRANT_WAIT_EXPIRY (R138). -/
  | grantWaitExpiry (h : Handle)
  /-- RING_TIMER_EXPIRY (R119, R135). -/
  | ringTimerExpiry (h : Handle)
  /-- LIMIT_NEAR (R141). -/
  | limitNear (h : Handle)
  /-- TALK_LIMIT_EXPIRY (R142). -/
  | talkLimitExpiry (h : Handle)
  /-- GUARD_TIMER_EXPIRY (R148). -/
  | guardTimerExpiry (h : Handle)
  /-- FRAME_ALIGNMENT_LOSS (R11). -/
  | frameAlignmentLoss (p : Riser)
  /-- FRAME_ALIGNMENT_RETURN (R11). -/
  | frameAlignmentReturn (p : Riser)
  /-- LINE_MONITOR_REPORT_CHANGE (R12): the monitor of port `k` now reports good, or fault. -/
  | lineMonitorReportChange (k : Floor) (good : Bool)
  /-- MAIN_SUPPLY_LOSS (R184); `midStore` says that a retained change was being stored at that moment. -/
  | mainSupplyLoss (midStore : Bool)
  /-- STANDBY_SUPPLY_LOW (R184). -/
  | standbySupplyLow
  deriving DecidableEq, Repr

end Sys2Proof
end

