-- ==== Sys2Proof/WellFormed.lean ====
section
/-! DEFINITION. Which terms of `Instr` are commands. The operand types leave one thing unchecked: a raw cell has the
length of its line (scope section 5, "cell"). A raw lane, origin, handle or level byte out of its range is a command
all the same: the line interface tests it (R6, R7) and the meaning says what it does. -/

namespace Sys2Proof

/-- The bytes of a cell on a port's line: 16 on a riser segment, 8 on a floor branch. -/
def cellLength : Port → Nat
  | .L | .H => 16
  | .F _ => 8

/-- Well-formed commands. -/
def Instr.wf : Instr → Bool
  | .cellCheckFailed p bytes => bytes.length == cellLength p
  | .powerUpReset .. | .remoteReset .. | .linkUp .. | .linkDown .. | .floorFault .. | .floorLineGood ..
  | .fireEdge .. | .transmitCell .. | .setupFromBelow .. | .setupFromAbove .. | .laneGrant ..
  | .alertingFromAbove .. | .queuedFromAbove .. | .heldFromAbove .. | .resumedFromAbove ..
  | .limitNearFromAbove .. | .connectFromAbove .. | .queuedFromBelow .. | .alertingFromBelow ..
  | .connectFromBelow .. | .heldFromBelow .. | .resumedFromBelow .. | .release .. | .releaseDone ..
  | .unlatchFromAbove .. | .restartFromBelow | .restartFromAbove | .fireOn .. | .fireOff ..
  | .mgmtRequestForward .. | .mgmtRelayDown .. | .read .. | .write .. | .update .. | .clearEvents ..
  | .setMasks .. | .laneOut .. | .laneIn .. | .portDisable .. | .portEnable .. | .setService .. | .lock ..
  | .reset .. | .alert .. | .answer .. | .refuse .. | .repeatOffer .. | .responseWindowExpiry ..
  | .dial .. | .hook .. | .quiet .. | .unlatch .. | .handsetRestart .. | .laneWaitExpiry ..
  | .ageingStep .. | .progressWaitExpiry .. | .grantWaitExpiry .. | .ringTimerExpiry .. | .limitNear ..
  | .talkLimitExpiry .. | .guardTimerExpiry .. | .frameAlignmentLoss .. | .frameAlignmentReturn ..
  | .lineMonitorReportChange .. | .mainSupplyLoss .. | .standbySupplyLow => true

end Sys2Proof
end

