-- ==== Sys2Proof/Decode.lean ====
section
/-! DEFINITION. The codes and cell layouts of R18 to R20, the check word of R5, the bytes of a cell that the part
sends, what the bytes of a received cell spell, and `decodeTableWord` over the rows of the table that give bits
(none does). -/

namespace Sys2Proof

/-! ## Codes -/

/-- Kind codes 1–10 (R18). -/
def CallKind.toByte : CallKind → Byte
  | .setup => 1 | .laneGrant => 2 | .progress => 3 | .connect => 4 | .release => 5
  | .releaseDone => 6 | .unlatch => 7 | .fireOn => 8 | .fireOff => 9 | .restart => 10

/-- Kind codes 11–13 (R19). -/
def MgmtKind.toByte : MgmtKind → Byte
  | .request => 11 | .reply => 12 | .notice => 13

/-- Progress codes (R18). -/
def Progress.toByte : Progress → Byte
  | .alerting => 1 | .queued => 2 | .held => 3 | .resumed => 4 | .limitNear => 5

/-- Cause codes (R18). -/
def Cause.toByte : Cause → Byte
  | .normal => 1 | .busy => 2 | .quiet => 3 | .refused => 4 | .handsetAbsent => 5 | .noAnswer => 6
  | .preempted => 7 | .congestion => 8 | .laneTimeout => 9 | .noProgress => 10 | .talkLimit => 11
  | .noSuchApartment => 12 | .barred => 13 | .invalid => 14 | .tableFull => 15 | .notInService => 16
  | .fireMode => 17 | .lineFault => 18 | .portDisabled => 19 | .linkDown => 20 | .neighbourRestart => 21
  | .notPermitted => 22 | .notConnected => 23

/-- The causes in the order of their codes, from 1. -/
def Cause.table : List Cause :=
  [.normal, .busy, .quiet, .refused, .handsetAbsent, .noAnswer, .preempted, .congestion, .laneTimeout,
   .noProgress, .talkLimit, .noSuchApartment, .barred, .invalid, .tableFull, .notInService, .fireMode,
   .lineFault, .portDisabled, .linkDown, .neighbourRestart, .notPermitted, .notConnected]

/-- The cause a RELEASE carries: a code 0, or one not in the cause table, is taken as NORMAL (R6). -/
def Cause.ofByte (b : Byte) : Cause :=
  if b = 0 then .normal else (Cause.table[b.toNat - 1]?).getD .normal

/-- STATUS codes (R20). -/
def Status.toByte : Status → Byte
  | .ringback => 1 | .queued => 2 | .connected => 3 | .held => 4 | .resumed => 5 | .limitNear => 6
  | .cleared => 7 | .quietSet => 8 | .unlatchSent => 9 | .unlatchRefused => 10

/-- Floor kind codes (R20). -/
def FloorKind.toByte : FloorKind → Byte
  | .offer => 1 | .cancel => 2 | .status => 3 | .restart => 4 | .alert => 8 | .answer => 9 | .refuse => 10
  | .again => 11 | .dial => 12 | .hook => 13 | .quiet => 14 | .unlatch => 15

/-- Management operation codes (R19). -/
def MgmtOp.toByte : MgmtOp → Byte
  | .read => 1 | .write => 2 | .update => 3 | .clearEvents => 4 | .setMasks => 5 | .laneOut => 6 | .laneIn => 7
  | .portDisable => 8 | .portEnable => 9 | .setService => 10 | .lock => 11 | .reset => 12

/-- The operations in the order of their codes, from 1. -/
def MgmtOp.table : List MgmtOp :=
  [.read, .write, .update, .clearEvents, .setMasks, .laneOut, .laneIn, .portDisable, .portEnable, .setService,
   .lock, .reset]

/-- The operation of an operation byte; `none` outside 1–12 (R176). -/
def MgmtOp.ofByte (b : Byte) : Option MgmtOp :=
  if b = 0 then none else MgmtOp.table[b.toNat - 1]?

/-- Result codes (R19). -/
def Result.toByte : Result → Byte
  | .done => 1 | .clamped => 2 | .locked => 3 | .noItem => 4 | .badValue => 5 | .duplicate => 6 | .inUse => 7
  | .compareFailed => 8

/-- Origin kind codes (R18). -/
def OriginKind.toNat : OriginKind → Nat
  | .panel => 0 | .apartment => 1 | .firePosition => 2

/-- The place of an owned port in the tables of the lane allocator: H first, then F0 to F7 (R72). -/
def Owned.idx : Owned → Fin 9
  | .H => 0
  | .F k => ⟨k.val + 1, by omega⟩

/-- The port numbers: 0 for L, 1 for H, 2–9 for F0–F7 (R19). -/
def Port.number : Port → Nat
  | .L => 0
  | .H => 1
  | .F k => k.val + 2

/-- The port of a port number (R19). -/
def Port.ofNumber (n : Nat) : Option Port :=
  match n with
  | 0 => some .L
  | 1 => some .H
  | n + 2 => if h : n < 8 then some (.F ⟨n, h⟩) else none

/-- The owned port of a port; port L is not owned (R2). -/
def Port.owned : Port → Option Owned
  | .L => none
  | .H => some .H
  | .F k => some (.F k)

/-- An owned port as a port. -/
def Owned.port : Owned → Port
  | .H => .H
  | .F k => .F k

/-! ## Bytes and the check word -/

/-- The high byte of a word, which is sent first (section 1.10). -/
def hiByte (w : Word) : Byte := BitVec.ofNat 8 (w.toNat / 256)

/-- The low byte of a word. -/
def loByte (w : Word) : Byte := BitVec.ofNat 8 w.toNat

/-- The word formed from two bytes, high byte first (R5). -/
def wordOf (hi lo : Byte) : Word := BitVec.ofNat 16 (hi.toNat * 256 + lo.toNat)

/-- Ones'-complement addition: a carry out of the sixteenth bit is added back into the lowest bit (R5). -/
def onesAdd (a b : Nat) : Nat := if a + b < 65536 then a + b else a + b - 65536 + 1

/-- The ones'-complement sum of the 16-bit words of a cell (R5). -/
def onesSum : List Byte → Nat
  | hi :: lo :: rest => onesAdd (wordOf hi lo).toNat (onesSum rest)
  | [hi] => (wordOf hi 0).toNat
  | [] => 0

/-- The check word of a cell: the ones'-complement of the sum of its other words (R5). -/
def checkWord (bytes : List Byte) : Word := BitVec.ofNat 16 (65535 - onesSum bytes)

/-- A cell's bytes followed by its check word. -/
def withCheck (bytes : List Byte) : List Byte :=
  bytes ++ [hiByte (checkWord bytes), loByte (checkWord bytes)]

/-- The check of a received cell passes when its sum is all ones (R5). -/
def checkPasses (bytes : List Byte) : Bool := onesSum bytes == 65535

/-! ## Cells sent -/

/-- Byte 1 of the call layout: setup side in bit 7, reference in bits 5–0 (R18). -/
def Key.toByte (k : Key) : Byte :=
  BitVec.ofNat 8 ((match k.side with | .low => 0 | .high => 128) + k.ref.val)

/-- Byte 2 of the call layout: the lane, or 255 for NONE (R18). -/
def laneByte : Option Nat → Byte
  | some i => BitVec.ofNat 8 i
  | none => 255

/-- The fourteen bytes of a call-layout cell before its check (R18). -/
def CallCell.body (c : CallCell) : List Byte :=
  [c.kind.toByte, c.key.toByte, laneByte c.lane, BitVec.ofNat 8 (c.okind.toNat * 16 + c.cls.val),
   hiByte c.dest, loByte c.dest, hiByte c.origin, loByte c.origin, c.code, 0, 0, 0, 0, 0]

/-- The fourteen bytes of a management cell before its check (R19). -/
def mgmtBody (kind : MgmtKind) (op : Byte) (q : Request) : List Byte :=
  [kind.toByte, q.node, op, q.item, q.field, q.index, q.result, hiByte q.value, loByte q.value,
   hiByte q.expected, loByte q.expected, BitVec.ofNat 8 (q.spare.toNat / 65536),
   BitVec.ofNat 8 (q.spare.toNat / 256), BitVec.ofNat 8 q.spare.toNat]

/-- The sixteen bytes of a riser cell on the line. -/
def RiserCell.bytes : RiserCell → List Byte
  | .call c => withCheck c.body
  | .mgmt kind op q => withCheck (mgmtBody kind op q)

/-- Byte 1 of a floor cell: lane 0–2 or 3 for NONE in bits 7–6, address in bits 4–0 (R20). -/
def floorLaneByte (lane : Option Nat) (a : Addr) : Byte :=
  BitVec.ofNat 8 ((match lane with | some i => i | none => 3) * 64 + a.val)

/-- Byte 2 of a floor cell: bit 7 set for NONE, else the second address (R20). -/
def secondByte : Option Addr → Byte
  | some a => BitVec.ofNat 8 a.val
  | none => 128

/-- The eight bytes of a floor cell on the line (R20). -/
def FloorCell.bytes (c : FloorCell) : List Byte :=
  withCheck [c.kind.toByte, floorLaneByte c.lane c.addr, secondByte c.second, BitVec.ofNat 8 c.handle,
    c.code, c.value]

/-! ## Cells received -/

/-- What a line interface makes of the bytes of a cell. -/
inductive Received
  /-- The check fails: CELL_CHECK (R5). -/
  | checkFailed
  /-- A kind, or a progress code, that no rule knows, or a floor kind from the wrong side: PROTOCOL (R6, R7). -/
  | wrongKind
  /-- The cell is this command. The remaining tests of R6 and R7 are part of the command's meaning. -/
  | command (i : Instr)
  deriving DecidableEq, Repr

/-- The key in byte 1 of a call-layout cell; bit 6 is ignored (R18). -/
def Key.ofByte (b : Byte) : Key :=
  { side := if b.toNat < 128 then .low else .high, ref := ⟨b.toNat % 64, by omega⟩ }

/-- The command that a PROGRESS with progress code `code` on port `p` spells; no code outside 1–5 is one (R6). -/
def progressCommand (p : Riser) (key : Key) (lane : Byte) (code : Nat) : Received :=
  match p, code with
  | .H, 1 => .command (.alertingFromAbove key lane)
  | .H, 2 => .command (.queuedFromAbove key lane)
  | .H, 3 => .command (.heldFromAbove key lane)
  | .H, 4 => .command (.resumedFromAbove key lane)
  | .L, 1 => .command (.alertingFromBelow key lane)
  | .L, 2 => .command (.queuedFromBelow key lane)
  | .L, 3 => .command (.heldFromBelow key lane)
  | .L, 4 => .command (.resumedFromBelow key lane)
  | p, 5 => .command (.limitNearFromAbove p key lane)
  | _, _ => .wrongKind

/-- The command of a management request on port L, by its operation (R176). -/
def requestCommand (op : Byte) (q : Request) : Instr :=
  match MgmtOp.ofByte op with
  | some .read => .read q | some .write => .write q | some .update => .update q
  | some .clearEvents => .clearEvents q | some .setMasks => .setMasks q
  | some .laneOut => .laneOut q | some .laneIn => .laneIn q
  | some .portDisable => .portDisable q | some .portEnable => .portEnable q
  | some .setService => .setService q | some .lock => .lock q | some .reset => .reset q
  | none => .mgmtRequestForward .L op q

/-- The command that a cell of the call layout, or of the management layout, spells on a riser port, once its check
has passed (R6, R18, R19). The arguments are the fourteen bytes before the check. -/
def riserCommand (p : Riser) (kind b1 b2 b3 b4 b5 b6 b7 b8 b9 b10 b11 b12 b13 : Byte) : Received :=
  let key := Key.ofByte b1
  let okind : BitVec 2 := BitVec.ofNat 2 (b3.toNat / 16)
  let cls : Class := ⟨b3.toNat % 8, by omega⟩
  let q : Request :=
    { node := b1, item := b3, field := b4, index := b5, result := b6, value := wordOf b7 b8,
      expected := wordOf b9 b10,
      spare := BitVec.ofNat 24 (b11.toNat * 65536 + b12.toNat * 256 + b13.toNat) }
  match kind.toNat, p with
  | 1, .L => .command (.setupFromBelow key b2 (wordOf b4 b5) cls okind (wordOf b6 b7))
  | 1, .H => .command (.setupFromAbove key b2 (wordOf b4 b5) cls okind (wordOf b6 b7))
  | 2, p => .command (.laneGrant p key b2)
  | 3, p => progressCommand p key b2 b8.toNat
  | 4, .H => .command (.connectFromAbove key)
  | 4, .L => .command (.connectFromBelow key)
  | 5, p => .command (.release p key b8)
  | 6, p => .command (.releaseDone p key)
  | 7, p => .command (.unlatchFromAbove p key okind (wordOf b6 b7))
  | 8, p => .command (.fireOn p)
  | 9, p => .command (.fireOff p)
  | 10, .L => .command .restartFromBelow
  | 10, .H => .command .restartFromAbove
  | 11, .L => .command (requestCommand b2 q)
  | 11, .H => .command (.mgmtRequestForward .H b2 q)
  | 12, p => .command (.mgmtRelayDown p false b2 q)
  | 13, p => .command (.mgmtRelayDown p true b2 q)
  | _, _ => .wrongKind

/-- The command that a floor cell from a handset spells, once its check has passed (R7, R20). -/
def floorCommand (k : Floor) (kind b1 handle code : Byte) : Received :=
  let a : Addr := ⟨b1.toNat % 32, by omega⟩
  match kind.toNat with
  | 4 => .command (.handsetRestart k a)
  | 8 => .command (.alert k a handle)
  | 9 => .command (.answer k a handle)
  | 10 => .command (.refuse k a handle)
  | 11 => .command (.repeatOffer k a handle)
  | 12 => .command (.dial k a)
  | 13 => .command (.hook k a)
  | 14 => .command (.quiet k a code)
  | 15 => .command (.unlatch k a)
  | _ => .wrongKind

/-- What the interface of riser port `p` makes of the bytes of a cell; a run of bytes that is no whole cell has no
check that passes. -/
def receiveRiser (p : Riser) (bytes : List Byte) : Received :=
  if checkPasses bytes then
    match bytes with
    | [kind, b1, b2, b3, b4, b5, b6, b7, b8, b9, b10, b11, b12, b13, _, _] =>
      riserCommand p kind b1 b2 b3 b4 b5 b6 b7 b8 b9 b10 b11 b12 b13
    | _ => .checkFailed
  else .checkFailed

/-- What the interface of floor port `k` makes of the bytes of a cell. -/
def receiveFloor (k : Floor) (bytes : List Byte) : Received :=
  if checkPasses bytes then
    match bytes with
    | [kind, b1, _, handle, code, _, _, _] => floorCommand k kind b1 handle code
    | _ => .checkFailed
  else .checkFailed

/-- What the interface of a port makes of the bytes of a cell (R5 to R7). -/
def receive : Port → List Byte → Received
  | .L, bytes => receiveRiser .L bytes
  | .H, bytes => receiveRiser .H bytes
  | .F k, bytes => receiveFloor k bytes

/-! ## The table's words -/

/-- The command that a word spells by the bits of spec/opcode_table.json. No row of the table gives bits, so no word
spells a command. -/
def decodeTableWord (_nbits _w : Nat) : Option Instr := none

end Sys2Proof
end

