-- ==== Sys2Proof/Machine/Parts.lean ====
section
/-! DEFINITION. The pieces of which the machine's state is made, block by block (scope section 3), and the default of
each retained item (R184 names them; each default is its own rule's). -/

namespace Sys2Proof.Machine

/-! ## Line interfaces (chapter 1) -/

/-- The link state of a riser port (R11). -/
inductive LinkState | down | up
  deriving DecidableEq, Repr

/-- The line state of a floor port (R12). -/
inductive LineState | up | fault | disabled
  deriving DecidableEq, Repr

/-- The interface of port L or port H (R11, R14). `aligned` is the framer's alignment and `count` the milliseconds of
the count under way: of held alignment while DOWN, of lost alignment while UP. `wire` is the cell last put on the line. -/
structure RiserPort where
  link     : LinkState
  downMark : Bool
  aligned  : Bool
  count    : Nat
  queue    : List RiserCell
  wire     : List Byte
  deriving DecidableEq, Repr

/-- The interface of a floor port (R12, R14). `good` is the line monitor's report and `count` the milliseconds of the
count under way. The retained disabled mark is in `Retained`. -/
structure FloorPort where
  line      : LineState
  faultMark : Bool
  good      : Bool
  count     : Nat
  queue     : List FloorCell
  wire      : List Byte
  deriving DecidableEq, Repr

/-! ## Directory (chapter 2) -/

/-- The target of a window (R22). -/
inductive Target | floor (k : Floor) | high | bar
  deriving DecidableEq, Repr

/-- An ordinary or exception window (R22, R23). -/
structure Window where
  base   : Nat
  limit  : Nat
  target : Target
  deriving DecidableEq, Repr

/-- The offer mode of a slot (R24). -/
inductive OfferMode | mainOnly | paired | followOn
  deriving DecidableEq, Repr

/-- A slot of the apartment table, without its activity, which is volatile (R24). Number 0 marks it empty. -/
structure Slot where
  number        : Nat
  port          : Floor
  main          : Addr
  ext           : Option Addr
  mode          : OfferMode
  quiet         : Class
  quietCeiling  : Class
  residentQuiet : Bool
  callDown      : Class
  unlatch       : Bool
  deriving DecidableEq, Repr

/-- The activity of an apartment (R24, R103). -/
inductive Activity
  | idle | pending (h : Handle) | offered (h : Handle) | engaged (h : Handle) | originating (h : Handle)
  deriving DecidableEq, Repr

/-! ## Settings -/

/-- The written settings of an owned port (R48); the lane count is fixed. -/
structure PortSettings where
  fire      : Nat
  priority  : Nat
  threshold : Nat
  deriving DecidableEq, Repr

/-- The timer settings (Table 11-1, item 6), in timer units but for the ageing period A, in seconds. -/
structure TimerSettings where
  window       : Nat
  ring         : Nat
  laneWait     : Nat
  grantWait    : Nat
  progressWait : Nat
  ageing       : Nat
  deriving DecidableEq, Repr

/-- The sense mode of the FIRE input (R155). -/
inductive SenseMode | ignore | levelLow | levelHigh | riseLatch | fallLatch
  deriving DecidableEq, Repr

/-- The service state (R181). -/
inductive Service | inService | outOfService
  deriving DecidableEq, Repr

/-! ## Event groups (R19, R182) -/

/-- One word for each event group: a status set, a report mask, or the bits an event sets. -/
structure EventSets where
  system : Word
  call   : Word
  line   : Word
  deriving DecidableEq, Repr

/-- The event groups, with codes 0, 1, 2 in this order. -/
inductive Group | system | call | line
  deriving DecidableEq, Repr

/-- The events (R19). -/
inductive Event
  | retentionLost | fireLocal | fireLine | writeRefusedLocked | directoryMismatch | tableFull | mgmtError
  | congestion | displaced | laneTimeout | preemption | guardExpiry | protocol
  | linkLDown | linkHDown | floorFault | cellCheck | txOverflow | handsetAbsent
  deriving DecidableEq, Repr

/-- The group of an event (R19). -/
def Event.group : Event → Group
  | .retentionLost | .fireLocal | .fireLine | .writeRefusedLocked | .directoryMismatch | .tableFull
  | .mgmtError => .system
  | .congestion | .displaced | .laneTimeout | .preemption | .guardExpiry | .protocol => .call
  | .linkLDown | .linkHDown | .floorFault | .cellCheck | .txOverflow | .handsetAbsent => .line

/-- The bit of an event in its group, as a set of that one bit (R19). -/
def Event.mask : Event → Word
  | .retentionLost => 1 | .fireLocal => 2 | .fireLine => 4 | .writeRefusedLocked => 8
  | .directoryMismatch => 16 | .tableFull => 32 | .mgmtError => 64
  | .congestion => 1 | .displaced => 2 | .laneTimeout => 4 | .preemption => 8 | .guardExpiry => 16
  | .protocol => 32
  | .linkLDown => 1 | .linkHDown => 2 | .floorFault => 4 | .cellCheck => 8 | .txOverflow => 16
  | .handsetAbsent => 32

/-- The bits of a group that name an event (R19). -/
def Group.named : Group → Word
  | .system => 0x7F
  | .call => 0x3F
  | .line => 0x3F

/-- The word of a group. -/
def EventSets.get (e : EventSets) : Group → Word
  | .system => e.system
  | .call => e.call
  | .line => e.line

/-- The sets with one group's word replaced. -/
def EventSets.set (e : EventSets) (g : Group) (v : Word) : EventSets :=
  match g with
  | .system => { e with system := v }
  | .call => { e with call := v }
  | .line => { e with line := v }

/-- The sets with an event's bit set. -/
def EventSets.add (e : EventSets) (x : Event) : EventSets := e.set x.group (e.get x.group ||| x.mask)

/-- The sets joined, group by group. -/
def EventSets.union (e f : EventSets) : EventSets :=
  { system := e.system ||| f.system, call := e.call ||| f.call, line := e.line ||| f.line }

/-- No event. -/
def EventSets.empty : EventSets := { system := 0, call := 0, line := 0 }

/-! ## Owned ports -/

/-- The owned ports in ascending order of port number (R72). -/
def allOwned : List Owned := [.H, .F 0, .F 1, .F 2, .F 3, .F 4, .F 5, .F 6, .F 7]

/-- The lane count N (R48). -/
def laneCount : Owned → Nat
  | .H => 12
  | .F _ => 3

/-- The lane map of an owned port (R42, R44): the holder of each lane, and the HELD lanes in grant order. The
out-of-service marks are in `Retained`. A lane without a holder is FREE, or OUT where its mark is set (R43). -/
structure LaneMap where
  holders : List (Option Handle)
  order   : List Nat
  deriving DecidableEq, Repr

/-- The lane map of a port with no lane HELD. -/
def LaneMap.empty (p : Owned) : LaneMap := { holders := List.replicate (laneCount p) none, order := [] }

/-- An entry of the cross-connect list (R139). -/
structure Cross where
  handle : Handle
  lLane  : LLane
  port   : Owned
  lane   : Nat
  deriving DecidableEq, Repr

/-- An entry of the wait list (R63). Its lane-wait is the record's own timer. `ageing` is the time left in the ageing
step under way, in units. -/
structure WaitEntry where
  handle : Handle
  port   : Owned
  steps  : Nat
  ageing : Option Nat
  deriving DecidableEq, Repr

/-! ## Call records (chapter 5) -/

/-- The states of a record (R86). -/
inductive CallState
  | waitingLane | awaitingGrant | forwarded | offering | ringing | connected | parked | clearing
  deriving DecidableEq, Repr

/-- The direction of a record (R83). -/
inductive Dir | up | down
  deriving DecidableEq, Repr

/-- The origin of a record (R83): a panel, an apartment number, the slot of a dialling apartment, or the fire position
(with the origin word its SETUP carried). -/
inductive Origin
  | panel (n : Fin 16) | apartment (n : Word) | dialled (s : SlotNo) | firePosition (w : Word)
  deriving DecidableEq, Repr

/-- A riser side of a record (R84). -/
inductive RiserSide | unopened | opened (key : Key) | closed
  deriving DecidableEq, Repr

/-- The purposes of a record timer (R86). -/
inductive Purpose | laneWait | grantWait | progressWait | ringTime | talkLimit | guard
  deriving DecidableEq, Repr

/-- A running record timer: its purpose, the units left, and the units left to the near mark (R141). -/
structure Timer where
  purpose : Purpose
  left    : Nat
  near    : Option Nat
  deriving DecidableEq, Repr

/-- The states of an offer entry (R109). -/
inductive OfferState | sent | alerting | refused | absent | answered
  deriving DecidableEq, Repr

/-- An offer entry (R109); `window` is the units left on its response timer, `none` when stopped. -/
structure OfferEntry where
  addr    : Addr
  state   : OfferState
  retries : Nat
  window  : Option Nat
  deriving DecidableEq, Repr

/-- A far side of kind FLOOR (R83); the floor lane is the record's owned lane. -/
structure FloorSide where
  port        : Floor
  slot        : SlotNo
  main        : Addr
  ext         : Option Addr
  mode        : OfferMode
  entries     : List OfferEntry
  answering   : Option Addr
  preAnswered : Bool
  deriving DecidableEq, Repr

/-- The far side of a record (R83). -/
inductive Far | none | floor (f : FloorSide) | high (side : RiserSide)
  deriving DecidableEq, Repr

/-- A call record (R83). Its handle is its place in the call table. `ownedLane` is the floor lane or the H lane,
whichever its route gives (R45). The sides that await RELEASE-DONE are the open sides of a record in CLEARING (R84). -/
structure CallRecord where
  state        : CallState
  dir          : Dir
  cls          : Class
  origin       : Origin
  dest         : Word
  low          : RiserSide
  lLane        : Option LLane
  heldBelow    : Bool
  far          : Far
  ownedLane    : Option Nat
  timer        : Option Timer
  talkOwner    : Bool
  pendingCause : Option Cause
  deriving DecidableEq, Repr

/-! ## Retention memory (R184) -/

/-- What the retention memory holds. The tables indexed by owned port follow `Owned.idx`. -/
structure Retained where
  ordinary   : Vector Window 8
  exceptions : Vector Window 4
  slots      : Vector Slot 96
  ceilings   : Vector Class 16
  settings   : Vector PortSettings 9
  outMarks   : Vector (List Bool) 9
  disabled   : Vector Bool 8
  timers     : TimerSettings
  talkLimits : Vector Nat 8
  sense      : SenseMode
  fireClass  : Class
  service    : Service
  masks      : EventSets
  deriving DecidableEq, Repr

/-- The default of a window (R41). -/
def Window.default : Window := { base := 1, limit := 0, target := .high }

/-- The default of an apartment slot (R41). -/
def Slot.default : Slot :=
  { number := 0, port := 0, main := 0, ext := none, mode := .mainOnly, quiet := 0, quietCeiling := 7,
    residentQuiet := false, callDown := 3, unlatch := false }

/-- The default settings of port H and of a floor port (R48). -/
def PortSettings.default : Owned → PortSettings
  | .H => { fire := 1, priority := 2, threshold := 7 }
  | .F _ => { fire := 1, priority := 0, threshold := 7 }

/-- The default timer settings (R50, R68, R87, R110, R130). -/
def TimerSettings.default : TimerSettings :=
  { window := 4, ring := 300, laneWait := 200, grantWait := 30, progressWait := 50, ageing := 10 }

/-- The default talk limits: 1800 units for classes 0–4, none for classes 5–7 (R140). -/
def defaultTalkLimits : Vector Nat 8 := #v[1800, 1800, 1800, 1800, 1800, 0, 0, 0]

/-- Every lane's out-of-service mark clear (R43). -/
def noMarks (p : Owned) : List Bool := List.replicate (laneCount p) false

/-- A table over the owned ports. -/
def perOwned {α : Type} (f : Owned → α) : Vector α 9 :=
  #v[f .H, f (.F 0), f (.F 1), f (.F 2), f (.F 3), f (.F 4), f (.F 5), f (.F 6), f (.F 7)]

/-- What every retained item takes when retention is lost (R41, R43, R48, R13, R68, R140, R165, R181, R182, R184). -/
def Retained.default : Retained :=
  { ordinary := Vector.replicate 8 Window.default
    exceptions := Vector.replicate 4 Window.default
    slots := Vector.replicate 96 Slot.default
    ceilings := Vector.replicate 16 6
    settings := perOwned PortSettings.default
    outMarks := perOwned noMarks
    disabled := Vector.replicate 8 false
    timers := TimerSettings.default
    talkLimits := defaultTalkLimits
    sense := .ignore
    fireClass := 5
    service := .outOfService
    masks := EventSets.empty }

/-! ## Reset values of the line interfaces (R13) -/

/-- Port L or port H after a reset: DOWN, mark clear, count zero, queue empty. The framer's alignment and the cell on
the line are the model's: `aligned` and `wire` as given. -/
def RiserPort.afterReset (aligned : Bool) (wire : List Byte) : RiserPort :=
  { link := .down, downMark := false, aligned := aligned, count := 0, queue := [], wire := wire }

/-- A floor port after a reset: DISABLED where its retained mark is set, else FAULT with its fault mark clear. -/
def FloorPort.afterReset (disabled good : Bool) (wire : List Byte) : FloorPort :=
  { line := if disabled then .disabled else .fault, faultMark := false, good := good, count := 0, queue := [],
    wire := wire }

/-- Where a RESET request stands (R185): none; `replyAt n`, its reply is in port L's queue behind `n` cells; `due`, its
reply has left on the line and the reset is to take effect. -/
inductive ResetRequest | none | replyAt (n : Nat) | due
  deriving DecidableEq, Repr

end Sys2Proof.Machine
end

