-- ==== Sys2Proof/Machine/State.lean ====
section
/-! DEFINITION. The state of the 4320, the reasons a step could stop (none but the host's), and the state after a
power-up reset with retention lost. -/

namespace Sys2Proof.Machine

/-- Every piece of state the manual gives the part, the queue of waiting commands, and the counter of the free value. -/
structure State where
  /-- What the strap pins read and the debounced level of the FIRE pin (scope section 9, R156). -/
  pins        : Pins
  /-- The main supply is on (R184). -/
  powered     : Bool
  /-- The node number and the TOP setting, read from the straps at the last reset (R13). -/
  node        : Fin 16
  top         : Bool
  /-- The retention memory, and whether its check would pass (R184). -/
  retained    : Retained
  retentionOk : Bool
  /-- The ten line interfaces (R14). -/
  portL       : RiserPort
  portH       : RiserPort
  floors      : Vector FloorPort 8
  /-- The lane maps and grant orders of the owned ports (R42, R44), by `Owned.idx`. -/
  maps        : Vector LaneMap 9
  /-- The port L mirror (R46). -/
  mirror      : Vector (Option Handle) 12
  /-- The cross-connect list (R139). -/
  crosses     : List Cross
  /-- The wait list, head first (R63). -/
  waiting     : List WaitEntry
  /-- The call table and the free-handle list, head first (R80). -/
  calls       : Vector (Option CallRecord) 48
  freeHandles : List Handle
  /-- The activity of each apartment slot (R103). -/
  activity    : Vector Activity 96
  /-- The local latch and the line source (R155). -/
  latch       : Bool
  lineSource  : Bool
  /-- The table lock (R180). -/
  locked      : Bool
  /-- The status sets of the event groups (R182). -/
  status      : EventSets
  /-- A RESET that has not taken effect (R185). -/
  resetReq    : ResetRequest
  /-- MODEL'S OWN: how many free values have been drawn (assumption 5). -/
  freeIndex   : Nat
  /-- MODEL'S OWN: the commands waiting, first in, first out. -/
  pending     : List Instr
  deriving DecidableEq, Repr

/-- The machine never faults: every command has an effect, or none, in every state. So this closed type has no
constructor, nothing raises one, and that is safe. -/
inductive Fault
  deriving DecidableEq, Repr

/-- Reasons for which a command is refused. -/
inductive Refusal
  /-- Raised by an arm of `exec` whose command has no meaning yet; safe. No arm raises it. -/
  | notModelled (mnemonic : String)
  deriving DecidableEq, Repr

/-- The pins as the model takes them at the reset it starts from (assumption 2): node 1, not TOP, FIRE high. -/
def defaultPins : Pins := { node := 1, top := false, fireHigh := true }

/-- Every handle, in ascending order (R80). -/
def allHandles : List Handle := List.finRange 48

/-- The machine right after a power-up reset with retention lost (R13, R41, R43, R63, R80, R103, R139, R165, R180,
R184): every retained item at its default, RETENTION_LOST set, every volatile item at its reset value. -/
def State.reset : State :=
  { pins := defaultPins
    powered := true
    node := defaultPins.node
    top := defaultPins.top
    retained := Retained.default
    retentionOk := true
    portL := RiserPort.afterReset false []
    portH := RiserPort.afterReset false []
    floors := Vector.replicate 8 (FloorPort.afterReset false false [])
    maps := perOwned LaneMap.empty
    mirror := Vector.replicate 12 none
    crosses := []
    waiting := []
    calls := Vector.replicate 48 none
    freeHandles := allHandles
    activity := Vector.replicate 96 .idle
    latch := false
    lineSource := false
    locked := false
    status := EventSets.empty.add .retentionLost
    resetReq := .none
    freeIndex := 0
    pending := [] }

end Sys2Proof.Machine
end

