-- ==== Sys2Proof/Machine/Ops.lean ====
section
/-! DEFINITION. An event in progress and the named operations over it: reading the state's tables, changing them one
at a time, asking for a cell to be sent (R10), setting an event (R182), asking for a run of the arbiter (R72). Every
command but the resets is one event; `Work` is what the blocks hand from one to the next within it. -/

namespace Sys2Proof.Machine

/-! ## Reading the state -/

/-- The record of a handle, if one is live. -/
def State.call? (s : State) (h : Handle) : Option CallRecord := s.calls[h]

/-- The lane map of an owned port. -/
def State.map (s : State) (p : Owned) : LaneMap := s.maps[p.idx]

/-- The settings of an owned port (R48). -/
def State.settings (s : State) (p : Owned) : PortSettings := s.retained.settings[p.idx]

/-- The link state of a riser port is UP. -/
def State.riserUp (s : State) : Riser → Bool
  | .L => s.portL.link == .up
  | .H => s.portH.link == .up

/-- A riser port receives cells: its link is UP (R8), and its framer is aligned, for the cells that would arrive during
a loss of alignment are lost (R11). -/
def State.receives (s : State) : Riser → Bool
  | .L => s.portL.link == .up && s.portL.aligned
  | .H => s.portH.link == .up && s.portH.aligned

/-- The line state of a floor port is UP. -/
def State.floorUp (s : State) (k : Floor) : Bool := s.floors[k].line == .up

/-- An owned port is usable while its link, or its line, is UP (R54). -/
def State.usable (s : State) : Owned → Bool
  | .H => s.riserUp .H
  | .F k => s.floorUp k

/-- A port receives cells only while it is UP (R8), and a riser port only while it is aligned (R11). -/
def State.hears (s : State) : Port → Bool
  | .L => s.receives .L
  | .H => s.receives .H
  | .F k => s.floorUp k

/-- The status of a group as it stands. -/
def State.statusOf (s : State) (g : Group) : Word := s.status.get g

/-! ## Records -/

/-- The key of a record's side on a riser port, if that side is open (R84). -/
def RiserSide.key? : RiserSide → Option Key
  | .opened key => some key
  | _ => none

/-- A side closes only if it was open; an unopened side stays unopened (R84). -/
def RiserSide.close : RiserSide → RiserSide
  | .opened _ => .closed
  | side => side

/-- The far side of kind HIGH, if the record has one. -/
def Far.riser? : Far → Option RiserSide
  | .high side => some side
  | _ => Option.none

/-- The floor side, if the record has one. -/
def Far.floor? : Far → Option FloorSide
  | .floor f => some f
  | _ => Option.none

/-- The key by which a record is named on a riser port, if its side there is open (R84, R85). -/
def CallRecord.openKey (r : CallRecord) : Riser → Option Key
  | .L => r.low.key?
  | .H => r.far.riser?.bind RiserSide.key?

/-- A record with its side on a riser port closed (R84). -/
def CallRecord.closeSide (r : CallRecord) : Riser → CallRecord
  | .L => { r with low := r.low.close }
  | .H => match r.far with
    | .high side => { r with far := .high side.close }
    | _ => r

/-- Some riser side of the record is open. -/
def CallRecord.anyOpen (r : CallRecord) : Bool := (r.openKey .L).isSome || (r.openKey .H).isSome

/-- The owned port a record uses, fixed by its route (R45). -/
def CallRecord.ownedPort (r : CallRecord) : Option Owned :=
  match r.far with
  | .none => none
  | .floor f => some (.F f.port)
  | .high _ => some .H

/-- The handset on the call: the answering, pre-answering or dialling handset (R104, R121, R127). -/
def CallRecord.answering (r : CallRecord) : Option Addr := r.far.floor?.bind FloorSide.answering

/-- A record with its floor side changed, if it has one. -/
def CallRecord.modFloor (r : CallRecord) (f : FloorSide → FloorSide) : CallRecord :=
  match r.far with
  | .floor x => { r with far := .floor (f x) }
  | _ => r

/-- Every response timer of the entries stops (R104, R109). -/
def FloorSide.stopWindows (f : FloorSide) : FloorSide :=
  { f with entries := f.entries.map fun e => { e with window := none } }

/-- A record timer of a purpose, with no near mark. -/
def startTimer (purpose : Purpose) (units : Nat) : Option Timer :=
  some { purpose := purpose, left := units, near := none }

/-- The record's timer runs with this purpose. -/
def CallRecord.timing (r : CallRecord) (purpose : Purpose) : Bool :=
  match r.timer with
  | some t => t.purpose == purpose
  | none => false

/-! ## The event in progress -/

/-- An event in progress. Cells for port L are gathered in `outL` and join its queue at the end of the event, behind
the notices of the event's own bits (R182); cells for the other ports join their queues as they are asked for. `raised`
holds the event bits set by the event; `runs` the owned ports for which the arbiter is to run at its end (R72). -/
structure Work where
  st     : State
  outL   : List RiserCell
  raised : EventSets
  runs   : List Owned
  deriving DecidableEq, Repr

/-- An event begins. -/
def Work.start (s : State) : Work := { st := s, outL := [], raised := EventSets.empty, runs := [] }

/-- An event is set (R182). -/
def Work.raise (w : Work) (e : Event) : Work := { w with raised := w.raised.add e }

/-- The arbiter is to run for a port at the end of the event (R72). -/
def Work.run (w : Work) (p : Owned) : Work := { w with runs := p :: w.runs }

/-- The state is changed. -/
def Work.modState (w : Work) (f : State → State) : Work := { w with st := f w.st }

/-- The record of a handle. -/
def Work.call? (w : Work) (h : Handle) : Option CallRecord := w.st.call? h

/-- A live record is changed; nothing happens for a handle that names none. -/
def Work.modCall (w : Work) (h : Handle) (f : CallRecord → CallRecord) : Work :=
  { w with st := { w.st with calls := w.st.calls.set h (w.st.calls[h].map f) } }

/-- Goes on with the record of a handle, or leaves the event as it is where none is live. -/
def Work.withCall (w : Work) (h : Handle) (k : CallRecord → Work) : Work :=
  match w.call? h with
  | some r => k r
  | none => w

/-- A record is freed: it no longer exists and its handle joins the tail of the free-handle list (R82). -/
def Work.freeCall (w : Work) (h : Handle) : Work :=
  match w.call? h with
  | some _ =>
    { w with st := { w.st with calls := w.st.calls.set h none, freeHandles := w.st.freeHandles ++ [h] } }
  | none => w

/-- A record is made with the handle at the head of the free-handle list (R81). -/
def Work.makeCall (w : Work) (h : Handle) (rest : List Handle) (r : CallRecord) : Work :=
  { w with st := { w.st with calls := w.st.calls.set h (some r), freeHandles := rest } }

/-- The lane map of an owned port is replaced. -/
def Work.setMap (w : Work) (p : Owned) (m : LaneMap) : Work :=
  { w with st := { w.st with maps := w.st.maps.set p.idx m } }

/-- An entry of the port L mirror is filled or emptied (R46, R47). -/
def Work.setMirror (w : Work) (l : LLane) (x : Option Handle) : Work :=
  { w with st := { w.st with mirror := w.st.mirror.set l x } }

/-- The cross-connect list is replaced. -/
def Work.setCrosses (w : Work) (l : List Cross) : Work := { w with st := { w.st with crosses := l } }

/-- The wait list is replaced. -/
def Work.setWaiting (w : Work) (l : List WaitEntry) : Work := { w with st := { w.st with waiting := l } }

/-- The activity of a slot is changed. -/
def Work.setActivity (w : Work) (i : SlotNo) (a : Activity) : Work :=
  { w with st := { w.st with activity := w.st.activity.set i a } }

/-! ## Asking for a cell to be sent (R10) -/

/-- A cell for port L: it waits for the end of the event; on a port that is not UP it is discarded. -/
def Work.sendL (w : Work) (c : RiserCell) : Work :=
  if w.st.riserUp .L then { w with outL := w.outL ++ [c] } else w

/-- A cell for port H (R10). -/
def Work.sendH (w : Work) (c : RiserCell) : Work :=
  if w.st.riserUp .H then
    if w.st.portH.queue.length < Config.queueDepth then
      { w with st := { w.st with portH := { w.st.portH with queue := w.st.portH.queue ++ [c] } } }
    else w.raise .txOverflow
  else w

/-- A cell for a floor port (R10). -/
def Work.sendF (w : Work) (k : Floor) (c : FloorCell) : Work :=
  if w.st.floorUp k then
    if w.st.floors[k].queue.length < Config.queueDepth then
      { w with st := { w.st with
          floors := w.st.floors.set k { w.st.floors[k] with queue := w.st.floors[k].queue ++ [c] } } }
    else w.raise .txOverflow
  else w

/-- A cell for a riser port. -/
def Work.sendRiser (w : Work) : Riser → RiserCell → Work
  | .L, c => w.sendL c
  | .H, c => w.sendH c

/-! ## Cells (R15 to R17): every field a kind does not use is zero, or NONE for a lane -/

/-- A call-layout cell that carries a kind and a key alone. -/
def plainCell (kind : CallKind) (key : Key) : CallCell :=
  { kind := kind, key := key, lane := none, okind := .panel, cls := 0, dest := 0, origin := 0, code := 0 }

/-- The key of a cell that carries none. -/
def noKey : Key := { side := .low, ref := 0 }

/-- A RELEASE with a cause. -/
def releaseCell (key : Key) (c : Cause) : RiserCell := .call { plainCell .release key with code := c.toByte }

/-- A RELEASE-DONE. -/
def releaseDoneCell (key : Key) : RiserCell := .call (plainCell .releaseDone key)

/-- A PROGRESS; only a RESUMED sent upward names a lane. -/
def progressCell (key : Key) (code : Progress) (lane : Option Nat := none) : RiserCell :=
  .call { plainCell .progress key with code := code.toByte, lane := lane }

/-- A CONNECT. -/
def connectCell (key : Key) : RiserCell := .call (plainCell .connect key)

/-- A LANE-GRANT. -/
def laneGrantCell (key : Key) (lane : Option Nat) : RiserCell := .call { plainCell .laneGrant key with lane := lane }

/-- An UNLATCH from a panel's call. -/
def unlatchCell (key : Key) (panel : Fin 16) : RiserCell :=
  .call { plainCell .unlatch key with okind := .panel, origin := BitVec.ofNat 16 panel.val }

/-- A RESTART on a riser segment. -/
def riserRestart : RiserCell := .call (plainCell .restart noKey)

/-- FIRE-ON. -/
def fireOnCell : RiserCell := .call (plainCell .fireOn noKey)

/-- FIRE-OFF. -/
def fireOffCell : RiserCell := .call (plainCell .fireOff noKey)

/-- A floor cell that carries a kind, an address and a handle alone (R4). -/
def plainFloor (kind : FloorKind) (a : Addr) (handle : Nat) : FloorCell :=
  { kind := kind, lane := none, addr := a, second := none, handle := handle, code := 0, value := 0 }

/-- An OFFER of a floor lane; `second` names the extension of a paired OFFER (R111). -/
def offerCell (h : Handle) (lane : Option Nat) (a : Addr) (second : Option Addr := none) : FloorCell :=
  { plainFloor .offer a h.val with lane := lane, second := second }

/-- A CANCEL. -/
def cancelCell (handle : Nat) (a : Addr) : FloorCell := plainFloor .cancel a handle

/-- A STATUS with its second byte; the lane is named for CONNECTED and RESUMED alone (R17). -/
def statusCell (handle : Nat) (a : Addr) (code : Status) (value : Byte := 0) (lane : Option Nat := none) : FloorCell :=
  { plainFloor .status a handle with code := code.toByte, value := value, lane := lane }

/-- STATUS CLEARED with a cause. -/
def clearedCell (handle : Nat) (a : Addr) (c : Cause) : FloorCell := statusCell handle a .cleared c.toByte

/-- The RESTART of a floor branch: handset address 0 (R4). -/
def floorRestart : FloorCell := plainFloor .restart 0 0

/-- The origin kind of a record (R83). -/
def Origin.kind : Origin → OriginKind
  | .panel _ => .panel
  | .apartment _ | .dialled _ => .apartment
  | .firePosition _ => .firePosition

/-- The origin word that a SETUP of the record carries; for a dialling apartment its number as the table holds it
(R94, R127, R132). -/
def State.originWord (s : State) : Origin → Word
  | .panel n => BitVec.ofNat 16 n.val
  | .apartment n => n
  | .dialled i => BitVec.ofNat 16 s.retained.slots[i].number
  | .firePosition w => w

/-- A SETUP of a record, with the key and the lane of the segment it crosses (R15, R94, R129, R132). -/
def setupCell (s : State) (r : CallRecord) (key : Key) (lane : Option Nat) : RiserCell :=
  .call { kind := .setup, key := key, lane := lane, okind := r.origin.kind, cls := r.cls, dest := r.dest,
          origin := s.originWord r.origin, code := 0 }

/-- The key by which this switch names its own record on a segment: LOW on port H, HIGH on port L (R3). -/
def ownKey (p : Riser) (h : Handle) : Key :=
  { side := match p with | .L => .high | .H => .low, ref := ⟨h.val, by omega⟩ }

/-- A PROGRESS down port L with the record's L key, where its low side is open. -/
def Work.progressDown (w : Work) (r : CallRecord) (code : Progress) : Work :=
  match r.openKey .L with
  | some key => w.sendL (progressCell key code)
  | none => w

/-- A PROGRESS up port H with the record's H key, where its far side is open. -/
def Work.progressUp (w : Work) (r : CallRecord) (code : Progress) (lane : Option Nat := none) : Work :=
  match r.openKey .H with
  | some key => w.sendH (progressCell key code lane)
  | none => w

/-- A CONNECT with the record's key on a riser port, where its side there is open. -/
def Work.connectToward (w : Work) (r : CallRecord) (p : Riser) : Work :=
  match r.openKey p with
  | some key => w.sendRiser p (connectCell key)
  | none => w

/-- A STATUS to the handset on the call, where the record has one (R104, R127). -/
def Work.statusTo (w : Work) (h : Handle) (r : CallRecord) (code : Status) (value : Byte := 0)
    (lane : Option Nat := none) : Work :=
  match r.far with
  | .floor f => match f.answering with
    | some a => w.sendF f.port (statusCell h.val a code value lane)
    | none => w
  | _ => w

end Sys2Proof.Machine
end

