-- ==== Sys2Proof/Machine/Lanes.lean ====
section
/-! DEFINITION. The lane allocator and the lane switch: lane maps, the admission arithmetic, taking and freeing lanes
(chapter 3), the port L mirror (section 3.2), the cross-connect list (section 8.1). -/

namespace Sys2Proof.Machine

/-! ## Lane states (R42, R43) -/

/-- The states of a lane of an owned port; a HELD lane with its mark set is pending-out (R43). -/
inductive LaneState | free | held (h : Handle) | pendingOut (h : Handle) | out
  deriving DecidableEq, Repr

/-- The record that holds a lane, if any. -/
def State.holder (s : State) (p : Owned) (i : Nat) : Option Handle := (s.map p).holders[i]?.join

/-- The out-of-service mark of a lane (R43). -/
def State.outMark (s : State) (p : Owned) (i : Nat) : Bool := s.retained.outMarks[p.idx][i]?.getD false

/-- The state of a lane (R42, R43). -/
def State.laneState (s : State) (p : Owned) (i : Nat) : LaneState :=
  match s.holder p i, s.outMark p i with
  | some h, false => .held h
  | some h, true => .pendingOut h
  | none, false => .free
  | none, true => .out

/-- The lanes of a port, in ascending order. -/
def laneNumbers (p : Owned) : List Nat := List.range (laneCount p)

/-- The FREE lanes of a port, in ascending order. -/
def State.freeLanes (s : State) (p : Owned) : List Nat :=
  (laneNumbers p).filter fun i => s.laneState p i == .free

/-- O, the number of lanes OUT (R51). -/
def State.outCount (s : State) (p : Owned) : Nat := (laneNumbers p).countP fun i => s.laneState p i == .out

/-- K, the number of lanes HELD, counting those with a pending-out mark (R51). -/
def State.heldCount (s : State) (p : Owned) : Nat := (laneNumbers p).countP fun i => (s.holder p i).isSome

/-- The free count F = N − O − K (R51). -/
def State.freeCount (s : State) (p : Owned) : Nat := laneCount p - s.outCount p - s.heldCount p

/-! ## The admission arithmetic (R52, R53, R55) -/

/-- The effective priority of a base class after a number of completed ageing steps (R52). -/
def effPriority (cls : Class) (steps : Nat) : Nat := if cls.val = 7 then 7 else min (cls.val + steps) 6

/-- needed(e): the lanes that a call of effective priority e must leave free (R53). -/
def State.needed (s : State) (p : Owned) (e : Nat) : Nat :=
  if e ≤ 4 then (s.settings p).fire + (s.settings p).priority
  else if e ≤ 6 then (s.settings p).fire
  else 0

/-- The admission test of R55 (on a usable port): F > needed(e). -/
def State.admits (s : State) (p : Owned) (e : Nat) : Bool := decide (s.needed p e < s.freeCount p)

/-- The lane that an admitted record takes: the lowest-numbered FREE lane of a usable port whose test passes (R54, R55). -/
def State.admitLane (s : State) (p : Owned) (e : Nat) : Option Nat :=
  if s.usable p && s.admits p e then (s.freeLanes p).head? else none

/-! ## Taking and freeing lanes -/

/-- A lane becomes HELD by a record, joins the tail of the grant order and becomes the record's owned lane (R55). -/
def Work.takeLane (w : Work) (h : Handle) (p : Owned) (i : Nat) : Work :=
  (w.setMap p { holders := (w.st.map p).holders.set i (some h)
                order := (w.st.map p).order.filter (· ≠ i) ++ [i] }).modCall h
    fun r => { r with ownedLane := some i }

/-- The lane switch removes any cross-connect that uses an owned lane (R57, R60, R139). -/
def Work.dropOwnedCross (w : Work) (p : Owned) (i : Nat) : Work :=
  w.setCrosses (w.st.crosses.filter fun x => !(x.port == p && x.lane == i))

/-- The lane switch removes any cross-connect that uses an L lane (R47, R139). -/
def Work.dropLCross (w : Work) (l : LLane) : Work :=
  w.setCrosses (w.st.crosses.filter fun x => !(x.lLane == l))

/-- A record frees its owned lane, if it holds one: the lane becomes FREE, or OUT where its mark is set, leaves the
grant order and its cross-connect, and the arbiter is to run for the port (R60). -/
def Work.freeLane (w : Work) (h : Handle) : Work :=
  w.withCall h fun r =>
    match r.ownedPort, r.ownedLane with
    | some p, some i =>
      (((w.setMap p { holders := (w.st.map p).holders.set i none
                      order := (w.st.map p).order.filter (· ≠ i) }).dropOwnedCross p i).modCall h
        fun r => { r with ownedLane := none }).run p
    | _, _ => w

/-! ## The port L mirror (R46, R47) -/

/-- The mirror test of a lane named for a record that may have an L lane already (R46). -/
def State.mirrorTest (s : State) (h : Handle) (r : CallRecord) (l : LLane) : Bool :=
  (s.mirror[l] == none || s.mirror[l] == some h) && (r.lLane == none || r.lLane == some l)

/-- A lane is entered in the mirror for a record and becomes its L lane (R46). -/
def Work.fillMirror (w : Work) (h : Handle) (l : LLane) : Work :=
  (w.setMirror l (some h)).modCall h fun r => { r with lLane := some l }

/-- A record's mirror entry is emptied, with its cross-connect (R47). -/
def Work.emptyMirror (w : Work) (h : Handle) : Work :=
  w.withCall h fun r =>
    match r.lLane with
    | some l => ((w.setMirror l none).dropLCross l).modCall h fun r => { r with lLane := none }
    | none => w

/-- Every mirror entry is emptied, and every cross-connect goes with it (R47, R170, R171). -/
def Work.emptyWholeMirror (w : Work) : Work :=
  w.modState fun s =>
    { s with mirror := Vector.replicate 12 none, crosses := [],
             calls := Vector.ofFn fun h => s.calls[h].map fun r => { r with lLane := none } }

/-- The lane switch joins a record's L lane and owned lane (R139). -/
def Work.crossConnect (w : Work) (h : Handle) : Work :=
  w.withCall h fun r =>
    match r.lLane, r.ownedPort, r.ownedLane with
    | some l, some p, some i => w.setCrosses (w.st.crosses ++ [{ handle := h, lLane := l, port := p, lane := i }])
    | _, _, _ => w

end Sys2Proof.Machine
end

