-- ==== Sys2Proof/Machine/Release.lean ====
section
/-! DEFINITION. The order of the wait list (section 4.1), and the end of a call: what the handsets are told (R104),
the release begun by this switch (R145), the matching of a key to a record (R85), the closing of a side (R84). -/

namespace Sys2Proof.Machine

/-! ## The wait list (R63, R64, R71) -/

/-- The present e of an entry, from its record's base class and its steps (R52, R63). -/
def State.entryPriority (s : State) (x : WaitEntry) : Nat :=
  match s.call? x.handle with
  | some r => effPriority r.cls x.steps
  | none => 0

/-- The wait list with an entry of effective priority e placed before the first entry whose e is lower (R64). -/
def State.placed (s : State) (x : WaitEntry) (e : Nat) (l : List WaitEntry) : List WaitEntry :=
  l.takeWhile (fun y => decide (e ≤ s.entryPriority y)) ++ x ::
    l.dropWhile (fun y => decide (e ≤ s.entryPriority y))

/-- A record's entry leaves the wait list, and the entries behind it close up (R71). -/
def Work.leaveWaiting (w : Work) (h : Handle) : Work :=
  w.setWaiting (w.st.waiting.filter fun x => !(x.handle == h))

/-! ## The end of a call -/

/-- CANCELs to the handsets of the offer entries that are not ANSWERED, in the order of the entries (R104, R114). -/
def Work.cancelOffers (w : Work) (h : Handle) (k : Floor) : List OfferEntry → Work
  | [] => w
  | e :: es =>
    if e.state = .answered then w.cancelOffers h k es
    else (w.sendF k (cancelCell h.val e.addr)).cancelOffers h k es

/-- The record names of an activity, if any. -/
def Activity.handle? : Activity → Option Handle
  | .idle => none
  | .pending h | .offered h | .engaged h | .originating h => some h

/-- The activity of a slot becomes IDLE if it names the record (R104). -/
def Work.idleActivity (w : Work) (h : Handle) (i : SlotNo) : Work :=
  if w.st.activity[i].handle? = some h then w.setActivity i .idle else w

/-- What the offer controller does when a record leaves its call, told with the record as it was: CANCELs to offers
still out, then STATUS CLEARED to the handset on the call, then the activity (R104). -/
def Work.tellFloor (w : Work) (h : Handle) (r : CallRecord) (c : Cause) : Work :=
  match r.far with
  | .floor f =>
    let w := if r.state = .offering ∨ r.state = .ringing then w.cancelOffers h f.port f.entries else w
    (w.statusTo h r .cleared c.toByte).idleActivity h f.slot
  | _ => w

/-- A RELEASE with the cause on each open riser side of the record (R145, step 5). -/
def Work.releaseSides (w : Work) (r : CallRecord) (c : Cause) : Work :=
  let w := match r.openKey .L with
    | some key => w.sendL (releaseCell key c)
    | none => w
  match r.openKey .H with
  | some key => w.sendH (releaseCell key c)
  | none => w

/-- The record goes to CLEARING with its guard timer, holding no lane; where no riser side is open it is freed in the same
event (R124, R145 step 7, R146, R148). -/
def Work.clearOrFree (w : Work) (h : Handle) : Work :=
  let w := w.modCall h fun r =>
    { r.modFloor FloorSide.stopWindows with
      state := .clearing, timer := startTimer .guard Config.guardTime, lLane := none, ownedLane := none }
  w.withCall h fun r => if r.anyOpen then w else w.freeCall h

/-- A release begun by this switch (R145). The removals of the wait list (R70) and the refusals of chapters 5 and 7
follow the same steps; so do the endings of chapter 10, once the sides that a line event closes are closed. -/
def Work.release (w : Work) (h : Handle) (c : Cause) : Work :=
  w.withCall h fun r =>
    ((((((w.modCall h fun r => { r with pendingCause := some c }).leaveWaiting h).freeLane h).emptyMirror
      h).releaseSides r c).tellFloor h r c).clearOrFree h

/-! ## Keys (R85) -/

/-- The setup side of the keys that this switch forms on a riser port (R3). -/
def ownSide : Riser → Side
  | .L => .high
  | .H => .low

/-- The record whose side on a riser port is open with this key (R85). -/
def State.keyed (s : State) (p : Riser) (key : Key) : Option Handle :=
  if key.side = ownSide p then
    if hlt : key.ref.val < 48 then
      match s.call? ⟨key.ref.val, hlt⟩ with
      | some r => if r.openKey p = some key then some ⟨key.ref.val, hlt⟩ else none
      | none => none
    else none
  else
    allHandles.find? fun h =>
      match s.call? h with
      | some r => r.openKey p == some key
      | none => false

/-- A call cell, not RELEASE nor RELEASE-DONE, is taken for the record its key names: an unknown key sets PROTOCOL,
and a cell for a record in CLEARING is discarded without an event (R149). -/
def Work.named (w : Work) (p : Riser) (key : Key) (k : Handle → CallRecord → Work) : Work :=
  match w.st.keyed p key with
  | some h => w.withCall h fun r => if r.state = .clearing then w else k h r
  | none => w.raise .protocol

/-- A side of a record in CLEARING closes, and the record is freed when no side remains open (R82, R147). -/
def Work.closeCleared (w : Work) (h : Handle) (p : Riser) : Work :=
  let w := w.modCall h fun r => r.closeSide p
  w.withCall h fun r => if r.anyOpen then w else w.freeCall h

end Sys2Proof.Machine
end

