-- ==== Sys2Proof/Machine/Calls.lean ====
section
/-! DEFINITION. How a call goes on once it has a lane: forwarding (R94), the downward SETUP (R129, R132), the offers
(R111), connecting at the flat's switch (R114, R120, R75), the talk limit (R141). -/

namespace Sys2Proof.Machine

/-! ## Timers -/

/-- The talk-limit timer of a class as its limit stands: none for a limit of 0, a near mark above 200 units (R141). -/
def State.talkTimer (s : State) (cls : Class) : Option Timer :=
  let limit := s.retained.talkLimits[cls]
  if limit = 0 then none
  else some { purpose := .talkLimit, left := limit,
              near := if Config.nearFloor < limit then some (limit - Config.nearMargin) else none }

/-- The progress-wait time in force. -/
def State.progressTime (s : State) : Nat := s.retained.timers.progressWait

/-- The lane-wait time in force. -/
def State.laneWaitTime (s : State) : Nat := s.retained.timers.laneWait

/-- The grant-wait time in force. -/
def State.grantTime (s : State) : Nat := s.retained.timers.grantWait

/-- The ring time in force. -/
def State.ringTime (s : State) : Nat := s.retained.timers.ring

/-! ## Riser calls -/

/-- Forwards an upward call: a SETUP up port H naming the H lane; the far side opens; FORWARDED (R94). -/
def Work.forwardSetup (w : Work) (h : Handle) : Work :=
  w.withCall h fun r =>
    (w.modCall h fun r =>
      { r with far := .high (.opened (ownKey .H h)), state := .forwarded,
               timer := startTimer .progressWait w.st.progressTime }).sendH
      (setupCell w.st r (ownKey .H h) r.ownedLane)

/-- Sends a downward call's SETUP down port L; the low side opens; AWAITING_GRANT (R125, R129, R132). -/
def Work.setupDown (w : Work) (h : Handle) : Work :=
  w.withCall h fun r =>
    (w.modCall h fun r =>
      { r with low := .opened (ownKey .L h), state := .awaitingGrant,
               timer := startTimer .grantWait w.st.grantTime }).sendL
      (setupCell w.st r (ownKey .L h) none)

/-- Gives the upper node its lane by a LANE-GRANT up port H, then sends the SETUP down (R132, R75). -/
def Work.grantUpper (w : Work) (h : Handle) : Work :=
  w.withCall h fun r =>
    (match r.openKey .H with
      | some key => w.sendH (laneGrantCell key r.ownedLane)
      | none => w).setupDown h

/-! ## Offers -/

/-- An offer entry newly sent, its response window started (R109, R111). -/
def State.sentEntry (s : State) (a : Addr) : OfferEntry :=
  { addr := a, state := .sent, retries := 0, window := some s.retained.timers.window }

/-- The entries that a captured offer mode makes at the first OFFER (R111). -/
def State.firstEntries (s : State) (f : FloorSide) : List OfferEntry :=
  match f.mode, f.ext with
  | .paired, some x => [s.sentEntry f.main, s.sentEntry x]
  | _, _ => [s.sentEntry f.main]

/-- The second address of the first OFFER: the extension of a PAIRED call (R111). -/
def FloorSide.firstSecond (f : FloorSide) : Option Addr :=
  match f.mode with
  | .paired => f.ext
  | _ => none

/-- The record goes to OFFERING on its floor lane, with its entries and its OFFER (R111). -/
def Work.startOffers (w : Work) (h : Handle) : Work :=
  w.withCall h fun r =>
    match r.far with
    | .floor f =>
      ((w.modCall h fun r =>
        { r with state := .offering, timer := none,
                 far := .floor { f with entries := w.st.firstEntries f } }).setActivity f.slot
        (.offered h)).sendF f.port (offerCell h r.ownedLane f.main f.firstSecond)
    | _ => w

/-- The entry of an address becomes ANSWERED and every response timer stops (R114). -/
def FloorSide.answeredBy (f : FloorSide) (a : Addr) : FloorSide :=
  { f with
    answering := some a
    entries := f.entries.map fun e =>
      if e.addr = a then { e with state := .answered, window := none } else { e with window := none } }

/-- The call connects at the flat's switch with handset `a` answering (R114, R120, and R75 for a pre-answered call). -/
def Work.connectFlat (w : Work) (h : Handle) (a : Addr) : Work :=
  w.withCall h fun r =>
    match r.far with
    | .floor f =>
      let f' := f.answeredBy a
      let w1 := w.modCall h fun r =>
        { r with far := .floor f', state := .connected, talkOwner := true, timer := w.st.talkTimer r.cls }
      let w2 := (w1.sendF f.port (statusCell h.val a .connected 0 r.ownedLane)).cancelOffers h f.port f'.entries
      ((w2.crossConnect h).connectToward r .L).setActivity f.slot (.engaged h)
    | _ => w

/-- An OFFER to one handset alone, on the record's floor lane (R116, R117). -/
def Work.offerAlone (w : Work) (h : Handle) (a : Addr) : Work :=
  w.withCall h fun r =>
    match r.far with
    | .floor f => w.sendF f.port (offerCell h r.ownedLane a)
    | _ => w

/-- An offer entry of a record is changed, by its place. -/
def Work.modEntry (w : Work) (h : Handle) (i : Nat) (g : OfferEntry → OfferEntry) : Work :=
  w.modCall h fun r => r.modFloor fun f => { f with entries := f.entries.modify i g }

/-- An entry ended without an answer (R118). -/
def OfferEntry.ended (e : OfferEntry) : Bool := e.state == .refused || e.state == .absent

/-- Under FOLLOW_ON, a main handset's entry that has ended makes the extension's entry and its OFFER, once (R117). -/
def Work.followOn (w : Work) (h : Handle) : Work :=
  w.withCall h fun r =>
    match r.far with
    | .floor f =>
      match f.mode, f.ext, f.entries with
      | .followOn, some x, [e] =>
        if e.ended then
          (w.modCall h fun r => r.modFloor fun f => { f with entries := f.entries ++ [w.st.sentEntry x] }).offerAlone h x
        else w
      | _, _, _ => w
    | _ => w

/-- The count of the entries: when every one has ended, the record is released REFUSED or HANDSET_ABSENT (R118). -/
def Work.countEntries (w : Work) (h : Handle) : Work :=
  w.withCall h fun r =>
    match r.far with
    | .floor f =>
      if f.entries.all OfferEntry.ended then
        w.release h (if f.entries.any fun e => e.state == .refused then .refused else .handsetAbsent)
      else w
    | _ => w

/-- An entry's response window ends: the OFFER is sent again, or after the third retry the entry is ABSENT (R116). -/
def Work.windowEnds (w : Work) (h : Handle) (i : Nat) (e : OfferEntry) : Work :=
  if e.retries < Config.maxRetries then
    (w.modEntry h i fun e =>
      { e with retries := e.retries + 1, window := some w.st.retained.timers.window }).offerAlone h e.addr
  else
    ((((w.modEntry h i fun e => { e with state := .absent, window := none }).raise .handsetAbsent).followOn
      h).countEntries h)

end Sys2Proof.Machine
end

