-- ==== Sys2Proof/Machine/Arbiter.lean ====
section
/-! DEFINITION. The lane arbiter and the lane request: joining the wait list (R65 to R67), preemption (R56 to R59), the
lane request (R54), the walk and the grants (R73 to R77), and the end of an event: the arbiter's runs (R72), then the
event bits with their notices before the cells of port L (R182). -/

namespace Sys2Proof.Machine

/-! ## Joining the wait list -/

/-- The first ageing step of an entry: it begins if A is not 0 and e is below 6 (R65, R69). -/
def State.ageingStart (s : State) (e : Nat) : Option Nat :=
  if s.retained.timers.ageing ≠ 0 ∧ e < 6 then some (s.retained.timers.ageing * 10) else none

/-- A record joins the wait list with s = 0 and its lane-wait timer, in the given state (R65, R67). -/
def Work.joinWaiting (w : Work) (h : Handle) (p : Owned) (cls : Class) (state : CallState) : Work :=
  (w.setWaiting (w.st.placed { handle := h, port := p, steps := 0, ageing := w.st.ageingStart (effPriority cls 0) }
    (effPriority cls 0) w.st.waiting)).modCall h
    fun r => { r with state := state, timer := startTimer .laneWait w.st.laneWaitTime }

/-- The cell that tells a queued call's origin side that it waits (R65). -/
def Work.tellQueued (w : Work) (h : Handle) (r : CallRecord) : Work :=
  match r.dir, r.far with
  | .up, _ => w.progressDown r .queued
  | .down, .high _ => w.progressUp r .queued
  | .down, _ => w.statusTo h r .queued

/-- The wait list can take no more entries (R63). -/
def State.waitFull (s : State) : Bool := decide (Config.waitDepth ≤ s.waiting.length)

/-- The outcomes of a lane request (R54). -/
inductive LaneOutcome | taken | queued | refused (c : Cause)
  deriving DecidableEq, Repr

/-- A record that could not have a lane is handed to the arbiter: it joins, displaces the tail, or is refused
CONGESTION (R65, R66). -/
def Work.queueCall (w : Work) (h : Handle) (p : Owned) (r : CallRecord) : Work × LaneOutcome :=
  if w.st.waitFull then
    match w.st.waiting.getLast? with
    | some tail =>
      if w.st.entryPriority tail < effPriority r.cls 0 then
        (((((w.leaveWaiting tail.handle).release tail.handle .congestion).raise .displaced).joinWaiting h p r.cls
          .waitingLane).tellQueued h r, .queued)
      else (w.raise .congestion, .refused .congestion)
    | none => (w.raise .congestion, .refused .congestion)
  else ((w.joinWaiting h p r.cls .waitingLane).tellQueued h r, .queued)

/-! ## Preemption -/

/-- The base class of a candidate lane's holder: HELD without a pending-out mark, its holder not in CLEARING and of a
base class below c (R56). -/
def State.candidate (s : State) (p : Owned) (c : Class) (i : Nat) : Option (Handle × Class) :=
  match s.laneState p i with
  | .held h => match s.call? h with
    | some r => if r.state ≠ .clearing ∧ r.cls < c then some (h, r.cls) else none
    | none => none
  | _ => none

/-- The victim of a preemption, with its lane: among the candidates in grant order, the lowest base class, and of
equal classes the one nearest the tail (R57). -/
def State.victim (s : State) (p : Owned) (c : Class) : Option (Nat × Handle) :=
  ((s.map p).order.foldl (fun best i =>
    match s.candidate p c i with
    | none => best
    | some (h, k) => match best with
      | none => some ((i, h), k)
      | some (b, kb) => if k ≤ kb then some ((i, h), k) else some (b, kb)) none).map Prod.fst

/-- A victim is parked, with its HELD cells on both sides (R58), or cleared PREEMPTED (R59). Its lane has passed. -/
def Work.endVictim (w : Work) (v : Handle) (p : Owned) : Work :=
  w.withCall v fun r =>
    if r.state = .connected ∧ ¬ w.st.waitFull then
      let w := w.joinWaiting v p r.cls .parked
      let w := match p with
        | .H => w.progressUp r .held
        | .F _ => w.statusTo v r .held
      if r.heldBelow then w else w.progressDown r .held
    else w.release v .preempted

/-- A lane passes from its holder to the preempting record, and the victim is parked or cleared (R57). -/
def Work.preempt (w : Work) (h : Handle) (p : Owned) (i : Nat) (v : Handle) : Work :=
  ((((w.takeLane h p i).dropOwnedCross p i).raise .preemption).modCall v
    fun r => { r with ownedLane := none }).endVictim v p

/-- The preemption test of R56 for a request of base class c, with the victim it would take. -/
def State.preemption (s : State) (p : Owned) (c : Class) : Option (Nat × Handle) :=
  if (s.settings p).threshold ≤ c.val ∧ s.needed p (effPriority c 0) < s.freeCount p + 1 then s.victim p c else none

/-- The cause that a port which is not usable gives a lane request (R54). -/
def unusableCause : Owned → Cause
  | .H => .linkDown
  | .F _ => .lineFault

/-- A lane request of a record for its owned port, as one event (R54). -/
def Work.requestLane (w : Work) (h : Handle) (p : Owned) (r : CallRecord) : Work × LaneOutcome :=
  if w.st.usable p then
    match w.st.admitLane p (effPriority r.cls 0) with
    | some i => (w.takeLane h p i, .taken)
    | none => match w.st.preemption p r.cls with
      | some (i, v) => (w.preempt h p i v, .taken)
      | none => w.queueCall h p r
  else (w, .refused (unusableCause p))

/-! ## Grants -/

/-- A WAITING_LANE record that is granted a lane goes on from where it was queued (R75). -/
def Work.goOn (w : Work) (h : Handle) (r : CallRecord) : Work :=
  match r.dir, r.far with
  | .up, .floor f =>
    if f.preAnswered then
      match f.answering with
      | some a => w.connectFlat h a
      | none => w.startOffers h
    else w.startOffers h
  | .up, _ => w.forwardSetup h
  | .down, .high _ => w.grantUpper h
  | .down, _ => w.setupDown h

/-- A PARKED record that is granted a lane resumes (R76) and is announced (R77). -/
def Work.resume (w : Work) (h : Handle) (r : CallRecord) (p : Owned) (i : Nat) : Work :=
  let w := w.modCall h fun r =>
    { r with state := .connected, timer := if r.talkOwner then w.st.talkTimer r.cls else none }
  let w := if r.heldBelow then w else w.crossConnect h
  let w := match p with
    | .H => w.progressUp r .resumed (some i)
    | .F _ => w.statusTo h r .resumed 0 (some i)
  if r.heldBelow then w else w.progressDown r .resumed

/-- An entry is granted a lane: the record takes it, leaves the list and goes on (R74). -/
def Work.grant (w : Work) (h : Handle) (p : Owned) (i : Nat) : Work :=
  w.withCall h fun r =>
    let w := (w.takeLane h p i).leaveWaiting h
    if r.state = .parked then w.resume h r p i else w.goOn h r

/-- The walk for a port over the entries of the list as the walk found them: each entry for the port that the
admission test passes is granted, until one fails (R73). -/
def Work.walk (w : Work) (p : Owned) : List WaitEntry → Work
  | [] => w
  | x :: rest =>
    if x.port = p then
      match w.st.admitLane p (w.st.entryPriority x) with
      | some i => (w.grant x.handle p i).walk p rest
      | none => w
    else w.walk p rest

/-- The arbiter runs for a port, if the event asks for it (R72). -/
def Work.runFor (w : Work) (p : Owned) : Work :=
  if w.runs.contains p then w.walk p w.st.waiting else w

/-- The arbiter's runs at the end of an event, in ascending order of port number (R72). -/
def Work.runArbiter (w : Work) : Work := allOwned.foldl Work.runFor w

/-! ## The end of an event (R182, R10) -/

/-- The EVENT-NOTICE of a group with a status (R182, R19). -/
def noticeCell (node : Fin 16) (g : Group) (status : Word) : RiserCell :=
  .mgmt .notice 0
    { node := BitVec.ofNat 8 node.val, item := 10, field := 0,
      index := match g with | .system => 0 | .call => 1 | .line => 2,
      result := 0, value := status, expected := 0, spare := 0 }

/-- The groups in the order of their notices (R182). -/
def allGroups : List Group := [.system, .call, .line]

/-- The notices of an event that sets `raised`: one for each group in which an unmasked bit was clear, with the group's
status as it stands after the event has set `final` (R182). -/
def State.notices (s : State) (raised final : EventSets) : List RiserCell :=
  (allGroups.filter fun g => raised.get g &&& ~~~(s.status.get g) &&& ~~~(s.retained.masks.get g) ≠ 0).map
    fun g => noticeCell s.node g ((s.status.union final).get g)

/-- The bits set by an event whose cells go down port L: with TX_OVERFLOW where its notices and cells do not all find
room in the queue (R10). The queue is full at that moment, so a notice of this overflow alone would be discarded, and
none is asked for (R10, assumption 14). -/
def State.raisedAtEnd (s : State) (raised : EventSets) (outL : List RiserCell) : EventSets :=
  if Config.queueDepth - s.portL.queue.length < (s.notices raised raised).length + outL.length then
    raised.add .txOverflow
  else raised

/-- The cells placed on port L by an event: its notices, then the other cells, as far as the queue has room. -/
def State.placeL (s : State) (cells : List RiserCell) : RiserPort :=
  { s.portL with queue := s.portL.queue ++ cells.take (Config.queueDepth - s.portL.queue.length) }

/-- The end of an event: its bits are set, and its notices and cells join port L's queue (R182, R10). -/
def Work.flush (w : Work) : State :=
  if w.st.riserUp .L then
    let final := w.st.raisedAtEnd w.raised w.outL
    { w.st with status := w.st.status.union final, portL := w.st.placeL (w.st.notices w.raised final ++ w.outL) }
  else { w.st with status := w.st.status.union w.raised }

/-- The event ends. -/
def Work.finish (w : Work) : State := w.runArbiter.flush

/-! ## Commands as events -/

/-- The outcome of a command that is one event of the powered part; a part without its main supply does nothing. -/
def event (s : State) (f : Work → Work) : Host.Outcome State Fault Refusal :=
  .next (if s.powered then (f (Work.start s)).finish else s)

/-- A cell that arrives on a riser port: it is received only while the link is UP and aligned (R8, R11). -/
def onRiser (s : State) (p : Riser) (f : Work → Work) : Host.Outcome State Fault Refusal :=
  event s fun w => if w.st.receives p then f w else w

/-- A cell that arrives on a floor port: it is received only while the line is UP (R8). -/
def onFloor (s : State) (k : Floor) (f : Work → Work) : Host.Outcome State Fault Refusal :=
  event s fun w => if w.st.floorUp k then f w else w

end Sys2Proof.Machine
end

