-- ==== Sys2Proof/Machine/Directory.lean ====
section
/-! DEFINITION. The directory (chapter 2): the windows and the routing lookups, the handset lookup, what a record
captures, and the tests and clamps of a directory write. -/

namespace Sys2Proof.Machine

/-! ## Routing (R22, R23, R27 to R30) -/

/-- A window contains a number when it is enabled and the number lies between its bounds (R22). -/
def Window.contains (x : Window) (n : Nat) : Bool := decide (x.base ≤ x.limit ∧ x.base ≤ n ∧ n ≤ x.limit)

/-- The target chosen for a number: the lowest exception window that contains it if some ordinary window does, else
the lowest ordinary window, else HIGH (R23, R28 steps 3 to 5). -/
def Retained.target (d : Retained) (n : Nat) : Target :=
  match d.ordinary.toList.find? (·.contains n) with
  | some o => match d.exceptions.toList.find? (·.contains n) with
    | some x => x.target
    | none => o.target
  | none => .high

/-- A slot is occupied when its number is not 0 (R24). -/
def Slot.occupied (x : Slot) : Bool := x.number ≠ 0

/-- Every slot number, ascending. -/
def allSlots : List SlotNo := List.finRange 96

/-- The occupied slot that holds a number (R29). -/
def Retained.slotOf (d : Retained) (n : Nat) : Option SlotNo :=
  allSlots.find? fun i => d.slots[i].occupied && d.slots[i].number == n

/-- The outcome of a routing lookup (R29, R30); a mismatch refusal sets DIRECTORY_MISMATCH. -/
inductive Route | refused (c : Cause) (mismatch : Bool) | high | floor (k : Floor) (i : SlotNo) | low
  deriving DecidableEq, Repr

/-- The routing lookup for a SETUP from port L (R28, R29). -/
def State.route (s : State) (n : Nat) : Route :=
  if s.retained.service = .outOfService then .refused .notInService false
  else if n = 0 then .refused .invalid false
  else match s.retained.target n with
    | .high => if s.top then .refused .noSuchApartment false else .high
    | .bar => .refused .barred false
    | .floor k => match s.retained.slotOf n with
      | none => .refused .noSuchApartment false
      | some i =>
        if s.retained.slots[i].port ≠ k then .refused .noSuchApartment true
        else if s.floorUp k then .floor k i else .refused .lineFault false

/-- The routing lookup for a SETUP from port H (R30). -/
def State.routeDown (s : State) (n : Nat) : Route :=
  if s.retained.service = .outOfService then .refused .notInService false
  else if n ≠ 0 then .refused .invalid false
  else .low

/-- The base class of a SETUP from port L: clamped to the panel's ceiling when it comes from a panel (R27). -/
def Retained.baseClass (d : Retained) (o : Origin) (cls : Class) : Class :=
  match o with
  | .panel n => min cls d.ceilings[n]
  | _ => cls

/-- What a handset is to its flat (R26). -/
inductive Role | main | extension
  deriving DecidableEq, Repr

/-- A slot answers the lookup of a handset: it is occupied, on the floor port, and the handset is its main or extension
(R26). -/
def Slot.answers (x : Slot) (k : Floor) (a : Addr) : Bool :=
  x.occupied && x.port == k && (x.main == a || x.ext == some a)

/-- Whether a handset is a slot's main or its extension handset (R26). -/
def Slot.role (x : Slot) (a : Addr) : Role := if x.main = a then .main else .extension

/-- The handset lookup: the occupied slot on a floor port with this main or extension handset, and which of the two it
is (R26). -/
def Retained.handset (d : Retained) (k : Floor) (a : Addr) : Option (SlotNo × Role) :=
  (allSlots.find? fun i => d.slots[i].answers k a).map fun i => (i, d.slots[i].role a)

/-- What a record captures of a slot: PAIRED and FOLLOW_ON as MAIN_ONLY where there is no extension (R31). -/
def Slot.capture (x : Slot) (i : SlotNo) (answering : Option Addr) : FloorSide :=
  { port := x.port, slot := i, main := x.main, ext := x.ext,
    mode := if x.ext = none then .mainOnly else x.mode,
    entries := [], answering := answering, preAnswered := false }

/-! ## Writes (R33 to R39) -/

/-- Target codes (section 2.7). -/
def Target.code : Target → Nat
  | .floor k => k.val
  | .high => 8
  | .bar => 9

/-- The target of a code; `none` above 9 (R34). -/
def Target.ofCode (v : Nat) : Option Target :=
  if h : v < 8 then some (.floor ⟨v, h⟩) else if v = 8 then some .high else if v = 9 then some .bar else none

/-- Offer mode codes (section 2.7). -/
def OfferMode.code : OfferMode → Nat
  | .mainOnly => 0
  | .paired => 1
  | .followOn => 2

/-- The offer mode of a code. -/
def OfferMode.ofCode : Nat → Option OfferMode
  | 0 => some .mainOnly
  | 1 => some .paired
  | 2 => some .followOn
  | _ => none

/-- A level, or class, of a value at most 7; a greater value is clamped to 7. -/
def clampClass (v : Nat) : Class := ⟨min v 7, by omega⟩

/-- DONE, or CLAMPED where the stored value differs from the value written (R33 step 4). -/
def storedResult (v stored : Nat) : Result := if v = stored then .done else .clamped

/-- The fields of a window (Table 11-1). -/
inductive WindowField | base | limit | target
  deriving DecidableEq, Repr

/-- The fields of an apartment slot but its activity (Table 11-1). -/
inductive SlotField
  | number | port | main | ext | mode | quiet | quietCeiling | residentQuiet | callDown | unlatch
  deriving DecidableEq, Repr

/-- The value of a window field (section 2.7). -/
def Window.read (x : Window) : WindowField → Nat
  | .base => x.base
  | .limit => x.limit
  | .target => x.target.code

/-- A WRITE of a window field (R33, R34). -/
def Window.write (x : Window) (f : WindowField) (v : Nat) : Result × Window :=
  match f with
  | .base => if 1 ≤ v ∧ v ≤ 9999 then (.done, { x with base := v }) else (.badValue, x)
  | .limit => if v ≤ 9999 then (.done, { x with limit := v }) else (.badValue, x)
  | .target => match Target.ofCode v with
    | some t => (.done, { x with target := t })
    | none => (.badValue, x)

/-- A handset address, or NONE, as a value word. -/
def addrCode : Option Addr → Nat
  | some a => a.val
  | none => 255

/-- The value of a slot field (section 2.7). -/
def Slot.read (x : Slot) : SlotField → Nat
  | .number => x.number
  | .port => x.port.val
  | .main => x.main.val
  | .ext => addrCode x.ext
  | .mode => x.mode.code
  | .quiet => x.quiet.val
  | .quietCeiling => x.quietCeiling.val
  | .residentQuiet => x.residentQuiet.toNat
  | .callDown => x.callDown.val
  | .unlatch => x.unlatch.toNat

/-- The value lies outside the encoding of an identifying field (R33 step 1). Level and class fields are not refused. -/
def SlotField.badValue (f : SlotField) (v : Nat) : Bool :=
  match f with
  | .number => decide (9999 < v)
  | .port => decide (7 < v)
  | .main => decide (31 < v)
  | .ext => decide (31 < v ∧ v ≠ 255)
  | .mode => decide (2 < v)
  | .residentQuiet | .unlatch => decide (1 < v)
  | .quiet | .quietCeiling | .callDown => false

/-- Another occupied slot holds a number (R35). -/
def Retained.numberTaken (d : Retained) (i : SlotNo) (n : Nat) : Bool :=
  allSlots.any fun j => j ≠ i && d.slots[j].occupied && d.slots[j].number == n

/-- Another occupied slot on a port holds a handset address, as main or extension (R35, R36). -/
def Retained.addrTaken (d : Retained) (i : SlotNo) (k : Floor) (a : Addr) : Bool :=
  allSlots.any fun j => j ≠ i && d.slots[j].answers k a

/-- Another occupied slot on a port holds the slot's main or extension handset. -/
def Retained.slotClashes (d : Retained) (i : SlotNo) (k : Floor) : Bool :=
  d.addrTaken i k d.slots[i].main || (match d.slots[i].ext with | some x => d.addrTaken i k x | none => false)

/-- The conflict tests of a slot write that changes the field: IN_USE first, then DUPLICATE (R35, R36). -/
def State.slotConflict (s : State) (i : SlotNo) (f : SlotField) (v : Nat) : Option Result :=
  let d := s.retained
  let x := d.slots[i]
  let busy := s.activity[i] ≠ .idle
  match f with
  | .number =>
    if busy then some .inUse
    else if v ≠ 0 ∧ (d.numberTaken i v ∨ (¬ x.occupied ∧ d.slotClashes i x.port)) then some .duplicate
    else none
  | .port =>
    if busy then some .inUse
    else if h : v < 8 then if x.occupied ∧ d.slotClashes i ⟨v, h⟩ then some .duplicate else none
    else none
  | .main =>
    if h : v < 32 then
      if x.ext = some ⟨v, h⟩ ∨ (x.occupied ∧ d.addrTaken i x.port ⟨v, h⟩) then some .duplicate else none
    else none
  | .ext =>
    if h : v < 32 then
      if x.main = ⟨v, h⟩ ∨ (x.occupied ∧ d.addrTaken i x.port ⟨v, h⟩) then some .duplicate else none
    else none
  | .mode | .quiet | .quietCeiling | .residentQuiet | .callDown | .unlatch => none

/-- A slot field stored, clamped where R37 and R38 allow it. -/
def Slot.store (x : Slot) (f : SlotField) (v : Nat) : Slot :=
  match f with
  | .number => { x with number := v }
  | .port => if h : v < 8 then { x with port := ⟨v, h⟩ } else x
  | .main => if h : v < 32 then { x with main := ⟨v, h⟩ } else x
  | .ext => if h : v < 32 then { x with ext := some ⟨v, h⟩ } else { x with ext := none }
  | .mode => match OfferMode.ofCode v with
    | some m => { x with mode := m }
    | none => x
  | .quiet => { x with quiet := min (clampClass v) x.quietCeiling }
  | .quietCeiling => { x with quietCeiling := clampClass v, quiet := min x.quiet (clampClass v) }
  | .residentQuiet => { x with residentQuiet := v == 1 }
  | .callDown => { x with callDown := min (clampClass v) 6 }
  | .unlatch => { x with unlatch := v == 1 }

/-- A WRITE of a slot field, with the four tests in order (R33). -/
def State.writeSlot (s : State) (i : SlotNo) (f : SlotField) (v : Nat) : Result × Slot :=
  let x := s.retained.slots[i]
  if f.badValue v then (.badValue, x)
  else if v = x.read f then (.done, x)
  else match s.slotConflict i f v with
    | some r => (r, x)
    | none => (storedResult v ((x.store f v).read f), x.store f v)

end Sys2Proof.Machine
end

