-- ==== Sys2Proof/Machine/Fire.lean ====
section
/-! DEFINITION. The fire-service unit (chapter 9): the local source, fire mode, the purge at an entry, and the commands
FIRE_EDGE, FIRE_ON and FIRE_OFF. -/

namespace Sys2Proof.Machine

/-- The local source is active according to the sense mode (R156). -/
def State.localSource (s : State) : Bool :=
  match s.retained.sense with
  | .ignore => false
  | .levelLow => !s.pins.fireHigh
  | .levelHigh => s.pins.fireHigh
  | .riseLatch | .fallLatch => s.latch

/-- Fire mode is active while either source is (R155). -/
def State.fireMode (s : State) : Bool := s.localSource || s.lineSource

/-- Fire mode refuses a call of this class: it is active and the class is below the fire admission class (R91, R128,
R132). -/
def State.fireRefuses (s : State) (cls : Class) : Bool := s.fireMode && decide (cls < s.retained.fireClass)

/-- The purge at the entry into fire mode, over the entries in list order (R162). -/
def Work.purge (w : Work) : List WaitEntry → Work
  | [] => w
  | x :: rest =>
    (match w.call? x.handle with
      | some r => if r.cls < w.st.retained.fireClass then w.release x.handle .fireMode else w
      | none => w).purge rest

/-- An event that changes a source of fire mode: FIRE_LOCAL where the local source becomes active, and the purge where
the event is the entry into fire mode (R155, R161, R162). -/
def Work.changeSources (w : Work) (f : State → State) : Work :=
  let before := w.st
  let w := w.modState f
  let w := if !before.localSource && w.st.localSource then w.raise .fireLocal else w
  if !before.fireMode && w.st.fireMode then w.purge w.st.waiting else w

/-- The latch after an edge to the given level under a sense mode (R156). -/
def SenseMode.latchAfter (m : SenseMode) (high latch : Bool) : Bool :=
  match m with
  | .ignore => false
  | .levelLow | .levelHigh => latch
  | .riseLatch => latch || high
  | .fallLatch => latch || !high

/-- FIRE_EDGE (R156): the debounced level changes; a report of the level as it stands is no edge. -/
def execFireEdge (high : Bool) (s : State) : Host.Outcome State Fault Refusal :=
  event s fun w =>
    if w.st.pins.fireHigh = high then w
    else w.changeSources fun s =>
      { s with pins := { s.pins with fireHigh := high }, latch := s.retained.sense.latchAfter high s.latch }

/-- A riser cell that no rule lets arrive on port H: discarded with its event (R6, R15). -/
def onlyFromBelow (s : State) (p : Riser) (e : Event) (f : Work → Work) : Host.Outcome State Fault Refusal :=
  onRiser s p fun w => match p with
    | .L => f w
    | .H => w.raise e

/-- A fire cell is relayed up port H, unless the part is strapped TOP (R158, R159). -/
def Work.relayFire (w : Work) (c : RiserCell) : Work := if w.st.top then w else w.sendH c

/-- FIRE_ON (R158): the line source is set, FIRE_LINE is set where it was clear, and the cell is relayed
up. The relayed cell is placed before the cells of a purge, as section 9.11 shows it. -/
def execFireOn (p : Riser) (s : State) : Host.Outcome State Fault Refusal :=
  onlyFromBelow s p .protocol fun w =>
    let w := w.relayFire fireOnCell
    if w.st.lineSource then w
    else (w.raise .fireLine).changeSources fun s => { s with lineSource := true }

/-- FIRE_OFF (R159): the line source and the local latch are cleared, and the cell is relayed up. -/
def execFireOff (p : Riser) (s : State) : Host.Outcome State Fault Refusal :=
  onlyFromBelow s p .protocol fun w =>
    (w.changeSources fun s => { s with lineSource := false, latch := false }).relayFire fireOffCell

end Sys2Proof.Machine
end

