-- ==== Sys2Proof/Machine/Setup.lean ====
section
/-! DEFINITION. The commands that make a record from a SETUP: SETUP_FROM_BELOW (R88 to R95, R105 to R108) and
SETUP_FROM_ABOVE (R131, R132). -/

namespace Sys2Proof.Machine

/-- The lane field of a cell is 0–11 or NONE (R6). -/
def laneFieldOk (b : Byte) : Bool := decide (b.toNat ≤ 11) || b == 255

/-- The lane that a lane byte names; NONE names none. -/
def laneOf (b : Byte) : Option LLane := if h : b.toNat < 12 then some ⟨b.toNat, h⟩ else none

/-- The origin that a SETUP's origin kind and origin give, if R6 admits them: a panel 0–15, an apartment 1–9999, or
the fire position, whose origin word is not tested. -/
def originOf (okind : BitVec 2) (origin : Word) : Option Origin :=
  match okind.toNat with
  | 0 => if h : origin.toNat < 16 then some (.panel ⟨origin.toNat, h⟩) else none
  | 1 => if 1 ≤ origin.toNat ∧ origin.toNat ≤ 9999 then some (.apartment origin) else none
  | 2 => some (.firePosition origin)
  | _ => none

/-- A new record, before it is routed (R90, R132). -/
def newCall (dir : Dir) (cls : Class) (o : Origin) (dest : Word) (low : RiserSide) (far : Far) : CallRecord :=
  { state := .waitingLane, dir := dir, cls := cls, origin := o, dest := dest, low := low, lLane := none,
    heldBelow := false, far := far, ownedLane := none, timer := none, talkOwner := false, pendingCause := none }

/-- Asks for a lane for a record on an owned port and goes on with the outcome. -/
def Work.lane (w : Work) (h : Handle) (p : Owned) (k : Work → LaneOutcome → Work) : Work :=
  w.withCall h fun r => let x := w.requestLane h p r; k x.1 x.2

/-- A call routed HIGH (R93). -/
def Work.routeHigh (w : Work) (h : Handle) : Work :=
  (w.modCall h fun r => { r with far := .high .unopened }).lane h .H fun w o =>
    match o with
    | .taken => w.forwardSetup h
    | .queued => w
    | .refused c => w.release h c

/-- The quiet test: a class of 7, or above the quiet level (R105). -/
def passesQuiet (cls quiet : Class) : Bool := cls == 7 || decide (quiet < cls)

/-- The lane request of a call to a flat and its outcome (R108). -/
def Work.askFloor (w : Work) (h : Handle) (k : Floor) (i : SlotNo) : Work :=
  w.lane h (.F k) fun w o =>
    match o with
    | .taken => w.startOffers h
    | .queued => w.setActivity i (.pending h)
    | .refused c => w.release h c

/-- A call routed FLOOR k, slot i: the quiet test, the activity test and the apartment preemption of a class 7 call,
then the lane request (R95, R105 to R108). -/
def Work.routeFloor (w : Work) (h : Handle) (cls : Class) (k : Floor) (i : SlotNo) : Work :=
  let x := w.st.retained.slots[i]
  let w := w.modCall h fun r => { r with far := .floor (x.capture i none) }
  if passesQuiet cls x.quiet then
    match w.st.activity[i].handle? with
    | none => w.askFloor h k i
    | some v => if cls = 7 then ((w.raise .preemption).release v .preempted).askFloor h k i else w.release h .busy
  else w.release h .quiet

/-- A record made from a SETUP below is tested for fire mode, routed and sent on (R91 to R95). -/
def Work.routeUp (w : Work) (h : Handle) (cls : Class) (dest : Word) : Work :=
  if w.st.fireRefuses cls then w.release h .fireMode
  else match w.st.route dest.toNat with
    | .high => w.routeHigh h
    | .floor k i => w.routeFloor h cls k i
    | .refused c mismatch => (if mismatch then w.raise .directoryMismatch else w).release h c
    | .low => w

/-- SETUP_FROM_BELOW (R88 to R95): the tests of R6 and R88, the table test of R89, the record of R90, and its route. -/
def execSetupFromBelow (key : Key) (lane : Byte) (dest : Word) (cls : Class) (okind : BitVec 2) (origin : Word)
    (s : State) : Host.Outcome State Fault Refusal :=
  onRiser s .L fun w =>
    match laneOf lane, originOf okind origin with
    | some l, some o =>
      if dest.toNat ≤ 9999 ∧ key.side = .low ∧ w.st.keyed .L key = none ∧ w.st.mirror[l] = none then
        match w.st.freeHandles with
        | [] => (w.sendL (releaseCell key .tableFull)).raise .tableFull
        | h :: rest =>
          let base := w.st.retained.baseClass o cls
          ((w.makeCall h rest (newCall .up base o dest (.opened key) .none)).fillMirror h l).routeUp h base dest
      else w.raise .protocol
    | _, _ => w.raise .protocol

/-- A record made from a SETUP above, or by a DIAL, asks for its lane and sends its SETUP down (R129, R132). -/
def Work.askDown (w : Work) (h : Handle) (p : Owned) : Work :=
  w.lane h p fun w o =>
    match o with
    | .taken => w.grantUpper h
    | .queued => w
    | .refused c => w.release h c

/-- A downward record is tested for fire mode and for service, then asks for its lane (R128, R132). -/
def Work.routeCallDown (w : Work) (h : Handle) (cls : Class) (dest : Word) (p : Owned) : Work :=
  if w.st.fireRefuses cls then w.release h .fireMode
  else match w.st.routeDown dest.toNat with
    | .refused c _ => w.release h c
    | _ => w.askDown h p

/-- SETUP_FROM_ABOVE (R131, R132). The lane field is range-tested (R6) and otherwise ignored. -/
def execSetupFromAbove (key : Key) (lane : Byte) (dest : Word) (cls : Class) (okind : BitVec 2) (origin : Word)
    (s : State) : Host.Outcome State Fault Refusal :=
  onRiser s .H fun w =>
    match originOf okind origin with
    | some o =>
      if laneFieldOk lane ∧ dest.toNat ≤ 9999 ∧ key.side = .high ∧ w.st.keyed .H key = none then
        match w.st.freeHandles with
        | [] => (w.sendH (releaseCell key .tableFull)).raise .tableFull
        | h :: rest =>
          (w.makeCall h rest (newCall .down cls o dest .unopened (.high (.opened key)))).routeCallDown h cls dest .H
      else w.raise .protocol
    | none => w.raise .protocol

end Sys2Proof.Machine
end

