-- ==== Sys2Proof/Machine/RiserCells.lean ====
section
/-! DEFINITION. The commands of the call cells that name a record by its key: LANE-GRANT, PROGRESS, CONNECT, RELEASE,
RELEASE-DONE, UNLATCH on port L or port H (sections 5.7, 7.4, 8.4 to 8.6). -/

namespace Sys2Proof.Machine

/-- A PROGRESS cell on a riser port: its lane field is tested (R6), then it is taken for the record its key names. -/
def onProgress (s : State) (p : Riser) (key : Key) (lane : Byte) (k : Work → Handle → CallRecord → Work) :
    Host.Outcome State Fault Refusal :=
  onRiser s p fun w => if laneFieldOk lane then w.named p key (k w) else w.raise .protocol

/-- LANE_GRANT (R133): the mirror test, then the L lane and FORWARDED. -/
def execLaneGrant (p : Riser) (key : Key) (lane : Byte) (s : State) : Host.Outcome State Fault Refusal :=
  onlyFromBelow s p .protocol fun w =>
    match laneOf lane with
    | none => w.raise .protocol
    | some l => w.named .L key fun h r =>
      if r.state = .awaitingGrant ∧ w.st.mirrorTest h r l then
        (w.fillMirror h l).modCall h fun r =>
          { r with state := .forwarded, timer := startTimer .progressWait w.st.progressTime }
      else w.raise .protocol

/-! ## From above -/

/-- ALERTING_FROM_ABOVE (R96). -/
def execAlertingFromAbove (key : Key) (lane : Byte) (s : State) : Host.Outcome State Fault Refusal :=
  onProgress s .H key lane fun w h r =>
    if r.dir = .up ∧ r.state = .forwarded then
      (w.modCall h fun r => { r with state := .ringing, timer := none }).progressDown r .alerting
    else if r.dir = .up ∧ r.state = .ringing then w.progressDown r .alerting
    else w.raise .protocol

/-- QUEUED_FROM_ABOVE (R97). -/
def execQueuedFromAbove (key : Key) (lane : Byte) (s : State) : Host.Outcome State Fault Refusal :=
  onProgress s .H key lane fun w h r =>
    if r.dir = .up ∧ r.state = .forwarded then
      (w.modCall h fun r =>
        { r with timer := startTimer .progressWait (w.st.laneWaitTime + w.st.progressTime) }).progressDown r .queued
    else w.raise .protocol

/-- A PROGRESS HELD or RESUMED from above, of either direction: relayed in CONNECTED, discarded in PARKED (R98, R137). -/
def Work.relayHold (w : Work) (r : CallRecord) (code : Progress) : Work :=
  if r.state = .connected then w.progressDown r code
  else if r.state = .parked then w
  else w.raise .protocol

/-- HELD_FROM_ABOVE (R98, R137). -/
def execHeldFromAbove (key : Key) (lane : Byte) (s : State) : Host.Outcome State Fault Refusal :=
  onProgress s .H key lane fun w _ r => w.relayHold r .held

/-- RESUMED_FROM_ABOVE (R98, R137); its lane field is range-tested and otherwise ignored. -/
def execResumedFromAbove (key : Key) (lane : Byte) (s : State) : Host.Outcome State Fault Refusal :=
  onProgress s .H key lane fun w _ r => w.relayHold r .resumed

/-- LIMIT_NEAR_FROM_ABOVE (R99, R137): relayed in CONNECTED and PARKED, of either direction; for a downward record in either
state that is the table of R137, with R141, against R137's prose, which sets PROTOCOL (assumption 10). On port L it travels
the wrong way (R101, R137). -/
def execLimitNearFromAbove (p : Riser) (key : Key) (lane : Byte) (s : State) : Host.Outcome State Fault Refusal :=
  onProgress s p key lane fun w _ r =>
    if p = .H ∧ (r.state = .connected ∨ r.state = .parked) then w.progressDown r .limitNear
    else w.raise .protocol

/-- CONNECT_FROM_ABOVE (R100). -/
def execConnectFromAbove (key : Key) (s : State) : Host.Outcome State Fault Refusal :=
  onRiser s .H fun w => w.named .H key fun h r =>
    if r.dir = .up ∧ (r.state = .forwarded ∨ r.state = .ringing) then
      ((w.modCall h fun r => { r with state := .connected, timer := none }).crossConnect h).connectToward r .L
    else w.raise .protocol

/-! ## From below -/

/-- What a downward record tells its far side: a STATUS to the dialling handset, or a PROGRESS up port H (section 7.4). -/
def Work.tellOrigin (w : Work) (h : Handle) (r : CallRecord) (status : Status) (code : Progress) : Work :=
  match r.far with
  | .floor _ => w.statusTo h r status
  | _ => w.progressUp r code

/-- QUEUED_FROM_BELOW (R134). -/
def execQueuedFromBelow (key : Key) (lane : Byte) (s : State) : Host.Outcome State Fault Refusal :=
  onProgress s .L key lane fun w h r =>
    if r.dir = .down ∧ r.state = .awaitingGrant then
      (w.modCall h fun r =>
        { r with timer := startTimer .grantWait (w.st.laneWaitTime + w.st.grantTime) }).tellOrigin h r .queued .queued
    else if r.dir = .down ∧ r.state = .forwarded then
      (w.modCall h fun r =>
        { r with timer := startTimer .progressWait (w.st.laneWaitTime + w.st.progressTime) }).tellOrigin h r .queued
        .queued
    else w.raise .protocol

/-- ALERTING_FROM_BELOW (R135). -/
def execAlertingFromBelow (key : Key) (lane : Byte) (s : State) : Host.Outcome State Fault Refusal :=
  onProgress s .L key lane fun w h r =>
    if r.dir = .down ∧ r.state = .forwarded then
      match r.far with
      | .floor _ =>
        (w.modCall h fun r =>
          { r with state := .ringing, timer := startTimer .ringTime w.st.ringTime }).statusTo h r .ringback
      | _ => (w.modCall h fun r => { r with state := .ringing, timer := none }).progressUp r .alerting
    else if r.dir = .down ∧ r.state = .ringing then
      match r.far with
      | .floor _ => w
      | _ => w.progressUp r .alerting
    else w.raise .protocol

/-- CONNECT_FROM_BELOW (R136). -/
def execConnectFromBelow (key : Key) (s : State) : Host.Outcome State Fault Refusal :=
  onRiser s .L fun w => w.named .L key fun h r =>
    if r.dir = .down ∧ (r.state = .forwarded ∨ r.state = .ringing) then
      match r.far with
      | .floor f =>
        (((w.modCall h fun r =>
          { r with state := .connected, talkOwner := true, timer := w.st.talkTimer r.cls }).crossConnect h).statusTo h r
          .connected 0 r.ownedLane).setActivity f.slot (.engaged h)
      | _ =>
        ((w.modCall h fun r => { r with state := .connected, timer := none }).crossConnect h).connectToward r .H
    else w.raise .protocol

/-- HELD_FROM_BELOW (R150). -/
def execHeldFromBelow (key : Key) (lane : Byte) (s : State) : Host.Outcome State Fault Refusal :=
  onProgress s .L key lane fun w h r =>
    if r.heldBelow = false ∧ (r.state = .connected ∨ r.state = .parked) then
      let w := (w.emptyMirror h).modCall h fun r => { r with heldBelow := true }
      if r.state = .connected then w.tellOrigin h r .held .held else w
    else w.raise .protocol

/-- RESUMED_FROM_BELOW (R151): the new L lane of a held-below record. -/
def execResumedFromBelow (key : Key) (lane : Byte) (s : State) : Host.Outcome State Fault Refusal :=
  onRiser s .L fun w =>
    match laneOf lane with
    | none => w.raise .protocol
    | some l => w.named .L key fun h r =>
      if r.heldBelow ∧ (r.state = .connected ∨ r.state = .parked) ∧ w.st.mirrorTest h r l then
        let w := (w.fillMirror h l).modCall h fun r => { r with heldBelow := false }
        if r.state = .connected then
          let w := w.crossConnect h
          match r.far with
          | .floor _ => w.statusTo h r .resumed 0 r.ownedLane
          | _ => w.progressUp r .resumed r.ownedLane
        else w
      else w.raise .protocol

/-! ## The release handshake -/

/-- RELEASE (R146, R147, R149): answered and passed on, or counted as RELEASE-DONE for a record in CLEARING; for an
unknown key answered RELEASE-DONE. The record goes to CLEARING (R124), and one that keeps no open side is freed from there
in the same event (R146; assumption 21). -/
def execRelease (p : Riser) (key : Key) (code : Byte) (s : State) : Host.Outcome State Fault Refusal :=
  onRiser s p fun w =>
    match w.st.keyed p key with
    | none => w.sendRiser p (releaseDoneCell key)
    | some h => w.withCall h fun r =>
      if r.state = .clearing then w.closeCleared h p
      else ((w.sendRiser p (releaseDoneCell key)).modCall h fun r => r.closeSide p).release h (Cause.ofByte code)

/-- RELEASE_DONE (R147, R149). -/
def execReleaseDone (p : Riser) (key : Key) (s : State) : Host.Outcome State Fault Refusal :=
  onRiser s p fun w =>
    match w.st.keyed p key with
    | none => w.raise .protocol
    | some h => w.withCall h fun r => if r.state = .clearing then w.closeCleared h p else w.raise .protocol

/-- UNLATCH_FROM_ABOVE (R153): relayed for a CONNECTED upward call from a panel while fire mode is inactive. The panel
of the cell is tested (R6) but not compared; the origin relayed is the record's. A record for which R153 sets PROTOCOL
sets it in fire mode as well (assumption 22). -/
def execUnlatchFromAbove (p : Riser) (key : Key) (okind : BitVec 2) (origin : Word) (s : State) :
    Host.Outcome State Fault Refusal :=
  onRiser s p fun w =>
    match p with
    | .L => w.raise .protocol
    | .H =>
      if okind = 0 ∧ origin.toNat ≤ 15 then
        w.named .H key fun _ r =>
          if r.dir = .down then w.raise .protocol
          else if r.state ≠ .connected then w
          else match r.origin, r.openKey .L with
            | .panel n, some lowKey => if w.st.fireMode then w else w.sendL (unlatchCell lowKey n)
            | .panel _, none => w
            | _, _ => w.raise .protocol
      else w.raise .protocol

end Sys2Proof.Machine
end

