-- ==== Sys2Proof/Machine/FloorCells.lean ====
section
/-! DEFINITION. The commands of the floor cells: the responses to an offer (section 6.5), DIAL (sections 6.6 and 7.2),
HOOK and UNLATCH (sections 8.3 and 8.6), QUIET (section 6.7), and the RESTART of a handset (R7). -/

namespace Sys2Proof.Machine

/-! ## Responses to an offer -/

/-- The handle a response carries; above 47 the cell fails its test (R7). -/
def handleOf (b : Byte) : Option Handle := if h : b.toNat < 48 then some ⟨b.toNat, h⟩ else none

/-- The place and the entry of an address in a list of offer entries. -/
def entryOf (a : Addr) : List OfferEntry → Option (Nat × OfferEntry)
  | [] => none
  | e :: es => if e.addr = a then some (0, e) else (entryOf a es).map fun x => (x.1 + 1, x.2)

/-- The floor side of a live record on a floor port (R112). -/
def State.floorCall (s : State) (k : Floor) (h : Handle) : Option (CallRecord × FloorSide) :=
  match s.call? h with
  | some r => match r.far with
    | .floor f => if f.port = k then some (r, f) else none
    | _ => none
  | none => none

/-- The offer entry that a response matches: of a record in OFFERING or RINGING on the port, the sender's entry in SENT
or ALERTING (R112). -/
def State.matchedEntry (s : State) (k : Floor) (a : Addr) (h : Handle) : Option (Nat × OfferEntry) :=
  match s.floorCall k h with
  | some (r, f) =>
    if r.state = .offering ∨ r.state = .ringing then
      match entryOf a f.entries with
      | some (i, e) => if e.state = .sent ∨ e.state = .alerting then some (i, e) else none
      | none => none
    else none
  | none => none

/-- The sender is the answering handset of the record the handle names, which is CONNECTED or PARKED (R112). -/
def State.fromAnswering (s : State) (k : Floor) (a : Addr) (h : Handle) : Bool :=
  match s.floorCall k h with
  | some (r, f) => (r.state == .connected || r.state == .parked) && f.answering == some a
  | none => false

/-- A response from a handset: a handle above 47 sets PROTOCOL (R7); a matched one goes to the rule of its kind; an
unmatched ALERT or ANSWER is answered CANCEL, unless it comes from the handset on the call; the rest is discarded (R112). -/
def onResponse (s : State) (k : Floor) (a : Addr) (handle : Byte) (cancel : Bool)
    (f : Work → Handle → Nat → OfferEntry → Work) : Host.Outcome State Fault Refusal :=
  onFloor s k fun w =>
    match handleOf handle with
    | none => w.raise .protocol
    | some h => match w.st.matchedEntry k a h with
      | some (i, e) => f w h i e
      | none => if cancel && !w.st.fromAnswering k a h then w.sendF k (cancelCell h.val a) else w

/-- ALERT (R113). -/
def execAlert (k : Floor) (a : Addr) (handle : Byte) (s : State) : Host.Outcome State Fault Refusal :=
  onResponse s k a handle true fun w h i _ =>
    let w := w.modEntry h i fun e => { e with state := .alerting, window := none }
    w.withCall h fun r =>
      if r.state = .offering then
        (w.modCall h fun r =>
          { r with state := .ringing, timer := startTimer .ringTime w.st.ringTime }).progressDown r .alerting
      else w

/-- ANSWER (R114). -/
def execAnswer (k : Floor) (a : Addr) (handle : Byte) (s : State) : Host.Outcome State Fault Refusal :=
  onResponse s k a handle true fun w h _ _ => w.connectFlat h a

/-- REFUSE (R115, R117, R118). -/
def execRefuse (k : Floor) (a : Addr) (handle : Byte) (s : State) : Host.Outcome State Fault Refusal :=
  onResponse s k a handle false fun w h i _ =>
    ((w.modEntry h i fun e => { e with state := .refused, window := none }).followOn h).countEntries h

/-- REPEAT (R116): an early expiry in SENT, the OFFER again in ALERTING. -/
def execRepeatOffer (k : Floor) (a : Addr) (handle : Byte) (s : State) : Host.Outcome State Fault Refusal :=
  onResponse s k a handle false fun w h i e =>
    if e.state = .sent then w.windowEnds h i e else w.offerAlone h a

/-- RESPONSE_WINDOW_EXPIRY (R116): the response timer of an entry in SENT expires; a stopped one does not. -/
def execResponseWindowExpiry (h : Handle) (i : Fin 2) (s : State) : Host.Outcome State Fault Refusal :=
  event s fun w => w.withCall h fun r =>
    match r.far with
    | .floor f => match f.entries[i.val]? with
      | some e =>
        if (r.state = .offering ∨ r.state = .ringing) ∧ e.state = .sent ∧ e.window.isSome then w.windowEnds h i.val e
        else w
      | none => w
    | _ => w

/-! ## DIAL -/

/-- A DIAL from a flat whose call is PENDING pre-answers it, or is refused BUSY if it is pre-answered already (R121). -/
def Work.preAnswer (w : Work) (h : Handle) (k : Floor) (a : Addr) : Work :=
  w.withCall h fun r =>
    match r.far with
    | .floor f =>
      if f.preAnswered then w.sendF k (clearedCell 0 a .busy)
      else
        (w.modCall h fun r => r.modFloor fun f => { f with preAnswered := true, answering := some a }).sendF k
          (statusCell h.val a .queued)
    | _ => w

/-- A DIAL from a handset of an IDLE flat begins a call-down (R127 to R129). -/
def Work.callDown (w : Work) (k : Floor) (a : Addr) (i : SlotNo) : Work :=
  match w.st.freeHandles with
  | [] => (w.sendF k (clearedCell 0 a .tableFull)).raise .tableFull
  | h :: rest =>
    let x := w.st.retained.slots[i]
    ((w.makeCall h rest
      (newCall .down x.callDown (.dialled i) 0 .unopened (.floor (x.capture i (some a))))).setActivity i
      (.originating h)).routeCallDown h x.callDown 0 (.F k)

/-- DIAL (R126). -/
def execDial (k : Floor) (a : Addr) (s : State) : Host.Outcome State Fault Refusal :=
  onFloor s k fun w =>
    match w.st.retained.handset k a with
    | none => w.sendF k (clearedCell 0 a .noSuchApartment)
    | some (i, _) => match w.st.activity[i] with
      | .idle => w.callDown k a i
      | .offered h => w.connectFlat h a
      | .pending h => w.preAnswer h k a
      | .engaged _ | .originating _ => w.sendF k (clearedCell 0 a .busy)

/-! ## HOOK and UNLATCH -/

/-- The call to which a HOOK or an UNLATCH belongs (R143). -/
def State.callOf (s : State) (k : Floor) (a : Addr) : Option Handle :=
  let named := match s.retained.handset k a with
    | some (i, _) => match s.activity[i].handle? with
      | some h => match s.call? h with
        | some r => if r.answering = some a then some h else none
        | none => none
      | none => none
    | none => none
  match named with
  | some h => some h
  | none => allHandles.find? fun h =>
    match s.floorCall k h with
    | some (r, f) => r.state ≠ .clearing && f.answering == some a
    | none => false

/-- HOOK (R144): the call of the handset is released NORMAL; one that matches no call is discarded. -/
def execHook (k : Floor) (a : Addr) (s : State) : Host.Outcome State Fault Refusal :=
  onFloor s k fun w =>
    match w.st.callOf k a with
    | some h => w.release h .normal
    | none => w

/-- The reply to an UNLATCH: the cause of the first test that fails, or none (R152). -/
def State.unlatchRefusal (s : State) (r : CallRecord) : Option Cause :=
  if r.state ≠ .connected then some .notConnected
  else if s.fireMode then some .fireMode
  else match r.origin, r.far with
    | .panel _, .floor f => if s.retained.slots[f.slot].unlatch then none else some .notPermitted
    | _, _ => some .notPermitted

/-- UNLATCH (R152). -/
def execUnlatch (k : Floor) (a : Addr) (s : State) : Host.Outcome State Fault Refusal :=
  onFloor s k fun w =>
    match w.st.callOf k a with
    | none => w.sendF k (statusCell 0 a .unlatchRefused Cause.notConnected.toByte)
    | some h => w.withCall h fun r =>
      match w.st.unlatchRefusal r with
      | some c => w.sendF k (statusCell h.val a .unlatchRefused c.toByte)
      | none =>
        (match r.origin, r.openKey .L with
          | .panel n, some key => w.sendL (unlatchCell key n)
          | _, _ => w).sendF k (statusCell h.val a .unlatchSent)

/-! ## QUIET and RESTART -/

/-- A slot after a QUIET of a level: the level within the ceiling if the flat may set it (R123). -/
def Slot.quieted (x : Slot) (level : Class) : Slot :=
  if x.residentQuiet then { x with quiet := min level x.quietCeiling } else x

/-- QUIET (R123): a level above 7 fails its test (R7). The table lock does not refuse it (R180). -/
def execQuiet (k : Floor) (a : Addr) (level : Byte) (s : State) : Host.Outcome State Fault Refusal :=
  onFloor s k fun w =>
    if h : level.toNat < 8 then
      match w.st.retained.handset k a with
      | none => w
      | some (i, _) =>
        let x := w.st.retained.slots[i].quieted ⟨level.toNat, h⟩
        (w.modState fun s => { s with retained := { s.retained with slots := s.retained.slots.set i x } }).sendF k
          (statusCell 0 a .quietSet (BitVec.ofNat 8 x.quiet.val))
    else w.raise .protocol

/-- HANDSET_RESTART (R7): discarded, and no event is set. -/
def execHandsetRestart (_k : Floor) (_a : Addr) (s : State) : Host.Outcome State Fault Refusal :=
  event s id

end Sys2Proof.Machine
end

