-- ==== Sys2Proof/Machine/Timers.lean ====
section
/-! DEFINITION. The expiries of the timers (chapters 4 to 8), and the passing of time: one timer unit, which is what
the part does when no command waits. An expiry is taken for a timer that runs (assumption 7); one that has stopped
does not expire (R86). -/

namespace Sys2Proof.Machine

/-- The expiry of a record timer of a purpose, in the state whose timer it is. -/
def onExpiry (s : State) (h : Handle) (purpose : Purpose) (k : Work → CallRecord → Work) :
    Host.Outcome State Fault Refusal :=
  event s fun w => w.withCall h fun r => if r.timing purpose then k w r else w

/-- LANE_WAIT_EXPIRY (R68, R70): the entry is removed with cause LANE_TIMEOUT. -/
def execLaneWaitExpiry (h : Handle) (s : State) : Host.Outcome State Fault Refusal :=
  onExpiry s h .laneWait fun w r =>
    if r.state = .waitingLane ∨ r.state = .parked then (w.raise .laneTimeout).release h .laneTimeout else w

/-- AGEING_STEP (R69): s rises, the entry is placed again by its new e, the next step begins unless e is 6, and the
arbiter runs for the entry's port. -/
def execAgeingStep (h : Handle) (s : State) : Host.Outcome State Fault Refusal :=
  event s fun w => w.withCall h fun r =>
    match w.st.waiting.find? fun x => x.handle == h && x.ageing.isSome with
    | some x =>
      let e := effPriority r.cls (x.steps + 1)
      let x' := { x with steps := x.steps + 1, ageing := w.st.ageingStart e }
      let w := w.leaveWaiting h
      (w.setWaiting (w.st.placed x' e w.st.waiting)).run x.port
    | none => w

/-- PROGRESS_WAIT_EXPIRY (R102, R138): the call is cleared toward both sides with cause NO_PROGRESS. -/
def execProgressWaitExpiry (h : Handle) (s : State) : Host.Outcome State Fault Refusal :=
  onExpiry s h .progressWait fun w r => if r.state = .forwarded then w.release h .noProgress else w

/-- GRANT_WAIT_EXPIRY (R138). -/
def execGrantWaitExpiry (h : Handle) (s : State) : Host.Outcome State Fault Refusal :=
  onExpiry s h .grantWait fun w r => if r.state = .awaitingGrant then w.release h .noProgress else w

/-- RING_TIMER_EXPIRY (R119, R135). -/
def execRingTimerExpiry (h : Handle) (s : State) : Host.Outcome State Fault Refusal :=
  onExpiry s h .ringTime fun w r => if r.state = .ringing then w.release h .noAnswer else w

/-- LIMIT_NEAR (R141): the running talk-limit timer reaches its near mark, once; it runs on. -/
def execLimitNear (h : Handle) (s : State) : Host.Outcome State Fault Refusal :=
  onExpiry s h .talkLimit fun w r =>
    match r.timer with
    | some t =>
      if r.state = .connected ∧ t.near.isSome then
        ((w.modCall h fun r => { r with timer := some { t with near := none } }).progressDown r .limitNear).statusTo h
          r .limitNear
      else w
    | none => w

/-- TALK_LIMIT_EXPIRY (R142). -/
def execTalkLimitExpiry (h : Handle) (s : State) : Host.Outcome State Fault Refusal :=
  onExpiry s h .talkLimit fun w r => if r.state = .connected then w.release h .talkLimit else w

/-- GUARD_TIMER_EXPIRY (R148): the record is freed whatever sides are open, and GUARD_EXPIRY is set. -/
def execGuardTimerExpiry (h : Handle) (s : State) : Host.Outcome State Fault Refusal :=
  onExpiry s h .guard fun w r => if r.state = .clearing then (w.freeCall h).raise .guardExpiry else w

/-! ## The passing of time -/

/-- A timer after one unit; it stops short of its expiry, which is a command. -/
def Timer.tick (t : Timer) : Timer := { t with left := t.left - 1, near := t.near.map (· - 1) }

/-- The offer entries after one unit. -/
def OfferEntry.tick (e : OfferEntry) : OfferEntry := { e with window := e.window.map (· - 1) }

/-- A record after one unit. -/
def CallRecord.tick (r : CallRecord) : CallRecord :=
  { r.modFloor fun f => { f with entries := f.entries.map OfferEntry.tick } with timer := r.timer.map Timer.tick }

/-- A count of milliseconds after one unit, up to its bound. -/
def countTick (n bound : Nat) : Nat := min (n + Config.tickMs) bound

/-- A riser interface after one unit: the qualification count of a DOWN link that is aligned, the loss count of an UP
link that is not (R11). -/
def RiserPort.tick (p : RiserPort) : RiserPort :=
  match p.link, p.aligned with
  | .down, true => { p with count := countTick p.count Config.alignMs }
  | .up, false => { p with count := countTick p.count Config.alignMs }
  | _, _ => p

/-- A floor interface after one unit: the fault count of an UP port, the good count of a port in FAULT (R12). -/
def FloorPort.tick (p : FloorPort) : FloorPort :=
  match p.line, p.good with
  | .up, false => { p with count := countTick p.count Config.faultMs }
  | .fault, true => { p with count := countTick p.count Config.goodMs }
  | _, _ => p

/-- One timer unit passes (assumption 6): every running timer and count goes on by 100 ms, and nothing else changes.
A held TOP port H does not qualify (R11). -/
def State.tick (s : State) : State :=
  { s with
    portL := s.portL.tick
    portH := if s.top then s.portH else s.portH.tick
    floors := Vector.ofFn fun k => s.floors[k].tick
    waiting := s.waiting.map fun x => { x with ageing := x.ageing.map (· - 1) }
    calls := Vector.ofFn fun h => s.calls[h].map CallRecord.tick }

end Sys2Proof.Machine
end

