-- ==== Sys2Proof/Machine/Lines.lean ====
section
/-! DEFINITION. The resets and supplies (R13, R184, R185), the line interfaces (R5, R9, R11, R12), and what a line
failure or a neighbour's RESTART does to the calls (chapter 10). -/

namespace Sys2Proof.Machine

/-! ## Resets and supplies -/

/-- The part with its volatile state at its reset values (R13, R41, R42, R47, R63, R80, R103, R139, R165, R180, R182):
the retained contents, the pins read, the framers' alignment and the monitors' reports as given. The cells last put on
the lines, the counter of the free value and the waiting commands are not the part's to reset. -/
def State.restarted (s : State) (d : Retained) (pins : Pins) (alignL alignH : Bool) (good : Floor → Bool) : State :=
  { s with
    pins := pins
    powered := true
    node := pins.node
    top := pins.top
    retained := d
    retentionOk := true
    portL := RiserPort.afterReset alignL s.portL.wire
    portH := RiserPort.afterReset alignH s.portH.wire
    floors := Vector.ofFn fun k => FloorPort.afterReset d.disabled[k] (good k) s.floors[k].wire
    maps := perOwned LaneMap.empty
    mirror := Vector.replicate 12 none
    crosses := []
    waiting := []
    calls := Vector.replicate 48 none
    freeHandles := allHandles
    activity := Vector.replicate 96 .idle
    latch := false
    lineSource := false
    locked := false
    status := EventSets.empty
    resetReq := .none }

/-- The end of a reset: FIRE_LOCAL is set if the local source is active (R165). -/
def State.evaluateFire (s : State) : State :=
  if s.localSource then { s with status := s.status.add .fireLocal } else s

/-- POWER_UP_RESET (R184): the retention memory is checked; held, it keeps its contents, and lost, every item takes its
default and RETENTION_LOST is set. -/
def execPowerUpReset (pins : Pins) (s : State) : Host.Outcome State Fault Refusal :=
  let d := if s.retentionOk then s.retained else Retained.default
  let t := s.restarted d pins false false (fun _ => false)
  .next (if s.retentionOk then t else { t with status := t.status.add .retentionLost }).evaluateFire

/-- A remote reset (R185, R13): as with retention held, without a memory check, the framers keeping their framing. -/
def State.remoteReset (s : State) (pins : Pins) : State :=
  (s.restarted s.retained pins s.portL.aligned s.portH.aligned (fun k => s.floors[k].good)).evaluateFire

/-- REMOTE_RESET (R185): it takes effect once the reply of a RESET has left on the line, and not otherwise. -/
def execRemoteReset (pins : Pins) (s : State) : Host.Outcome State Fault Refusal :=
  .next (if s.powered ∧ s.resetReq = .due then s.remoteReset pins else s)

/-- MAIN_SUPPLY_LOSS (R184): all volatile state is lost; a change being stored leaves retention lost. -/
def execMainSupplyLoss (midStore : Bool) (s : State) : Host.Outcome State Fault Refusal :=
  .next (if s.powered then
    { s.restarted s.retained s.pins false false (fun _ => false) with
      powered := false, retentionOk := s.retentionOk && !midStore }
  else s)

/-- STANDBY_SUPPLY_LOW (R184): while the main supply is off, the contents of the retention memory are lost. -/
def execStandbySupplyLow (s : State) : Host.Outcome State Fault Refusal :=
  .next (if s.powered then s else { s with retentionOk := false })

/-! ## Ending calls on a line event -/

/-- Takes every live record in ascending order of handle (chapter 10). -/
def Work.eachCall (w : Work) (f : Work → Handle → CallRecord → Work) : Work :=
  allHandles.foldl (fun w h => w.withCall h fun r => f w h r) w

/-- Ends the records on a floor port that leaves UP (R167). -/
def Work.endFloorCalls (w : Work) (k : Floor) (c : Cause) : Work :=
  (w.eachCall fun w h r =>
    if r.ownedPort = some (.F k) ∧ r.state ≠ .clearing then w.release h c else w).run (.F k)

/-- A record whose side on a riser port closes without an answer: freed or kept in CLEARING, or released (R169 to R172). -/
def Work.cutCall (w : Work) (h : Handle) (r : CallRecord) (p : Riser) (c : Cause) : Work :=
  if r.state = .clearing then w.closeCleared h p
  else (w.modCall h fun r => r.closeSide p).release h c

/-- Ends the records whose owned port is H, when port H goes DOWN (R169). -/
def Work.endUpperCalls (w : Work) : Work :=
  (w.eachCall fun w h r => if r.ownedPort = some .H then w.cutCall h r .H .linkDown else w).run .H

/-- Ends every record, when port L goes DOWN (R170). -/
def Work.endAllCalls (w : Work) : Work :=
  w.emptyWholeMirror.eachCall fun w h r => w.cutCall h r .L .linkDown

/-- RESTART_FROM_BELOW (R171). -/
def execRestartFromBelow (s : State) : Host.Outcome State Fault Refusal :=
  onRiser s .L fun w =>
    w.emptyWholeMirror.eachCall fun w h r =>
      if (r.openKey .L).isSome then w.cutCall h r .L .neighbourRestart else w

/-- FIRE-ON is announced up port H while the line source is set (R160). -/
def Work.announceFire (w : Work) : Work := if w.st.lineSource then w.sendH fireOnCell else w

/-- RESTART_FROM_ABOVE (R84, R172, R160). A record to which the arbiter granted its H lane before the RESTART has its far
side open and is ended, as R172 says of every such record; the last row of R175 says otherwise (assumption 23). One that
still waits for an H lane is not touched. -/
def execRestartFromAbove (s : State) : Host.Outcome State Fault Refusal :=
  onRiser s .H fun w =>
    (w.eachCall fun w h r =>
      if (r.openKey .H).isSome then w.cutCall h r .H .neighbourRestart else w).announceFire

/-! ## Riser links (R11) -/

/-- Port L's interface is changed. -/
def Work.modPortL (w : Work) (f : RiserPort → RiserPort) : Work :=
  w.modState fun s => { s with portL := f s.portL }

/-- Port H's interface is changed. -/
def Work.modPortH (w : Work) (f : RiserPort → RiserPort) : Work :=
  w.modState fun s => { s with portH := f s.portH }

/-- A riser interface that passes into UP, its queue empty (R11, R14). -/
def RiserPort.raised (p : RiserPort) : RiserPort :=
  { p with link := .up, downMark := false, aligned := true, count := 0, queue := [] }

/-- A riser interface that passes into DOWN (R11). -/
def RiserPort.lowered (p : RiserPort) : RiserPort :=
  { p with link := .down, downMark := true, aligned := false, count := 0, queue := [] }

/-- The notices behind the RESTART of port L: one for each group with an unmasked bit set (R182). -/
def State.pendingNotices (s : State) : List RiserCell :=
  (allGroups.filter fun g => s.status.get g &&& ~~~(s.retained.masks.get g) ≠ 0).map
    fun g => noticeCell s.node g (s.status.get g)

/-- Cells for port L, in order. -/
def Work.sendAllL (w : Work) (cells : List RiserCell) : Work := cells.foldl Work.sendL w

/-- LINK_UP (R11, R14, R160, R182, R72). A link that is UP, and port H of a TOP part, do not qualify. -/
def execLinkUp (p : Riser) (s : State) : Host.Outcome State Fault Refusal :=
  event s fun w =>
    if w.st.riserUp p then w
    else match p with
      | .L =>
        let w := (w.modPortL RiserPort.raised).sendL riserRestart
        w.sendAllL w.st.pendingNotices
      | .H =>
        if w.st.top then w
        else (((w.modPortH RiserPort.raised).sendH riserRestart).announceFire).run .H

/-- A reset takes effect when port L's queue is emptied with the reply of a RESET in it (R185). -/
def State.resetIfEmptied (s : State) : State :=
  match s.resetReq with
  | .replyAt _ => s.remoteReset s.pins
  | _ => s

/-- The part after port L goes DOWN (R11, R170, R185). -/
def State.lowerL (s : State) : State :=
  (((Work.start s).modPortL RiserPort.lowered).raise .linkLDown).endAllCalls.finish.resetIfEmptied

/-- The part after port H goes DOWN (R11, R169). -/
def State.lowerH (s : State) : State :=
  (((Work.start s).modPortH RiserPort.lowered).raise .linkHDown).endUpperCalls.finish

/-- LINK_DOWN (R11, R169, R170). -/
def execLinkDown (p : Riser) (s : State) : Host.Outcome State Fault Refusal :=
  .next (if s.powered && s.riserUp p then
    match p with
    | .L => s.lowerL
    | .H => s.lowerH
  else s)

/-- The framer of a riser port reports its alignment: the count under way starts again from zero (R11). -/
def RiserPort.framed (p : RiserPort) (aligned : Bool) : RiserPort :=
  if p.aligned = aligned then p else { p with aligned := aligned, count := 0 }

/-- The framer of a riser port loses or regains alignment; port H of a TOP part does not qualify (R11). -/
def Work.framer (w : Work) (p : Riser) (aligned : Bool) : Work :=
  match p with
  | .L => w.modPortL fun p => p.framed aligned
  | .H => if w.st.top then w else w.modPortH fun p => p.framed aligned

/-- FRAME_ALIGNMENT_LOSS (R11). -/
def execFrameAlignmentLoss (p : Riser) (s : State) : Host.Outcome State Fault Refusal :=
  event s fun w => w.framer p false

/-- FRAME_ALIGNMENT_RETURN (R11). -/
def execFrameAlignmentReturn (p : Riser) (s : State) : Host.Outcome State Fault Refusal :=
  event s fun w => w.framer p true

/-! ## Floor lines (R12) -/

/-- A floor port's interface is changed. -/
def Work.modFloorPort (w : Work) (k : Floor) (f : FloorPort → FloorPort) : Work :=
  w.modState fun s => { s with floors := s.floors.set k (f s.floors[k]) }

/-- A floor interface in FAULT with its queue emptied (R12). -/
def FloorPort.faulted (p : FloorPort) : FloorPort :=
  { p with line := .fault, faultMark := true, good := false, count := 0, queue := [] }

/-- A floor interface that passes into UP, its queue empty (R12, R14). -/
def FloorPort.raised (p : FloorPort) : FloorPort :=
  { p with line := .up, faultMark := false, good := true, count := 0, queue := [] }

/-- FLOOR_FAULT (R12, R167). -/
def execFloorFault (k : Floor) (s : State) : Host.Outcome State Fault Refusal :=
  event s fun w =>
    if w.st.floorUp k then ((w.modFloorPort k FloorPort.faulted).raise .floorFault).endFloorCalls k .lineFault else w

/-- FLOOR_LINE_GOOD (R12, R14, R72). -/
def execFloorLineGood (k : Floor) (s : State) : Host.Outcome State Fault Refusal :=
  event s fun w =>
    if w.st.floors[k].line = .fault then
      ((w.modFloorPort k FloorPort.raised).sendF k floorRestart).run (.F k)
    else w

/-- A floor interface after a change of the line monitor's report: the count starts again from zero; while DISABLED the
reports are not counted (R12). -/
def FloorPort.reported (p : FloorPort) (good : Bool) : FloorPort :=
  if p.good = good then p else { p with good := good, count := 0 }

/-- LINE_MONITOR_REPORT_CHANGE (R12). -/
def execLineMonitorReportChange (k : Floor) (good : Bool) (s : State) : Host.Outcome State Fault Refusal :=
  event s fun w => w.modFloorPort k fun p => p.reported good

/-! ## Cells on the line -/

/-- A riser interface after it puts its oldest cell on the line. -/
def RiserPort.sent (p : RiserPort) : RiserPort :=
  match p.link, p.queue with
  | .up, c :: rest => { p with queue := rest, wire := c.bytes }
  | _, _ => p

/-- A floor interface after it puts its oldest cell on the line. -/
def FloorPort.sent (p : FloorPort) : FloorPort :=
  match p.line, p.queue with
  | .up, c :: rest => { p with queue := rest, wire := c.bytes }
  | _, _ => p

/-- A RESET's wait after one cell has left port L's queue (R185). -/
def ResetRequest.advance : ResetRequest → ResetRequest
  | .replyAt 0 => .due
  | .replyAt (n + 1) => .replyAt n
  | r => r

/-- TRANSMIT_CELL (R9): a port in UP puts the oldest cell of its queue on the line, with its check word (R5), and
removes it. -/
def execTransmitCell (p : Port) (s : State) : Host.Outcome State Fault Refusal :=
  event s fun w => w.modState fun s =>
    match p with
    | .L =>
      { s with portL := s.portL.sent,
               resetReq := if s.riserUp .L ∧ s.portL.queue ≠ [] then s.resetReq.advance else s.resetReq }
    | .H => { s with portH := s.portH.sent }
    | .F k => { s with floors := s.floors.set k s.floors[k].sent }

/-- CELL_CHECK_FAILED (R5): the bytes that the framer assembled fail their check, and CELL_CHECK is set. Bytes whose
check passes but whose kind, or progress code, is none that may arrive are discarded with PROTOCOL (R6, R7); bytes that
spell a command arrive as that command. A port that is not UP discards them unseen (R8), and what comes while a riser
port is not aligned is lost (R11). -/
def execCellCheckFailed (p : Port) (bytes : List Byte) (s : State) : Host.Outcome State Fault Refusal :=
  event s fun w =>
    if w.st.hears p then
      match receive p bytes with
      | .checkFailed => w.raise .cellCheck
      | .wrongKind => w.raise .protocol
      | .command _ => w
    else w

end Sys2Proof.Machine
end

