-- ==== Sys2Proof/Machine/Items.lean ====
section
/-! DEFINITION. The items that management reads and writes (Table 11-1): which field a request names (R177 step 1), the
value a READ returns (R178), and what a WRITE does at the field's owner (R33 to R39, R49, R50, R68, R87, R110, R130,
R140, R157). -/

namespace Sys2Proof.Machine

/-! ## Fields -/

/-- An ordinary or an exception window. -/
inductive WindowRef | ordinary (i : Fin 8) | exception (i : Fin 4)
  deriving DecidableEq, Repr

/-- The written settings of an owned port. -/
inductive SettingField | fire | priority | threshold
  deriving DecidableEq, Repr

/-- The written timer settings. -/
inductive TimerField | window | ring | laneWait | grantWait | progressWait | ageing
  deriving DecidableEq, Repr

/-- The read-only values of the fire settings item. -/
inductive FireField | level | latch | localSource | lineSource | fireMode
  deriving DecidableEq, Repr

/-- A field of an item (Table 11-1). The fields of a call record, a wait list entry and an interface keep the table's
numbers. -/
inductive FieldRef
  | window (x : WindowRef) (f : WindowField)
  | slot (i : SlotNo) (f : SlotField)
  | activity (i : SlotNo)
  | ceiling (n : Fin 16)
  | setting (p : Owned) (f : SettingField)
  | laneCount (p : Owned)
  | timer (f : TimerField)
  | guardTime
  | talkLimit (c : Class)
  | senseMode
  | fireClass
  | fire (f : FireField)
  | service
  | tableLock
  | status (g : Group)
  | mask (g : Group)
  | call (h : Handle) (f : Fin 21)
  | mirror (l : LLane)
  | lane (p : Owned) (i : Nat)
  | order (p : Owned) (i : Nat)
  | freeCount (p : Owned)
  | wait (pos : Fin 16) (f : Fin 7)
  | interface (p : Port) (f : Fin 4)
  deriving DecidableEq, Repr

/-- A number below a bound, as an index. -/
def index (n v : Nat) : Option (Fin n) := if h : v < n then some ⟨v, h⟩ else none

/-- The window field of a number. -/
def WindowField.ofCode : Nat → Option WindowField
  | 0 => some .base | 1 => some .limit | 2 => some .target
  | _ => none

/-- The slot field of a number below 10. -/
def SlotField.ofCode : Nat → Option SlotField
  | 0 => some .number | 1 => some .port | 2 => some .main | 3 => some .ext | 4 => some .mode | 5 => some .quiet
  | 6 => some .quietCeiling | 7 => some .residentQuiet | 8 => some .callDown | 9 => some .unlatch
  | _ => none

/-- The timer setting of a number below 6. -/
def TimerField.ofCode : Nat → Option TimerField
  | 0 => some .window | 1 => some .ring | 2 => some .laneWait | 3 => some .grantWait | 4 => some .progressWait
  | 5 => some .ageing
  | _ => none

/-- The fire settings field of a number. -/
def fireFieldRef : Nat → Option FieldRef
  | 0 => some .senseMode | 1 => some .fireClass | 2 => some (.fire .level) | 3 => some (.fire .latch)
  | 4 => some (.fire .localSource) | 5 => some (.fire .lineSource) | 6 => some (.fire .fireMode)
  | _ => none

/-- The event group of an index (R19). -/
def Group.ofCode : Nat → Option Group
  | 0 => some .system | 1 => some .call | 2 => some .line
  | _ => none

/-- The lane map field of a number on an owned port: lanes 0 to N−1, the grant order at 16 to 16+N−1, the free count at
31. -/
def laneFieldRef (p : Owned) (f : Nat) : Option FieldRef :=
  if f < laneCount p then some (.lane p f)
  else if 16 ≤ f ∧ f < 16 + laneCount p then some (.order p (f - 16))
  else if f = 31 then some (.freeCount p)
  else none

/-- The field that the item, field and index bytes of a READ, WRITE or UPDATE name; `none` where an item code, index or
field number is outside its range (R177 step 1, Table 11-1). -/
def fieldRef (item field i : Nat) : Option FieldRef :=
  match item with
  | 1 => do some (.window (.ordinary (← index 8 i)) (← WindowField.ofCode field))
  | 2 => do some (.window (.exception (← index 4 i)) (← WindowField.ofCode field))
  | 3 => do
    let n ← index 96 i
    if field = 10 then some (.activity n) else some (.slot n (← SlotField.ofCode field))
  | 4 => do if field = 0 then some (.ceiling (← index 16 i)) else none
  | 5 => do
    let p ← (← Port.ofNumber i).owned
    match field with
    | 0 => some (.setting p .fire) | 1 => some (.setting p .priority) | 2 => some (.setting p .threshold)
    | 3 => some (.laneCount p)
    | _ => none
  | 6 => do
    if i ≠ 0 then none
    else if field = 6 then some .guardTime
    else some (.timer (← TimerField.ofCode field))
  | 7 => do if field = 0 then some (.talkLimit (← index 8 i)) else none
  | 8 => if i = 0 then fireFieldRef field else none
  | 9 => if i ≠ 0 then none else match field with
    | 0 => some .service
    | 1 => some .tableLock
    | _ => none
  | 10 => do
    let g ← Group.ofCode i
    match field with
    | 0 => some (.status g)
    | 1 => some (.mask g)
    | _ => none
  | 11 => do some (.call (← index 48 i) (← index 21 field))
  | 12 => do
    match ← Port.ofNumber i with
    | .L => some (.mirror (← index 12 field))
    | .H => laneFieldRef .H field
    | .F k => laneFieldRef (.F k) field
  | 13 => do some (.wait (← index 16 i) (← index 7 field))
  | 14 => do some (.interface (← Port.ofNumber i) (← index 4 field))
  | _ => none

/-! ## Values -/

/-- Sense mode codes (R157). -/
def SenseMode.code : SenseMode → Nat
  | .ignore => 0 | .levelLow => 1 | .levelHigh => 2 | .riseLatch => 3 | .fallLatch => 4

/-- The sense mode of a code (R157). -/
def SenseMode.ofCode : Nat → Option SenseMode
  | 0 => some .ignore | 1 => some .levelLow | 2 => some .levelHigh | 3 => some .riseLatch | 4 => some .fallLatch
  | _ => none

/-- Service state codes (R181). -/
def Service.code : Service → Nat
  | .inService => 0
  | .outOfService => 1

/-- Activity: its code in the high byte, the handle in the low byte (section 2.7). -/
def Activity.value : Activity → Nat
  | .idle => 0
  | .pending h => 256 + h.val
  | .offered h => 512 + h.val
  | .engaged h => 768 + h.val
  | .originating h => 1024 + h.val

/-- Record state codes (R178). -/
def CallState.code : CallState → Nat
  | .waitingLane => 0 | .awaitingGrant => 1 | .forwarded => 2 | .offering => 3 | .ringing => 4 | .connected => 5
  | .parked => 6 | .clearing => 7

/-- A key with its setup side in the high byte, or 65535 for a side that is not open (R178). -/
def keyValue : Option Key → Nat
  | some k => (match k.side with | .low => 0 | .high => 256) + k.ref.val
  | none => 65535

/-- An offer entry: address, then state times 4 plus retry count; 65535 where it does not exist (R178). -/
def entryValue : Option OfferEntry → Nat
  | some e => e.addr.val * 256 + (match e.state with
      | .sent => 0 | .alerting => 1 | .refused => 2 | .absent => 3 | .answered => 4) * 4 + e.retries
  | none => 65535

/-- Record timer purpose codes (R178). -/
def purposeCode : Option Timer → Nat
  | none => 0
  | some t => match t.purpose with
    | .laneWait => 1 | .grantWait => 2 | .progressWait => 3 | .ringTime => 4 | .talkLimit => 5 | .guard => 6

/-- The sides of a record that await RELEASE-DONE: bit 0 the low side, bit 1 the far side (R178). -/
def CallRecord.awaiting (r : CallRecord) : Nat :=
  if r.state = .clearing then (r.openKey .L).isSome.toNat + 2 * (r.openKey .H).isSome.toNat else 0

/-- The origin of a record: the panel, the apartment number, the slot of a dialling apartment, or the origin word of a
call from the fire position (R83, assumption 12). -/
def Origin.value : Origin → Nat
  | .panel n => n.val
  | .apartment n => n.toNat
  | .dialled i => i.val
  | .firePosition w => w.toNat

/-- A field of a live record (Table 11-1 item 11, R178). `free` stands for the time left where no timer runs, which the
manual does not state (assumption 5). -/
def CallRecord.read (r : CallRecord) (f : Nat) (free : Nat) : Nat :=
  let x := r.far.floor?
  match f with
  | 0 => r.state.code
  | 1 => match r.dir with
    | .up => 0
    | .down => 1
  | 2 => r.cls.val
  | 3 => r.origin.kind.toNat
  | 4 => r.origin.value
  | 5 => r.dest.toNat
  | 6 => keyValue (r.openKey .L)
  | 7 => (r.lLane.map Fin.val).getD 255
  | 8 => r.heldBelow.toNat
  | 9 => match r.far with
    | .none => 0
    | .floor _ => 1
    | .high _ => 2
  | 10 => keyValue (r.openKey .H)
  | 11 => r.ownedLane.getD 255
  | 12 => addrCode r.answering
  | 13 => (x.map FloorSide.preAnswered).getD false |>.toNat
  | 14 => entryValue (x.bind fun f => f.entries[0]?)
  | 15 => entryValue (x.bind fun f => f.entries[1]?)
  | 16 => purposeCode r.timer
  | 17 => (r.timer.map Timer.left).getD free
  | 18 => r.talkOwner.toNat
  | 19 => (r.pendingCause.map fun c => c.toByte.toNat).getD 255
  | _ => r.awaiting

/-- A lane's state in the high byte and its holder, or 255, in the low byte (R178). -/
def LaneState.value : LaneState → Nat
  | .free => 255
  | .held h => 256 + h.val
  | .pendingOut h => 512 + h.val
  | .out => 768 + 255

/-- A field of a wait list entry (Table 11-1 item 13, R78). -/
def State.readWait (s : State) (x : WaitEntry) (f : Nat) : Nat :=
  match f with
  | 0 => x.handle.val
  | 1 => match (s.call? x.handle).map CallRecord.state with
    | some .parked => 1
    | _ => 0
  | 2 => x.port.port.number
  | 3 => ((s.call? x.handle).map fun r => r.cls.val).getD 0
  | 4 => x.steps
  | 5 => s.entryPriority x
  | _ => (((s.call? x.handle).bind CallRecord.timer).map Timer.left).getD 0

/-- A field of a line interface (Table 11-1 item 14). -/
def State.readInterface (s : State) (p : Port) (f : Nat) : Nat :=
  match p with
  | .L | .H =>
    let x := match p with
      | .L => s.portL
      | _ => s.portH
    match f with
    | 0 => match x.link with
      | .down => 0
      | .up => 1
    | 1 => x.downMark.toNat
    | 2 => x.queue.length
    | _ => 0
  | .F k =>
    let x := s.floors[k]
    match f with
    | 0 => match x.line with
      | .up => 0
      | .fault => 1
      | .disabled => 2
    | 1 => x.faultMark.toNat
    | 2 => x.queue.length
    | _ => s.retained.disabled[k].toNat

/-- A read-only value of the fire settings item (R157). -/
def State.readFire (s : State) : FireField → Bool
  | .level => s.pins.fireHigh
  | .latch => s.latch
  | .localSource => s.localSource
  | .lineSource => s.lineSource
  | .fireMode => s.fireMode

/-- A written setting of an owned port. -/
def PortSettings.read (x : PortSettings) : SettingField → Nat
  | .fire => x.fire
  | .priority => x.priority
  | .threshold => x.threshold

/-- A written timer setting. -/
def TimerSettings.read (x : TimerSettings) : TimerField → Nat
  | .window => x.window
  | .ring => x.ring
  | .laneWait => x.laneWait
  | .grantWait => x.grantWait
  | .progressWait => x.progressWait
  | .ageing => x.ageing

/-- The window of a reference. -/
def Retained.window (d : Retained) : WindowRef → Window
  | .ordinary i => d.ordinary[i]
  | .exception i => d.exceptions[i]

/-- The free value of the next reply that needs one (assumption 5). -/
def State.freeValue (s : State) : Nat := (Config.freeWord s.freeIndex).toNat

/-- The present value of a field; `none` for a call record that is not live and a wait list position that holds no
entry, which a READ answers NO_ITEM (R178). -/
def State.readField (s : State) : FieldRef → Option Nat
  | .window x f => some ((s.retained.window x).read f)
  | .slot i f => some (s.retained.slots[i].read f)
  | .activity i => some s.activity[i].value
  | .ceiling n => some s.retained.ceilings[n].val
  | .setting p f => some ((s.settings p).read f)
  | .laneCount p => some (Sys2Proof.Machine.laneCount p)
  | .timer f => some (s.retained.timers.read f)
  | .guardTime => some Config.guardTime
  | .talkLimit c => some s.retained.talkLimits[c]
  | .senseMode => some s.retained.sense.code
  | .fireClass => some s.retained.fireClass.val
  | .fire f => some (s.readFire f).toNat
  | .service => some s.retained.service.code
  | .tableLock => some s.locked.toNat
  | .status g => some (s.status.get g).toNat
  | .mask g => some (s.retained.masks.get g).toNat
  | .call h f => (s.call? h).map fun r => r.read f.val s.freeValue
  | .mirror l => some ((s.mirror[l].map Fin.val).getD 255)
  | .lane p i => some (s.laneState p i).value
  | .order p i => some (((s.map p).order[i]?).getD 255)
  | .freeCount p => some (s.freeCount p)
  | .wait pos f => (s.waiting[pos.val]?).map fun x => s.readWait x f.val
  | .interface p f => some (s.readInterface p f.val)

/-- The present value in a reply: a free value where no record, or no entry, has one (assumption 5). -/
def State.presentValue (s : State) (f : FieldRef) : Nat := (s.readField f).getD s.freeValue

/-! ## Writes -/

/-- A value clamped to a range. -/
def clampTo (lo hi v : Nat) : Nat := max lo (min v hi)

/-- The range of a timer setting (R50, R68, R87, R110, R130). -/
def TimerField.range : TimerField → Nat × Nat
  | .window => (2, 20)
  | .ring => (50, 600)
  | .laneWait => (10, 600)
  | .grantWait => (5, 100)
  | .progressWait => (10, 200)
  | .ageing => (0, 255)

/-- A timer setting stored. -/
def TimerSettings.store (x : TimerSettings) (f : TimerField) (v : Nat) : TimerSettings :=
  match f with
  | .window => { x with window := v }
  | .ring => { x with ring := v }
  | .laneWait => { x with laneWait := v }
  | .grantWait => { x with grantWait := v }
  | .progressWait => { x with progressWait := v }
  | .ageing => { x with ageing := v }

/-- A port setting stored after its clamps, with the result (R49). -/
def PortSettings.write (x : PortSettings) (n : Nat) (f : SettingField) (v : Nat) : Result × PortSettings :=
  match f with
  | .fire =>
    let fire := min v (n - 1)
    let priority := min x.priority (n - 1 - fire)
    (if fire = v ∧ priority = x.priority then .done else .clamped, { x with fire := fire, priority := priority })
  | .priority =>
    let priority := min v (n - 1 - x.fire)
    (storedResult v priority, { x with priority := priority })
  | .threshold =>
    let t := clampTo 1 7 v
    (storedResult v t, { x with threshold := t })

/-- A talk limit after its clamps (R140). -/
def clampTalk (v : Nat) : Nat := if v = 0 then 0 else clampTo 100 6000 v

/-- A change of the retained contents. -/
def Work.modRetained (w : Work) (f : Retained → Retained) : Work :=
  w.modState fun s => { s with retained := f s.retained }

/-- What a write of the ageing period does to the steps under way: 0 ends them, and a period written while it is 0
begins one for every waiting record whose e is below 6 (R50, R69). -/
def Work.rewriteAgeing (w : Work) (before after : Nat) : Work :=
  if after = 0 then w.setWaiting (w.st.waiting.map fun x => { x with ageing := none })
  else if before = 0 then
    w.setWaiting (w.st.waiting.map fun x => { x with ageing := w.st.ageingStart (w.st.entryPriority x) })
  else w

/-- A window replaced. -/
def Retained.setWindow (d : Retained) (x : WindowRef) (v : Window) : Retained :=
  match x with
  | .ordinary i => { d with ordinary := d.ordinary.set i v }
  | .exception i => { d with exceptions := d.exceptions.set i v }

/-- A write of a field at its owner, with its result; a read-only field is refused BAD_VALUE (R178). -/
def Work.writeField (w : Work) (ref : FieldRef) (v : Nat) : Work × Result :=
  let s := w.st
  match ref with
  | .window x f =>
    let y := (s.retained.window x).write f v
    (w.modRetained fun d => d.setWindow x y.2, y.1)
  | .slot i f =>
    let y := s.writeSlot i f v
    (w.modRetained fun d => { d with slots := d.slots.set i y.2 }, y.1)
  | .ceiling n =>
    (w.modRetained fun d => { d with ceilings := d.ceilings.set n (clampClass v) }, storedResult v (clampClass v).val)
  | .setting p f =>
    let y := (s.settings p).write (Sys2Proof.Machine.laneCount p) f v
    let w := w.modRetained fun d => { d with settings := d.settings.set p.idx y.2 }
    (if f = .threshold then w else w.run p, y.1)
  | .timer f =>
    let t := clampTo f.range.1 f.range.2 v
    let w := w.modRetained fun d => { d with timers := d.timers.store f t }
    (if f = .ageing then w.rewriteAgeing s.retained.timers.ageing t else w, storedResult v t)
  | .talkLimit c =>
    (w.modRetained fun d => { d with talkLimits := d.talkLimits.set c (clampTalk v) }, storedResult v (clampTalk v))
  | .senseMode => match SenseMode.ofCode v with
    | some m => (w.changeSources fun s => { s with retained := { s.retained with sense := m }, latch := false }, .done)
    | none => (w, .badValue)
  | .fireClass =>
    (w.modRetained fun d => { d with fireClass := clampClass v }, storedResult v (clampClass v).val)
  | .activity _ | .laneCount _ | .guardTime | .fire _ | .service | .tableLock | .status _ | .mask _ | .call _ _
  | .mirror _ | .lane _ _ | .order _ _ | .freeCount _ | .wait _ _ | .interface _ _ => (w, .badValue)

/-- A field that management may only read (Table 11-1). -/
def FieldRef.readOnly : FieldRef → Bool
  | .window .. | .slot .. | .ceiling .. | .setting .. | .timer .. | .talkLimit .. | .senseMode | .fireClass => false
  | .activity _ | .laneCount _ | .guardTime | .fire _ | .service | .tableLock | .status _ | .mask _ | .call _ _
  | .mirror _ | .lane _ _ | .order _ _ | .freeCount _ | .wait _ _ | .interface _ _ => true

end Sys2Proof.Machine
end

