-- ==== Sys2Proof/Machine/Mgmt.lean ====
section
/-! DEFINITION. The commands of the management cells (chapter 11): which switch takes a request (R176), the order of
its tests (R177), the twelve operations and their replies. -/

namespace Sys2Proof.Machine

/-! ## Requests and replies -/

/-- The reply to a request taken by this switch: its node number, the request's operation, item, field and index, a
result and a value (R177). -/
def replyCell (node : Fin 16) (op : MgmtOp) (q : Request) (r : Result) (value : Nat) : RiserCell :=
  .mgmt .reply op.toByte
    { node := BitVec.ofNat 8 node.val, item := q.item, field := q.field, index := q.index, result := r.toByte,
      value := BitVec.ofNat 16 value, expected := 0, spare := 0 }

/-- A reply placed down port L. -/
def Work.reply (w : Work) (op : MgmtOp) (q : Request) (r : Result) (value : Nat) : Work :=
  w.sendL (replyCell w.st.node op q r value)

/-- The operations that the table lock refuses (R177 step 2, R180). -/
def lockable : MgmtOp → Bool
  | .write | .update | .laneOut | .laneIn | .portDisable | .portEnable | .setService => true
  | .read | .clearEvents | .setMasks | .lock | .reset => false

/-- The lock test of an operation (R177 step 2): refused LOCKED with WRITE_REFUSED_LOCKED, or taken. -/
def Work.ifUnlocked (w : Work) (op : MgmtOp) (q : Request) (k : Work → Work) : Work :=
  if lockable op && w.st.locked then (w.raise .writeRefusedLocked).reply op q .locked 0 else k w

/-- A free value has been drawn by a reply (assumption 5). -/
def Work.drawFree (w : Work) : Work := w.modState fun s => { s with freeIndex := s.freeIndex + 1 }

/-! ## Operations on items -/

/-- READ (R177, R178). -/
def Work.readOp (w : Work) (q : Request) : Work :=
  match fieldRef q.item.toNat q.field.toNat q.index.toNat with
  | none => w.reply .read q .noItem 0
  | some f => match w.st.readField f with
    | none => w.reply .read q .noItem 0
    | some v => (w.reply .read q .done v).drawFree

/-- WRITE (R177, R178): the value stored, or the present value where the write is refused. -/
def Work.writeOp (w : Work) (q : Request) : Work :=
  match fieldRef q.item.toNat q.field.toNat q.index.toNat with
  | none => w.reply .write q .noItem 0
  | some f => w.ifUnlocked .write q fun w =>
    let x := w.writeField f q.value.toNat
    (x.1.reply .write q x.2 (x.1.st.presentValue f)).drawFree

/-- UPDATE (R40, R178): the compare and the write as one event; the value is the field's old value. A read-only field
is refused whatever the compare would show. -/
def Work.updateOp (w : Work) (q : Request) : Work :=
  match fieldRef q.item.toNat q.field.toNat q.index.toNat with
  | none => w.reply .update q .noItem 0
  | some f => w.ifUnlocked .update q fun w =>
    let old := w.st.presentValue f
    if !f.readOnly && old ≠ q.expected.toNat then w.reply .update q .compareFailed old
    else
      let x := w.writeField f q.value.toNat
      (x.1.reply .update q x.2 old).drawFree

/-! ## Event groups -/

/-- The cause of an event is present (R183). -/
def State.causePresent (s : State) (e : Event) : Bool :=
  match e with
  | .linkLDown => s.portL.link == .down && s.portL.downMark
  | .linkHDown => s.portH.link == .down && s.portH.downMark
  | .floorFault => s.floors.toList.any fun p => p.line == .fault && p.faultMark
  | .fireLocal => s.localSource
  | .fireLine => s.lineSource
  | _ => false

/-- The events whose cause can still be present (R183). -/
def lastingEvents : List Event := [.fireLocal, .fireLine, .linkLDown, .linkHDown, .floorFault]

/-- Named bits set again because their cause is present (R183). -/
def Work.setAgain (w : Work) (g : Group) (named : Word) : Work :=
  lastingEvents.foldl
    (fun w e => if e.group = g ∧ named &&& e.mask ≠ 0 ∧ w.st.causePresent e then w.raise e else w) w

/-- CLEAR-EVENTS (R183). -/
def Work.clearEventsOp (w : Work) (q : Request) : Work :=
  match Group.ofCode q.index.toNat with
  | none => w.reply .clearEvents q .noItem 0
  | some g =>
    let w := (w.modState fun s => { s with status := s.status.set g (s.status.get g &&& ~~~q.value) }).setAgain g q.value
    w.reply .clearEvents q .done ((w.st.status.union w.raised).get g).toNat

/-- SET-MASKS (R182): bits that name no event are stored as 0. -/
def Work.setMasksOp (w : Work) (q : Request) : Work :=
  match Group.ofCode q.index.toNat with
  | none => w.reply .setMasks q .noItem 0
  | some g =>
    (w.modRetained fun d => { d with masks := d.masks.set g (q.value &&& g.named) }).reply .setMasks q .done
      (q.value &&& g.named).toNat

/-! ## Lanes and ports -/

/-- An operation on a port named by the index (R177 step 1, R179). -/
def Work.portOp (w : Work) (op : MgmtOp) (q : Request) (k : Work → Port → Work) : Work :=
  match Port.ofNumber q.index.toNat with
  | none => w.reply op q .noItem 0
  | some p => w.ifUnlocked op q fun w => k w p

/-- A lane's out-of-service mark is set or cleared (R43). -/
def Work.setMark (w : Work) (p : Owned) (i : Nat) (b : Bool) : Work :=
  w.modRetained fun d => { d with outMarks := d.outMarks.set p.idx (d.outMarks[p.idx].set i b) }

/-- The lane that LANE-OUT or LANE-IN names by the field byte, on an owned port (R61, R62, R179). -/
def laneNamed (p : Port) (q : Request) : Option (Owned × Nat) :=
  match p.owned with
  | some o => if q.field.toNat < laneCount o then some (o, q.field.toNat) else none
  | none => none

/-- LANE-OUT (R61). -/
def Work.laneOutOp (w : Work) (q : Request) : Work :=
  w.portOp .laneOut q fun w p =>
    match laneNamed p q with
    | some (o, i) => (w.setMark o i true).reply .laneOut q .done 0
    | none => w.reply .laneOut q .badValue 0

/-- LANE-IN (R62): the arbiter runs where an OUT lane became FREE. -/
def Work.laneInOp (w : Work) (q : Request) : Work :=
  w.portOp .laneIn q fun w p =>
    match laneNamed p q with
    | some (o, i) =>
      let wasOut := w.st.laneState o i = .out
      let w := (w.setMark o i false).reply .laneIn q .done 0
      if wasOut then w.run o else w
    | none => w.reply .laneIn q .badValue 0

/-- The retained disabled mark of a floor port (R12). -/
def Work.setDisabled (w : Work) (k : Floor) (b : Bool) : Work :=
  w.modRetained fun d => { d with disabled := d.disabled.set k b }

/-- A floor port goes to DISABLED, and its calls end PORT_DISABLED (R12, R167). -/
def Work.disablePort (w : Work) (k : Floor) : Work :=
  let ends := w.st.floorUp k
  let w := (w.modFloorPort k fun p =>
    { p with line := .disabled, faultMark := false, count := 0, queue := [] }).setDisabled k true
  if ends then w.endFloorCalls k .portDisabled else w

/-- PORT-DISABLE (R12, R167, R179). -/
def Work.portDisableOp (w : Work) (q : Request) : Work :=
  w.portOp .portDisable q fun w p =>
    match p with
    | .F k =>
      (if w.st.floors[k].line = .disabled then w else w.disablePort k).reply .portDisable q .done 0
    | _ => w.reply .portDisable q .badValue 0

/-- A DISABLED floor port goes to FAULT with its fault mark clear, and starts counting the good line from zero (R12). -/
def Work.enablePort (w : Work) (k : Floor) : Work :=
  (w.modFloorPort k fun p => { p with line := .fault, faultMark := false, count := 0 }).setDisabled k false

/-- PORT-ENABLE (R12, R179). -/
def Work.portEnableOp (w : Work) (q : Request) : Work :=
  w.portOp .portEnable q fun w p =>
    match p with
    | .F k =>
      (if w.st.floors[k].line = .disabled then w.enablePort k else w).reply .portEnable q .done 0
    | _ => w.reply .portEnable q .badValue 0

/-! ## Service, lock, reset -/

/-- SET-SERVICE (R181). -/
def Work.setServiceOp (w : Work) (q : Request) : Work :=
  w.ifUnlocked .setService q fun w =>
    match q.value.toNat with
    | 0 => (w.modRetained fun d => { d with service := .inService }).reply .setService q .done 0
    | 1 => (w.modRetained fun d => { d with service := .outOfService }).reply .setService q .done 0
    | _ => w.reply .setService q .badValue 0

/-- LOCK (R180). -/
def Work.lockOp (w : Work) (q : Request) : Work :=
  (w.modState fun s => { s with locked := true }).reply .lock q .done 0

/-- RESET (R185): its reply is placed; where the queue has room for it, the reset waits until it has left. -/
def Work.resetOp (w : Work) (q : Request) : Work :=
  (w.modState fun s =>
    { s with resetReq := if s.resetReq = .none then .replyAt s.portL.queue.length else s.resetReq }).reply .reset q
    .done 0

/-- A request of this operation, taken by this switch (R177). -/
def Work.serve (w : Work) (op : MgmtOp) (q : Request) : Work :=
  match op with
  | .read => w.readOp q
  | .write => w.writeOp q
  | .update => w.updateOp q
  | .clearEvents => w.clearEventsOp q
  | .setMasks => w.setMasksOp q
  | .laneOut => w.laneOutOp q
  | .laneIn => w.laneInOp q
  | .portDisable => w.portDisableOp q
  | .portEnable => w.portEnableOp q
  | .setService => w.setServiceOp q
  | .lock => w.lockOp q
  | .reset => w.resetOp q

/-! ## Reaching a node (R176) -/

/-- A request that this switch does not take is forwarded unchanged up port H, or discarded at a TOP part. -/
def Work.forwardRequest (w : Work) (op : Byte) (q : Request) : Work :=
  if w.st.top then w else w.sendH (.mgmt .request op q)

/-- This switch takes requests of this node field: its own number, from 1 to 15. -/
def State.isMine (s : State) (node : Byte) : Bool := decide (node.toNat = s.node.val ∧ s.node.val ≠ 0)

/-- A request on port L of a given operation (R176): malformed, taken, or forwarded. -/
def onRequest (s : State) (op : MgmtOp) (q : Request) (f : Work → Work) : Host.Outcome State Fault Refusal :=
  onRiser s .L fun w =>
    if 15 < q.node.toNat then w.raise .mgmtError
    else if w.st.isMine q.node then f w
    else w.forwardRequest op.toByte q

/-- A RESET taken by a switch whose port L queue has no room for the reply: the reply is discarded, so the reset takes
effect in the same event (R185). `t` is the state at the end of the event that began in `s`. -/
def State.resetAtOnce (s : State) (q : Request) (t : State) : State :=
  if s.powered ∧ s.receives .L ∧ s.isMine q.node ∧ Config.queueDepth ≤ s.portL.queue.length then t.remoteReset t.pins
  else t

/-- MGMT_REQUEST_FORWARD (R176): a MGMT-REQUEST of any operation byte. On port H it fails the port test (R6). -/
def execMgmtRequestForward (p : Riser) (op : Byte) (q : Request) (s : State) : Host.Outcome State Fault Refusal :=
  match onlyFromBelow s p .mgmtError fun w =>
    match MgmtOp.ofByte op with
    | none => w.raise .mgmtError
    | some o =>
      if 15 < q.node.toNat then w.raise .mgmtError
      else if w.st.isMine q.node then w.serve o q
      else w.forwardRequest op q with
  | .next t => .next (if p = .L ∧ MgmtOp.ofByte op = some .reset then s.resetAtOnce q t else t)
  | r => r

/-- MGMT_RELAY_DOWN (R176): a reply or notice from above is relayed unchanged; on port L it fails the port test (R6). -/
def execMgmtRelayDown (p : Riser) (notice : Bool) (op : Byte) (q : Request) (s : State) :
    Host.Outcome State Fault Refusal :=
  onRiser s p fun w => match p with
    | .H => w.sendL (.mgmt (if notice then .notice else .reply) op q)
    | .L => w.raise .mgmtError

/-- READ. -/
def execRead (q : Request) (s : State) : Host.Outcome State Fault Refusal := onRequest s .read q fun w => w.readOp q

/-- WRITE. -/
def execWrite (q : Request) (s : State) : Host.Outcome State Fault Refusal := onRequest s .write q fun w => w.writeOp q

/-- UPDATE. -/
def execUpdate (q : Request) (s : State) : Host.Outcome State Fault Refusal :=
  onRequest s .update q fun w => w.updateOp q

/-- CLEAR_EVENTS. -/
def execClearEvents (q : Request) (s : State) : Host.Outcome State Fault Refusal :=
  onRequest s .clearEvents q fun w => w.clearEventsOp q

/-- SET_MASKS. -/
def execSetMasks (q : Request) (s : State) : Host.Outcome State Fault Refusal :=
  onRequest s .setMasks q fun w => w.setMasksOp q

/-- LANE_OUT. -/
def execLaneOut (q : Request) (s : State) : Host.Outcome State Fault Refusal :=
  onRequest s .laneOut q fun w => w.laneOutOp q

/-- LANE_IN. -/
def execLaneIn (q : Request) (s : State) : Host.Outcome State Fault Refusal :=
  onRequest s .laneIn q fun w => w.laneInOp q

/-- PORT_DISABLE. -/
def execPortDisable (q : Request) (s : State) : Host.Outcome State Fault Refusal :=
  onRequest s .portDisable q fun w => w.portDisableOp q

/-- PORT_ENABLE. -/
def execPortEnable (q : Request) (s : State) : Host.Outcome State Fault Refusal :=
  onRequest s .portEnable q fun w => w.portEnableOp q

/-- SET_SERVICE. -/
def execSetService (q : Request) (s : State) : Host.Outcome State Fault Refusal :=
  onRequest s .setService q fun w => w.setServiceOp q

/-- LOCK. -/
def execLock (q : Request) (s : State) : Host.Outcome State Fault Refusal := onRequest s .lock q fun w => w.lockOp q

/-- RESET (R185), with the reset in the same event where its reply is discarded. -/
def execReset (q : Request) (s : State) : Host.Outcome State Fault Refusal :=
  match onRequest s .reset q fun w => w.resetOp q with
  | .next t => .next (s.resetAtOnce q t)
  | r => r

end Sys2Proof.Machine
end

