-- ==== Sys2Proof/Machine/Dispatch.lean ====
section
/-! DEFINITION. One arm for each command, in the order of `Instr`: each calls the command's meaning. -/

namespace Sys2Proof.Machine

/-- The effect of a command on everything but the queue of waiting commands. -/
def exec (i : Instr) (s : State) : Host.Outcome State Fault Refusal :=
  match i with
  | .powerUpReset pins => Sys2Proof.Machine.execPowerUpReset pins s
  | .remoteReset pins => Sys2Proof.Machine.execRemoteReset pins s
  | .linkUp p => Sys2Proof.Machine.execLinkUp p s
  | .linkDown p => Sys2Proof.Machine.execLinkDown p s
  | .floorFault k => Sys2Proof.Machine.execFloorFault k s
  | .floorLineGood k => Sys2Proof.Machine.execFloorLineGood k s
  | .fireEdge high => Sys2Proof.Machine.execFireEdge high s
  | .transmitCell p => Sys2Proof.Machine.execTransmitCell p s
  | .cellCheckFailed p bytes => Sys2Proof.Machine.execCellCheckFailed p bytes s
  | .setupFromBelow key lane dest cls okind origin => Sys2Proof.Machine.execSetupFromBelow key lane dest cls okind origin s
  | .setupFromAbove key lane dest cls okind origin => Sys2Proof.Machine.execSetupFromAbove key lane dest cls okind origin s
  | .laneGrant p key lane => Sys2Proof.Machine.execLaneGrant p key lane s
  | .alertingFromAbove key lane => Sys2Proof.Machine.execAlertingFromAbove key lane s
  | .queuedFromAbove key lane => Sys2Proof.Machine.execQueuedFromAbove key lane s
  | .heldFromAbove key lane => Sys2Proof.Machine.execHeldFromAbove key lane s
  | .resumedFromAbove key lane => Sys2Proof.Machine.execResumedFromAbove key lane s
  | .limitNearFromAbove p key lane => Sys2Proof.Machine.execLimitNearFromAbove p key lane s
  | .connectFromAbove key => Sys2Proof.Machine.execConnectFromAbove key s
  | .queuedFromBelow key lane => Sys2Proof.Machine.execQueuedFromBelow key lane s
  | .alertingFromBelow key lane => Sys2Proof.Machine.execAlertingFromBelow key lane s
  | .connectFromBelow key => Sys2Proof.Machine.execConnectFromBelow key s
  | .heldFromBelow key lane => Sys2Proof.Machine.execHeldFromBelow key lane s
  | .resumedFromBelow key lane => Sys2Proof.Machine.execResumedFromBelow key lane s
  | .release p key code => Sys2Proof.Machine.execRelease p key code s
  | .releaseDone p key => Sys2Proof.Machine.execReleaseDone p key s
  | .unlatchFromAbove p key okind origin => Sys2Proof.Machine.execUnlatchFromAbove p key okind origin s
  | .restartFromBelow => Sys2Proof.Machine.execRestartFromBelow s
  | .restartFromAbove => Sys2Proof.Machine.execRestartFromAbove s
  | .fireOn p => Sys2Proof.Machine.execFireOn p s
  | .fireOff p => Sys2Proof.Machine.execFireOff p s
  | .mgmtRequestForward p op q => Sys2Proof.Machine.execMgmtRequestForward p op q s
  | .mgmtRelayDown p notice op q => Sys2Proof.Machine.execMgmtRelayDown p notice op q s
  | .read q => Sys2Proof.Machine.execRead q s
  | .write q => Sys2Proof.Machine.execWrite q s
  | .update q => Sys2Proof.Machine.execUpdate q s
  | .clearEvents q => Sys2Proof.Machine.execClearEvents q s
  | .setMasks q => Sys2Proof.Machine.execSetMasks q s
  | .laneOut q => Sys2Proof.Machine.execLaneOut q s
  | .laneIn q => Sys2Proof.Machine.execLaneIn q s
  | .portDisable q => Sys2Proof.Machine.execPortDisable q s
  | .portEnable q => Sys2Proof.Machine.execPortEnable q s
  | .setService q => Sys2Proof.Machine.execSetService q s
  | .lock q => Sys2Proof.Machine.execLock q s
  | .reset q => Sys2Proof.Machine.execReset q s
  | .alert k a handle => Sys2Proof.Machine.execAlert k a handle s
  | .answer k a handle => Sys2Proof.Machine.execAnswer k a handle s
  | .refuse k a handle => Sys2Proof.Machine.execRefuse k a handle s
  | .repeatOffer k a handle => Sys2Proof.Machine.execRepeatOffer k a handle s
  | .responseWindowExpiry h e => Sys2Proof.Machine.execResponseWindowExpiry h e s
  | .dial k a => Sys2Proof.Machine.execDial k a s
  | .hook k a => Sys2Proof.Machine.execHook k a s
  | .quiet k a level => Sys2Proof.Machine.execQuiet k a level s
  | .unlatch k a => Sys2Proof.Machine.execUnlatch k a s
  | .handsetRestart k a => Sys2Proof.Machine.execHandsetRestart k a s
  | .laneWaitExpiry h => Sys2Proof.Machine.execLaneWaitExpiry h s
  | .ageingStep h => Sys2Proof.Machine.execAgeingStep h s
  | .progressWaitExpiry h => Sys2Proof.Machine.execProgressWaitExpiry h s
  | .grantWaitExpiry h => Sys2Proof.Machine.execGrantWaitExpiry h s
  | .ringTimerExpiry h => Sys2Proof.Machine.execRingTimerExpiry h s
  | .limitNear h => Sys2Proof.Machine.execLimitNear h s
  | .talkLimitExpiry h => Sys2Proof.Machine.execTalkLimitExpiry h s
  | .guardTimerExpiry h => Sys2Proof.Machine.execGuardTimerExpiry h s
  | .frameAlignmentLoss p => Sys2Proof.Machine.execFrameAlignmentLoss p s
  | .frameAlignmentReturn p => Sys2Proof.Machine.execFrameAlignmentReturn p s
  | .lineMonitorReportChange k good => Sys2Proof.Machine.execLineMonitorReportChange k good s
  | .mainSupplyLoss midStore => Sys2Proof.Machine.execMainSupplyLoss midStore s
  | .standbySupplyLow => Sys2Proof.Machine.execStandbySupplyLow s

end Sys2Proof.Machine
end

