-- ==== Sys2Proof/Safety.lean ====
section
/-! DEFINITION. What the statements speak of: the invariants that every reachable state keeps, and the named changes of
state in which the statements say what a command does. -/

namespace Sys2Proof.Machine

/-! ## The retained contents (R24, R33 to R38, R48 to R50, R140, R182) -/

/-- Only bits that name an event are set (R182). -/
def EventSets.NamedOnly (e : EventSets) : Prop := ∀ g : Group, e.get g &&& ~~~g.named = 0

/-- A window within its encoding (R34). -/
def Window.Legal (x : Window) : Prop := 1 ≤ x.base ∧ x.base ≤ 9999 ∧ x.limit ≤ 9999

/-- A slot within its encoding, its quiet level within its ceiling, its call-down class below emergency, its two
handsets apart (R24, R36 to R38). -/
def Slot.Legal (x : Slot) : Prop :=
  x.number ≤ 9999 ∧ x.quiet ≤ x.quietCeiling ∧ x.callDown ≤ 6 ∧ x.ext ≠ some x.main

/-- The written settings of a port of n lanes (R48, R49). -/
def PortSettings.Legal (x : PortSettings) (n : Nat) : Prop :=
  x.fire + x.priority ≤ n - 1 ∧ 1 ≤ x.threshold ∧ x.threshold ≤ 7

/-- The timer settings within their ranges (R50, R68, R87, R110, R130). -/
def TimerSettings.Legal (x : TimerSettings) : Prop :=
  (2 ≤ x.window ∧ x.window ≤ 20) ∧ (50 ≤ x.ring ∧ x.ring ≤ 600) ∧ (10 ≤ x.laneWait ∧ x.laneWait ≤ 600) ∧
  (5 ≤ x.grantWait ∧ x.grantWait ≤ 100) ∧ (10 ≤ x.progressWait ∧ x.progressWait ≤ 200) ∧ x.ageing ≤ 255

/-- A talk limit is 0 or 100–6000 units (R140). -/
def talkLegal (v : Nat) : Prop := v = 0 ∨ (100 ≤ v ∧ v ≤ 6000)

/-- The retained contents are within the ranges that their owners keep. -/
structure Retained.Legal (d : Retained) : Prop where
  ordinary   : ∀ i : Fin 8, d.ordinary[i].Legal
  exceptions : ∀ i : Fin 4, d.exceptions[i].Legal
  slots      : ∀ i : SlotNo, d.slots[i].Legal
  settings   : ∀ p : Owned, d.settings[p.idx].Legal (laneCount p)
  marks      : ∀ p : Owned, d.outMarks[p.idx].length = laneCount p
  timers     : d.timers.Legal
  talkLimits : ∀ c : Class, talkLegal d.talkLimits[c]
  masks      : d.masks.NamedOnly

/-- Two occupied slots never hold the same number, nor the same handset address on one floor port (R35, R36). -/
def Retained.Unique (d : Retained) : Prop :=
  ∀ i j : SlotNo, i ≠ j → d.slots[i].occupied → d.slots[j].occupied →
    d.slots[i].number ≠ d.slots[j].number ∧
    (d.slots[i].port = d.slots[j].port →
      d.slots[i].main ≠ d.slots[j].main ∧ d.slots[i].ext ≠ some d.slots[j].main ∧
      (d.slots[i].ext.isSome → d.slots[i].ext ≠ d.slots[j].ext))

/-! ## The volatile state -/

/-- A riser interface's queue is within its depth, and empty unless the link is UP (R9 to R11). -/
def RiserPort.QueueOk (p : RiserPort) : Prop := p.queue.length ≤ 16 ∧ (p.link = .down → p.queue = [])

/-- A floor interface's queue is within its depth, and empty unless the line is UP (R9, R10, R12). -/
def FloorPort.QueueOk (p : FloorPort) : Prop := p.queue.length ≤ 16 ∧ (p.line ≠ .up → p.queue = [])

/-- Every handle is either on the free-handle list, once, or names a live record (R80 to R82). -/
def State.HandlesOk (s : State) : Prop :=
  s.freeHandles.Nodup ∧ ∀ h : Handle, s.calls[h] = none ↔ h ∈ s.freeHandles

/-- What every command keeps. -/
structure State.Inv (s : State) : Prop where
  legal   : s.retained.Legal
  unique  : s.retained.Unique
  status  : s.status.NamedOnly
  queueL  : s.portL.QueueOk
  queueH  : s.portH.QueueOk
  queues  : ∀ k : Floor, s.floors[k].QueueOk
  topDown : s.top = true → s.portH.link = .down
  waiting : s.waiting.length ≤ 16
  handles : s.HandlesOk
  lanes   : ∀ p : Owned, (s.map p).holders.length = laneCount p

/-! ## How the tables and the records agree -/

/-- The activity that a record not in CLEARING gives the flat of its floor side (R103). -/
def CallRecord.activityOf (r : CallRecord) (h : Handle) : Option Activity :=
  match r.dir, r.state with
  | .up, .waitingLane => some (.pending h)
  | .up, .offering | .up, .ringing => some (.offered h)
  | .down, .waitingLane | .down, .awaitingGrant | .down, .forwarded | .down, .ringing => some (.originating h)
  | _, .connected | _, .parked => some (.engaged h)
  | _, _ => none

/-- The record waits for a lane: it is in WAITING_LANE or PARKED (R63). -/
abbrev CallRecord.Waits (r : CallRecord) : Prop := r.state = .waitingLane ∨ r.state = .parked

/-- The record's lanes are joined: it is CONNECTED, not held below, on this L lane and this owned lane (R139, R150). -/
structure CallRecord.Joined (r : CallRecord) (l : LLane) (p : Owned) (i : Nat) : Prop where
  state : r.state = .connected
  below : r.heldBelow = false
  lLane : r.lLane = some l
  port  : r.ownedPort = some p
  lane  : r.ownedLane = some i

/-- The lane maps, the mirror, the cross-connect list, the wait list and the activities are those of the live records. -/
structure State.Linked (s : State) : Prop where
  /-- A lane is HELD by the record that has it as its owned lane (R42, R45, R55). -/
  held     : ∀ (p : Owned) (i : Nat) (h : Handle),
    s.holder p i = some h ↔ ∃ r, s.call? h = some r ∧ r.ownedPort = some p ∧ r.ownedLane = some i
  /-- The grant order holds each HELD lane once (R44). -/
  order    : ∀ p : Owned, (s.map p).order.Nodup ∧ ∀ i, i ∈ (s.map p).order ↔ (s.holder p i).isSome
  /-- The mirror names the record that has the lane as its L lane (R46). -/
  mirror   : ∀ (l : LLane) (h : Handle), s.mirror[l] = some h ↔ ∃ r, s.call? h = some r ∧ r.lLane = some l
  /-- The entries are distinct records in WAITING_LANE or PARKED, and every record in either state has one (R63). -/
  queued   : (s.waiting.map WaitEntry.handle).Nodup ∧
    ∀ h : Handle, (∃ x ∈ s.waiting, x.handle = h) ↔ ∃ r, s.call? h = some r ∧ r.Waits
  /-- An entry waits for its record's owned port, on which the record has no lane (R63, R70). -/
  waits    : ∀ x ∈ s.waiting, ∀ r, s.call? x.handle = some r → r.ownedPort = some x.port ∧ r.ownedLane = none
  /-- From head to tail of the list effective priority never increases (R64). -/
  sorted   : s.waiting.Pairwise fun x y => s.entryPriority y ≤ s.entryPriority x
  /-- The arbiter leaves no entry waiting that could go first: the first entry for a port fails the admission test (R72,
  R73). -/
  settled  : ∀ (p : Owned) (x : WaitEntry), (s.waiting.find? fun y => y.port = p) = some x →
    s.admitLane p (s.entryPriority x) = none
  /-- An activity names a live record, not in CLEARING, whose captured slot is its flat's (R103). -/
  activity : ∀ (i : SlotNo) (h : Handle), s.activity[i].handle? = some h →
    ∃ r f, s.call? h = some r ∧ r.state ≠ .clearing ∧ r.far = .floor f ∧ f.slot = i
  /-- A record not in CLEARING with a floor side has its flat's activity (R103). -/
  named    : ∀ (h : Handle) (r : CallRecord) (f : FloorSide), s.call? h = some r → r.state ≠ .clearing →
    r.far = .floor f → r.activityOf h = some s.activity[f.slot]
  /-- The cross-connect list holds each record whose lanes are joined, once (R139). -/
  crosses  : s.crosses.Nodup ∧ ∀ x : Cross,
    x ∈ s.crosses ↔ ∃ r, s.call? x.handle = some r ∧ r.Joined x.lLane x.port x.lane
  /-- A record in CLEARING has an open side and no lane (R82, R84, R145). -/
  clearing : ∀ (h : Handle) (r : CallRecord), s.call? h = some r → r.state = .clearing →
    r.anyOpen = true ∧ r.lLane = none ∧ r.ownedLane = none
  /-- An open side has a key that no other record's open side on the port has, and a key of this switch's own setup side
  names the record's handle (R3, R84, R85, R88, R131). -/
  keys     : ∀ (p : Riser) (h : Handle) (r : CallRecord) (key : Key), s.call? h = some r → r.openKey p = some key →
    (key.side = ownSide p → key.ref.val = h.val) ∧
    ∀ (h' : Handle) (r' : CallRecord), s.call? h' = some r' → r'.openKey p = some key → h' = h
  /-- A record held below has no L lane and was connected (R150). -/
  below    : ∀ (h : Handle) (r : CallRecord), s.call? h = some r → r.heldBelow = true →
    r.lLane = none ∧ (r.state = .connected ∨ r.state = .parked ∨ r.state = .clearing)

/-! ## Named changes, in which the statements say what a command does

Each adds to a transmit queue only while the port is UP (R10); a statement that uses one asks for room in the queue. -/

/-- Port L is DOWN, or its queue has room for n more cells. -/
abbrev State.roomL (s : State) (n : Nat) : Prop := s.riserUp .L = true → n = 0 ∨ s.portL.queue.length + n ≤ 16

/-- Port H is DOWN, or its queue has room for n more cells. -/
abbrev State.roomH (s : State) (n : Nat) : Prop := s.riserUp .H = true → n = 0 ∨ s.portH.queue.length + n ≤ 16

/-- Floor port k is not UP, or its queue has room for n more cells. -/
abbrev State.roomF (s : State) (k : Floor) (n : Nat) : Prop :=
  s.floorUp k = true → n = 0 ∨ s.floors[k].queue.length + n ≤ 16

/-- Cells have joined port L's queue. -/
def State.sentL (s : State) (cells : List RiserCell) : State :=
  if s.riserUp .L then { s with portL := { s.portL with queue := s.portL.queue ++ cells } } else s

/-- Cells have joined port H's queue. -/
def State.sentH (s : State) (cells : List RiserCell) : State :=
  if s.riserUp .H then { s with portH := { s.portH with queue := s.portH.queue ++ cells } } else s

/-- Cells have joined a floor port's queue. -/
def State.sentF (s : State) (k : Floor) (cells : List FloorCell) : State :=
  if s.floorUp k then { s with floors := s.floors.set k { s.floors[k] with queue := s.floors[k].queue ++ cells } }
  else s

/-- The record of a handle has become this one. -/
def State.putCall (s : State) (h : Handle) (r : CallRecord) : State := { s with calls := s.calls.set h (some r) }

/-- The record of a handle is freed (R82). -/
def State.freed (s : State) (h : Handle) : State :=
  { s with calls := s.calls.set h none, freeHandles := s.freeHandles ++ [h] }

/-- An apartment's activity has changed. -/
def State.putActivity (s : State) (i : SlotNo) (a : Activity) : State := { s with activity := s.activity.set i a }

/-- The notice that an event calls for: one, where its bit was clear and is not masked (R182). -/
def State.noticeOf (s : State) (e : Event) : List RiserCell :=
  if s.status.get e.group &&& e.mask = 0 ∧ s.retained.masks.get e.group &&& e.mask = 0 then
    [noticeCell s.node e.group (s.status.get e.group ||| e.mask)]
  else []

/-- An event has set its bit and sent its notice (R182). -/
def State.withEvent (s : State) (e : Event) : State :=
  { s.sentL (s.noticeOf e) with status := s.status.add e }

/-- A progress cell down port L with a record's L key, where its low side is open. -/
def CallRecord.cellsDown (r : CallRecord) (code : Progress) : List RiserCell :=
  (r.openKey .L).toList.map fun key => progressCell key code

/-- A RELEASE on a record's side of a riser port, where that side is open. -/
def CallRecord.releaseCells (r : CallRecord) (p : Riser) (c : Cause) : List RiserCell :=
  (r.openKey p).toList.map fun key => releaseCell key c

/-- The port on which a command's cell arrives; `none` for what is no cell. -/
def arrivesOn : Instr → Option Port
  | .cellCheckFailed p _ => some p
  | .setupFromBelow .. | .queuedFromBelow .. | .alertingFromBelow .. | .connectFromBelow _ | .heldFromBelow ..
  | .resumedFromBelow .. | .restartFromBelow | .read _ | .write _ | .update _ | .clearEvents _ | .setMasks _
  | .laneOut _ | .laneIn _ | .portDisable _ | .portEnable _ | .setService _ | .lock _ | .reset _ => some .L
  | .setupFromAbove .. | .alertingFromAbove .. | .queuedFromAbove .. | .heldFromAbove .. | .resumedFromAbove ..
  | .connectFromAbove _ | .restartFromAbove => some .H
  | .laneGrant p .. | .limitNearFromAbove p .. | .release p .. | .releaseDone p _ | .unlatchFromAbove p ..
  | .fireOn p | .fireOff p | .mgmtRequestForward p .. | .mgmtRelayDown p .. =>
    some (match p with | .L => .L | .H => .H)
  | .alert k .. | .answer k .. | .refuse k .. | .repeatOffer k .. | .dial k _ | .hook k _ | .quiet k .. | .unlatch k _
  | .handsetRestart k _ => some (.F k)
  | .powerUpReset _ | .remoteReset _ | .linkUp _ | .linkDown _ | .floorFault _ | .floorLineGood _ | .fireEdge _
  | .transmitCell _ | .responseWindowExpiry .. | .laneWaitExpiry _ | .ageingStep _ | .progressWaitExpiry _
  | .grantWaitExpiry _ | .ringTimerExpiry _ | .limitNear _ | .talkLimitExpiry _ | .guardTimerExpiry _
  | .frameAlignmentLoss _ | .frameAlignmentReturn _ | .lineMonitorReportChange .. | .mainSupplyLoss _
  | .standbySupplyLow => none

/-- A lane has become HELD by a record, at the tail of its port's grant order (R44, R55). -/
def State.laneTaken (s : State) (p : Owned) (i : Nat) (h : Handle) : State :=
  let m : LaneMap := { holders := (s.map p).holders.set i (some h), order := (s.map p).order.filter (· ≠ i) ++ [i] }
  { s with maps := s.maps.set p.idx m }

/-! ## The end of a call, written from R145 and R104 -/

/-- A record that has gone to CLEARING. -/
def CallRecord.cleared (r : CallRecord) (c : Cause) : CallRecord :=
  { r.modFloor FloorSide.stopWindows with
    state := .clearing, timer := startTimer .guard 20, lLane := none, ownedLane := none, pendingCause := some c }

/-- What the handsets of a record's floor side are sent when it leaves its call (R104). -/
def CallRecord.lastFloorCells (r : CallRecord) (h : Handle) (c : Cause) : List FloorCell :=
  match r.far with
  | .floor f =>
    (if r.state = .offering ∨ r.state = .ringing then
      (f.entries.filter fun e => e.state ≠ .answered).map fun e => cancelCell h.val e.addr
    else []) ++ f.answering.toList.map fun a => clearedCell h.val a c
  | _ => []

/-- The state of the tables after a record has left its call, its cells not yet sent (R145 steps 1 to 4 and 7). -/
def State.callOver (s : State) (h : Handle) (r : CallRecord) (c : Cause) : State :=
  { s with
    calls := s.calls.set h (if r.anyOpen then some (r.cleared c) else none)
    freeHandles := if r.anyOpen then s.freeHandles else s.freeHandles ++ [h]
    waiting := s.waiting.filter fun x => !(x.handle == h)
    maps := match r.ownedPort, r.ownedLane with
      | some p, some i =>
        s.maps.set p.idx { holders := (s.map p).holders.set i none, order := (s.map p).order.filter (· ≠ i) }
      | _, _ => s.maps
    mirror := match r.lLane with
      | some l => s.mirror.set l none
      | none => s.mirror
    crosses := s.crosses.filter fun x =>
      !(r.ownedPort == some x.port && r.ownedLane == some x.lane) && !(r.lLane == some x.lLane)
    activity := match r.far with
      | .floor f => if s.activity[f.slot].handle? = some h then s.activity.set f.slot .idle else s.activity
      | _ => s.activity }

/-- The floor cells that end a call are sent (R104). -/
def State.floorTold (s : State) (h : Handle) (r : CallRecord) (c : Cause) : State :=
  match r.far with
  | .floor f => s.sentF f.port (r.lastFloorCells h c)
  | _ => s

/-- The state after a release begun by this switch (R145). -/
def State.ended (s : State) (h : Handle) (r : CallRecord) (c : Cause) : State :=
  (((s.callOver h r c).sentL (r.releaseCells .L c)).sentH (r.releaseCells .H c)).floorTold h r c

/-- The state after a record has lost its side on a riser port without an answer: in CLEARING that side closes, and the
record is freed with its last side; in any other state it is released with the cause (R169 to R172). -/
def State.cut (s : State) (p : Riser) (c : Cause) (h : Handle) (r : CallRecord) : State :=
  if r.state = .clearing then
    if (r.closeSide p).anyOpen then s.putCall h (r.closeSide p) else s.freed h
  else s.ended h (r.closeSide p) c

/-- The live records that a test selects are taken in ascending order of handle (chapter 10). -/
def State.forEach (s : State) (sel : CallRecord → Bool) (f : State → Handle → CallRecord → State) : State :=
  (List.finRange 48).foldl (fun t h =>
    match t.call? h with
    | some r => if sel r then f t h r else t
    | none => t) s

/-- The handles of the live records that a test selects. -/
def State.selected (s : State) (sel : CallRecord → Bool) : List Handle :=
  (List.finRange 48).filter fun h => (s.call? h).any sel

/-- The cells that tell the handsets of the selected records that their calls have ended with a cause (R104). -/
def State.floorCellsFor (s : State) (sel : CallRecord → Bool) (c : Cause) : Nat :=
  ((s.selected sel).map fun h => ((s.call? h).map fun r => (r.lastFloorCells h c).length).getD 0).sum

/-- The state with the mirror emptied, and every cross-connect with it (R47, R170, R171). -/
def State.mirrorless (s : State) : State :=
  { s with
    mirror := Vector.replicate 12 none, crosses := []
    calls := Vector.ofFn fun h => s.calls[h].map fun r => { r with lLane := none } }

/-- The wait list purged over these entries: each whose base class is below the fire admission class ends FIRE_MODE, in
their order (R162). -/
def State.purged (s : State) (l : List WaitEntry) : State :=
  l.foldl (fun t x =>
    match t.call? x.handle with
    | some r => if r.cls < t.retained.fireClass then t.ended x.handle r .fireMode else t
    | none => t) s

/-- Every entry's record waits, and has no lane on its owned port. -/
abbrev State.waitersIdle (s : State) : Prop :=
  (s.waiting.map WaitEntry.handle).Nodup ∧
  ∀ x ∈ s.waiting, ∀ r, s.call? x.handle = some r → r.Waits ∧ r.ownedLane = none

/-- A record has joined the wait list for a port with s = 0, in the given state, with its lane-wait timer and, where A is
not 0 and e is below 6, its first ageing step (R58, R65, R67). -/
def State.joined (s : State) (h : Handle) (r : CallRecord) (p : Owned) (st : CallState) : State :=
  let e := effPriority r.cls 0
  let t := s.putCall h { r with state := st, timer := startTimer .laneWait s.retained.timers.laneWait }
  let step := if s.retained.timers.ageing ≠ 0 ∧ e < 6 then some (s.retained.timers.ageing * 10) else none
  let x : WaitEntry := { handle := h, port := p, steps := 0, ageing := step }
  { t with waiting := t.placed x e s.waiting }

/-- A PROGRESS up port H with a record's H key, where its far side is open. -/
def CallRecord.cellsUp (r : CallRecord) (code : Progress) (lane : Option Nat := none) : List RiserCell :=
  (r.openKey .H).toList.map fun key => progressCell key code lane

/-- A STATUS has been sent to the handset on a record's call, where it has one (R104). -/
def State.statusSent (s : State) (h : Handle) (r : CallRecord) (code : Status) (lane : Option Nat := none) : State :=
  match r.far with
  | .floor f => s.sentF f.port (f.answering.toList.map fun a => statusCell h.val a code 0 lane)
  | _ => s

/-! ## A call connected at its flat, written from R114 -/

/-- The floor side of a call that handset a has answered. -/
def FloorSide.withAnswer (f : FloorSide) (a : Addr) : FloorSide :=
  { f with
    answering := some a
    entries := f.entries.map fun e =>
      { e with state := if e.addr = a then .answered else e.state, window := none } }

/-- What the handsets are sent: STATUS CONNECTED to the answering handset, then CANCEL to each other one offered. -/
def FloorSide.answerCells (f : FloorSide) (h : Handle) (a : Addr) (lane : Nat) : List FloorCell :=
  statusCell h.val a .connected 0 (some lane) ::
    ((f.withAnswer a).entries.filter fun e => e.state ≠ .answered).map fun e => cancelCell h.val e.addr

/-- The state after a call of the flat is answered (R114): L lane l and floor lane i joined, the switch talk owner. -/
def State.answered (s : State) (h : Handle) (r : CallRecord) (f : FloorSide) (a : Addr) (l : LLane) (i : Nat)
    (lowKey : Key) : State :=
  let r' : CallRecord :=
    { r with state := .connected, far := .floor (f.withAnswer a), talkOwner := true, timer := s.talkTimer r.cls }
  let t : State :=
    { s.putCall h r' with crosses := s.crosses ++ [{ handle := h, lLane := l, port := .F f.port, lane := i }] }
  ((t.sentF f.port (f.answerCells h a i)).sentL [connectCell lowKey]).putActivity f.slot (.engaged h)

/-! ## Lane requests and grants, written from R54 to R59, R65 and R73 to R77 -/

/-- The record that an upward SETUP makes, before it has a lane (R90, R93, R95). -/
def newUpward (base : Class) (o : Origin) (dest : Word) (key : Key) (l : LLane) (far : Far) : CallRecord :=
  { state := .waitingLane, dir := .up, cls := base, origin := o, dest := dest, low := .opened key, lLane := some l,
    heldBelow := false, far := far, ownedLane := none, timer := none, talkOwner := false, pendingCause := none }

/-- The record that a downward SETUP or a DIAL makes, before it has a lane (R127, R132). -/
def newDownward (cls : Class) (o : Origin) (dest : Word) (far : Far) : CallRecord :=
  { state := .waitingLane, dir := .down, cls := cls, origin := o, dest := dest, low := .unopened, lLane := none,
    heldBelow := false, far := far, ownedLane := none, timer := none, talkOwner := false, pendingCause := none }

/-- `s.Asks c h r t p told`: the command c, taken in s, makes the record r with handle h, which is in t, and asks for a
lane of port p; `told` is what its origin side and its flat see of it while it waits (R93, R95, R108, R121, R129, R132). -/
inductive State.Asks (s : State) : Instr → Handle → CallRecord → State → Owned → (State → State) → Prop
  /-- An upward SETUP routed HIGH. -/
  | high (key : Key) (lane : Byte) (dest : Word) (cls : Class) (okind : BitVec 2) (origin : Word) (l : LLane)
      (o : Origin) (h : Handle) (rest : List Handle) (r : CallRecord) :
      s.powered = true → s.receives .L = true → laneOf lane = some l → originOf okind origin = some o →
      dest.toNat ≤ 9999 → key.side = .low → s.keyed .L key = none → s.mirror[l] = none → s.freeHandles = h :: rest →
      s.fireRefuses (s.retained.baseClass o cls) = false → s.route dest.toNat = .high →
      r = newUpward (s.retained.baseClass o cls) o dest key l (.high .unopened) →
      s.Asks (.setupFromBelow key lane dest cls okind origin) h r
        (({ s with freeHandles := rest, mirror := s.mirror.set l (some h) } : State).putCall h r) .H
        fun u => u.sentL [progressCell key .queued]
  /-- An upward SETUP to a flat that is IDLE and not quiet for its class. -/
  | flat (key : Key) (lane : Byte) (dest : Word) (cls : Class) (okind : BitVec 2) (origin : Word) (l : LLane)
      (o : Origin) (h : Handle) (rest : List Handle) (r : CallRecord) (k : Floor) (n : SlotNo) :
      s.powered = true → s.receives .L = true → laneOf lane = some l → originOf okind origin = some o →
      dest.toNat ≤ 9999 → key.side = .low → s.keyed .L key = none → s.mirror[l] = none → s.freeHandles = h :: rest →
      s.fireRefuses (s.retained.baseClass o cls) = false → s.route dest.toNat = .floor k n →
      (s.retained.baseClass o cls = 7 ∨ s.retained.slots[n].quiet < s.retained.baseClass o cls) →
      s.activity[n] = .idle →
      r = newUpward (s.retained.baseClass o cls) o dest key l (.floor (s.retained.slots[n].capture n none)) →
      s.Asks (.setupFromBelow key lane dest cls okind origin) h r
        (({ s with freeHandles := rest, mirror := s.mirror.set l (some h) } : State).putCall h r) (.F k)
        fun u => (u.sentL [progressCell key .queued]).putActivity n (.pending h)
  /-- A downward SETUP from above. -/
  | relayed (key : Key) (lane : Byte) (cls : Class) (okind : BitVec 2) (origin : Word) (o : Origin) (h : Handle)
      (rest : List Handle) (r : CallRecord) :
      s.powered = true → s.receives .H = true → laneFieldOk lane = true → originOf okind origin = some o →
      key.side = .high → s.keyed .H key = none → s.freeHandles = h :: rest → s.fireRefuses cls = false →
      s.retained.service = .inService → r = newDownward cls o 0 (.high (.opened key)) →
      s.Asks (.setupFromAbove key lane 0 cls okind origin) h r
        (({ s with freeHandles := rest } : State).putCall h r) .H fun u => u.sentH [progressCell key .queued]
  /-- A DIAL from a handset of an IDLE flat. -/
  | dial (k : Floor) (a : Addr) (n : SlotNo) (role : Role) (h : Handle) (rest : List Handle) (r : CallRecord) :
      s.powered = true → s.floorUp k = true → s.retained.handset k a = some (n, role) → s.activity[n] = .idle →
      s.freeHandles = h :: rest → s.fireRefuses s.retained.slots[n].callDown = false →
      s.retained.service = .inService →
      r = newDownward s.retained.slots[n].callDown (.dialled n) 0 (.floor (s.retained.slots[n].capture n (some a))) →
      s.Asks (.dial k a) h r
        ((({ s with freeHandles := rest } : State).putCall h r).putActivity n (.originating h)) (.F k)
        fun u => u.sentF k [statusCell h.val a .queued]

/-- The state after a record that has taken lane i goes on: an upward call is offered at its flat (R111) or forwarded up
port H (R94), a downward call answers the node above with its lane (R132) and sends its SETUP down (R129). -/
def State.goneOn (s : State) (h : Handle) (r : CallRecord) (i : Nat) : State :=
  match r.dir, r.far with
  | .up, .floor f =>
    let second := if f.mode = .paired then f.ext else none
    let sent : Addr → OfferEntry := fun a =>
      { addr := a, state := .sent, retries := 0, window := some s.retained.timers.window }
    let r' : CallRecord :=
      { r with
        state := .offering, ownedLane := some i, timer := none
        far := .floor { f with entries := sent f.main :: second.toList.map sent } }
    ((s.putCall h r').sentF f.port [offerCell h (some i) f.main second]).putActivity f.slot (.offered h)
  | .up, _ =>
    (s.putCall h { r with
      state := .forwarded, ownedLane := some i, far := .high (.opened (ownKey .H h))
      timer := startTimer .progressWait s.retained.timers.progressWait }).sentH
      [setupCell s r (ownKey .H h) (some i)]
  | .down, _ =>
    ((s.putCall h { r with
      state := .awaitingGrant, ownedLane := some i, low := .opened (ownKey .L h)
      timer := startTimer .grantWait s.retained.timers.grantWait }).sentH
      ((r.openKey .H).toList.map fun key => laneGrantCell key (some i))).sentL [setupCell s r (ownKey .L h) none]

/-- The state after a PARKED record resumes on lane i of port p (R76) and is announced on its two sides (R77). -/
def State.resumed (s : State) (h : Handle) (r : CallRecord) (p : Owned) (i : Nat) : State :=
  let t := s.putCall h { r with
    state := .connected, ownedLane := some i, timer := if r.talkOwner then s.talkTimer r.cls else none }
  let t : State := { t with
    crosses := match r.heldBelow, r.lLane with
      | false, some l => t.crosses ++ [{ handle := h, lLane := l, port := p, lane := i }]
      | _, _ => t.crosses }
  let t := match p with
    | .H => t.sentH (r.cellsUp .resumed (some i))
    | .F _ => t.statusSent h r .resumed (some i)
  if r.heldBelow then t else t.sentL (r.cellsDown .resumed)

/-- The state after a victim has lost its lane of port p and is parked, told HELD on its two sides (R58). -/
def State.parkedOn (s : State) (v : Handle) (r : CallRecord) (p : Owned) : State :=
  let t := s.joined v { r with ownedLane := none } p .parked
  let t := match p with
    | .H => t.sentH (r.cellsUp .held)
    | .F _ => t.statusSent v r .held
  if r.heldBelow then t else t.sentL (r.cellsDown .held)

/-- The state after lane i of port p has passed from its holder v to the record of h: the victim, CONNECTED while the
list has room, is parked, and otherwise its call ends PREEMPTED (R57 to R59). -/
def State.preempted (s : State) (h : Handle) (p : Owned) (i : Nat) (v : Handle) (r : CallRecord) : State :=
  let t : State :=
    { s.laneTaken p i h with crosses := s.crosses.filter fun x => !(x.port == p && x.lane == i) }
  if r.state = .connected ∧ s.waiting.length < 16 then t.parkedOn v r p
  else t.ended v { r with ownedLane := none } .preempted

/-- The call that a pre-answered record waits with: its floor side, handset, L lane and low key (R121). -/
def CallRecord.preAnswer? (r : CallRecord) : Option (FloorSide × Addr × LLane × Key) :=
  match r.dir, r.far, r.lLane, r.openKey .L with
  | .up, .floor f, some l, some key => if f.preAnswered then f.answering.map fun a => (f, a, l, key) else none
  | _, _, _, _ => none

/-- The state after an entry has been granted lane i of port p: the record takes it and leaves the list; PARKED, it
resumes; pre-answered, it is connected; else it goes on from where it was queued (R74 to R76). -/
def State.granted (s : State) (h : Handle) (r : CallRecord) (p : Owned) (i : Nat) : State :=
  let t : State := { s.laneTaken p i h with waiting := s.waiting.filter fun x => !(x.handle == h) }
  if r.state = .parked then t.resumed h r p i
  else match r.preAnswer? with
    | some (f, a, l, key) => t.answered h { r with ownedLane := some i } f a l i key
    | none => t.goneOn h r i

/-! ## The arbiter's runs, written from R72 to R74 -/

/-- A record waits for a lane of port p as it was queued or parked: WAITING_LANE upward it has its L lane and its open low
side, and no offer has been made (R58, R65, R90, R111). -/
abbrev CallRecord.WaitsFor (r : CallRecord) (p : Owned) : Prop :=
  r.Waits ∧ r.ownedPort = some p ∧
    (r.state = .waitingLane →
      (r.dir = .up → r.lLane.isSome = true ∧ (r.openKey .L).isSome = true) ∧ ∀ f ∈ r.far.floor?, f.entries = [])

/-- The entries are those of distinct records, each waiting for its entry's port. -/
abbrev State.InLine (s : State) (l : List WaitEntry) : Prop :=
  (l.map WaitEntry.handle).Nodup ∧ ∀ x ∈ l, ∃ r ∈ s.call? x.handle, r.WaitsFor x.port

/-- The entries for a port. -/
def State.entriesFor (s : State) (p : Owned) : List WaitEntry := s.waiting.filter fun x => x.port = p

/-- There is room for the cells of n grants on port p: at most one each on port L and on p. -/
abbrev State.roomToGrant (s : State) (p : Owned) (n : Nat) : Prop :=
  s.roomL n ∧ (p = .H → s.roomH n) ∧ ∀ k : Floor, p = .F k → s.roomF k n

/-- The state after a walk for port p over these entries: each entry for p whose test passes is granted the lowest FREE
lane, in order, until one fails (R73, R74). -/
def State.walked (s : State) (p : Owned) : List WaitEntry → State
  | [] => s
  | x :: rest =>
    if x.port = p then
      match s.admitLane p (s.entryPriority x), s.call? x.handle with
      | some i, some r => (s.granted x.handle r p i).walked p rest
      | _, _ => s
    else s.walked p rest

/-- The state after a run of the arbiter for port p (R72, R73). -/
def State.arbitrated (s : State) (p : Owned) : State := s.walked p s.waiting

/-- The same for each of some ports, in ascending order of port number (R72). -/
def State.arbitratedAt (s : State) (ports : Owned → Bool) : State :=
  allOwned.foldl (fun t p => if ports p then t.arbitrated p else t) s

/-- The owned port of a lane that the end of a record's call frees (R60). -/
def CallRecord.freedPort (r : CallRecord) : Option Owned := r.ownedLane.bind fun _ => r.ownedPort

/-- The state after the arbiter's run for the port of the lane that the end of a record's call has freed (R60, R72). -/
def State.regranted (s : State) (r : CallRecord) : State :=
  match r.freedPort with
  | some p => s.arbitrated p
  | none => s

/-- The entries, but the record's own, that wait for the port of the lane that the end of its call frees. -/
def State.waitersOn (s : State) (h : Handle) (r : CallRecord) : List WaitEntry :=
  s.waiting.filter fun x => r.freedPort = some x.port && x.handle != h

/-- There is room for the cells that end a call and for those of the grants that follow. -/
def State.roomToEnd (s : State) (h : Handle) (r : CallRecord) (c : Cause) : Prop :=
  let n := (s.waitersOn h r).length
  s.roomL (n + 1) ∧ s.roomH (n + 1) ∧ ∀ f, r.far = .floor f → s.roomF f.port ((r.lastFloorCells h c).length + n)

/-- Some selected record not in CLEARING has a lane of port p, which the end of its call frees. -/
def State.frees (s : State) (sel : CallRecord → Bool) (p : Owned) : Bool :=
  (List.finRange 48).any fun h => (s.call? h).any fun r => sel r && r.state != .clearing && r.freedPort == some p

/-- The entries whose records the test does not select, or are in CLEARING. -/
def State.waitersLeft (s : State) (sel : CallRecord → Bool) : List WaitEntry :=
  s.waiting.filter fun x => !(s.call? x.handle).any fun r => sel r && r.state != .clearing

/-! ## Management -/

/-- A request on port L is taken by this switch (R176). -/
abbrev State.takes (s : State) (q : Request) : Prop :=
  s.powered = true ∧ s.receives .L = true ∧ q.node.toNat = s.node.val ∧ s.node.val ≠ 0

/-- A reply has joined port L's queue (R177). -/
def State.replied (s : State) (op : MgmtOp) (q : Request) (r : Result) (value : Nat) : State :=
  s.sentL [replyCell s.node op q r value]

/-- The same for a reply at which the model counts on its free values (assumption 5). -/
def State.repliedFree (s : State) (op : MgmtOp) (q : Request) (r : Result) (value : Nat) : State :=
  { s.replied op q r value with freeIndex := s.freeIndex + 1 }

/-- The retained contents have changed. -/
def State.storing (s : State) (d : Retained) : State := { s with retained := d }

/-! ## Resets -/

/-- The volatile state after a reset of either kind, the straps read as `pins` has them (R13, R42, R47, R63, R80,
R103, R139, R165, R180). -/
structure State.AtReset (t : State) (pins : Pins) : Prop where
  pins      : t.pins = pins ∧ t.node = pins.node ∧ t.top = pins.top ∧ t.powered = true
  portL     : t.portL.link = .down ∧ t.portL.downMark = false ∧ t.portL.count = 0 ∧ t.portL.queue = []
  portH     : t.portH.link = .down ∧ t.portH.downMark = false ∧ t.portH.count = 0 ∧ t.portH.queue = []
  floors    : ∀ k : Floor,
    t.floors[k].line = (if t.retained.disabled[k] then .disabled else .fault) ∧ t.floors[k].faultMark = false ∧
      t.floors[k].count = 0 ∧ t.floors[k].queue = []
  lanes     : ∀ p : Owned, t.map p = LaneMap.empty p
  mirror    : ∀ l : LLane, t.mirror[l] = none
  crosses   : t.crosses = []
  waiting   : t.waiting = []
  calls     : ∀ h : Handle, t.calls[h] = none
  handles   : t.freeHandles = List.finRange 48
  activity  : ∀ i : SlotNo, t.activity[i] = .idle
  sources   : t.latch = false ∧ t.lineSource = false
  lock      : t.locked = false
  reset     : t.resetReq = .none
  status    : t.status.call = 0 ∧ t.status.line = 0

end Sys2Proof.Machine
end

