-- ==== Sys2Proof/Certificates/Slice0/Obligations.lean ====
section
/-! DEFINITION. The statements for the provers. Each docstring names the rules it formalises. A statement about a
command's result gives the whole next state, so that it is the command's frame as well: what it does not name is
unchanged. -/

open Sys2Proof Sys2Proof.Machine

/-! ## The machine -/

/-- A step runs the command at the front of the queue on the state with the rest of the queue. The queue is the model's
form of a block (assumption 1). -/
def Obligations.StepRunsFront : Prop :=
  ∀ (s : State) (c : Instr) (rest : List Instr), s.pending = c :: rest →
    step s = exec c { s with pending := rest }

/-- Every command, in every state, answers a next state, and leaves the queue of waiting commands as it was. That no
command faults or is refused is the model's choice (assumption 18), and so is the queue (assumption 1). -/
def Obligations.EveryCommandCompletes : Prop :=
  ∀ (c : Instr) (s : State), ∃ t, exec c s = .next t ∧ t.pending = s.pending

/-- With no command waiting, one timer unit of 100 ms passes: each running record timer, near mark, response timer and
ageing step goes down by one, stopping at 0, and nothing else of a record or of the tables changes; without the main
supply nothing happens. This is the model's choice (assumption 6). -/
def Obligations.IdleIsOneUnit : Prop :=
  ∀ s : State, s.pending = [] →
    (s.powered = false → step s = .next s) ∧
    (s.powered = true → ∃ t, step s = .next t ∧
      t.retained = s.retained ∧ t.maps = s.maps ∧ t.mirror = s.mirror ∧ t.crosses = s.crosses ∧
      t.activity = s.activity ∧ t.freeHandles = s.freeHandles ∧ t.status = s.status ∧
      t.portL.queue = s.portL.queue ∧ t.portL.link = s.portL.link ∧
      t.portH.queue = s.portH.queue ∧ t.portH.link = s.portH.link ∧
      (∀ k : Floor, t.floors[k].queue = s.floors[k].queue ∧ t.floors[k].line = s.floors[k].line) ∧
      t.waiting = s.waiting.map (fun x => { x with ageing := x.ageing.map (· - 1) }) ∧
      ∀ h : Handle, t.call? h = (s.call? h).map fun r =>
        { r.modFloor fun f =>
            { f with entries := f.entries.map fun e => { e with window := e.window.map (· - 1) } } with
          timer := r.timer.map fun m => { m with left := m.left - 1, near := m.near.map (· - 1) } })

/-! ## Resets and supplies -/

/-- A power-up reset: the volatile state takes its reset values; with retention held every retained item keeps its value and
no event is set but FIRE_LOCAL where the local source is active; with retention lost every retained item takes its
default and RETENTION_LOST is set (R184, R13, R165). That it acts so while the main supply is on as well is the model's
choice (assumption 15). -/
def Obligations.PowerUpReset : Prop :=
  (∀ (s : State) (pins : Pins), s.retentionOk = true →
     ∃ t, exec (.powerUpReset pins) s = .next t ∧ t.AtReset pins ∧ t.retained = s.retained ∧ t.retentionOk = true ∧
       t.status.system = if t.localSource then Event.mask .fireLocal else 0) ∧
  (∀ (s : State) (pins : Pins), s.retentionOk = false →
     ∃ t, exec (.powerUpReset pins) s = .next t ∧ t.AtReset pins ∧ t.retained = Retained.default ∧
       t.retentionOk = true ∧ t.status.system = Event.mask .retentionLost)

/-- RESET is answered DONE and takes effect when that reply has left: where port L has room the reply is queued behind
the cells there, and where it has none the reset takes effect at once. A remote reset that is due acts as a power-up
reset with retention held, the framers keeping their framing; at any other moment REMOTE_RESET does nothing (R185, R13;
assumption 4). -/
def Obligations.RemoteReset : Prop :=
  (∀ (s : State) (q : Request), s.takes q →
    (s.roomL 1 → exec (.reset q) s = .next (({ s with
      resetReq := if s.resetReq = .none then .replyAt s.portL.queue.length else s.resetReq } : State).replied .reset q
      .done 0)) ∧
    (16 ≤ s.portL.queue.length →
      ∃ t, exec (.reset q) s = .next t ∧ t.AtReset s.pins ∧ t.retained = s.retained)) ∧
  ∀ (s : State) (pins : Pins), s.powered = true →
    (s.resetReq = .due →
      ∃ t, exec (.remoteReset pins) s = .next t ∧ t.AtReset pins ∧ t.retained = s.retained ∧
        t.portL.aligned = s.portL.aligned ∧ t.portH.aligned = s.portH.aligned ∧
        t.status.system = if t.localSource then Event.mask .fireLocal else 0) ∧
    (s.resetReq ≠ .due → exec (.remoteReset pins) s = .next s)

/-- The loss of the main supply leaves the retained contents, and retention held unless a change was being stored; while
the supply is off, a low standby supply loses retention (R184). That every other command then does nothing, and that all
the volatile state reads its reset values, is the model's choice (assumption 15). -/
def Obligations.Supplies : Prop :=
  (∀ (s : State) (midStore : Bool), s.powered = true →
    ∃ t, exec (.mainSupplyLoss midStore) s = .next t ∧ t.powered = false ∧ t.retained = s.retained ∧
      t.retentionOk = (s.retentionOk && !midStore) ∧ ({ t with powered := true } : State).AtReset s.pins ∧
      t.status.system = 0) ∧
  (∀ s : State, s.powered = false → exec .standbySupplyLow s = .next { s with retentionOk := false }) ∧
  (∀ s : State, s.powered = true → exec .standbySupplyLow s = .next s) ∧
  ∀ (s : State) (c : Instr), s.powered = false → (∀ pins, c ≠ .powerUpReset pins) → c ≠ .standbySupplyLow →
    exec c s = .next s

/-- The two invariants hold after reset. -/
def Obligations.ResetInv : Prop := State.reset.Inv ∧ State.reset.Linked

/-- Every step keeps the invariant: the retained contents within the ranges of their rules (R34, R37, R38, R48 to R50,
R140, R182), no two occupied slots with one number or one handset address (R35, R36), the queues and the wait list
within their depths and empty where their rules say so (R9, R11, R12, R63), every handle either live or free, once
(R80), only named event bits set (R182), and port H of a TOP part DOWN (R11). -/
def Obligations.StepKeepsInv : Prop := ∀ s t : State, s.Inv → step s = .next t → t.Inv

/-- Every step keeps the lane maps, the grant orders, the mirror, the cross-connect list, the wait list and the activities
in agreement with the live records (R42, R44 to R46, R63, R64, R70, R82, R103, R139, R145, R150), and leaves no entry
waiting that the arbiter could grant first (R72, R73). -/
def Obligations.StepKeepsLinks : Prop := ∀ s t : State, s.Inv → s.Linked → step s = .next t → t.Linked

/-! ## Lines -/

/-- Port L comes UP: RESTART is its first cell, and the notices of R182 stand behind it; port H comes UP: RESTART, then
FIRE-ON where the line source is set, and the arbiter then runs for port H (R72). The down mark is cleared (R11, R14, R160,
R182). At a TOP part port H does not come UP. -/
def Obligations.LinkUp : Prop :=
  (∀ s : State, s.powered = true → s.portL.link = .down →
     exec (.linkUp .L) s = .next { s with portL := { s.portL with
       link := .up, downMark := false, aligned := true, count := 0, queue := riserRestart :: s.pendingNotices } }) ∧
  (∀ s : State, s.powered = true → s.portH.link = .down →
     (s.top = true → exec (.linkUp .H) s = .next s) ∧
     (s.top = false → s.InLine (s.entriesFor .H) →
       let t : State := { s with portH := { s.portH with
         link := .up, downMark := false, aligned := true, count := 0,
         queue := riserRestart :: if s.lineSource then [fireOnCell] else [] } }
       t.roomToGrant .H (s.entriesFor .H).length → exec (.linkUp .H) s = .next (t.arbitrated .H)))

/-- A riser port goes DOWN: its mark is set, its queue emptied, its event set. At port L the mirror and the cross-connects are
emptied, and each record in ascending order of handle loses its low side: in CLEARING it is freed with its last side, in
any other state it is released LINK_DOWN toward its other side; a RESET that waits takes effect. At port H the same
befalls the records whose owned port is H, their far side closed, behind the notice of LINK_H_DOWN. A port that is DOWN does
not pass so. Whatever room the queues have, what remains of those records is in CLEARING with that side not open (R11,
R169, R170, R182, R185). -/
def Obligations.LinkDown : Prop :=
  (∀ s : State, s.powered = true → s.portL.link = .up →
     (∀ n, s.resetReq = .replyAt n →
       ∃ t, exec (.linkDown .L) s = .next t ∧ t.AtReset s.pins ∧ t.retained = s.retained) ∧
     ((∀ n, s.resetReq ≠ .replyAt n) →
       (∀ x ∈ s.waiting, ∀ r, s.call? x.handle = some r → r.state ≠ .clearing) →
       s.roomH (s.selected fun r => r.state != .clearing && (r.openKey .H).isSome).length →
       (∀ k : Floor, s.roomF k
         (s.floorCellsFor (fun r => r.state != .clearing && r.ownedPort == some (.F k)) .linkDown)) →
       let t : State := { s with
         portL := { s.portL with link := .down, downMark := true, aligned := false, count := 0, queue := [] }
         status := s.status.add .linkLDown }
       exec (.linkDown .L) s =
         .next (t.mirrorless.forEach (fun _ => true) fun t h r => t.cut .L .linkDown h r))) ∧
  (∀ s : State, s.powered = true → s.portH.link = .up →
     s.roomL (1 + (s.selected fun r =>
       r.ownedPort == some .H && r.state != .clearing && (r.openKey .L).isSome).length) →
     let t : State := { s with
       portH := { s.portH with link := .down, downMark := true, aligned := false, count := 0, queue := [] } }
     exec (.linkDown .H) s = .next ((t.withEvent .linkHDown).forEach (fun r => r.ownedPort == some .H)
       fun t h r => t.cut .H .linkDown h r)) ∧
  (∀ s : State, s.powered = true → s.portL.link = .up → s.resetReq = .none →
     (∀ x ∈ s.waiting, ∀ r, s.call? x.handle = some r → r.state ≠ .clearing) →
     ∃ t, exec (.linkDown .L) s = .next t ∧ t.portL.link = .down ∧ t.portL.downMark = true ∧ t.portL.queue = [] ∧
       t.status.line &&& Event.mask .linkLDown ≠ 0 ∧ (∀ l : LLane, t.mirror[l] = none) ∧ t.crosses = [] ∧
       ∀ (h : Handle) (r : CallRecord), t.call? h = some r → r.state = .clearing ∧ r.openKey .L = none) ∧
  (∀ s : State, s.powered = true → s.portH.link = .up →
     ∃ t, exec (.linkDown .H) s = .next t ∧ t.portH.link = .down ∧ t.portH.downMark = true ∧ t.portH.queue = [] ∧
       t.status.line &&& Event.mask .linkHDown ≠ 0 ∧
       ∀ (h : Handle) (r : CallRecord), t.call? h = some r → r.ownedPort = some .H →
         r.state = .clearing ∧ r.openKey .H = none) ∧
  ∀ s : State, (s.portL.link = .down → exec (.linkDown .L) s = .next s) ∧
    (s.portH.link = .down → exec (.linkDown .H) s = .next s)

/-- A framer's loss or return of alignment, and a change of a line monitor's report, start the count under way again from
zero and change nothing else; a framer's report of what stands changes nothing. Port H of a TOP part does not qualify. A
cell that arrives on a port that is not UP, or on a riser port whose framer is not aligned, is lost and changes nothing
(R8, R11, R12). -/
def Obligations.LineReports : Prop :=
  (∀ (s : State) (aligned : Bool), s.powered = true →
     let c : Riser → Instr := fun p => if aligned then .frameAlignmentReturn p else .frameAlignmentLoss p
     exec (c .L) s = .next (if s.portL.aligned = aligned then s
       else { s with portL := { s.portL with aligned := aligned, count := 0 } }) ∧
     exec (c .H) s = .next (if s.portH.aligned = aligned ∨ s.top = true then s
       else { s with portH := { s.portH with aligned := aligned, count := 0 } })) ∧
  (∀ (s : State) (k : Floor) (good : Bool), s.powered = true → s.floors[k].good ≠ good →
     exec (.lineMonitorReportChange k good) s =
       .next { s with floors := s.floors.set k { s.floors[k] with good := good, count := 0 } }) ∧
  ∀ (s : State) (c : Instr) (p : Port), arrivesOn c = some p →
    (match p with
      | .L => s.portL.link = .down ∨ s.portL.aligned = false
      | .H => s.portH.link = .down ∨ s.portH.aligned = false
      | .F k => s.floors[k].line ≠ .up) →
    exec c s = .next s

/-- A floor port passes to FAULT: fault mark, empty queue, FLOOR_FAULT, and each record of the port not in CLEARING, in
ascending order of handle, is released LINE_FAULT behind the notice; whatever room port L has, the other ports'
interfaces stand and what remains of those records is in CLEARING. A floor port passes to UP, its RESTART the first
cell, and the arbiter then runs for it (R12, R14, R72, R167). -/
def Obligations.FloorLine : Prop :=
  (∀ (s : State) (k : Floor), s.powered = true → s.floors[k].line = .up →
     let mine : CallRecord → Bool := fun r => r.ownedPort == some (.F k) && r.state != .clearing
     let faulted : State := { s with floors := s.floors.set k { s.floors[k] with
       line := .fault, faultMark := true, good := false, count := 0, queue := [] } }
     s.roomL (1 + (s.selected fun r => mine r && (r.openKey .L).isSome).length) →
     s.roomH (s.selected fun r => mine r && (r.openKey .H).isSome).length →
     exec (.floorFault k) s =
       .next ((faulted.withEvent .floorFault).forEach mine fun t h r => t.ended h r .lineFault)) ∧
  (∀ (s : State) (k : Floor), s.powered = true → s.floors[k].line = .up →
     ∃ t, exec (.floorFault k) s = .next t ∧
       t.floors = s.floors.set k { s.floors[k] with
         line := .fault, faultMark := true, good := false, count := 0, queue := [] } ∧
       t.status.line &&& Event.mask .floorFault ≠ 0 ∧
       ∀ (h : Handle) (r : CallRecord), t.call? h = some r → r.ownedPort = some (.F k) → r.state = .clearing) ∧
  (∀ (s : State) (k : Floor), s.powered = true → s.floors[k].line = .fault → s.InLine (s.entriesFor (.F k)) →
     let t : State := { s with floors := s.floors.set k { s.floors[k] with
       line := .up, faultMark := false, good := true, count := 0, queue := [floorRestart] } }
     t.roomToGrant (.F k) (s.entriesFor (.F k)).length →
     exec (.floorLineGood k) s = .next (t.arbitrated (.F k)))

/-- A port that is UP puts its oldest cell on the line and removes it; a port with no cell, or not UP, does nothing
(R9). A RESET takes effect when its reply has left (R185); that the model knows the moment by counting the cells before
the reply, which goes on with port L, is its own device (assumption 4). -/
def Obligations.TransmitCell : Prop :=
  ∀ s : State, s.powered = true →
    (∀ c rest, s.portL.link = .up → s.portL.queue = c :: rest →
      exec (.transmitCell .L) s = .next { s with
        portL := { s.portL with queue := rest, wire := c.bytes }
        resetReq := match s.resetReq with
          | .replyAt 0 => .due
          | .replyAt (n + 1) => .replyAt n
          | x => x }) ∧
    (∀ c rest, s.portH.link = .up → s.portH.queue = c :: rest →
      exec (.transmitCell .H) s = .next { s with portH := { s.portH with queue := rest, wire := c.bytes } }) ∧
    (∀ (k : Floor) c rest, s.floors[k].line = .up → s.floors[k].queue = c :: rest →
      exec (.transmitCell (.F k)) s =
        .next { s with floors := s.floors.set k { s.floors[k] with queue := rest, wire := c.bytes } }) ∧
    (s.portL.queue = [] ∨ s.portL.link = .down → exec (.transmitCell .L) s = .next s) ∧
    (s.portH.queue = [] ∨ s.portH.link = .down → exec (.transmitCell .H) s = .next s) ∧
    ∀ k : Floor, s.floors[k].queue = [] ∨ s.floors[k].line ≠ .up → exec (.transmitCell (.F k)) s = .next s

/-- A cell whose check fails sets CELL_CHECK and does nothing else. A whole cell whose check passes sets PROTOCOL and does
nothing else where its kind is none that may arrive: on a riser port a kind outside 1 to 13, or a PROGRESS with a code
outside 1 to 5; on a floor port a kind that the manual does not name, or OFFER, CANCEL or STATUS, which only this switch
sends. On a port that hears nothing it does nothing at all (R5, R6, R7, R8). That this one command carries the raw bytes of
both, of any length, is the model's reading of the table's row (assumption 9). -/
def Obligations.CellCheckFailed : Prop :=
  ∀ (s : State) (p : Port) (bytes : List Byte), s.powered = true →
    let c := Instr.cellCheckFailed p bytes
    let kind := (bytes[0]?.getD 0).toNat
    let code := (bytes[8]?.getD 0).toNat
    (checkPasses bytes = false → s.hears p = true → s.roomL 1 → exec c s = .next (s.withEvent .cellCheck)) ∧
    (checkPasses bytes = true → s.hears p = true → s.roomL 1 →
      match p with
      | .L | .H => bytes.length = 16 → (kind = 0 ∨ 13 < kind ∨ (kind = 3 ∧ (code = 0 ∨ 5 < code))) →
        exec c s = .next (s.withEvent .protocol)
      | .F _ => bytes.length = 8 → kind ∉ [4, 8, 9, 10, 11, 12, 13, 14, 15] →
        exec c s = .next (s.withEvent .protocol)) ∧
    (s.hears p = false → exec c s = .next s)

/-! ## Cells about a call on the riser -/

/-- ALERTING from above: in FORWARDED the progress wait stops and the record goes to RINGING with no record timer; in
RINGING the record is unchanged; in both a PROGRESS ALERTING goes down port L with the record's L key (R96). -/
def Obligations.AlertingFromAbove : Prop :=
  ∀ (s : State) (key : Key) (lane : Byte) (h : Handle) (r : CallRecord), s.powered = true → s.receives .H = true →
    laneFieldOk lane = true → s.keyed .H key = some h → s.call? h = some r → r.dir = .up → s.roomL 1 →
    (r.state = .forwarded → exec (.alertingFromAbove key lane) s =
      .next ((s.putCall h { r with state := .ringing, timer := none }).sentL (r.cellsDown .alerting))) ∧
    (r.state = .ringing → exec (.alertingFromAbove key lane) s = .next (s.sentL (r.cellsDown .alerting)))

/-- QUEUED from above: in FORWARDED the progress-wait timer restarts with the lane-wait time plus the progress-wait
time, 20 to 800 units, 250 with the defaults, and a PROGRESS QUEUED goes down port L (R97). -/
def Obligations.QueuedFromAbove : Prop :=
  (∀ (s : State) (key : Key) (lane : Byte) (h : Handle) (r : CallRecord), s.powered = true → s.receives .H = true →
    laneFieldOk lane = true → s.keyed .H key = some h → s.call? h = some r → r.dir = .up → r.state = .forwarded →
    s.roomL 1 →
    exec (.queuedFromAbove key lane) s =
      .next ((s.putCall h { r with
        timer := startTimer .progressWait (s.retained.timers.laneWait + s.retained.timers.progressWait) }).sentL
        (r.cellsDown .queued))) ∧
  (∀ d : Retained, d.Legal →
    20 ≤ d.timers.laneWait + d.timers.progressWait ∧ d.timers.laneWait + d.timers.progressWait ≤ 800) ∧
  Retained.default.timers.laneWait + Retained.default.timers.progressWait = 250

/-- HELD and RESUMED from above, their lane field 0 to 11 or NONE (assumption 8): relayed down port L with lane NONE in CONNECTED, discarded
without an event in PARKED. LIMIT_NEAR from above: relayed in both; from below: discarded with PROTOCOL. The record is
unchanged (R98, R99, R101, R137). That a LIMIT_NEAR is relayed for a downward record, in CONNECTED as in PARKED, is the
model's choice of R137's table against its prose (assumption 10). -/
def Obligations.HoldAndLimitFromAbove : Prop :=
  (∀ (s : State) (key : Key) (lane : Byte) (h : Handle) (r : CallRecord), s.powered = true → s.receives .H = true →
     laneFieldOk lane = true → s.keyed .H key = some h → s.call? h = some r →
     (r.state = .connected → s.roomL 1 →
       exec (.heldFromAbove key lane) s = .next (s.sentL (r.cellsDown .held)) ∧
       exec (.resumedFromAbove key lane) s = .next (s.sentL (r.cellsDown .resumed))) ∧
     (r.state = .parked →
       exec (.heldFromAbove key lane) s = .next s ∧ exec (.resumedFromAbove key lane) s = .next s)) ∧
  (∀ (s : State) (key : Key) (lane : Byte) (h : Handle) (r : CallRecord), s.powered = true →
     laneFieldOk lane = true → s.call? h = some r → r.state = .connected ∨ r.state = .parked → s.roomL 1 →
     (s.receives .H = true → s.keyed .H key = some h →
       exec (.limitNearFromAbove .H key lane) s = .next (s.sentL (r.cellsDown .limitNear))) ∧
     (s.receives .L = true → s.keyed .L key = some h →
       exec (.limitNearFromAbove .L key lane) s = .next (s.withEvent .protocol)))

/-- CONNECT in FORWARDED or RINGING: the record timer stops, the L lane and the owned lane are cross-connected and the
record goes to CONNECTED. From above, for an upward record, talk owner stays as it was and a CONNECT goes down port L.
From below, for a downward record: at a call-down this switch becomes talk owner with its talk-limit timer, STATUS
CONNECTED names the floor lane and the activity becomes ENGAGED; a relayed record sends CONNECT up port H (R100, R136,
R141). -/
def Obligations.ConnectJoins : Prop :=
  (∀ (s : State) (key lowKey : Key) (h : Handle) (r : CallRecord) (l : LLane) (i : Nat), s.powered = true →
    s.receives .H = true → s.keyed .H key = some h → s.call? h = some r → r.dir = .up →
    r.state = .forwarded ∨ r.state = .ringing → r.low = .opened lowKey → r.lLane = some l → r.ownedLane = some i →
    s.roomL 1 →
    exec (.connectFromAbove key) s =
      .next (({ s.putCall h { r with state := .connected, timer := none } with
        crosses := s.crosses ++ [{ handle := h, lLane := l, port := .H, lane := i }] } : State).sentL
        [connectCell lowKey])) ∧
  ∀ (s : State) (key : Key) (h : Handle) (r : CallRecord) (l : LLane) (i : Nat), s.powered = true →
    s.receives .L = true → s.keyed .L key = some h → s.call? h = some r → r.dir = .down →
    r.state = .forwarded ∨ r.state = .ringing → r.lLane = some l → r.ownedLane = some i →
    (∀ (f : FloorSide) (a : Addr), r.far = .floor f → f.answering = some a → s.roomF f.port 1 →
      exec (.connectFromBelow key) s =
        .next ((({ s.putCall h { r with state := .connected, talkOwner := true, timer := s.talkTimer r.cls } with
          crosses := s.crosses ++ [{ handle := h, lLane := l, port := .F f.port, lane := i }] } : State).sentF f.port
          [statusCell h.val a .connected 0 (some i)]).putActivity f.slot (.engaged h))) ∧
    (∀ farKey, r.far = .high (.opened farKey) → s.roomH 1 →
      exec (.connectFromBelow key) s =
        .next (({ s.putCall h { r with state := .connected, timer := none } with
          crosses := s.crosses ++ [{ handle := h, lLane := l, port := .H, lane := i }] } : State).sentH
          [connectCell farKey]))

/-- LANE-GRANT from below for a record in AWAITING_GRANT: where the lane passes the mirror test it is entered in the
mirror and becomes the L lane, the grant wait stops and the record goes to FORWARDED with its progress-wait timer; where
it fails PROTOCOL is set and the record is unchanged. One that names no lane, NONE among them, is discarded with PROTOCOL
whatever record its key names; on port H the cell fails its port test (R133, R46, R6). -/
def Obligations.LaneGrant : Prop :=
  (∀ (s : State) (key : Key) (lane : Byte) (l : LLane) (h : Handle) (r : CallRecord), s.powered = true →
    laneOf lane = some l → s.receives .L = true → s.keyed .L key = some h → s.call? h = some r →
    r.state = .awaitingGrant →
      (((s.mirror[l] = none ∨ s.mirror[l] = some h) ∧ (r.lLane = none ∨ r.lLane = some l)) →
        exec (.laneGrant .L key lane) s = .next { s.putCall h { r with
          state := .forwarded, lLane := some l,
          timer := startTimer .progressWait (s.retained.timers.progressWait) } with
          mirror := s.mirror.set l (some h) }) ∧
      (¬ ((s.mirror[l] = none ∨ s.mirror[l] = some h) ∧ (r.lLane = none ∨ r.lLane = some l)) → s.roomL 1 →
        exec (.laneGrant .L key lane) s = .next (s.withEvent .protocol))) ∧
  ∀ (s : State) (key : Key) (lane : Byte), s.powered = true → s.roomL 1 →
    (laneOf lane = none → s.receives .L = true →
      exec (.laneGrant .L key lane) s = .next (s.withEvent .protocol)) ∧
    (s.receives .H = true → exec (.laneGrant .H key lane) s = .next (s.withEvent .protocol))

/-- QUEUED from below restarts the record's timer with the lane-wait time plus its own setting and tells the far side.
ALERTING from below takes FORWARDED to RINGING: at a call-down with its ring timer and STATUS RINGBACK, at a relayed record
with no timer and PROGRESS ALERTING up; in RINGING a call-down is unchanged and a relayed record relays it again (R134,
R135). -/
def Obligations.ProgressFromBelow : Prop :=
  (∀ (s : State) (key : Key) (lane : Byte) (h : Handle) (r : CallRecord), s.powered = true → s.receives .L = true →
     laneFieldOk lane = true → s.keyed .L key = some h → s.call? h = some r → r.dir = .down →
     ∀ (purpose : Purpose) (own : Nat),
       (r.state = .awaitingGrant ∧ purpose = .grantWait ∧ own = s.retained.timers.grantWait) ∨
         (r.state = .forwarded ∧ purpose = .progressWait ∧ own = s.retained.timers.progressWait) →
       let t := s.putCall h { r with
         timer := startTimer purpose (s.retained.timers.laneWait + own) }
       (∀ (f : FloorSide) (a : Addr), r.far = .floor f → f.answering = some a → s.roomF f.port 1 →
         exec (.queuedFromBelow key lane) s = .next (t.sentF f.port [statusCell h.val a .queued])) ∧
       (∀ farKey, r.far = .high (.opened farKey) → s.roomH 1 →
         exec (.queuedFromBelow key lane) s = .next (t.sentH [progressCell farKey .queued]))) ∧
  (∀ (s : State) (key : Key) (lane : Byte) (h : Handle) (r : CallRecord), s.powered = true → s.receives .L = true →
     laneFieldOk lane = true → s.keyed .L key = some h → s.call? h = some r → r.dir = .down →
     (∀ (f : FloorSide) (a : Addr), r.far = .floor f → f.answering = some a →
       (r.state = .forwarded → s.roomF f.port 1 → exec (.alertingFromBelow key lane) s =
         .next ((s.putCall h { r with
           state := .ringing
           timer := startTimer .ringTime (s.retained.timers.ring) }).sentF f.port
           [statusCell h.val a .ringback])) ∧
       (r.state = .ringing → exec (.alertingFromBelow key lane) s = .next s)) ∧
     (∀ farKey, r.far = .high (.opened farKey) → s.roomH 1 →
       (r.state = .forwarded → exec (.alertingFromBelow key lane) s =
         .next ((s.putCall h { r with state := .ringing, timer := none }).sentH [progressCell farKey .alerting])) ∧
       (r.state = .ringing → exec (.alertingFromBelow key lane) s = .next (s.sentH [progressCell farKey .alerting]))))

/-- HELD from below with held-below clear empties the record's mirror entry with its cross-connect; RESUMED from below names
a lane, which by the mirror test becomes the L lane again; in CONNECTED the lanes are joined and the far side is told, in
PARKED nothing more; a RESUMED that fails sets PROTOCOL, and so does one that names no lane, NONE among them, whatever
record its key names (R6, R46, R47, R150, R151). -/
def Obligations.HoldFromBelow : Prop :=
  (∀ (s : State) (key : Key) (lane : Byte) (h : Handle) (r : CallRecord) (l : LLane), s.powered = true →
     s.receives .L = true → laneFieldOk lane = true → s.keyed .L key = some h → s.call? h = some r →
     r.heldBelow = false → r.lLane = some l →
     let t := ({ s.putCall h { r with lLane := none, heldBelow := true } with
       mirror := s.mirror.set l none, crosses := s.crosses.filter fun x => !(x.lLane == l) } : State)
     (r.state = .parked → exec (.heldFromBelow key lane) s = .next t) ∧
     (r.state = .connected →
       (∀ (f : FloorSide) (a : Addr), r.far = .floor f → f.answering = some a → s.roomF f.port 1 →
         exec (.heldFromBelow key lane) s = .next (t.sentF f.port [statusCell h.val a .held])) ∧
       (∀ farKey, r.far = .high (.opened farKey) → s.roomH 1 →
         exec (.heldFromBelow key lane) s = .next (t.sentH [progressCell farKey .held])))) ∧
  (∀ (s : State) (key : Key) (lane : Byte) (h : Handle) (r : CallRecord) (l : LLane), s.powered = true →
     s.receives .L = true → laneOf lane = some l → s.keyed .L key = some h → s.call? h = some r →
     let passes := (s.mirror[l] = none ∨ s.mirror[l] = some h) ∧ (r.lLane = none ∨ r.lLane = some l)
     let t := ({ s.putCall h { r with lLane := some l, heldBelow := false } with
       mirror := s.mirror.set l (some h) } : State)
     (r.heldBelow = true → passes →
       (r.state = .parked → exec (.resumedFromBelow key lane) s = .next t) ∧
       (r.state = .connected → ∀ i : Nat, r.ownedLane = some i →
         (∀ (f : FloorSide) (a : Addr), r.far = .floor f → f.answering = some a → s.roomF f.port 1 →
           exec (.resumedFromBelow key lane) s = .next (({ t with
             crosses := s.crosses ++ [{ handle := h, lLane := l, port := .F f.port, lane := i }] } : State).sentF f.port
             [statusCell h.val a .resumed 0 (some i)])) ∧
         (∀ farKey, r.far = .high (.opened farKey) → s.roomH 1 →
           exec (.resumedFromBelow key lane) s = .next (({ t with
             crosses := s.crosses ++ [{ handle := h, lLane := l, port := .H, lane := i }] } : State).sentH
             [progressCell farKey .resumed (some i)])))) ∧
     (r.state ≠ .clearing → r.heldBelow = false ∨ ¬ passes → s.roomL 1 →
       exec (.resumedFromBelow key lane) s = .next (s.withEvent .protocol))) ∧
  ∀ (s : State) (key : Key) (lane : Byte), s.powered = true → s.receives .L = true → laneOf lane = none → s.roomL 1 →
    exec (.resumedFromBelow key lane) s = .next (s.withEvent .protocol)

/-- A RELEASE that names a record not in CLEARING is answered RELEASE-DONE on its port, that side closes, and the record is
released with the cause of the RELEASE (a code that names no cause is NORMAL); the arbiter then runs for the lane it frees.
A record left with no open side is freed in the same event (assumption 21). In CLEARING a RELEASE and a RELEASE-DONE each
close the side they arrive for, unanswered, and the record is freed when no side remains open (R6, R72, R145, R146, R147). -/
def Obligations.ReleaseHandshake : Prop :=
  (∀ (s : State) (p : Riser) (key : Key) (code : Byte) (h : Handle) (r : CallRecord), s.powered = true →
     s.receives p = true → s.keyed p key = some h → s.call? h = some r → r.state ≠ .clearing →
     s.InLine (s.waitersOn h r) → s.roomToEnd h r (Cause.ofByte code) →
     let t := match p with
       | .L => s.sentL [releaseDoneCell key]
       | .H => s.sentH [releaseDoneCell key]
     exec (.release p key code) s = .next ((t.ended h (r.closeSide p) (Cause.ofByte code)).regranted r)) ∧
  (∀ (s : State) (p : Riser) (key : Key) (code : Byte) (h : Handle) (r : CallRecord), s.powered = true →
     s.receives p = true → s.keyed p key = some h → s.call? h = some r → r.state = .clearing →
     let t := if (r.closeSide p).anyOpen then s.putCall h (r.closeSide p) else s.freed h
     exec (.release p key code) s = .next t ∧ exec (.releaseDone p key) s = .next t)

/-- The match of a key: in a state whose tables agree (`State.Linked`), a key names the live record whose side on that port is
open with it, and no other (R85). Cells for an unknown key: a RELEASE is answered RELEASE-DONE with the key as received, without an event; every other is
discarded with PROTOCOL; so is a RELEASE-DONE for an open side of a record not in CLEARING. Any cell but these two for a
record in CLEARING is discarded without an event (R149). A cell that names a record not in CLEARING in a state, direction or
port that its table does not accept is discarded with PROTOCOL, and the record and all else stand (R6, R101, R133, R137,
R150, R151); so is a LANE-GRANT or PROGRESS whose lane field is out of range, also where its kind does not use the lane
(assumption 8). -/
def Obligations.StrayCells : Prop :=
  (∀ (s : State) (p : Riser) (key : Key) (h : Handle), s.Linked →
     (s.keyed p key = some h ↔ ∃ r, s.call? h = some r ∧ r.openKey p = some key)) ∧
  (∀ (s : State) (p : Riser) (key : Key), s.powered = true → s.receives p = true → s.roomL 1 → s.roomH 1 →
     (s.keyed p key = none →
       (∀ code, exec (.release p key code) s = .next (match p with
         | .L => s.sentL [releaseDoneCell key]
         | .H => s.sentH [releaseDoneCell key])) ∧
       exec (.releaseDone p key) s = .next (s.withEvent .protocol) ∧
       (∀ lane, laneFieldOk lane = true →
         exec (.limitNearFromAbove p key lane) s = .next (s.withEvent .protocol) ∧
         (p = .H →
           exec (.alertingFromAbove key lane) s = .next (s.withEvent .protocol) ∧
           exec (.queuedFromAbove key lane) s = .next (s.withEvent .protocol) ∧
           exec (.heldFromAbove key lane) s = .next (s.withEvent .protocol) ∧
           exec (.resumedFromAbove key lane) s = .next (s.withEvent .protocol) ∧
           exec (.connectFromAbove key) s = .next (s.withEvent .protocol) ∧
           ∀ origin : Word, origin.toNat ≤ 15 →
             exec (.unlatchFromAbove .H key 0 origin) s = .next (s.withEvent .protocol)) ∧
         (p = .L →
           exec (.laneGrant .L key lane) s = .next (s.withEvent .protocol) ∧
           exec (.queuedFromBelow key lane) s = .next (s.withEvent .protocol) ∧
           exec (.alertingFromBelow key lane) s = .next (s.withEvent .protocol) ∧
           exec (.connectFromBelow key) s = .next (s.withEvent .protocol) ∧
           exec (.heldFromBelow key lane) s = .next (s.withEvent .protocol) ∧
           exec (.resumedFromBelow key lane) s = .next (s.withEvent .protocol)))) ∧
     ∀ h r, s.keyed p key = some h → s.call? h = some r → r.state ≠ .clearing →
       exec (.releaseDone p key) s = .next (s.withEvent .protocol)) ∧
  (∀ (s : State) (key : Key) (lane : Byte) (h : Handle) (r : CallRecord), s.powered = true →
     laneFieldOk lane = true → s.call? h = some r → r.state = .clearing →
     (s.receives .H = true → s.keyed .H key = some h →
       (∀ c ∈ [Instr.alertingFromAbove key lane, .queuedFromAbove key lane, .heldFromAbove key lane,
         .resumedFromAbove key lane, .limitNearFromAbove .H key lane, .connectFromAbove key], exec c s = .next s) ∧
       ∀ origin : Word, origin.toNat ≤ 15 → exec (.unlatchFromAbove .H key 0 origin) s = .next s) ∧
     (s.receives .L = true → s.keyed .L key = some h →
       (∀ c ∈ [Instr.queuedFromBelow key lane, .alertingFromBelow key lane, .limitNearFromAbove .L key lane,
         .connectFromBelow key, .heldFromBelow key lane], exec c s = .next s) ∧
       (∀ l, laneOf lane = some l →
         exec (.laneGrant .L key lane) s = .next s ∧ exec (.resumedFromBelow key lane) s = .next s))) ∧
  (∀ (s : State) (key : Key) (lane : Byte) (h : Handle) (r : CallRecord), s.powered = true → laneFieldOk lane = true →
     s.call? h = some r → r.state ≠ .clearing → s.roomL 1 →
     let discards : Instr → Prop := fun c => exec c s = .next (s.withEvent .protocol)
     (s.receives .H = true → s.keyed .H key = some h →
       (¬ (r.dir = .up ∧ (r.state = .forwarded ∨ r.state = .ringing)) →
         discards (.alertingFromAbove key lane) ∧ discards (.connectFromAbove key)) ∧
       (¬ (r.dir = .up ∧ r.state = .forwarded) → discards (.queuedFromAbove key lane)) ∧
       (r.state ≠ .connected → r.state ≠ .parked →
         discards (.heldFromAbove key lane) ∧ discards (.resumedFromAbove key lane) ∧
         discards (.limitNearFromAbove .H key lane))) ∧
     (s.receives .L = true → s.keyed .L key = some h →
       discards (.limitNearFromAbove .L key lane) ∧
       (r.state ≠ .awaitingGrant → discards (.laneGrant .L key lane)) ∧
       (¬ (r.dir = .down ∧ (r.state = .awaitingGrant ∨ r.state = .forwarded)) →
         discards (.queuedFromBelow key lane)) ∧
       (¬ (r.dir = .down ∧ (r.state = .forwarded ∨ r.state = .ringing)) →
         discards (.alertingFromBelow key lane) ∧ discards (.connectFromBelow key)) ∧
       (r.heldBelow = true ∨ (r.state ≠ .connected ∧ r.state ≠ .parked) → discards (.heldFromBelow key lane)) ∧
       (r.heldBelow = false ∨ (r.state ≠ .connected ∧ r.state ≠ .parked) →
         discards (.resumedFromBelow key lane)))) ∧
  ∀ (s : State) (key : Key) (lane : Byte), s.powered = true → laneFieldOk lane = false → s.roomL 1 →
    (s.receives .H = true → ∀ c ∈ [Instr.alertingFromAbove key lane, .queuedFromAbove key lane,
      .heldFromAbove key lane, .resumedFromAbove key lane, .limitNearFromAbove .H key lane],
      exec c s = .next (s.withEvent .protocol)) ∧
    (s.receives .L = true → ∀ c ∈ [Instr.laneGrant .L key lane, .queuedFromBelow key lane,
      .alertingFromBelow key lane, .heldFromBelow key lane, .resumedFromBelow key lane,
      .limitNearFromAbove .L key lane], exec c s = .next (s.withEvent .protocol))

/-- UNLATCH from above for a CONNECTED upward call from a panel: relayed down port L with the record's own panel while
fire mode is inactive, discarded while it is active; for a downward record, or an upward CONNECTED record whose origin
is no panel, PROTOCOL is set, in fire mode too (assumption 22); in any other state it is discarded (assumption 11). On port
L, or with an origin that is no panel from 0 to 15, the cell is discarded with PROTOCOL (R153, R6). -/
def Obligations.UnlatchFromAbove : Prop :=
  (∀ (s : State) (key : Key) (origin : Word) (h : Handle) (r : CallRecord), s.powered = true → s.receives .H = true →
    origin.toNat ≤ 15 → s.keyed .H key = some h → s.call? h = some r → r.state ≠ .clearing → s.roomL 1 →
    (∀ n lowKey, r.dir = .up → r.state = .connected → r.origin = .panel n → r.low = .opened lowKey →
      exec (.unlatchFromAbove .H key 0 origin) s =
        .next (if s.fireMode then s else s.sentL [unlatchCell lowKey n])) ∧
    (r.dir = .down ∨ (r.state = .connected ∧ ∀ n, r.origin ≠ .panel n) →
      exec (.unlatchFromAbove .H key 0 origin) s = .next (s.withEvent .protocol)) ∧
    (r.dir = .up → r.state ≠ .connected → exec (.unlatchFromAbove .H key 0 origin) s = .next s)) ∧
  ∀ (s : State) (key : Key) (okind : BitVec 2) (origin : Word), s.powered = true → s.roomL 1 →
    (s.receives .L = true → exec (.unlatchFromAbove .L key okind origin) s = .next (s.withEvent .protocol)) ∧
    (s.receives .H = true → (okind ≠ 0 ∨ 15 < origin.toNat) →
      exec (.unlatchFromAbove .H key okind origin) s = .next (s.withEvent .protocol))

/-- RESTART from a neighbour. From below: the mirror and the cross-connects are emptied and each record whose low side was
open, in ascending order of handle, loses it: in CLEARING it is freed with its last side, in any other state it is released
NEIGHBOUR_RESTART toward its other side; the arbiter then runs once for each port on which a lane was freed, so that a
queued DIAL or relayed call, which is not touched, may go on. From above: so for each record whose far side on port H was
open, and the line source, which stands, is announced by FIRE-ON where it is set. Whatever room the queues have, what
remains of those records is in CLEARING with that side closed (R171, R172, R160; a record granted before a RESTART from
above: assumption 23). -/
def Obligations.Restarts : Prop :=
  (∀ s : State, s.powered = true → s.receives .L = true →
     let left := s.waitersLeft fun r => (r.openKey .L).isSome
     s.InLine left → s.roomL left.length →
     s.roomH ((s.selected fun r => r.state != .clearing && (r.openKey .L).isSome && (r.openKey .H).isSome).length +
       left.length) →
     (∀ k : Floor, s.roomF k (s.floorCellsFor (fun r =>
       r.state != .clearing && (r.openKey .L).isSome && r.ownedPort == some (.F k)) .neighbourRestart + left.length)) →
     exec .restartFromBelow s = .next ((s.mirrorless.forEach (fun r => (r.openKey .L).isSome)
       fun t h r => t.cut .L .neighbourRestart h r).arbitratedAt (s.frees fun r => (r.openKey .L).isSome))) ∧
  (∀ s : State, s.powered = true → s.receives .H = true →
     let left := (s.waitersLeft fun r => (r.openKey .H).isSome).filter fun x => x.port = .H
     s.InLine left →
     s.roomL ((s.selected fun r => r.state != .clearing && (r.openKey .L).isSome && (r.openKey .H).isSome).length +
       left.length) →
     s.roomH (1 + left.length) →
     let t := s.forEach (fun r => (r.openKey .H).isSome) fun t h r => t.cut .H .neighbourRestart h r
     exec .restartFromAbove s = .next ((if s.lineSource then t.sentH [fireOnCell] else t).arbitratedAt
       (s.frees fun r => (r.openKey .H).isSome))) ∧
  (∀ s : State, s.powered = true → s.receives .L = true → s.waiting = [] →
     ∃ t, exec .restartFromBelow s = .next t ∧ (∀ l : LLane, t.mirror[l] = none) ∧ t.crosses = [] ∧
       t.retained = s.retained ∧
       ∀ (h : Handle) (r : CallRecord), s.call? h = some r →
         (r.openKey .L = none → t.call? h = some { r with lLane := none }) ∧
         (r.openKey .L ≠ none → ∀ r', t.call? h = some r' → r'.state = .clearing ∧ r'.openKey .L = none)) ∧
  (∀ s : State, s.powered = true → s.receives .H = true → s.waiting = [] →
     ∃ t, exec .restartFromAbove s = .next t ∧ t.lineSource = s.lineSource ∧ t.retained = s.retained ∧
       ∀ (h : Handle) (r : CallRecord), s.call? h = some r →
         (r.openKey .H = none → t.call? h = some r) ∧
         (r.openKey .H ≠ none → ∀ r', t.call? h = some r' → r'.state = .clearing ∧ r'.openKey .H = none))

/-! ## New calls -/

/-- An upward SETUP routed HIGH that is admitted on port H: the record of R90 with the handle at the head of the
free-handle list, its L lane in the mirror, its class clamped (R27), the lowest FREE H lane taken, and a SETUP up port H
with key (LOW, own handle) and that lane; FORWARDED with its progress wait (R90, R93, R94). -/
def Obligations.SetupForwarded : Prop :=
  ∀ (s : State) (key : Key) (lane : Byte) (dest : Word) (cls : Sys2Proof.Class) (okind : BitVec 2) (origin : Word)
    (l : LLane) (o : Origin) (h : Handle) (rest : List Handle) (i : Nat),
    s.powered = true → s.receives .L = true → laneOf lane = some l → originOf okind origin = some o →
    dest.toNat ≤ 9999 → key.side = .low → s.keyed .L key = none → s.mirror[l] = none → s.freeHandles = h :: rest →
    let base := s.retained.baseClass o cls
    s.fireRefuses base = false → s.route dest.toNat = .high → s.admitLane .H base.val = some i → s.roomH 1 →
    let r : CallRecord :=
      { state := .forwarded, dir := .up, cls := base, origin := o, dest := dest, low := .opened key, lLane := some l,
        heldBelow := false, far := .high (.opened (ownKey .H h)), ownedLane := some i,
        timer := startTimer .progressWait s.retained.timers.progressWait, talkOwner := false, pendingCause := none }
    exec (.setupFromBelow key lane dest cls okind origin) s =
      .next (((({ s with freeHandles := rest, mirror := s.mirror.set l (some h) } : State).putCall h r).laneTaken .H i
        h).sentH [setupCell s r (ownKey .H h) (some i)])

/-- An upward SETUP routed to a flat that passes the quiet test, finds it IDLE and is admitted: OFFERING on the lowest
FREE floor lane, an OFFER to the main handset (with the extension as second address under PAIRED), an entry in SENT for
each handset offered, and activity OFFERED (R95, R105, R106, R108, R111). -/
def Obligations.SetupOffered : Prop :=
  ∀ (s : State) (key : Key) (lane : Byte) (dest : Word) (cls : Sys2Proof.Class) (okind : BitVec 2) (origin : Word)
    (l : LLane) (o : Origin) (h : Handle) (rest : List Handle) (k : Floor) (n : SlotNo) (i : Nat),
    s.powered = true → s.receives .L = true → laneOf lane = some l → originOf okind origin = some o →
    dest.toNat ≤ 9999 → key.side = .low → s.keyed .L key = none → s.mirror[l] = none → s.freeHandles = h :: rest →
    let base := s.retained.baseClass o cls
    let x := s.retained.slots[n]
    s.fireRefuses base = false → s.route dest.toNat = .floor k n → (base = 7 ∨ x.quiet < base) →
    s.activity[n] = .idle → s.admitLane (.F k) base.val = some i → s.roomF k 1 →
    let second := if x.mode = .paired then x.ext else none
    let sent : Addr → OfferEntry := fun a =>
      { addr := a, state := .sent, retries := 0, window := some s.retained.timers.window }
    let f : FloorSide :=
      { port := k, slot := n, main := x.main, ext := x.ext, mode := if x.ext = none then .mainOnly else x.mode,
        entries := sent x.main :: second.toList.map sent, answering := none, preAnswered := false }
    let r : CallRecord :=
      { state := .offering, dir := .up, cls := base, origin := o, dest := dest, low := .opened key, lLane := some l,
        heldBelow := false, far := .floor f, ownedLane := some i, timer := none, talkOwner := false,
        pendingCause := none }
    exec (.setupFromBelow key lane dest cls okind origin) s =
      .next ((((({ s with freeHandles := rest, mirror := s.mirror.set l (some h) } : State).putCall h r).laneTaken
        (.F k) i h).sentF k [offerCell h (some i) x.main second]).putActivity n (.offered h))

/-- The routing lookup: out of service, number 0, then the target of the lowest exception window that contains the number,
if some ordinary window does, else of the lowest ordinary window, else HIGH; a floor target asks for a slot with the number
on that port and for its line UP. The clamp: a panel's class is bounded by its ceiling and no other origin's is (R22, R23,
R27 to R29). An upward SETUP that goes no further than the tests before its lane request: one that fails a test of R6 or R88 is
discarded with PROTOCOL; one that finds no free handle is refused TABLE_FULL by a RELEASE with its key, without a record; one
refused after its record is made, by fire mode, by the routing lookup, or by the quiet or activity test of its flat, is
answered RELEASE with the cause down port L, its record in CLEARING; the refusals of the lane request are in LaneRequests
(R6, R88, R89, R91, R92, R105, R106). -/
def Obligations.SetupRefused : Prop :=
  (∀ (s : State) (n : Nat),
     let d := s.retained
     let inside : Window → Prop := fun x => x.base ≤ x.limit ∧ x.base ≤ n ∧ n ≤ x.limit
     let lowest : Fin 8 → Prop := fun i => inside d.ordinary[i] ∧ ∀ j < i, ¬ inside d.ordinary[j]
     let chosen : Target → Prop := fun x =>
       ((∀ i : Fin 8, ¬ inside d.ordinary[i]) ∧ x = .high) ∨
       ∃ i, lowest i ∧
         (((∀ j : Fin 4, ¬ inside d.exceptions[j]) ∧ x = d.ordinary[i].target) ∨
          ∃ j : Fin 4, inside d.exceptions[j] ∧ (∀ m < j, ¬ inside d.exceptions[m]) ∧ x = d.exceptions[j].target)
     (d.service = .outOfService → s.route n = .refused .notInService false) ∧
     (d.service = .inService → n = 0 → s.route n = .refused .invalid false) ∧
     (d.service = .inService → n ≠ 0 →
       (chosen .high → s.route n = if s.top then .refused .noSuchApartment false else .high) ∧
       (chosen .bar → s.route n = .refused .barred false) ∧
       ∀ k : Floor, chosen (.floor k) →
         ((∀ i : SlotNo, d.slots[i].number ≠ n) → s.route n = .refused .noSuchApartment false) ∧
         ∀ i : SlotNo, d.slots[i].number = n → (∀ j < i, d.slots[j].number ≠ n) →
           (d.slots[i].port ≠ k → s.route n = .refused .noSuchApartment true) ∧
           (d.slots[i].port = k → s.route n = if s.floorUp k then .floor k i else .refused .lineFault false))) ∧
  (∀ (d : Retained) (o : Origin) (cls : Sys2Proof.Class),
     (∀ m, o = .panel m → d.baseClass o cls = min cls d.ceilings[m]) ∧
     ((∀ m, o ≠ .panel m) → d.baseClass o cls = cls)) ∧
  (∀ (s : State) (key : Key) (lane : Byte) (dest : Word) (cls : Sys2Proof.Class) (okind : BitVec 2) (origin : Word),
     s.powered = true → s.receives .L = true →
     ((laneOf lane = none ∨ originOf okind origin = none ∨ 9999 < dest.toNat ∨ key.side = .high ∨
         s.keyed .L key ≠ none ∨ ∃ l, laneOf lane = some l ∧ s.mirror[l] ≠ none) → s.roomL 1 →
       exec (.setupFromBelow key lane dest cls okind origin) s = .next (s.withEvent .protocol)) ∧
     (∀ l o, laneOf lane = some l → originOf okind origin = some o → dest.toNat ≤ 9999 → key.side = .low →
       s.keyed .L key = none → s.mirror[l] = none → s.freeHandles = [] → s.roomL 2 →
       exec (.setupFromBelow key lane dest cls okind origin) s =
         .next ((s.withEvent .tableFull).sentL [releaseCell key .tableFull]))) ∧
  (∀ (s : State) (key : Key) (lane : Byte) (dest : Word) (cls : Sys2Proof.Class) (okind : BitVec 2) (origin : Word)
     (l : LLane) (o : Origin) (h : Handle) (rest : List Handle),
     s.powered = true → s.receives .L = true → laneOf lane = some l → originOf okind origin = some o →
     dest.toNat ≤ 9999 → key.side = .low → s.keyed .L key = none → s.mirror[l] = none → s.freeHandles = h :: rest →
     s.roomL 1 →
     let base := s.retained.baseClass o cls
     let r : Far → CallRecord := fun far =>
       { state := .waitingLane, dir := .up, cls := base, origin := o, dest := dest, low := .opened key,
         lLane := some l, heldBelow := false, far := far, ownedLane := none, timer := none, talkOwner := false,
         pendingCause := none }
     let t : State := { s with freeHandles := rest, mirror := s.mirror.set l (some h) }
     (s.fireRefuses base = true →
       exec (.setupFromBelow key lane dest cls okind origin) s =
         .next ((t.putCall h (r .none)).ended h (r .none) .fireMode)) ∧
     (∀ c, s.fireRefuses base = false → s.route dest.toNat = .refused c false →
       exec (.setupFromBelow key lane dest cls okind origin) s = .next ((t.putCall h (r .none)).ended h (r .none) c)) ∧
     (∀ c, s.fireRefuses base = false → s.route dest.toNat = .refused c true → s.roomL 2 →
       exec (.setupFromBelow key lane dest cls okind origin) s =
         .next (((t.putCall h (r .none)).withEvent .directoryMismatch).ended h (r .none) c)) ∧
     (∀ k n, s.fireRefuses base = false → s.route dest.toNat = .floor k n →
       let f := Far.floor (s.retained.slots[n].capture n none)
       (¬ (base = 7 ∨ s.retained.slots[n].quiet < base) →
         exec (.setupFromBelow key lane dest cls okind origin) s = .next ((t.putCall h (r f)).ended h (r f) .quiet)) ∧
       ((base ≠ 7 ∧ s.retained.slots[n].quiet < base) → s.activity[n] ≠ .idle →
         exec (.setupFromBelow key lane dest cls okind origin) s = .next ((t.putCall h (r f)).ended h (r f) .busy))))

/-- A downward SETUP, or a DIAL from a handset of an IDLE flat, that is admitted on its owned port. From above: a record with
its far side open with the SETUP's key and its class unclamped, LANE-GRANT up port H with the lane taken, a SETUP down
port L with key (HIGH, own handle) and no lane, and AWAITING_GRANT with its grant wait (R132, R125). By DIAL: a call-down
record, activity ORIGINATING, and a SETUP down port L so formed, with the apartment number as origin (R126, R127, R129). -/
def Obligations.DownwardAdmitted : Prop :=
  (∀ (s : State) (key : Key) (lane : Byte) (dest : Word) (cls : Sys2Proof.Class) (okind : BitVec 2) (origin : Word)
    (o : Origin) (h : Handle) (rest : List Handle) (i : Nat),
    s.powered = true → s.receives .H = true → laneFieldOk lane = true → originOf okind origin = some o →
    dest = 0 → key.side = .high → s.keyed .H key = none → s.freeHandles = h :: rest → s.fireRefuses cls = false →
    s.retained.service = .inService → s.admitLane .H cls.val = some i → s.roomH 1 → s.roomL 1 →
    let r : CallRecord :=
      { state := .awaitingGrant, dir := .down, cls := cls, origin := o, dest := dest, low := .opened (ownKey .L h),
        lLane := none, heldBelow := false, far := .high (.opened key), ownedLane := some i,
        timer := startTimer .grantWait s.retained.timers.grantWait, talkOwner := false, pendingCause := none }
    exec (.setupFromAbove key lane dest cls okind origin) s =
      .next ((((({ s with freeHandles := rest } : State).putCall h r).laneTaken .H i h).sentH
        [laneGrantCell key (some i)]).sentL [setupCell s r (ownKey .L h) none])) ∧
  ∀ (s : State) (k : Floor) (a : Addr) (n : SlotNo) (role : Role) (h : Handle) (rest : List Handle) (i : Nat),
    s.powered = true → s.floorUp k = true → s.retained.handset k a = some (n, role) → s.activity[n] = .idle →
    s.freeHandles = h :: rest → s.retained.service = .inService →
    let x := s.retained.slots[n]
    s.fireRefuses x.callDown = false → s.admitLane (.F k) x.callDown.val = some i → s.roomL 1 →
    let f : FloorSide :=
      { port := k, slot := n, main := x.main, ext := x.ext, mode := if x.ext = none then .mainOnly else x.mode,
        entries := [], answering := some a, preAnswered := false }
    let r : CallRecord :=
      { state := .awaitingGrant, dir := .down, cls := x.callDown, origin := .dialled n, dest := 0,
        low := .opened (ownKey .L h), lLane := none, heldBelow := false, far := .floor f, ownedLane := some i,
        timer := startTimer .grantWait s.retained.timers.grantWait, talkOwner := false, pendingCause := none }
    exec (.dial k a) s =
      .next ((((({ s with freeHandles := rest } : State).putCall h r).laneTaken (.F k) i h).putActivity n
        (.originating h)).sentL
        [.call { kind := .setup, key := ownKey .L h, lane := none, okind := .apartment, cls := x.callDown, dest := 0,
                 origin := BitVec.ofNat 16 x.number, code := 0 }])

/-- A lane request by an upward SETUP routed HIGH or to a flat, by a downward SETUP and by a DIAL (`State.Asks`). On a usable
port whose admission test passes the record takes the lowest FREE lane and goes on. Where neither the test nor
preemption gives a lane: with room in the list it joins with s = 0 and its lane-wait timer, and its origin side is told
QUEUED (a flat is PENDING); in a full list it joins in place of the tail where the tail's e is lower, DISPLACED is set and
the tail's call ends CONGESTION; else CONGESTION is set and the call ends so. On a port that is not usable it ends
LINK_DOWN, or LINE_FAULT (R54, R55, R65 to R67, R92 to R95, R108, R129, R132). -/
def Obligations.LaneRequests : Prop :=
  ∀ (s : State) (c : Instr) (h : Handle) (r : CallRecord) (t : State) (p : Owned) (told : State → State),
    s.Asks c h r t p told → s.roomL 3 → s.roomH 2 → (∀ k : Floor, s.roomF k 2) →
    let e := effPriority r.cls 0
    (t.usable p = false →
      exec c s = .next (t.ended h r (match p with | .H => .linkDown | .F _ => .lineFault))) ∧
    (∀ i, t.admitLane p e = some i → exec c s = .next ((t.laneTaken p i h).goneOn h r i)) ∧
    (t.usable p = true → t.admitLane p e = none → t.preemption p r.cls = none →
      (t.waiting.length < 16 → exec c s = .next (told (t.joined h r p .waitingLane))) ∧
      (16 ≤ t.waiting.length → ∀ tail rt, t.waiting.getLast? = some tail → t.call? tail.handle = some rt →
        tail.handle ≠ h → rt.Waits → rt.ownedLane = none →
        (t.entryPriority tail < e →
          exec c s = .next (told
            (((t.withEvent .displaced).ended tail.handle rt .congestion).joined h r p .waitingLane))) ∧
        (e ≤ t.entryPriority tail → exec c s = .next ((t.withEvent .congestion).ended h r .congestion))))

/-- A downward SETUP from above that fails a test of R6 or R131 is discarded with PROTOCOL (that its lane field is tested for
its range, and then ignored, is the model's choice, assumption 8); with no free handle it is refused TABLE_FULL up port H;
refused by fire mode, by the service state, or for a destination that is not CONCIERGE, its record goes to CLEARING with a
RELEASE up port H (R6, R131, R132, R30). -/
def Obligations.SetupFromAboveRefused : Prop :=
  ∀ (s : State) (key : Key) (lane : Byte) (dest : Word) (cls : Sys2Proof.Class) (okind : BitVec 2) (origin : Word),
    s.powered = true → s.receives .H = true → s.roomL 1 → s.roomH 1 →
    ((laneFieldOk lane = false ∨ originOf okind origin = none ∨ 9999 < dest.toNat ∨ key.side = .low ∨
        s.keyed .H key ≠ none) →
      exec (.setupFromAbove key lane dest cls okind origin) s = .next (s.withEvent .protocol)) ∧
    (∀ o, laneFieldOk lane = true → originOf okind origin = some o → dest.toNat ≤ 9999 → key.side = .high →
      s.keyed .H key = none →
      (s.freeHandles = [] → exec (.setupFromAbove key lane dest cls okind origin) s =
        .next ((s.withEvent .tableFull).sentH [releaseCell key .tableFull])) ∧
      ∀ (h : Handle) (rest : List Handle) (c : Cause), s.freeHandles = h :: rest →
        (s.fireRefuses cls = true ∧ c = .fireMode) ∨
          (s.fireRefuses cls = false ∧ s.retained.service = .outOfService ∧ c = .notInService) ∨
          (s.fireRefuses cls = false ∧ s.retained.service = .inService ∧ dest ≠ 0 ∧ c = .invalid) →
        let r : CallRecord :=
          { state := .waitingLane, dir := .down, cls := cls, origin := o, dest := dest, low := .unopened,
            lLane := none, heldBelow := false, far := .high (.opened key), ownedLane := none, timer := none,
            talkOwner := false, pendingCause := none }
        exec (.setupFromAbove key lane dest cls okind origin) s =
          .next ((({ s with freeHandles := rest } : State).putCall h r).ended h r c))

/-! ## Cells from the handsets -/

/-- DIAL that begins no call-down: from no flat, from a flat with a call of its own, or with no free handle it is
answered STATUS CLEARED with handle 0; refused by fire mode or service, with the handle of a record freed at once; from a
flat whose call is PENDING it pre-answers it once, and then is BUSY (R121, R122, R126 to R128). Where the floor
port's queue is full the answer is discarded, and TX_OVERFLOW is set (R10). -/
def Obligations.DialAnswered : Prop :=
  (∀ (s : State) (k : Floor) (a : Addr), s.powered = true → s.floorUp k = true → s.roomL 1 →
    16 ≤ s.floors[k].queue.length → s.retained.handset k a = none →
    exec (.dial k a) s = .next (s.withEvent .txOverflow)) ∧
  ∀ (s : State) (k : Floor) (a : Addr), s.powered = true → s.floorUp k = true → s.roomF k 1 →
    (s.retained.handset k a = none →
      exec (.dial k a) s = .next (s.sentF k [clearedCell 0 a .noSuchApartment])) ∧
    ∀ n role, s.retained.handset k a = some (n, role) →
      (∀ v, (s.activity[n] = .engaged v ∨ s.activity[n] = .originating v) →
        exec (.dial k a) s = .next (s.sentF k [clearedCell 0 a .busy])) ∧
      (s.activity[n] = .idle → s.freeHandles = [] → s.roomL 1 →
        exec (.dial k a) s = .next ((s.withEvent .tableFull).sentF k [clearedCell 0 a .tableFull])) ∧
      (∀ (h : Handle) (rest : List Handle) (c : Cause), s.activity[n] = .idle → s.freeHandles = h :: rest →
        let x := s.retained.slots[n]
        (s.fireRefuses x.callDown = true ∧ c = .fireMode) ∨
          (s.fireRefuses x.callDown = false ∧ s.retained.service = .outOfService ∧ c = .notInService) →
        (∀ y ∈ s.waiting, y.handle ≠ h) →
        exec (.dial k a) s = .next (({ s with
          calls := s.calls.set h none, freeHandles := rest ++ [h] } : State).sentF k [clearedCell h.val a c])) ∧
      ∀ (v : Handle) (r : CallRecord) (f : FloorSide), s.activity[n] = .pending v → s.call? v = some r →
        r.far = .floor f →
        (f.preAnswered = true → exec (.dial k a) s = .next (s.sentF k [clearedCell 0 a .busy])) ∧
        (f.preAnswered = false → exec (.dial k a) s =
          .next ((s.putCall v { r with far := .floor { f with preAnswered := true, answering := some a } }).sentF k
            [statusCell v.val a .queued]))

/-- A matched ANSWER, and a DIAL from a flat whose activity is OFFERED, connect the call: the answering handset is told
CONNECTED with the floor lane, the other handsets offered are told CANCEL, the lanes are cross-connected, this switch is
talk owner with its talk limit, CONNECT goes down port L and the activity is ENGAGED (R114, R120). The talk-limit timer
of a class: none for a limit of 0; else it runs for the limit, with its near mark 100 units before the end only above 200
units (R141). -/
def Obligations.AnswerConnects : Prop :=
  (∀ (s : State) (cls : Sys2Proof.Class),
    let limit := s.retained.talkLimits[cls]
    let timer : Option Nat → Option Timer := fun near => some { purpose := .talkLimit, left := limit, near := near }
    (limit = 0 → s.talkTimer cls = none) ∧
    (0 < limit → limit ≤ 200 → s.talkTimer cls = timer none) ∧
    (200 < limit → s.talkTimer cls = timer (some (limit - 100)))) ∧
  ∀ (s : State) (k : Floor) (a : Addr) (h : Handle) (r : CallRecord) (f : FloorSide) (l : LLane) (i : Nat)
    (lowKey : Key), s.powered = true → s.floorUp k = true → s.call? h = some r → r.far = .floor f → f.port = k →
    r.state = .offering ∨ r.state = .ringing → r.lLane = some l → r.ownedLane = some i → r.low = .opened lowKey →
    s.roomL 1 → s.roomF k (f.answerCells h a i).length →
    (∀ j e, entryOf a f.entries = some (j, e) → (e.state = .sent ∨ e.state = .alerting) →
      ∀ handle : Byte, handle.toNat = h.val →
        exec (.answer k a handle) s = .next (s.answered h r f a l i lowKey)) ∧
    (∀ n role, s.retained.handset k a = some (n, role) → s.activity[n] = .offered h →
      exec (.dial k a) s = .next (s.answered h r f a l i lowKey))

/-- A matched ALERT stops its entry's window; the first of a call takes the record to RINGING with its ring timer and
sends PROGRESS ALERTING down port L, a later one changes its entry alone (R113). -/
def Obligations.AlertRings : Prop :=
  ∀ (s : State) (k : Floor) (a : Addr) (handle : Byte) (h : Handle) (r : CallRecord) (f : FloorSide) (j : Nat)
    (e : OfferEntry), s.powered = true → s.floorUp k = true → handle.toNat = h.val → s.call? h = some r →
    r.far = .floor f → f.port = k → entryOf a f.entries = some (j, e) → (e.state = .sent ∨ e.state = .alerting) →
    let far := Far.floor { f with entries := f.entries.modify j fun e => { e with state := .alerting, window := none } }
    (r.state = .offering → s.roomL 1 → exec (.alert k a handle) s =
      .next ((s.putCall h { r with
        state := .ringing, far := far, timer := startTimer .ringTime s.retained.timers.ring }).sentL
        (r.cellsDown .alerting))) ∧
    (r.state = .ringing → exec (.alert k a handle) s = .next (s.putCall h { r with far := far }))

/-- A matched REFUSE: its entry becomes REFUSED. While another entry is SENT, ALERTING or ANSWERED, nothing more; under
FOLLOW_ON the main handset's refusal, as its only entry, offers the extension; when every entry is REFUSED or ABSENT, under
FOLLOW_ON both handsets', the record is released REFUSED and the arbiter runs for the lane it frees (R72, R115, R117,
R118). -/
def Obligations.RefuseCounts : Prop :=
  ∀ (s : State) (k : Floor) (a : Addr) (handle : Byte) (h : Handle) (r : CallRecord) (f : FloorSide) (j : Nat)
    (e : OfferEntry), s.powered = true → s.floorUp k = true → handle.toNat = h.val → s.call? h = some r →
    r.far = .floor f → f.port = k → (r.state = .offering ∨ r.state = .ringing) →
    entryOf a f.entries = some (j, e) → (e.state = .sent ∨ e.state = .alerting) →
    let f' := { f with entries := f.entries.modify j fun e => { e with state := .refused, window := none } }
    let r' := { r with far := .floor f' }
    ((∃ x ∈ f'.entries, x.state ≠ .refused ∧ x.state ≠ .absent) →
      exec (.refuse k a handle) s = .next (s.putCall h r')) ∧
    (f.mode ≠ .followOn ∨ f.ext = none ∨ 2 ≤ f.entries.length →
      (∀ x ∈ f'.entries, x.state = .refused ∨ x.state = .absent) → s.roomToEnd h r' .refused →
      s.InLine (s.waitersOn h r') →
      exec (.refuse k a handle) s = .next ((s.ended h r' .refused).regranted r')) ∧
    (∀ x, f.mode = .followOn → f.ext = some x → f.entries = [e] → s.roomF k 1 →
      exec (.refuse k a handle) s = .next ((s.putCall h { r with far := .floor { f' with
        entries := f'.entries ++
          [{ addr := x, state := .sent, retries := 0, window := some s.retained.timers.window }] } }).sentF k
        [offerCell h r.ownedLane x]))

/-- The end of an entry's response window, by its timer or by a matched REPEAT in SENT: below three retries the OFFER
goes again to that handset alone and the timer starts again; after the third the entry is ABSENT and HANDSET_ABSENT is set.
Then, while another entry has not ended, nothing more; under FOLLOW_ON the main handset's absence, as its only entry,
offers the extension; when every entry has ended the record is released, REFUSED if one is REFUSED and else
HANDSET_ABSENT, and the arbiter runs for the lane it frees (R72). A REPEAT in ALERTING re-sends the OFFER alone and changes
nothing (R116 to R118). -/
def Obligations.WindowEnds : Prop :=
  ∀ (s : State) (k : Floor) (h : Handle) (r : CallRecord) (f : FloorSide) (j : Fin 2) (e : OfferEntry),
    s.powered = true → s.floorUp k = true → s.call? h = some r → r.far = .floor f → f.port = k →
    (r.state = .offering ∨ r.state = .ringing) → f.entries[j.val]? = some e →
    ∀ (c : Instr),
      ((c = .responseWindowExpiry h j ∧ e.window.isSome = true) ∨
        ∃ handle : Byte, handle.toNat = h.val ∧ entryOf e.addr f.entries = some (j.val, e) ∧
          c = .repeatOffer k e.addr handle) →
      (e.state = .sent → e.retries < 3 → s.roomF k 1 →
        exec c s = .next ((s.putCall h { r with far := .floor { f with entries := f.entries.modify j.val fun e =>
          { e with retries := e.retries + 1, window := some s.retained.timers.window } } }).sentF k
          [offerCell h r.ownedLane e.addr])) ∧
      (e.state = .sent → 3 ≤ e.retries → s.roomL 2 →
        let f' := { f with entries := f.entries.modify j.val fun e => { e with state := .absent, window := none } }
        let r' := { r with far := .floor f' }
        ((∃ x ∈ f'.entries, x.state ≠ .refused ∧ x.state ≠ .absent) →
          exec c s = .next ((s.putCall h r').withEvent .handsetAbsent)) ∧
        (f.mode ≠ .followOn ∨ f.ext = none ∨ 2 ≤ f.entries.length →
          (∀ x ∈ f'.entries, x.state = .refused ∨ x.state = .absent) →
          let cause := if ∃ x ∈ f'.entries, x.state = .refused then Cause.refused else .handsetAbsent
          (s.withEvent .handsetAbsent).roomToEnd h r' cause → s.InLine (s.waitersOn h r') →
          exec c s = .next (((s.withEvent .handsetAbsent).ended h r' cause).regranted r')) ∧
        (∀ x, f.mode = .followOn → f.ext = some x → f.entries = [e] → s.roomF k 1 →
          exec c s = .next (((s.putCall h { r with far := .floor { f' with
            entries := f'.entries ++
              [{ addr := x, state := .sent, retries := 0, window := some s.retained.timers.window }] } }).withEvent
            .handsetAbsent).sentF k [offerCell h r.ownedLane x]))) ∧
      (e.state = .alerting → (∃ handle, c = .repeatOffer k e.addr handle) → s.roomF k 1 →
        exec c s = .next (s.sentF k [offerCell h r.ownedLane e.addr]))

/-- A response that matches no entry: from the answering handset of a CONNECTED or PARKED record it is discarded; else an
ALERT or ANSWER is answered CANCEL with its handle and a REFUSE or REPEAT is discarded; with a handle above 47 PROTOCOL is
set. A RESTART from a handset has no effect, and a floor port that is not UP receives nothing (R7, R8, R112, R168). -/
def Obligations.StrayResponses : Prop :=
  (∀ (s : State) (k : Floor) (a : Addr) (handle : Byte), s.powered = true → s.floorUp k = true →
     (47 < handle.toNat → s.roomL 1 →
       ∀ c ∈ [Instr.alert k a handle, .answer k a handle, .refuse k a handle, .repeatOffer k a handle],
         exec c s = .next (s.withEvent .protocol)) ∧
     ∀ h : Handle, handle.toNat = h.val → s.matchedEntry k a h = none →
       exec (.refuse k a handle) s = .next s ∧ exec (.repeatOffer k a handle) s = .next s ∧
       (s.fromAnswering k a h = true →
         exec (.alert k a handle) s = .next s ∧ exec (.answer k a handle) s = .next s) ∧
       (s.fromAnswering k a h = false → s.roomF k 1 →
         exec (.alert k a handle) s = .next (s.sentF k [cancelCell h.val a]) ∧
         exec (.answer k a handle) s = .next (s.sentF k [cancelCell h.val a]))) ∧
  (∀ (s : State) (k : Floor) (a : Addr), exec (.handsetRestart k a) s = .next s) ∧
  (∀ (s : State) (k : Floor) (a : Addr) (b : Byte), s.floors[k].line ≠ .up →
     ∀ c ∈ [Instr.alert k a b, .answer k a b, .refuse k a b, .repeatOffer k a b, .dial k a, .hook k a, .quiet k a b,
       .unlatch k a, .handsetRestart k a], exec c s = .next s)

/-- The call of a HOOK or UNLATCH: the one that the sender's flat is engaged with, where the sender is its answering handset;
else the record of lowest handle, not in CLEARING, with a floor side on the port whose answering handset the sender is; else
none (R143). HOOK from the answering handset of a call releases it NORMAL, and the arbiter runs for the lane it frees; one
that matches no call is discarded. UNLATCH: NOT_CONNECTED with no call or a record not CONNECTED; then FIRE_MODE while fire mode
is active; then NOT_PERMITTED unless the origin is a panel and the slot permits it; else an UNLATCH with the record's low
key and panel goes down port L and UNLATCH_SENT to the handset (R144, R152). -/
def Obligations.HookAndUnlatch : Prop :=
  (∀ (s : State) (k : Floor) (a : Addr),
     let byFlat : Handle → Prop := fun h => ∃ n role r, s.retained.handset k a = some (n, role) ∧
       s.activity[n].handle? = some h ∧ s.call? h = some r ∧ r.answering = some a
     let onPort : Handle → Prop := fun h => ∃ r f, s.call? h = some r ∧ r.state ≠ .clearing ∧ r.far = .floor f ∧
       f.port = k ∧ f.answering = some a
     (∀ h, byFlat h → s.callOf k a = some h) ∧
     ((∀ h, ¬ byFlat h) →
       (∀ h, onPort h → (∀ j < h, ¬ onPort j) → s.callOf k a = some h) ∧
       ((∀ h, ¬ onPort h) → s.callOf k a = none))) ∧
  (∀ (s : State) (k : Floor) (a : Addr), s.powered = true → s.floorUp k = true →
     (s.callOf k a = none → exec (.hook k a) s = .next s) ∧
     ∀ h r, s.callOf k a = some h → s.call? h = some r → s.roomToEnd h r .normal → s.InLine (s.waitersOn h r) →
       exec (.hook k a) s = .next ((s.ended h r .normal).regranted r)) ∧
  (∀ (s : State) (k : Floor) (a : Addr) (h : Handle), s.callOf k a = some h →
     ∃ r, s.call? h = some r ∧ r.answering = some a) ∧
  (∀ (s : State) (k : Floor) (a : Addr), s.powered = true → s.floorUp k = true → s.roomF k 1 → s.roomL 1 →
     (s.callOf k a = none →
       exec (.unlatch k a) s = .next (s.sentF k [statusCell 0 a .unlatchRefused Cause.notConnected.toByte])) ∧
     ∀ h r, s.callOf k a = some h → s.call? h = some r →
       let refused : Cause → State := fun c => s.sentF k [statusCell h.val a .unlatchRefused c.toByte]
       (r.state ≠ .connected → exec (.unlatch k a) s = .next (refused .notConnected)) ∧
       (r.state = .connected → s.fireMode = true → exec (.unlatch k a) s = .next (refused .fireMode)) ∧
       (r.state = .connected → s.fireMode = false → (∀ n, r.origin ≠ .panel n) →
         exec (.unlatch k a) s = .next (refused .notPermitted)) ∧
       ∀ f n, r.state = .connected → s.fireMode = false → r.far = .floor f → r.origin = .panel n →
         (s.retained.slots[f.slot].unlatch = false → exec (.unlatch k a) s = .next (refused .notPermitted)) ∧
         ∀ lowKey, s.retained.slots[f.slot].unlatch = true → r.low = .opened lowKey →
           exec (.unlatch k a) s =
             .next ((s.sentL [unlatchCell lowKey n]).sentF k [statusCell h.val a .unlatchSent]))

/-- The handset lookup finds the occupied slot of the floor port that has the address, and reports whether it is its main or
its extension handset; no other slot has it. QUIET: the level asked for is stored, or the ceiling where it is higher, if
the flat may set it; the handset is told the level now in force; the table lock does not refuse it. A level above 7 sets
PROTOCOL; from no flat it is discarded (R26, R123, R7). -/
def Obligations.QuietStores : Prop :=
  (∀ (d : Retained) (k : Floor) (a : Addr) (n : SlotNo) (role : Role), d.Legal → d.Unique →
    (d.handset k a = some (n, role) ↔ d.slots[n].number ≠ 0 ∧ d.slots[n].port = k ∧
      match role with
      | .main => d.slots[n].main = a
      | .extension => d.slots[n].ext = some a)) ∧
  ∀ (s : State) (k : Floor) (a : Addr) (level : Byte), s.powered = true → s.floorUp k = true →
    (7 < level.toNat → s.roomL 1 → exec (.quiet k a level) s = .next (s.withEvent .protocol)) ∧
    (level.toNat ≤ 7 → s.retained.handset k a = none → exec (.quiet k a level) s = .next s) ∧
    ∀ (n : SlotNo) (role : Role) (v : Sys2Proof.Class), level.toNat = v.val →
      s.retained.handset k a = some (n, role) → s.roomF k 1 →
      let x := s.retained.slots[n]
      let q := if x.residentQuiet then min v x.quietCeiling else x.quiet
      exec (.quiet k a level) s =
        .next (({ s with retained := { s.retained with
          slots := s.retained.slots.set n { x with quiet := q } } } : State).sentF k
          [statusCell 0 a .quietSet (BitVec.ofNat 8 q.val)])

/-! ## Timers -/

/-- The expiry of a record's timer, in the state whose timer it is, ends the call with the cause of its rule, and the arbiter
runs for the lane it frees (R72); a lane-wait timer's sets LANE_TIMEOUT first. The near mark of a talk limit sends LIMIT_NEAR down port L and to the answering handset, and
the timer runs on. When the guard timer of a record in CLEARING expires, the record is freed at once whatever sides are
open, no cell is sent, and GUARD_EXPIRY is set; its handle joins the tail of the free-handle list and nothing else changes
(R68, R70, R102, R119, R135, R138, R141, R142, R145, R148). -/
def Obligations.Expiries : Prop :=
  (∀ (s : State) (h : Handle) (r : CallRecord) (m : Timer) (c : Cause), s.powered = true → s.call? h = some r →
     r.timer = some m → s.roomToEnd h r c → s.InLine (s.waitersOn h r) →
     (m.purpose = .progressWait → r.state = .forwarded → c = .noProgress →
       exec (.progressWaitExpiry h) s = .next ((s.ended h r c).regranted r)) ∧
     (m.purpose = .grantWait → r.state = .awaitingGrant → c = .noProgress →
       exec (.grantWaitExpiry h) s = .next ((s.ended h r c).regranted r)) ∧
     (m.purpose = .ringTime → r.state = .ringing → c = .noAnswer →
       exec (.ringTimerExpiry h) s = .next ((s.ended h r c).regranted r)) ∧
     (m.purpose = .talkLimit → r.state = .connected → c = .talkLimit →
       exec (.talkLimitExpiry h) s = .next ((s.ended h r c).regranted r))) ∧
  (∀ (s : State) (h : Handle) (r : CallRecord) (m : Timer), s.powered = true → s.call? h = some r →
     r.timer = some m → m.purpose = .laneWait → (r.state = .waitingLane ∨ r.state = .parked) →
     (s.withEvent .laneTimeout).roomToEnd h r .laneTimeout → s.InLine (s.waitersOn h r) →
     exec (.laneWaitExpiry h) s =
       .next (((s.withEvent .laneTimeout).ended h r .laneTimeout).regranted r)) ∧
  (∀ (s : State) (h : Handle) (r : CallRecord) (m : Timer) (f : FloorSide) (a : Addr), s.powered = true →
     s.call? h = some r → r.timer = some m → m.purpose = .talkLimit → m.near.isSome = true → r.state = .connected →
     r.far = .floor f → f.answering = some a → s.roomL 1 → s.roomF f.port 1 →
     exec (.limitNear h) s =
       .next (((s.putCall h { r with timer := some { m with near := none } }).sentL (r.cellsDown .limitNear)).sentF
         f.port [statusCell h.val a .limitNear])) ∧
  ∀ (s : State) (h : Handle) (r : CallRecord) (m : Timer), s.powered = true → s.call? h = some r →
    r.timer = some m → m.purpose = .guard → r.state = .clearing → s.roomL 1 →
    exec (.guardTimerExpiry h) s = .next ((s.freed h).withEvent .guardExpiry)

/-! ## Lanes and the wait list -/

/-- A completed ageing step: s rises by one, the entry is placed again by R64 at its new e, and a further step begins unless A
is 0 or e is 6; no cell is sent for it (R69). The arbiter then runs for the entry's port, and with no lane of it FREE
grants nothing (R72). Placing an entry keeps
the list ordered: from head to tail effective priority never increases, the entries already there keep their order, those
before the placed one are not lower than it, and every one behind it is strictly lower (R64). -/
def Obligations.AgeingAndPlacement : Prop :=
  (∀ (s : State) (h : Handle) (r : CallRecord) (x : WaitEntry), s.powered = true → s.call? h = some r →
     s.waiting.find? (fun y => y.handle == h && y.ageing.isSome) = some x →
     let e := effPriority r.cls (x.steps + 1)
     let x' := { x with
       steps := x.steps + 1
       ageing := if s.retained.timers.ageing ≠ 0 ∧ e < 6 then some (s.retained.timers.ageing * 10) else none }
     let t : State := { s with waiting := s.placed x' e (s.waiting.filter fun y => !(y.handle == h)) }
     (s.freeLanes x.port = [] → exec (.ageingStep h) s = .next t) ∧
     (t.InLine (t.entriesFor x.port) → t.roomToGrant x.port (t.entriesFor x.port).length →
       exec (.ageingStep h) s = .next (t.arbitrated x.port))) ∧
  (∀ (s : State) (x : WaitEntry) (e : Nat) (l : List WaitEntry), s.entryPriority x = e →
     l.Pairwise (fun a b => s.entryPriority b ≤ s.entryPriority a) →
     (s.placed x e l).Pairwise (fun a b => s.entryPriority b ≤ s.entryPriority a) ∧
     l.Sublist (s.placed x e l) ∧ (s.placed x e l).Perm (x :: l) ∧
     ∀ pre post, s.placed x e l = pre ++ x :: post → x ∉ l →
       (∀ y ∈ pre, e ≤ s.entryPriority y) ∧ (∀ y ∈ post, s.entryPriority y < e))

/-- The arbiter's run for a port, begun by a LANE_IN that makes an OUT lane of it FREE. Where the first entry for the port
fails the admission test, nothing is granted. Where it passes and the next entry for the port then fails, its record takes
the lowest FREE lane at the tail of the grant order, leaves the list and goes on: WAITING_LANE as when it is admitted at once,
or CONNECTED with the handset that pre-answered it; PARKED it resumes, announced on both sides unless it is held below
(R62, R72 to R77). In general it grants, in the order of the list, as many as pass (`State.arbitrated`); the runs
after other events are in the statements of those events. However many are granted, they are the first entries for the port, in order; the others and every other
port's entries stand; each granted record holds a lane of the port; and the first entry left for the port fails. -/
def Obligations.ArbiterGrants : Prop :=
  ∀ (s : State) (q : Request) (p : Owned), s.takes q → s.locked = false →
    Port.ofNumber q.index.toNat = some p.port → q.field.toNat < laneCount p →
    s.laneState p q.field.toNat = .out →
    let t : State := (s.storing { s.retained with
      outMarks := s.retained.outMarks.set p.idx (s.retained.outMarks[p.idx].set q.field.toNat false) }).replied
        .laneIn q .done 0
    ((∀ x, (s.waiting.find? fun y => y.port = p) = some x → t.admitLane p (t.entryPriority x) = none) → s.roomL 1 →
      exec (.laneIn q) s = .next t) ∧
    (∀ (pre post : List WaitEntry) (x : WaitEntry) (r : CallRecord) (i : Nat), s.waiting = pre ++ x :: post →
      (∀ y ∈ pre, y.port ≠ p) → x.port = p → s.call? x.handle = some r → r.Waits → r.ownedPort = some p →
      (r.state = .waitingLane → r.dir = .up → r.lLane.isSome = true ∧ (r.openKey .L).isSome = true) →
      t.admitLane p (t.entryPriority x) = some i →
      let u := t.granted x.handle r p i
      (∀ y, (post.find? fun y => y.port = p) = some y → u.admitLane p (u.entryPriority y) = none) →
      s.roomL 2 → s.roomH 1 → (∀ f, r.far = .floor f → s.roomF f.port (f.entries.length + 1)) →
      exec (.laneIn q) s = .next u) ∧
    (s.InLine (s.entriesFor p) → t.roomToGrant p (s.entriesFor p).length → s.roomL 1 →
      exec (.laneIn q) s = .next (t.arbitrated p)) ∧
    (∀ u, s.Inv → s.Linked → exec (.laneIn q) s = .next u →
      (u.waiting.filter fun y => y.port = p) <:+ (s.waiting.filter fun y => y.port = p) ∧
      (u.waiting.filter fun y => y.port ≠ p) = (s.waiting.filter fun y => y.port ≠ p) ∧
      (∀ x ∈ s.waiting, x ∉ u.waiting → ∃ r i, u.call? x.handle = some r ∧ r.ownedPort = some p ∧
        r.ownedLane = some i ∧ u.holder p i = some x.handle ∧ ¬ r.Waits) ∧
      ∀ x, (u.waiting.find? fun y => y.port = p) = some x → u.admitLane p (u.entryPriority x) = none)

/-- The free count F = N − O − K is the number of FREE lanes; it lies from 0 to N and is N only when no lane is OUT or
HELD; a lane that goes pending-out leaves it unchanged, and so does the holder of such a lane freeing it into OUT; nothing
but the lanes' holders and marks enters it, so it is the same whether or not the port is usable (R51). -/
def Obligations.FreeCount : Prop :=
  ∀ (s : State) (p : Owned),
    s.freeCount p = laneCount p - s.outCount p - s.heldCount p ∧
    s.freeCount p = (s.freeLanes p).length ∧
    s.freeCount p ≤ laneCount p ∧
    (s.freeCount p = laneCount p ↔ ∀ i < laneCount p, s.laneState p i = .free) ∧
    (∀ t : State, t.maps = s.maps → t.retained.outMarks = s.retained.outMarks → t.freeCount p = s.freeCount p) ∧
    (∀ (i : Nat) (h : Handle), s.laneState p i = .held h →
      (s.storing { s.retained with
        outMarks := s.retained.outMarks.set p.idx (s.retained.outMarks[p.idx].set i true) }).freeCount p =
        s.freeCount p) ∧
    ∀ (i : Nat) (h : Handle), s.laneState p i = .pendingOut h →
      ({ s with maps := s.maps.set p.idx { holders := (s.map p).holders.set i none
                                           order := (s.map p).order.filter (· ≠ i) } } : State).freeCount p =
        s.freeCount p

/-- needed(e) is the fire reserve plus the priority reserve for e from 0 to 4, the fire reserve for 5 and 6, and 0 for
7; within legal settings it is at most N − 1, and below F when every lane is FREE; the defaults give 3, 1, 0 on
port H and 1, 1, 0 on a floor port (R53). -/
def Obligations.NeededTable : Prop :=
  (∀ (s : State) (p : Owned) (e : Nat),
    (e ≤ 4 → s.needed p e = (s.settings p).fire + (s.settings p).priority) ∧
    (e = 5 ∨ e = 6 → s.needed p e = (s.settings p).fire) ∧
    (e = 7 → s.needed p e = 0) ∧
    (s.retained.Legal → s.needed p e ≤ laneCount p - 1 ∧
      ((∀ i < laneCount p, s.laneState p i = .free) → s.needed p e < s.freeCount p))) ∧
  ∀ s : State, s.retained.settings = Retained.default.settings →
    (∀ e ≤ 4, s.needed .H e = 3) ∧ (∀ e ∈ [5, 6], s.needed .H e = 1) ∧ s.needed .H 7 = 0 ∧
    ∀ k : Floor, (∀ e ≤ 6, s.needed (.F k) e = 1) ∧ s.needed (.F k) 7 = 0

/-- A record is admitted on a usable port when F > needed(e), and takes the lowest-numbered FREE lane. The preemption test
passes for a class c of at least T when F + 1 > needed, and there is a candidate: a HELD lane with no pending-out mark
whose holder is not in CLEARING and has a base class below c. The victim is a candidate; no candidate of the port has a lower
base class, and of those with the same class none stands later in the grant order; there is a victim whenever there is a
candidate (R54 to R57). -/
def Obligations.AdmissionAndVictim : Prop :=
  (∀ (s : State) (p : Owned) (e : Nat),
     (∀ i, s.admitLane p e = some i → s.usable p = true ∧ s.needed p e < s.freeCount p ∧
       s.laneState p i = .free ∧ i < laneCount p ∧ ∀ j < i, s.laneState p j ≠ .free) ∧
     (s.usable p = true → s.needed p e < s.freeCount p → (s.admitLane p e).isSome = true) ∧
     (s.usable p = false → s.admitLane p e = none)) ∧
  (∀ (s : State) (p : Owned) (c : Sys2Proof.Class) (i : Nat) (v : Handle), (s.map p).order.Nodup →
     s.victim p c = some (i, v) →
     ∃ rv, s.laneState p i = .held v ∧ s.call? v = some rv ∧ rv.state ≠ .clearing ∧ rv.cls < c ∧
       ∀ j ∈ (s.map p).order, ∀ u ru, s.laneState p j = .held u → s.call? u = some ru → ru.state ≠ .clearing →
         ru.cls < c → rv.cls ≤ ru.cls ∧
           (ru.cls = rv.cls → (s.map p).order.idxOf j ≤ (s.map p).order.idxOf i)) ∧
  (∀ (s : State) (p : Owned) (c : Sys2Proof.Class) (j : Nat) (u : Handle) (ru : CallRecord), j ∈ (s.map p).order →
     s.laneState p j = .held u → s.call? u = some ru → ru.state ≠ .clearing → ru.cls < c →
     (s.victim p c).isSome = true) ∧
  ∀ (s : State) (p : Owned) (c : Sys2Proof.Class) (x : Nat × Handle),
    s.preemption p c = some x ↔
      (s.settings p).threshold ≤ c.val ∧ s.needed p (effPriority c 0) < s.freeCount p + 1 ∧ s.victim p c = some x

/-- A lane request that fails its test and passes the preemption test, by any of its four commands (`State.Asks`): PREEMPTION
is set, the victim's lane passes to the new record, at the tail of the grant order, with its cross-connect removed, and the
new record goes on; the victim, CONNECTED with room in the list, is PARKED with an entry for the port and told HELD on
both sides (on its low side unless it is held below), and otherwise ends PREEMPTED. A class 7 SETUP to a flat with a call
ends that call PREEMPTED, with PREEMPTION, before its own lane request, and the arbiter runs at the end for the lane freed
(R56 to R59, R72, R107). -/
def Obligations.PreemptionPasses : Prop :=
  (∀ (w : Work) (h v : Handle) (p : Owned) (i : Nat) (rv : CallRecord), w.call? v = some rv → h ≠ v →
    rv.ownedLane = some i → i < (w.st.map p).holders.length →
    let w' := w.preempt h p i v
    w'.st.holder p i = some h ∧ (w'.st.map p).order = (w.st.map p).order.filter (· ≠ i) ++ [i] ∧
    w'.raised.call &&& Event.mask .preemption ≠ 0 ∧
    (rv.state = .connected → w.st.waiting.length < 16 → ∃ r', w'.call? v = some r' ∧
      r'.state = .parked ∧ r'.ownedLane = none ∧ r'.lLane = rv.lLane ∧
      w'.st.waiting.length = w.st.waiting.length + 1 ∧ ∃ x ∈ w'.st.waiting, x.handle = v ∧ x.port = p ∧ x.steps = 0) ∧
    ((rv.state ≠ .connected ∨ 16 ≤ w.st.waiting.length) → ∀ r', w'.call? v = some r' →
      r'.state = .clearing ∧ r'.pendingCause = some .preempted ∧ r'.ownedLane = none)) ∧
  (∀ (s : State) (c : Instr) (h : Handle) (r : CallRecord) (t : State) (p : Owned) (told : State → State),
    s.Asks c h r t p told → ∀ (i : Nat) (v : Handle) (rv : CallRecord), t.usable p = true →
    t.admitLane p (effPriority r.cls 0) = none → t.preemption p r.cls = some (i, v) → t.call? v = some rv → h ≠ v →
    rv.ownedPort = some p → rv.ownedLane = some i → s.roomL 3 → s.roomH 2 →
    (∀ k : Floor, s.roomF k ((rv.lastFloorCells v .preempted).length + 2)) →
    exec c s = .next (((t.withEvent .preemption).preempted h p i v rv).goneOn h r i)) ∧
  ∀ (s : State) (key : Key) (lane : Byte) (dest : Word) (okind : BitVec 2) (origin : Word) (l : LLane) (o : Origin)
    (h : Handle) (rest : List Handle) (k : Floor) (n : SlotNo) (v : Handle) (rv : CallRecord) (fv : FloorSide) (i : Nat),
    s.powered = true → s.receives .L = true → laneOf lane = some l → originOf okind origin = some o →
    dest.toNat ≤ 9999 → key.side = .low → s.keyed .L key = none → s.mirror[l] = none → s.freeHandles = h :: rest →
    s.retained.baseClass o 7 = 7 → s.fireRefuses 7 = false → s.route dest.toNat = .floor k n →
    s.activity[n].handle? = some v → s.call? h = none → s.call? v = some rv → rv.far = .floor fv →
    let waiters := s.waitersOn v rv
    s.InLine waiters → s.roomL (2 + waiters.length) → s.roomH 1 →
    (∀ j : Floor, s.roomF j ((rv.lastFloorCells v .preempted).length + 1 + waiters.length)) →
    let r := newUpward 7 o dest key l (.floor (s.retained.slots[n].capture n none))
    let t : State := ({ s with freeHandles := rest, mirror := s.mirror.set l (some h) } : State).putCall h r
    let u := (t.withEvent .preemption).ended v rv .preempted
    u.admitLane (.F k) 7 = some i →
    exec (.setupFromBelow key lane dest 7 okind origin) s =
      .next (((u.laneTaken (.F k) i h).goneOn h r i).regranted rv)

/-! ## Fire service -/

/-- The local source: active at the low level under LEVEL_LOW, at the high level under LEVEL_HIGH, with the latch under the
two latch modes, and never under IGNORE; fire mode is active while it or the line source is (R155, R156). An edge of the
debounced FIRE level sets the latch of its direction in a latch mode and clears it in IGNORE;
FIRE_LOCAL is set where the local source becomes active; where that is the entry into fire mode the wait list is purged:
each entry whose base class is below the fire admission class ends FIRE_MODE, in the order of the list. Nothing else
changes. A report of the level as it stands is no edge (R156, R161, R162). -/
def Obligations.FireEdge : Prop :=
  (∀ s : State,
    (s.localSource = true ↔
      (s.retained.sense = .levelLow ∧ s.pins.fireHigh = false) ∨
      (s.retained.sense = .levelHigh ∧ s.pins.fireHigh = true) ∨
      ((s.retained.sense = .riseLatch ∨ s.retained.sense = .fallLatch) ∧ s.latch = true)) ∧
    (s.fireMode = true ↔ s.localSource = true ∨ s.lineSource = true)) ∧
  ∀ (s : State) (high : Bool), s.powered = true → s.waitersIdle → s.roomL (s.waiting.length + 1) →
    s.roomH s.waiting.length → (∀ k : Floor, s.roomF k s.waiting.length) →
    (s.pins.fireHigh = high → exec (.fireEdge high) s = .next s) ∧
    (s.pins.fireHigh ≠ high →
      let latch := match s.retained.sense with
        | .ignore => false
        | .levelLow | .levelHigh => s.latch
        | .riseLatch => if high then true else s.latch
        | .fallLatch => if high then s.latch else true
      let t : State := { s with pins := { s.pins with fireHigh := high }, latch := latch }
      let u := if s.localSource = false ∧ t.localSource = true then t.withEvent .fireLocal else t
      exec (.fireEdge high) s =
        .next (if s.fireMode = false ∧ t.fireMode = true then u.purged s.waiting else u))

/-- FIRE-ON from below: where the line source was clear it is set with FIRE_LINE, and where that is the entry into fire mode
the wait list is purged, each entry whose base class is below the fire admission class ending FIRE_MODE in the order of the
list; where it was set nothing changes. FIRE-OFF clears the line source and the local latch and sets no event. Each goes
up port H but at TOP; that FIRE-ON stands there ahead of a purge's cells is the model's choice (assumption 13). On port
H each fails its port test (R6, R158, R159, R162). -/
def Obligations.FireOnAndOff : Prop :=
  (∀ s : State, s.powered = true → s.roomL 1 →
     (s.receives .L = true → s.roomH 1 →
       let up : State := if s.top then s else s.sentH [fireOnCell]
       (s.lineSource = true → exec (.fireOn .L) s = .next up) ∧
       (s.lineSource = false → s.waitersIdle → s.roomL (s.waiting.length + 1) → s.roomH (s.waiting.length + 1) →
         (∀ k : Floor, s.roomF k s.waiting.length) →
         let t := ({ up with lineSource := true } : State).withEvent .fireLine
         exec (.fireOn .L) s = .next (if s.fireMode then t else t.purged s.waiting))) ∧
     (s.receives .H = true → exec (.fireOn .H) s = .next (s.withEvent .protocol))) ∧
  (∀ s : State, s.powered = true →
     (s.receives .L = true → s.roomH 1 →
       let t : State := { s with lineSource := false, latch := false }
       exec (.fireOff .L) s = .next (if s.top then t else t.sentH [fireOffCell])) ∧
     (s.receives .H = true → s.roomL 1 → exec (.fireOff .H) s = .next (s.withEvent .protocol)))

/-! ## Management -/

/-- A request on port L: malformed, it sets MGMT_ERROR and goes nowhere; for another node it is forwarded unchanged up
port H, or discarded at TOP. The command of its operation is the same event. A reply or notice from above is relayed
unchanged. Each arriving on the other port fails its port test (R176, R6). A cell to be forwarded or relayed into a full
queue is discarded and TX_OVERFLOW is set; the overflow of port L sends no notice of its own (R10; assumption 14). -/
def Obligations.MgmtReaches : Prop :=
  (∀ (s : State) (op : Byte) (q : Request), exec (requestCommand op q) s = exec (.mgmtRequestForward .L op q) s) ∧
  (∀ (s : State) (op : Byte) (q : Request), s.powered = true → s.receives .L = true →
    (15 < q.node.toNat ∨ MgmtOp.ofByte op = none → s.roomL 1 →
      exec (.mgmtRequestForward .L op q) s = .next (s.withEvent .mgmtError)) ∧
    (q.node.toNat ≤ 15 → (MgmtOp.ofByte op).isSome = true → (q.node.toNat ≠ s.node.val ∨ s.node.val = 0) →
      s.roomH 1 →
      exec (.mgmtRequestForward .L op q) s = .next (if s.top then s else s.sentH [.mgmt .request op q])) ∧
    (q.node.toNat ≤ 15 → (MgmtOp.ofByte op).isSome = true → (q.node.toNat ≠ s.node.val ∨ s.node.val = 0) →
      s.top = false → s.riserUp .H = true → 16 ≤ s.portH.queue.length → s.roomL 1 →
      exec (.mgmtRequestForward .L op q) s = .next (s.withEvent .txOverflow))) ∧
  (∀ (s : State) (op : Byte) (q : Request) (notice : Bool), s.powered = true → s.receives .H = true →
    s.riserUp .L = true → 16 ≤ s.portL.queue.length →
    exec (.mgmtRelayDown .H notice op q) s = .next { s with status := s.status.add .txOverflow }) ∧
  (∀ (s : State) (op : Byte) (q : Request) (notice : Bool), s.powered = true → s.roomL 1 →
    (s.receives .H = true →
      exec (.mgmtRequestForward .H op q) s = .next (s.withEvent .mgmtError) ∧
      exec (.mgmtRelayDown .H notice op q) s =
        .next (s.sentL [.mgmt (if notice then .notice else .reply) op q])) ∧
    (s.receives .L = true → exec (.mgmtRelayDown .L notice op q) s = .next (s.withEvent .mgmtError)))

/-- READ: NO_ITEM with value 0 where no field has the item, index and field, or where no record or entry is there; else
DONE with the field's present value; nothing else changes but the counter of the free value (R177, R178; assumption 5). The
coded fields of call records, lanes, wait list entries, activities and interfaces have the codes of R178. -/
def Obligations.ReadReplies : Prop :=
  (∀ (s : State) (q : Request), s.takes q → s.roomL 1 →
    (fieldRef q.item.toNat q.field.toNat q.index.toNat = none →
      exec (.read q) s = .next (s.replied .read q .noItem 0)) ∧
    ∀ f, fieldRef q.item.toNat q.field.toNat q.index.toNat = some f →
      (s.readField f = none → exec (.read q) s = .next (s.replied .read q .noItem 0)) ∧
      ∀ v, s.readField f = some v → exec (.read q) s = .next (s.repliedFree .read q .done v)) ∧
  (∀ (s : State) (h : Handle) (r : CallRecord), s.call? h = some r →
    let key : Option Key → Nat := fun k => match k with
      | some k => (if k.side = .high then 256 else 0) + k.ref.val
      | none => 65535
    let reads : Fin 21 → Nat → Prop := fun f v => s.readField (.call h f) = some v
    let fl := r.far.floor?
    reads 0 (match r.state with
      | .waitingLane => 0 | .awaitingGrant => 1 | .forwarded => 2 | .offering => 3 | .ringing => 4 | .connected => 5
      | .parked => 6 | .clearing => 7) ∧
    reads 1 (if r.dir = .down then 1 else 0) ∧ reads 2 r.cls.val ∧
    reads 3 (match r.origin with | .panel _ => 0 | .apartment _ | .dialled _ => 1 | .firePosition _ => 2) ∧
    reads 5 r.dest.toNat ∧ reads 6 (key (r.openKey .L)) ∧
    reads 7 (match r.lLane with | some l => l.val | none => 255) ∧ reads 8 (if r.heldBelow then 1 else 0) ∧
    reads 9 (match r.far with | .none => 0 | .floor _ => 1 | .high _ => 2) ∧ reads 10 (key (r.openKey .H)) ∧
    reads 11 (r.ownedLane.getD 255) ∧
    reads 12 (match r.answering with | some a => a.val | none => 255) ∧
    (∀ f, fl = some f →
      reads 13 (if f.preAnswered then 1 else 0) ∧
      ∀ e : OfferEntry, (f.entries[0]? = some e ∨ f.entries[1]? = some e) →
        let v := e.addr.val * 256 + (match e.state with
          | .sent => 0 | .alerting => 4 | .refused => 8 | .absent => 12 | .answered => 16) + e.retries
        (f.entries[0]? = some e → reads 14 v) ∧ (f.entries[1]? = some e → reads 15 v)) ∧
    ((∀ f, fl = some f → f.entries[0]? = none) → reads 14 65535) ∧
    ((∀ f, fl = some f → f.entries[1]? = none) → reads 15 65535) ∧
    (r.timer = none → reads 16 0) ∧
    (∀ m, r.timer = some m → reads 17 m.left ∧ reads 16 (match m.purpose with
      | .laneWait => 1 | .grantWait => 2 | .progressWait => 3 | .ringTime => 4 | .talkLimit => 5 | .guard => 6)) ∧
    reads 18 (if r.talkOwner then 1 else 0) ∧
    reads 19 (match r.pendingCause with | some c => c.toByte.toNat | none => 255) ∧
    (r.state = .clearing → reads 20 ((if (r.openKey .L).isSome then 1 else 0) + if (r.openKey .H).isSome then 2 else 0)) ∧
    (r.state ≠ .clearing → reads 20 0)) ∧
  (∀ (s : State) (p : Owned) (i : Nat),
    s.readField (.lane p i) = some (match s.laneState p i with
      | .free => 255 | .held h => 256 + h.val | .pendingOut h => 512 + h.val | .out => 1023) ∧
    s.readField (.order p i) = some ((s.map p).order[i]?.getD 255) ∧
    s.readField (.freeCount p) = some (s.freeCount p)) ∧
  (∀ (s : State) (l : LLane), s.readField (.mirror l) = some (match s.mirror[l] with | some h => h.val | none => 255)) ∧
  (∀ (s : State) (n : SlotNo), s.readField (.activity n) = some (match s.activity[n] with
    | .idle => 0 | .pending h => 256 + h.val | .offered h => 512 + h.val | .engaged h => 768 + h.val
    | .originating h => 1024 + h.val)) ∧
  (∀ (s : State) (n : Fin 16) (x : WaitEntry) (r : CallRecord) (m : Timer), s.waiting[n.val]? = some x →
    s.call? x.handle = some r → r.timer = some m →
    s.readField (.wait n 0) = some x.handle.val ∧ s.readField (.wait n 1) = some (if r.state = .parked then 1 else 0) ∧
    s.readField (.wait n 2) = some (match x.port with | .H => 1 | .F k => k.val + 2) ∧
    s.readField (.wait n 3) = some r.cls.val ∧ s.readField (.wait n 4) = some x.steps ∧
    s.readField (.wait n 5) = some (effPriority r.cls x.steps) ∧ s.readField (.wait n 6) = some m.left) ∧
  ∀ (s : State) (k : Floor),
    s.readField (.interface .L 0) = some (if s.portL.link = .up then 1 else 0) ∧
    s.readField (.interface .H 0) = some (if s.portH.link = .up then 1 else 0) ∧
    s.readField (.interface .L 1) = some (if s.portL.downMark then 1 else 0) ∧
    s.readField (.interface .H 1) = some (if s.portH.downMark then 1 else 0) ∧
    s.readField (.interface .L 2) = some s.portL.queue.length ∧
    s.readField (.interface .H 2) = some s.portH.queue.length ∧
    s.readField (.interface .L 3) = some 0 ∧ s.readField (.interface .H 3) = some 0 ∧
    s.readField (.interface (.F k) 0) = some (match s.floors[k].line with | .up => 0 | .fault => 1 | .disabled => 2) ∧
    s.readField (.interface (.F k) 1) = some (if s.floors[k].faultMark then 1 else 0) ∧
    s.readField (.interface (.F k) 2) = some s.floors[k].queue.length ∧
    s.readField (.interface (.F k) 3) = some (if s.retained.disabled[k] then 1 else 0)

/-- WRITE of the directory while unlocked. A window's base, limit and target are stored within their encoding and else refused.
A slot's number and port are refused IN_USE while its flat has a call; a number, port or handset address that would meet
another occupied slot, or the slot's own other handset, is DUPLICATE, also where a written number makes an empty slot
occupied; an offer mode and a flag are stored within their encoding; the call-down class, a ceiling and a quiet level are
clamped, and a lowered ceiling lowers the quiet level. The reply carries the value stored, or the present value (R33 to
R39, R177); it counts on the model's free values (assumption 5). A read-only field is refused BAD_VALUE (R178). -/
def Obligations.WriteDirectory : Prop :=
  ∀ (s : State) (q : Request) (f : FieldRef), s.takes q → s.locked = false → s.roomL 1 → s.retained.Legal →
    fieldRef q.item.toNat q.field.toNat q.index.toNat = some f →
    let v := q.value.toNat
    let d := s.retained
    let stores : Retained → Nat → Prop := fun d x =>
      exec (.write q) s = .next ((s.storing d).repliedFree .write q (if v = x then .done else .clamped) x)
    let refuses : Result → Prop := fun r =>
      exec (.write q) s = .next (s.repliedFree .write q r (s.presentValue f))
    (f.readOnly = true → refuses .badValue) ∧
    (∀ n, f = .ceiling n → stores { d with ceilings := d.ceilings.set n (clampClass v) } (min v 7)) ∧
    (∀ ref : WindowRef,
      let x := d.window ref
      let put : Window → Prop := fun y => stores (match ref with
        | .ordinary i => { d with ordinary := d.ordinary.set i y }
        | .exception i => { d with exceptions := d.exceptions.set i y }) v
      (f = .window ref .base →
        (1 ≤ v → v ≤ 9999 → put { x with base := v }) ∧ (v = 0 ∨ 9999 < v → refuses .badValue)) ∧
      (f = .window ref .limit → (v ≤ 9999 → put { x with limit := v }) ∧ (9999 < v → refuses .badValue)) ∧
      (f = .window ref .target →
        (∀ k : Floor, v = k.val → put { x with target := .floor k }) ∧ (v = 8 → put { x with target := .high }) ∧
        (v = 9 → put { x with target := .bar }) ∧ (9 < v → refuses .badValue))) ∧
    ∀ i : SlotNo,
      let x := d.slots[i]
      let put : Slot → Nat → Prop := fun y => stores { d with slots := d.slots.set i y }
      let meets : Floor → Addr → Prop := fun k a =>
        ∃ j, j ≠ i ∧ d.slots[j].number ≠ 0 ∧ d.slots[j].port = k ∧ (d.slots[j].main = a ∨ d.slots[j].ext = some a)
      let crowded : Floor → Prop := fun k => meets k x.main ∨ ∃ a, x.ext = some a ∧ meets k a
      (f = .slot i .number →
        (9999 < v → refuses .badValue) ∧ (v = x.number → refuses .done) ∧
        (v ≤ 9999 → v ≠ x.number →
          (s.activity[i] ≠ .idle → refuses .inUse) ∧
          (s.activity[i] = .idle →
            (v = 0 → put { x with number := 0 } 0) ∧
            (v ≠ 0 →
              let taken := (∃ j, j ≠ i ∧ d.slots[j].number = v) ∨ (x.number = 0 ∧ crowded x.port)
              (taken → refuses .duplicate) ∧ (¬ taken → put { x with number := v } v))))) ∧
      (f = .slot i .port →
        (7 < v → refuses .badValue) ∧ (v = x.port.val → refuses .done) ∧
        ∀ k : Floor, v = k.val → k ≠ x.port →
          (s.activity[i] ≠ .idle → refuses .inUse) ∧
          (s.activity[i] = .idle → (x.number ≠ 0 ∧ crowded k → refuses .duplicate) ∧
            (¬ (x.number ≠ 0 ∧ crowded k) → put { x with port := k } v))) ∧
      (f = .slot i .main →
        (31 < v → refuses .badValue) ∧ (v = x.main.val → refuses .done) ∧
        ∀ a : Addr, v = a.val → a ≠ x.main →
          let taken := x.ext = some a ∨ (x.number ≠ 0 ∧ meets x.port a)
          (taken → refuses .duplicate) ∧ (¬ taken → put { x with main := a } v)) ∧
      (f = .slot i .ext →
        (31 < v → v ≠ 255 → refuses .badValue) ∧ (v = 255 → put { x with ext := none } 255) ∧
        ∀ a : Addr, v = a.val → (x.ext = some a → refuses .done) ∧
          (x.ext ≠ some a →
            let taken := x.main = a ∨ (x.number ≠ 0 ∧ meets x.port a)
            (taken → refuses .duplicate) ∧ (¬ taken → put { x with ext := some a } v))) ∧
      (f = .slot i .mode →
        (v = 0 → put { x with mode := .mainOnly } 0) ∧ (v = 1 → put { x with mode := .paired } 1) ∧
        (v = 2 → put { x with mode := .followOn } 2) ∧ (2 < v → refuses .badValue)) ∧
      (f = .slot i .quiet →
        put { x with quiet := min (clampClass v) x.quietCeiling } (min (min v 7) x.quietCeiling.val)) ∧
      (f = .slot i .quietCeiling →
        put { x with quietCeiling := clampClass v, quiet := min x.quiet (clampClass v) } (min v 7)) ∧
      (f = .slot i .residentQuiet →
        (v ≤ 1 → put { x with residentQuiet := v = 1 } v) ∧ (1 < v → refuses .badValue)) ∧
      (f = .slot i .unlatch → (v ≤ 1 → put { x with unlatch := v = 1 } v) ∧ (1 < v → refuses .badValue)) ∧
      (f = .slot i .callDown → put { x with callDown := min (clampClass v) 6 } (min v 6))

/-- WRITE of the settings while unlocked: each is clamped to its range. An ageing period of 0 ends the steps under way, and
one written while it is 0 begins a step for each waiting entry whose e is below 6. A fire reserve lowers the priority
reserve with it, and after a write of either the arbiter runs for the port. A sense mode clears the latch; FIRE_LOCAL is set
where the local source becomes active, and the wait list is purged where that is the entry into fire mode; a code above 4
is refused. The reply stands behind a purge's cells and before those of grants (assumption 13), and counts on the model's free
values (assumption 5) (R48, R49, R50, R68, R69, R72, R87, R110, R140, R157, R161, R162). -/
def Obligations.WriteSettings : Prop :=
  ∀ (s : State) (q : Request) (f : FieldRef), s.takes q → s.locked = false → s.roomL 1 →
    fieldRef q.item.toNat q.field.toNat q.index.toNat = some f →
    let v := q.value.toNat
    let d := s.retained
    let answers : Retained → Result → Nat → Prop := fun d r x =>
      exec (.write q) s = .next ((s.storing d).repliedFree .write q r x)
    let grants : Owned → Retained → Result → Nat → Prop := fun p d r x =>
      s.InLine (s.entriesFor p) → s.roomL (1 + (s.entriesFor p).length) → s.roomToGrant p (s.entriesFor p).length →
      exec (.write q) s = .next (((s.storing d).repliedFree .write q r x).arbitrated p)
    let stores : Retained → Nat → Prop := fun d x => answers d (if v = x then .done else .clamped) x
    (f = .timer .window → stores { d with timers := { d.timers with window := max 2 (min v 20) } } (max 2 (min v 20))) ∧
    (f = .timer .ring → stores { d with timers := { d.timers with ring := max 50 (min v 600) } }
      (max 50 (min v 600))) ∧
    (f = .timer .laneWait → stores { d with timers := { d.timers with laneWait := max 10 (min v 600) } }
      (max 10 (min v 600))) ∧
    (f = .timer .grantWait → stores { d with timers := { d.timers with grantWait := max 5 (min v 100) } }
      (max 5 (min v 100))) ∧
    (f = .timer .progressWait → stores { d with timers := { d.timers with progressWait := max 10 (min v 200) } }
      (max 10 (min v 200))) ∧
    (f = .timer .ageing →
      let a := min v 255
      let step : WaitEntry → Option Nat := fun x =>
        if a = 0 then none
        else if d.timers.ageing = 0 then if s.entryPriority x < 6 then some (a * 10) else none
        else x.ageing
      exec (.write q) s =
        .next (({ s.storing { d with timers := { d.timers with ageing := a } } with
          waiting := s.waiting.map fun x => { x with ageing := step x } } : State).repliedFree .write q
          (if v = a then .done else .clamped) a)) ∧
    (∀ c, f = .talkLimit c →
      let x := if v = 0 then 0 else max 100 (min v 6000)
      stores { d with talkLimits := d.talkLimits.set c x } x) ∧
    (f = .fireClass → stores { d with fireClass := clampClass v } (min v 7)) ∧
    (∀ p, f = .setting p .threshold →
      stores { d with settings := d.settings.set p.idx { s.settings p with threshold := max 1 (min v 7) } }
        (max 1 (min v 7))) ∧
    (∀ p, f = .setting p .priority →
      let x := min v (laneCount p - 1 - (s.settings p).fire)
      grants p { d with settings := d.settings.set p.idx { s.settings p with priority := x } }
        (if v = x then .done else .clamped) x) ∧
    (∀ p, f = .setting p .fire →
      let x := min v (laneCount p - 1)
      let y := min (s.settings p).priority (laneCount p - 1 - x)
      grants p { d with settings := d.settings.set p.idx { s.settings p with fire := x, priority := y } }
        (if x = v ∧ y = (s.settings p).priority then .done else .clamped) x) ∧
    (f = .senseMode →
      (4 < v → answers d .badValue d.sense.code) ∧
      ∀ m, SenseMode.ofCode v = some m →
        let t : State := { s.storing { d with sense := m } with latch := false }
        let u := if s.localSource = false ∧ t.localSource = true then t.withEvent .fireLocal else t
        let entered : Prop := s.fireMode = false ∧ t.fireMode = true
        (¬ entered → s.roomL 2 → exec (.write q) s = .next (u.repliedFree .write q .done v)) ∧
        (entered → s.waitersIdle → s.roomL (s.waiting.length + 2) → s.roomH s.waiting.length →
          (∀ k : Floor, s.roomF k s.waiting.length) →
          exec (.write q) s = .next ((u.purged s.waiting).repliedFree .write q .done v)))

/-- WRITE and UPDATE of no field are answered NO_ITEM with value 0, locked or not (R177). UPDATE of a field that may be written:
where its present value is not the expected one the reply is COMPARE_FAILED with that value and nothing is written; where
it is, the part is left as a WRITE leaves it but for the reply, which stands in the same place with the WRITE's result and
the field's old value. A read-only field is refused BAD_VALUE whatever the compare would show (R40, R178; the reply counts on
the model's free values, assumption 5). -/
def Obligations.UpdateCompares : Prop :=
  (∀ (s : State) (q : Request), s.takes q → s.roomL 1 → fieldRef q.item.toNat q.field.toNat q.index.toNat = none →
    exec (.write q) s = .next (s.replied .write q .noItem 0) ∧
    exec (.update q) s = .next (s.replied .update q .noItem 0)) ∧
  ∀ (s : State) (q : Request) (f : FieldRef) (v : Nat), s.takes q → s.locked = false → s.roomL 1 →
    fieldRef q.item.toNat q.field.toNat q.index.toNat = some f → s.readField f = some v →
    (f.readOnly = false → v ≠ q.expected.toNat →
      exec (.update q) s = .next (s.replied .update q .compareFailed v)) ∧
    (f.readOnly = false → v = q.expected.toNat →
      (∃ t u, exec (.update q) s = .next t ∧ exec (.write q) s = .next u ∧
        { t with portL := s.portL } = { u with portL := s.portL }) ∧
      (s.roomL (s.waiting.length + 3) → ∃ (u : State) (pre post : List RiserCell) (res : Result) (x : Nat),
        exec (.write q) s = .next u ∧
        u.portL.queue = s.portL.queue ++ pre ++ [replyCell s.node .write q res x] ++ post ∧
        exec (.update q) s = .next { u with portL := { u.portL with
          queue := s.portL.queue ++ pre ++ [replyCell s.node .update q res v] ++ post } })) ∧
    (f.readOnly = true → exec (.update q) s = .next (s.repliedFree .update q .badValue v))

/-- CLEAR_EVENTS clears the named bits; those whose cause is present are set again, with one notice where one of them is not
masked, and the reply has the set as it then stands. The causes that can be present: a local source, a line source, a link
DOWN by its mark, a floor port in FAULT by its mark. SET_MASKS stores the named bits. An index above 2 is answered NO_ITEM
(R182, R183, R177). -/
def Obligations.EventSetsCommanded : Prop :=
  (∀ (s : State) (e : Event), s.causePresent e = true ↔
    (e = .fireLocal ∧ s.localSource = true) ∨ (e = .fireLine ∧ s.lineSource = true) ∨
    (e = .linkLDown ∧ s.portL.link = .down ∧ s.portL.downMark = true) ∨
    (e = .linkHDown ∧ s.portH.link = .down ∧ s.portH.downMark = true) ∨
    (e = .floorFault ∧ ∃ k : Floor, s.floors[k].line = .fault ∧ s.floors[k].faultMark = true)) ∧
  ∀ (s : State) (q : Request), s.takes q → s.roomL 2 →
    (2 < q.index.toNat → exec (.clearEvents q) s = .next (s.replied .clearEvents q .noItem 0) ∧
      exec (.setMasks q) s = .next (s.replied .setMasks q .noItem 0)) ∧
    ∀ g, Group.ofCode q.index.toNat = some g →
      let x := s.status.get g &&& ~~~q.value
      let m := q.value &&& g.named
      let again := (([.fireLocal, .fireLine, .linkLDown, .linkHDown, .floorFault] : List Event).filter fun e =>
        e.group = g ∧ q.value &&& e.mask ≠ 0 ∧ s.causePresent e = true).foldl (fun w e => w ||| e.mask) 0
      let t : State := { s with status := s.status.set g (x ||| again) }
      (exec (.clearEvents q) s = .next ((if again &&& ~~~(s.retained.masks.get g) = 0 then t
        else t.sentL [noticeCell s.node g (x ||| again)]).replied .clearEvents q .done (x ||| again).toNat)) ∧
      (∃ t, exec (.clearEvents q) s = .next t ∧ (∀ g', g' ≠ g → t.status.get g' = s.status.get g') ∧
        ∀ e : Event, e.group = g → (t.status.get g &&& e.mask ≠ 0 ↔
          (q.value &&& e.mask = 0 ∧ s.status.get g &&& e.mask ≠ 0) ∨
            (q.value &&& e.mask ≠ 0 ∧ s.causePresent e = true))) ∧
      exec (.setMasks q) s =
        .next ((s.storing { s.retained with masks := s.retained.masks.set g m }).replied .setMasks q .done m.toNat)

/-- LANE_OUT marks a lane: FREE becomes OUT, HELD stays HELD with a pending-out mark. LANE_IN clears the mark, and where the
lane was OUT the arbiter then runs for its port. Port L and a lane beyond the port's count are answered BAD_VALUE, and an index
above 9 NO_ITEM, locked or not (R43, R61, R62, R72, R177, R179). -/
def Obligations.LanesOutAndIn : Prop :=
  (∀ (s : State) (q : Request), s.takes q → s.roomL 1 → 9 < q.index.toNat →
    exec (.laneOut q) s = .next (s.replied .laneOut q .noItem 0) ∧
    exec (.laneIn q) s = .next (s.replied .laneIn q .noItem 0)) ∧
  ∀ (s : State) (q : Request), s.takes q → s.locked = false → s.roomL 1 →
    (∀ (p : Owned), Port.ofNumber q.index.toNat = some p.port → q.field.toNat < laneCount p →
      let i := q.field.toNat
      let marked : Bool → State := fun b => s.storing { s.retained with
        outMarks := s.retained.outMarks.set p.idx (s.retained.outMarks[p.idx].set i b) }
      exec (.laneOut q) s = .next ((marked true).replied .laneOut q .done 0) ∧
      (let t := (marked false).replied .laneIn q .done 0
       (s.laneState p i ≠ .out → exec (.laneIn q) s = .next t) ∧
       (s.laneState p i = .out → s.InLine (s.entriesFor p) → t.roomToGrant p (s.entriesFor p).length →
         exec (.laneIn q) s = .next (t.arbitrated p))) ∧
      (s.retained.Legal →
        (marked true).laneState p i = (match s.laneState p i with
          | .free | .out => .out
          | .held h | .pendingOut h => .pendingOut h) ∧
        (marked false).laneState p i = (match s.laneState p i with
          | .free | .out => .free
          | .held h | .pendingOut h => .held h))) ∧
    (q.index.toNat = 0 ∨ (∃ p : Owned, Port.ofNumber q.index.toNat = some p.port ∧ laneCount p ≤ q.field.toNat) →
      exec (.laneOut q) s = .next (s.replied .laneOut q .badValue 0) ∧
      exec (.laneIn q) s = .next (s.replied .laneIn q .badValue 0))

/-- PORT_DISABLE takes a floor port to DISABLED, sets its retained mark and, where it was UP, releases its calls
PORT_DISABLED in ascending order of handle (that their cells stand ahead of its reply is the model's choice, assumption
13); PORT_ENABLE takes it from DISABLED to FAULT with its fault mark clear; each is DONE, without effect where it has
nothing to do, BAD_VALUE on ports L and H, and NO_ITEM with an index above 9, locked or not (R12, R167, R177, R179). -/
def Obligations.PortsDisabledAndEnabled : Prop :=
  (∀ (s : State) (q : Request), s.takes q → s.roomL 1 → 9 < q.index.toNat →
    exec (.portDisable q) s = .next (s.replied .portDisable q .noItem 0) ∧
    exec (.portEnable q) s = .next (s.replied .portEnable q .noItem 0)) ∧
  ∀ (s : State) (q : Request), s.takes q → s.locked = false → s.roomL 1 →
    (q.index.toNat ≤ 1 →
      exec (.portDisable q) s = .next (s.replied .portDisable q .badValue 0) ∧
      exec (.portEnable q) s = .next (s.replied .portEnable q .badValue 0)) ∧
    ∀ k : Floor, q.index.toNat = k.val + 2 →
      let moved : LineState → Bool → State := fun line b =>
        { s.storing { s.retained with disabled := s.retained.disabled.set k b } with
          floors := s.floors.set k { s.floors[k] with
            line := line, faultMark := false, count := 0
            queue := match line with | .disabled => [] | _ => s.floors[k].queue } }
      (s.floors[k].line = .up →
        (let mine : CallRecord → Bool := fun r => r.ownedPort == some (.F k) && r.state != .clearing
         s.roomL (1 + (s.selected fun r => mine r && (r.openKey .L).isSome).length) →
         s.roomH (s.selected fun r => mine r && (r.openKey .H).isSome).length →
         exec (.portDisable q) s = .next (((moved .disabled true).forEach mine fun t h r =>
           t.ended h r .portDisabled).replied .portDisable q .done 0)) ∧
        ∃ t, exec (.portDisable q) s = .next t ∧ t.floors = (moved .disabled true).floors ∧
          t.retained = (moved .disabled true).retained ∧
          (∀ (h : Handle) (r : CallRecord), t.call? h = some r → r.ownedPort = some (.F k) → r.state = .clearing)) ∧
      (s.floors[k].line = .fault →
        exec (.portDisable q) s = .next ((moved .disabled true).replied .portDisable q .done 0)) ∧
      (s.floors[k].line = .disabled →
        exec (.portDisable q) s = .next (s.replied .portDisable q .done 0) ∧
        exec (.portEnable q) s = .next ((moved .fault false).replied .portEnable q .done 0)) ∧
      (s.floors[k].line ≠ .disabled → exec (.portEnable q) s = .next (s.replied .portEnable q .done 0))

/-- SET_SERVICE stores 0 and 1 and refuses any other value; LOCK sets the table lock; while it is set the seven
operations it refuses are answered LOCKED with WRITE_REFUSED_LOCKED and do nothing else (R177, R180, R181). -/
def Obligations.ServiceAndLock : Prop :=
  ∀ (s : State) (q : Request), s.takes q → s.roomL 2 →
    (s.locked = false →
      (q.value = 0 → exec (.setService q) s =
        .next ((s.storing { s.retained with service := .inService }).replied .setService q .done 0)) ∧
      (q.value = 1 → exec (.setService q) s =
        .next ((s.storing { s.retained with service := .outOfService }).replied .setService q .done 0)) ∧
      (1 < q.value.toNat → exec (.setService q) s = .next (s.replied .setService q .badValue 0))) ∧
    exec (.lock q) s = .next (({ s with locked := true } : State).replied .lock q .done 0) ∧
    (s.locked = true →
      let refused : MgmtOp → State := fun op => (s.withEvent .writeRefusedLocked).replied op q .locked 0
      exec (.setService q) s = .next (refused .setService) ∧
      ((fieldRef q.item.toNat q.field.toNat q.index.toNat).isSome = true →
        exec (.write q) s = .next (refused .write) ∧ exec (.update q) s = .next (refused .update)) ∧
      (q.index.toNat ≤ 9 →
        exec (.laneOut q) s = .next (refused .laneOut) ∧ exec (.laneIn q) s = .next (refused .laneIn) ∧
        exec (.portDisable q) s = .next (refused .portDisable) ∧
        exec (.portEnable q) s = .next (refused .portEnable)))

/-- While the table lock is set no command but a power-up reset changes the retained contents, save the report masks and
the quiet levels of slots (R180, R182, R123). -/
def Obligations.LockKeepsRetained : Prop :=
  ∀ (c : Instr) (s t : State), s.locked = true → (∀ pins, c ≠ .powerUpReset pins) → exec c s = .next t →
    t.retained = { s.retained with masks := t.retained.masks, slots := t.retained.slots } ∧
    ∀ i : SlotNo, t.retained.slots[i] = { s.retained.slots[i] with quiet := t.retained.slots[i].quiet }

/-! ## Cells on the line -/

/-- Every cell that the part sends passes the check of R5. An interface that receives the bytes of a riser cell reads the command
of its kind with every field that the command has as it was sent; so does one that receives the bytes of a floor cell of a
kind that handsets send. OFFER, CANCEL and STATUS, which only this switch sends on a branch, are of the wrong kind
to it, and their other fields are read nowhere here (R5, R6, R7, R18, R19, R20). -/
def Obligations.CellsDecodeBack : Prop :=
  (∀ c : RiserCell, checkPasses c.bytes = true) ∧
  (∀ c : FloorCell, checkPasses c.bytes = true) ∧
  (∀ (c : CallCell) (p : Riser),
    let lane := laneByte c.lane
    let okind : BitVec 2 := BitVec.ofNat 2 c.okind.toNat
    receive (match p with | .L => .L | .H => .H) (RiserCell.call c).bytes =
      match c.kind, p with
      | .setup, .L => .command (.setupFromBelow c.key lane c.dest c.cls okind c.origin)
      | .setup, .H => .command (.setupFromAbove c.key lane c.dest c.cls okind c.origin)
      | .laneGrant, p => .command (.laneGrant p c.key lane)
      | .progress, p => progressCommand p c.key lane c.code.toNat
      | .connect, .H => .command (.connectFromAbove c.key)
      | .connect, .L => .command (.connectFromBelow c.key)
      | .release, p => .command (.release p c.key c.code)
      | .releaseDone, p => .command (.releaseDone p c.key)
      | .unlatch, p => .command (.unlatchFromAbove p c.key okind c.origin)
      | .fireOn, p => .command (.fireOn p)
      | .fireOff, p => .command (.fireOff p)
      | .restart, .L => .command .restartFromBelow
      | .restart, .H => .command .restartFromAbove) ∧
  (∀ (op : Byte) (q : Request),
    receive .L (RiserCell.mgmt .request op q).bytes = .command (requestCommand op q) ∧
    receive .H (RiserCell.mgmt .request op q).bytes = .command (.mgmtRequestForward .H op q) ∧
    receive .H (RiserCell.mgmt .reply op q).bytes = .command (.mgmtRelayDown .H false op q) ∧
    receive .H (RiserCell.mgmt .notice op q).bytes = .command (.mgmtRelayDown .H true op q)) ∧
  ∀ (c : FloorCell) (k : Floor),
    receive (.F k) c.bytes =
      match c.kind with
      | .restart => .command (.handsetRestart k c.addr)
      | .alert => .command (.alert k c.addr (BitVec.ofNat 8 c.handle))
      | .answer => .command (.answer k c.addr (BitVec.ofNat 8 c.handle))
      | .refuse => .command (.refuse k c.addr (BitVec.ofNat 8 c.handle))
      | .again => .command (.repeatOffer k c.addr (BitVec.ofNat 8 c.handle))
      | .dial => .command (.dial k c.addr)
      | .hook => .command (.hook k c.addr)
      | .quiet => .command (.quiet k c.addr c.code)
      | .unlatch => .command (.unlatch k c.addr)
      | .offer | .cancel | .status => .wrongKind
end

