-- ==== Sys2Proof/Laws/State.lean ====
section
/-! SUPPORT. What each named change of an event in progress does to each field: one lemma for each field. -/

namespace Sys2Proof.Machine

/-! ### `Work.raise` -/

@[simp] theorem Work.raise_outL (w : Work) (e : Event) : (w.raise e).outL = w.outL := rfl
@[simp] theorem Work.raise_raised (w : Work) (e : Event) : (w.raise e).raised = w.raised.add e := rfl
@[simp] theorem Work.raise_runs (w : Work) (e : Event) : (w.raise e).runs = w.runs := rfl
@[simp] theorem Work.raise_st (w : Work) (e : Event) : (w.raise e).st = w.st := rfl

/-! ### `Work.run` -/

@[simp] theorem Work.run_outL (w : Work) (p : Owned) : (w.run p).outL = w.outL := rfl
@[simp] theorem Work.run_raised (w : Work) (p : Owned) : (w.run p).raised = w.raised := rfl
@[simp] theorem Work.run_runs (w : Work) (p : Owned) : (w.run p).runs = p :: w.runs := rfl
@[simp] theorem Work.run_st (w : Work) (p : Owned) : (w.run p).st = w.st := rfl

/-! ### `Work.modCall` -/

@[simp] theorem Work.modCall_outL (w : Work) (h : Handle) (f : CallRecord → CallRecord) : (w.modCall h f).outL = w.outL := rfl
@[simp] theorem Work.modCall_raised (w : Work) (h : Handle) (f : CallRecord → CallRecord) : (w.modCall h f).raised = w.raised := rfl
@[simp] theorem Work.modCall_runs (w : Work) (h : Handle) (f : CallRecord → CallRecord) : (w.modCall h f).runs = w.runs := rfl
@[simp] theorem Work.modCall_pins (w : Work) (h : Handle) (f : CallRecord → CallRecord) : (w.modCall h f).st.pins = w.st.pins := rfl
@[simp] theorem Work.modCall_powered (w : Work) (h : Handle) (f : CallRecord → CallRecord) : (w.modCall h f).st.powered = w.st.powered := rfl
@[simp] theorem Work.modCall_node (w : Work) (h : Handle) (f : CallRecord → CallRecord) : (w.modCall h f).st.node = w.st.node := rfl
@[simp] theorem Work.modCall_top (w : Work) (h : Handle) (f : CallRecord → CallRecord) : (w.modCall h f).st.top = w.st.top := rfl
@[simp] theorem Work.modCall_retained (w : Work) (h : Handle) (f : CallRecord → CallRecord) : (w.modCall h f).st.retained = w.st.retained := rfl
@[simp] theorem Work.modCall_retentionOk (w : Work) (h : Handle) (f : CallRecord → CallRecord) : (w.modCall h f).st.retentionOk = w.st.retentionOk := rfl
@[simp] theorem Work.modCall_portL (w : Work) (h : Handle) (f : CallRecord → CallRecord) : (w.modCall h f).st.portL = w.st.portL := rfl
@[simp] theorem Work.modCall_portH (w : Work) (h : Handle) (f : CallRecord → CallRecord) : (w.modCall h f).st.portH = w.st.portH := rfl
@[simp] theorem Work.modCall_floors (w : Work) (h : Handle) (f : CallRecord → CallRecord) : (w.modCall h f).st.floors = w.st.floors := rfl
@[simp] theorem Work.modCall_maps (w : Work) (h : Handle) (f : CallRecord → CallRecord) : (w.modCall h f).st.maps = w.st.maps := rfl
@[simp] theorem Work.modCall_mirror (w : Work) (h : Handle) (f : CallRecord → CallRecord) : (w.modCall h f).st.mirror = w.st.mirror := rfl
@[simp] theorem Work.modCall_crosses (w : Work) (h : Handle) (f : CallRecord → CallRecord) : (w.modCall h f).st.crosses = w.st.crosses := rfl
@[simp] theorem Work.modCall_waiting (w : Work) (h : Handle) (f : CallRecord → CallRecord) : (w.modCall h f).st.waiting = w.st.waiting := rfl
@[simp] theorem Work.modCall_calls (w : Work) (h : Handle) (f : CallRecord → CallRecord) : (w.modCall h f).st.calls = w.st.calls.set h (w.st.calls[h].map f) := rfl
@[simp] theorem Work.modCall_freeHandles (w : Work) (h : Handle) (f : CallRecord → CallRecord) : (w.modCall h f).st.freeHandles = w.st.freeHandles := rfl
@[simp] theorem Work.modCall_activity (w : Work) (h : Handle) (f : CallRecord → CallRecord) : (w.modCall h f).st.activity = w.st.activity := rfl
@[simp] theorem Work.modCall_latch (w : Work) (h : Handle) (f : CallRecord → CallRecord) : (w.modCall h f).st.latch = w.st.latch := rfl
@[simp] theorem Work.modCall_lineSource (w : Work) (h : Handle) (f : CallRecord → CallRecord) : (w.modCall h f).st.lineSource = w.st.lineSource := rfl
@[simp] theorem Work.modCall_locked (w : Work) (h : Handle) (f : CallRecord → CallRecord) : (w.modCall h f).st.locked = w.st.locked := rfl
@[simp] theorem Work.modCall_status (w : Work) (h : Handle) (f : CallRecord → CallRecord) : (w.modCall h f).st.status = w.st.status := rfl
@[simp] theorem Work.modCall_resetReq (w : Work) (h : Handle) (f : CallRecord → CallRecord) : (w.modCall h f).st.resetReq = w.st.resetReq := rfl
@[simp] theorem Work.modCall_freeIndex (w : Work) (h : Handle) (f : CallRecord → CallRecord) : (w.modCall h f).st.freeIndex = w.st.freeIndex := rfl
@[simp] theorem Work.modCall_pending (w : Work) (h : Handle) (f : CallRecord → CallRecord) : (w.modCall h f).st.pending = w.st.pending := rfl

/-! ### `Work.makeCall` -/

@[simp] theorem Work.makeCall_outL (w : Work) (h : Handle) (rest : List Handle) (r : CallRecord) : (w.makeCall h rest r).outL = w.outL := rfl
@[simp] theorem Work.makeCall_raised (w : Work) (h : Handle) (rest : List Handle) (r : CallRecord) : (w.makeCall h rest r).raised = w.raised := rfl
@[simp] theorem Work.makeCall_runs (w : Work) (h : Handle) (rest : List Handle) (r : CallRecord) : (w.makeCall h rest r).runs = w.runs := rfl
@[simp] theorem Work.makeCall_pins (w : Work) (h : Handle) (rest : List Handle) (r : CallRecord) : (w.makeCall h rest r).st.pins = w.st.pins := rfl
@[simp] theorem Work.makeCall_powered (w : Work) (h : Handle) (rest : List Handle) (r : CallRecord) : (w.makeCall h rest r).st.powered = w.st.powered := rfl
@[simp] theorem Work.makeCall_node (w : Work) (h : Handle) (rest : List Handle) (r : CallRecord) : (w.makeCall h rest r).st.node = w.st.node := rfl
@[simp] theorem Work.makeCall_top (w : Work) (h : Handle) (rest : List Handle) (r : CallRecord) : (w.makeCall h rest r).st.top = w.st.top := rfl
@[simp] theorem Work.makeCall_retained (w : Work) (h : Handle) (rest : List Handle) (r : CallRecord) : (w.makeCall h rest r).st.retained = w.st.retained := rfl
@[simp] theorem Work.makeCall_retentionOk (w : Work) (h : Handle) (rest : List Handle) (r : CallRecord) : (w.makeCall h rest r).st.retentionOk = w.st.retentionOk := rfl
@[simp] theorem Work.makeCall_portL (w : Work) (h : Handle) (rest : List Handle) (r : CallRecord) : (w.makeCall h rest r).st.portL = w.st.portL := rfl
@[simp] theorem Work.makeCall_portH (w : Work) (h : Handle) (rest : List Handle) (r : CallRecord) : (w.makeCall h rest r).st.portH = w.st.portH := rfl
@[simp] theorem Work.makeCall_floors (w : Work) (h : Handle) (rest : List Handle) (r : CallRecord) : (w.makeCall h rest r).st.floors = w.st.floors := rfl
@[simp] theorem Work.makeCall_maps (w : Work) (h : Handle) (rest : List Handle) (r : CallRecord) : (w.makeCall h rest r).st.maps = w.st.maps := rfl
@[simp] theorem Work.makeCall_mirror (w : Work) (h : Handle) (rest : List Handle) (r : CallRecord) : (w.makeCall h rest r).st.mirror = w.st.mirror := rfl
@[simp] theorem Work.makeCall_crosses (w : Work) (h : Handle) (rest : List Handle) (r : CallRecord) : (w.makeCall h rest r).st.crosses = w.st.crosses := rfl
@[simp] theorem Work.makeCall_waiting (w : Work) (h : Handle) (rest : List Handle) (r : CallRecord) : (w.makeCall h rest r).st.waiting = w.st.waiting := rfl
@[simp] theorem Work.makeCall_calls (w : Work) (h : Handle) (rest : List Handle) (r : CallRecord) : (w.makeCall h rest r).st.calls = w.st.calls.set h (some r) := rfl
@[simp] theorem Work.makeCall_freeHandles (w : Work) (h : Handle) (rest : List Handle) (r : CallRecord) : (w.makeCall h rest r).st.freeHandles = rest := rfl
@[simp] theorem Work.makeCall_activity (w : Work) (h : Handle) (rest : List Handle) (r : CallRecord) : (w.makeCall h rest r).st.activity = w.st.activity := rfl
@[simp] theorem Work.makeCall_latch (w : Work) (h : Handle) (rest : List Handle) (r : CallRecord) : (w.makeCall h rest r).st.latch = w.st.latch := rfl
@[simp] theorem Work.makeCall_lineSource (w : Work) (h : Handle) (rest : List Handle) (r : CallRecord) : (w.makeCall h rest r).st.lineSource = w.st.lineSource := rfl
@[simp] theorem Work.makeCall_locked (w : Work) (h : Handle) (rest : List Handle) (r : CallRecord) : (w.makeCall h rest r).st.locked = w.st.locked := rfl
@[simp] theorem Work.makeCall_status (w : Work) (h : Handle) (rest : List Handle) (r : CallRecord) : (w.makeCall h rest r).st.status = w.st.status := rfl
@[simp] theorem Work.makeCall_resetReq (w : Work) (h : Handle) (rest : List Handle) (r : CallRecord) : (w.makeCall h rest r).st.resetReq = w.st.resetReq := rfl
@[simp] theorem Work.makeCall_freeIndex (w : Work) (h : Handle) (rest : List Handle) (r : CallRecord) : (w.makeCall h rest r).st.freeIndex = w.st.freeIndex := rfl
@[simp] theorem Work.makeCall_pending (w : Work) (h : Handle) (rest : List Handle) (r : CallRecord) : (w.makeCall h rest r).st.pending = w.st.pending := rfl

/-! ### `Work.setMap` -/

@[simp] theorem Work.setMap_outL (w : Work) (p : Owned) (m : LaneMap) : (w.setMap p m).outL = w.outL := rfl
@[simp] theorem Work.setMap_raised (w : Work) (p : Owned) (m : LaneMap) : (w.setMap p m).raised = w.raised := rfl
@[simp] theorem Work.setMap_runs (w : Work) (p : Owned) (m : LaneMap) : (w.setMap p m).runs = w.runs := rfl
@[simp] theorem Work.setMap_pins (w : Work) (p : Owned) (m : LaneMap) : (w.setMap p m).st.pins = w.st.pins := rfl
@[simp] theorem Work.setMap_powered (w : Work) (p : Owned) (m : LaneMap) : (w.setMap p m).st.powered = w.st.powered := rfl
@[simp] theorem Work.setMap_node (w : Work) (p : Owned) (m : LaneMap) : (w.setMap p m).st.node = w.st.node := rfl
@[simp] theorem Work.setMap_top (w : Work) (p : Owned) (m : LaneMap) : (w.setMap p m).st.top = w.st.top := rfl
@[simp] theorem Work.setMap_retained (w : Work) (p : Owned) (m : LaneMap) : (w.setMap p m).st.retained = w.st.retained := rfl
@[simp] theorem Work.setMap_retentionOk (w : Work) (p : Owned) (m : LaneMap) : (w.setMap p m).st.retentionOk = w.st.retentionOk := rfl
@[simp] theorem Work.setMap_portL (w : Work) (p : Owned) (m : LaneMap) : (w.setMap p m).st.portL = w.st.portL := rfl
@[simp] theorem Work.setMap_portH (w : Work) (p : Owned) (m : LaneMap) : (w.setMap p m).st.portH = w.st.portH := rfl
@[simp] theorem Work.setMap_floors (w : Work) (p : Owned) (m : LaneMap) : (w.setMap p m).st.floors = w.st.floors := rfl
@[simp] theorem Work.setMap_maps (w : Work) (p : Owned) (m : LaneMap) : (w.setMap p m).st.maps = w.st.maps.set p.idx m := rfl
@[simp] theorem Work.setMap_mirror (w : Work) (p : Owned) (m : LaneMap) : (w.setMap p m).st.mirror = w.st.mirror := rfl
@[simp] theorem Work.setMap_crosses (w : Work) (p : Owned) (m : LaneMap) : (w.setMap p m).st.crosses = w.st.crosses := rfl
@[simp] theorem Work.setMap_waiting (w : Work) (p : Owned) (m : LaneMap) : (w.setMap p m).st.waiting = w.st.waiting := rfl
@[simp] theorem Work.setMap_calls (w : Work) (p : Owned) (m : LaneMap) : (w.setMap p m).st.calls = w.st.calls := rfl
@[simp] theorem Work.setMap_freeHandles (w : Work) (p : Owned) (m : LaneMap) : (w.setMap p m).st.freeHandles = w.st.freeHandles := rfl
@[simp] theorem Work.setMap_activity (w : Work) (p : Owned) (m : LaneMap) : (w.setMap p m).st.activity = w.st.activity := rfl
@[simp] theorem Work.setMap_latch (w : Work) (p : Owned) (m : LaneMap) : (w.setMap p m).st.latch = w.st.latch := rfl
@[simp] theorem Work.setMap_lineSource (w : Work) (p : Owned) (m : LaneMap) : (w.setMap p m).st.lineSource = w.st.lineSource := rfl
@[simp] theorem Work.setMap_locked (w : Work) (p : Owned) (m : LaneMap) : (w.setMap p m).st.locked = w.st.locked := rfl
@[simp] theorem Work.setMap_status (w : Work) (p : Owned) (m : LaneMap) : (w.setMap p m).st.status = w.st.status := rfl
@[simp] theorem Work.setMap_resetReq (w : Work) (p : Owned) (m : LaneMap) : (w.setMap p m).st.resetReq = w.st.resetReq := rfl
@[simp] theorem Work.setMap_freeIndex (w : Work) (p : Owned) (m : LaneMap) : (w.setMap p m).st.freeIndex = w.st.freeIndex := rfl
@[simp] theorem Work.setMap_pending (w : Work) (p : Owned) (m : LaneMap) : (w.setMap p m).st.pending = w.st.pending := rfl

/-! ### `Work.setMirror` -/

@[simp] theorem Work.setMirror_outL (w : Work) (l : LLane) (x : Option Handle) : (w.setMirror l x).outL = w.outL := rfl
@[simp] theorem Work.setMirror_raised (w : Work) (l : LLane) (x : Option Handle) : (w.setMirror l x).raised = w.raised := rfl
@[simp] theorem Work.setMirror_runs (w : Work) (l : LLane) (x : Option Handle) : (w.setMirror l x).runs = w.runs := rfl
@[simp] theorem Work.setMirror_pins (w : Work) (l : LLane) (x : Option Handle) : (w.setMirror l x).st.pins = w.st.pins := rfl
@[simp] theorem Work.setMirror_powered (w : Work) (l : LLane) (x : Option Handle) : (w.setMirror l x).st.powered = w.st.powered := rfl
@[simp] theorem Work.setMirror_node (w : Work) (l : LLane) (x : Option Handle) : (w.setMirror l x).st.node = w.st.node := rfl
@[simp] theorem Work.setMirror_top (w : Work) (l : LLane) (x : Option Handle) : (w.setMirror l x).st.top = w.st.top := rfl
@[simp] theorem Work.setMirror_retained (w : Work) (l : LLane) (x : Option Handle) : (w.setMirror l x).st.retained = w.st.retained := rfl
@[simp] theorem Work.setMirror_retentionOk (w : Work) (l : LLane) (x : Option Handle) : (w.setMirror l x).st.retentionOk = w.st.retentionOk := rfl
@[simp] theorem Work.setMirror_portL (w : Work) (l : LLane) (x : Option Handle) : (w.setMirror l x).st.portL = w.st.portL := rfl
@[simp] theorem Work.setMirror_portH (w : Work) (l : LLane) (x : Option Handle) : (w.setMirror l x).st.portH = w.st.portH := rfl
@[simp] theorem Work.setMirror_floors (w : Work) (l : LLane) (x : Option Handle) : (w.setMirror l x).st.floors = w.st.floors := rfl
@[simp] theorem Work.setMirror_maps (w : Work) (l : LLane) (x : Option Handle) : (w.setMirror l x).st.maps = w.st.maps := rfl
@[simp] theorem Work.setMirror_mirror (w : Work) (l : LLane) (x : Option Handle) : (w.setMirror l x).st.mirror = w.st.mirror.set l x := rfl
@[simp] theorem Work.setMirror_crosses (w : Work) (l : LLane) (x : Option Handle) : (w.setMirror l x).st.crosses = w.st.crosses := rfl
@[simp] theorem Work.setMirror_waiting (w : Work) (l : LLane) (x : Option Handle) : (w.setMirror l x).st.waiting = w.st.waiting := rfl
@[simp] theorem Work.setMirror_calls (w : Work) (l : LLane) (x : Option Handle) : (w.setMirror l x).st.calls = w.st.calls := rfl
@[simp] theorem Work.setMirror_freeHandles (w : Work) (l : LLane) (x : Option Handle) : (w.setMirror l x).st.freeHandles = w.st.freeHandles := rfl
@[simp] theorem Work.setMirror_activity (w : Work) (l : LLane) (x : Option Handle) : (w.setMirror l x).st.activity = w.st.activity := rfl
@[simp] theorem Work.setMirror_latch (w : Work) (l : LLane) (x : Option Handle) : (w.setMirror l x).st.latch = w.st.latch := rfl
@[simp] theorem Work.setMirror_lineSource (w : Work) (l : LLane) (x : Option Handle) : (w.setMirror l x).st.lineSource = w.st.lineSource := rfl
@[simp] theorem Work.setMirror_locked (w : Work) (l : LLane) (x : Option Handle) : (w.setMirror l x).st.locked = w.st.locked := rfl
@[simp] theorem Work.setMirror_status (w : Work) (l : LLane) (x : Option Handle) : (w.setMirror l x).st.status = w.st.status := rfl
@[simp] theorem Work.setMirror_resetReq (w : Work) (l : LLane) (x : Option Handle) : (w.setMirror l x).st.resetReq = w.st.resetReq := rfl
@[simp] theorem Work.setMirror_freeIndex (w : Work) (l : LLane) (x : Option Handle) : (w.setMirror l x).st.freeIndex = w.st.freeIndex := rfl
@[simp] theorem Work.setMirror_pending (w : Work) (l : LLane) (x : Option Handle) : (w.setMirror l x).st.pending = w.st.pending := rfl

/-! ### `Work.setCrosses` -/

@[simp] theorem Work.setCrosses_outL (w : Work) (l : List Cross) : (w.setCrosses l).outL = w.outL := rfl
@[simp] theorem Work.setCrosses_raised (w : Work) (l : List Cross) : (w.setCrosses l).raised = w.raised := rfl
@[simp] theorem Work.setCrosses_runs (w : Work) (l : List Cross) : (w.setCrosses l).runs = w.runs := rfl
@[simp] theorem Work.setCrosses_pins (w : Work) (l : List Cross) : (w.setCrosses l).st.pins = w.st.pins := rfl
@[simp] theorem Work.setCrosses_powered (w : Work) (l : List Cross) : (w.setCrosses l).st.powered = w.st.powered := rfl
@[simp] theorem Work.setCrosses_node (w : Work) (l : List Cross) : (w.setCrosses l).st.node = w.st.node := rfl
@[simp] theorem Work.setCrosses_top (w : Work) (l : List Cross) : (w.setCrosses l).st.top = w.st.top := rfl
@[simp] theorem Work.setCrosses_retained (w : Work) (l : List Cross) : (w.setCrosses l).st.retained = w.st.retained := rfl
@[simp] theorem Work.setCrosses_retentionOk (w : Work) (l : List Cross) : (w.setCrosses l).st.retentionOk = w.st.retentionOk := rfl
@[simp] theorem Work.setCrosses_portL (w : Work) (l : List Cross) : (w.setCrosses l).st.portL = w.st.portL := rfl
@[simp] theorem Work.setCrosses_portH (w : Work) (l : List Cross) : (w.setCrosses l).st.portH = w.st.portH := rfl
@[simp] theorem Work.setCrosses_floors (w : Work) (l : List Cross) : (w.setCrosses l).st.floors = w.st.floors := rfl
@[simp] theorem Work.setCrosses_maps (w : Work) (l : List Cross) : (w.setCrosses l).st.maps = w.st.maps := rfl
@[simp] theorem Work.setCrosses_mirror (w : Work) (l : List Cross) : (w.setCrosses l).st.mirror = w.st.mirror := rfl
@[simp] theorem Work.setCrosses_crosses (w : Work) (l : List Cross) : (w.setCrosses l).st.crosses = l := rfl
@[simp] theorem Work.setCrosses_waiting (w : Work) (l : List Cross) : (w.setCrosses l).st.waiting = w.st.waiting := rfl
@[simp] theorem Work.setCrosses_calls (w : Work) (l : List Cross) : (w.setCrosses l).st.calls = w.st.calls := rfl
@[simp] theorem Work.setCrosses_freeHandles (w : Work) (l : List Cross) : (w.setCrosses l).st.freeHandles = w.st.freeHandles := rfl
@[simp] theorem Work.setCrosses_activity (w : Work) (l : List Cross) : (w.setCrosses l).st.activity = w.st.activity := rfl
@[simp] theorem Work.setCrosses_latch (w : Work) (l : List Cross) : (w.setCrosses l).st.latch = w.st.latch := rfl
@[simp] theorem Work.setCrosses_lineSource (w : Work) (l : List Cross) : (w.setCrosses l).st.lineSource = w.st.lineSource := rfl
@[simp] theorem Work.setCrosses_locked (w : Work) (l : List Cross) : (w.setCrosses l).st.locked = w.st.locked := rfl
@[simp] theorem Work.setCrosses_status (w : Work) (l : List Cross) : (w.setCrosses l).st.status = w.st.status := rfl
@[simp] theorem Work.setCrosses_resetReq (w : Work) (l : List Cross) : (w.setCrosses l).st.resetReq = w.st.resetReq := rfl
@[simp] theorem Work.setCrosses_freeIndex (w : Work) (l : List Cross) : (w.setCrosses l).st.freeIndex = w.st.freeIndex := rfl
@[simp] theorem Work.setCrosses_pending (w : Work) (l : List Cross) : (w.setCrosses l).st.pending = w.st.pending := rfl

/-! ### `Work.setWaiting` -/

@[simp] theorem Work.setWaiting_outL (w : Work) (l : List WaitEntry) : (w.setWaiting l).outL = w.outL := rfl
@[simp] theorem Work.setWaiting_raised (w : Work) (l : List WaitEntry) : (w.setWaiting l).raised = w.raised := rfl
@[simp] theorem Work.setWaiting_runs (w : Work) (l : List WaitEntry) : (w.setWaiting l).runs = w.runs := rfl
@[simp] theorem Work.setWaiting_pins (w : Work) (l : List WaitEntry) : (w.setWaiting l).st.pins = w.st.pins := rfl
@[simp] theorem Work.setWaiting_powered (w : Work) (l : List WaitEntry) : (w.setWaiting l).st.powered = w.st.powered := rfl
@[simp] theorem Work.setWaiting_node (w : Work) (l : List WaitEntry) : (w.setWaiting l).st.node = w.st.node := rfl
@[simp] theorem Work.setWaiting_top (w : Work) (l : List WaitEntry) : (w.setWaiting l).st.top = w.st.top := rfl
@[simp] theorem Work.setWaiting_retained (w : Work) (l : List WaitEntry) : (w.setWaiting l).st.retained = w.st.retained := rfl
@[simp] theorem Work.setWaiting_retentionOk (w : Work) (l : List WaitEntry) : (w.setWaiting l).st.retentionOk = w.st.retentionOk := rfl
@[simp] theorem Work.setWaiting_portL (w : Work) (l : List WaitEntry) : (w.setWaiting l).st.portL = w.st.portL := rfl
@[simp] theorem Work.setWaiting_portH (w : Work) (l : List WaitEntry) : (w.setWaiting l).st.portH = w.st.portH := rfl
@[simp] theorem Work.setWaiting_floors (w : Work) (l : List WaitEntry) : (w.setWaiting l).st.floors = w.st.floors := rfl
@[simp] theorem Work.setWaiting_maps (w : Work) (l : List WaitEntry) : (w.setWaiting l).st.maps = w.st.maps := rfl
@[simp] theorem Work.setWaiting_mirror (w : Work) (l : List WaitEntry) : (w.setWaiting l).st.mirror = w.st.mirror := rfl
@[simp] theorem Work.setWaiting_crosses (w : Work) (l : List WaitEntry) : (w.setWaiting l).st.crosses = w.st.crosses := rfl
@[simp] theorem Work.setWaiting_waiting (w : Work) (l : List WaitEntry) : (w.setWaiting l).st.waiting = l := rfl
@[simp] theorem Work.setWaiting_calls (w : Work) (l : List WaitEntry) : (w.setWaiting l).st.calls = w.st.calls := rfl
@[simp] theorem Work.setWaiting_freeHandles (w : Work) (l : List WaitEntry) : (w.setWaiting l).st.freeHandles = w.st.freeHandles := rfl
@[simp] theorem Work.setWaiting_activity (w : Work) (l : List WaitEntry) : (w.setWaiting l).st.activity = w.st.activity := rfl
@[simp] theorem Work.setWaiting_latch (w : Work) (l : List WaitEntry) : (w.setWaiting l).st.latch = w.st.latch := rfl
@[simp] theorem Work.setWaiting_lineSource (w : Work) (l : List WaitEntry) : (w.setWaiting l).st.lineSource = w.st.lineSource := rfl
@[simp] theorem Work.setWaiting_locked (w : Work) (l : List WaitEntry) : (w.setWaiting l).st.locked = w.st.locked := rfl
@[simp] theorem Work.setWaiting_status (w : Work) (l : List WaitEntry) : (w.setWaiting l).st.status = w.st.status := rfl
@[simp] theorem Work.setWaiting_resetReq (w : Work) (l : List WaitEntry) : (w.setWaiting l).st.resetReq = w.st.resetReq := rfl
@[simp] theorem Work.setWaiting_freeIndex (w : Work) (l : List WaitEntry) : (w.setWaiting l).st.freeIndex = w.st.freeIndex := rfl
@[simp] theorem Work.setWaiting_pending (w : Work) (l : List WaitEntry) : (w.setWaiting l).st.pending = w.st.pending := rfl

/-! ### `Work.setActivity` -/

@[simp] theorem Work.setActivity_outL (w : Work) (i : SlotNo) (a : Activity) : (w.setActivity i a).outL = w.outL := rfl
@[simp] theorem Work.setActivity_raised (w : Work) (i : SlotNo) (a : Activity) : (w.setActivity i a).raised = w.raised := rfl
@[simp] theorem Work.setActivity_runs (w : Work) (i : SlotNo) (a : Activity) : (w.setActivity i a).runs = w.runs := rfl
@[simp] theorem Work.setActivity_pins (w : Work) (i : SlotNo) (a : Activity) : (w.setActivity i a).st.pins = w.st.pins := rfl
@[simp] theorem Work.setActivity_powered (w : Work) (i : SlotNo) (a : Activity) : (w.setActivity i a).st.powered = w.st.powered := rfl
@[simp] theorem Work.setActivity_node (w : Work) (i : SlotNo) (a : Activity) : (w.setActivity i a).st.node = w.st.node := rfl
@[simp] theorem Work.setActivity_top (w : Work) (i : SlotNo) (a : Activity) : (w.setActivity i a).st.top = w.st.top := rfl
@[simp] theorem Work.setActivity_retained (w : Work) (i : SlotNo) (a : Activity) : (w.setActivity i a).st.retained = w.st.retained := rfl
@[simp] theorem Work.setActivity_retentionOk (w : Work) (i : SlotNo) (a : Activity) : (w.setActivity i a).st.retentionOk = w.st.retentionOk := rfl
@[simp] theorem Work.setActivity_portL (w : Work) (i : SlotNo) (a : Activity) : (w.setActivity i a).st.portL = w.st.portL := rfl
@[simp] theorem Work.setActivity_portH (w : Work) (i : SlotNo) (a : Activity) : (w.setActivity i a).st.portH = w.st.portH := rfl
@[simp] theorem Work.setActivity_floors (w : Work) (i : SlotNo) (a : Activity) : (w.setActivity i a).st.floors = w.st.floors := rfl
@[simp] theorem Work.setActivity_maps (w : Work) (i : SlotNo) (a : Activity) : (w.setActivity i a).st.maps = w.st.maps := rfl
@[simp] theorem Work.setActivity_mirror (w : Work) (i : SlotNo) (a : Activity) : (w.setActivity i a).st.mirror = w.st.mirror := rfl
@[simp] theorem Work.setActivity_crosses (w : Work) (i : SlotNo) (a : Activity) : (w.setActivity i a).st.crosses = w.st.crosses := rfl
@[simp] theorem Work.setActivity_waiting (w : Work) (i : SlotNo) (a : Activity) : (w.setActivity i a).st.waiting = w.st.waiting := rfl
@[simp] theorem Work.setActivity_calls (w : Work) (i : SlotNo) (a : Activity) : (w.setActivity i a).st.calls = w.st.calls := rfl
@[simp] theorem Work.setActivity_freeHandles (w : Work) (i : SlotNo) (a : Activity) : (w.setActivity i a).st.freeHandles = w.st.freeHandles := rfl
@[simp] theorem Work.setActivity_activity (w : Work) (i : SlotNo) (a : Activity) : (w.setActivity i a).st.activity = w.st.activity.set i a := rfl
@[simp] theorem Work.setActivity_latch (w : Work) (i : SlotNo) (a : Activity) : (w.setActivity i a).st.latch = w.st.latch := rfl
@[simp] theorem Work.setActivity_lineSource (w : Work) (i : SlotNo) (a : Activity) : (w.setActivity i a).st.lineSource = w.st.lineSource := rfl
@[simp] theorem Work.setActivity_locked (w : Work) (i : SlotNo) (a : Activity) : (w.setActivity i a).st.locked = w.st.locked := rfl
@[simp] theorem Work.setActivity_status (w : Work) (i : SlotNo) (a : Activity) : (w.setActivity i a).st.status = w.st.status := rfl
@[simp] theorem Work.setActivity_resetReq (w : Work) (i : SlotNo) (a : Activity) : (w.setActivity i a).st.resetReq = w.st.resetReq := rfl
@[simp] theorem Work.setActivity_freeIndex (w : Work) (i : SlotNo) (a : Activity) : (w.setActivity i a).st.freeIndex = w.st.freeIndex := rfl
@[simp] theorem Work.setActivity_pending (w : Work) (i : SlotNo) (a : Activity) : (w.setActivity i a).st.pending = w.st.pending := rfl

/-! ### `Work.modState` and the interfaces -/

@[simp] theorem Work.modState_st (w : Work) (f : State → State) : (w.modState f).st = f w.st := rfl
@[simp] theorem Work.modState_outL (w : Work) (f : State → State) : (w.modState f).outL = w.outL := rfl
@[simp] theorem Work.modState_raised (w : Work) (f : State → State) : (w.modState f).raised = w.raised := rfl
@[simp] theorem Work.modState_runs (w : Work) (f : State → State) : (w.modState f).runs = w.runs := rfl
@[simp] theorem Work.start_st (s : State) : (Work.start s).st = s := rfl
@[simp] theorem Work.start_outL (s : State) : (Work.start s).outL = [] := rfl
@[simp] theorem Work.start_raised (s : State) : (Work.start s).raised = EventSets.empty := rfl
@[simp] theorem Work.start_runs (s : State) : (Work.start s).runs = [] := rfl

/-! ### `Work.freeCall`: what it leaves -/

@[simp] theorem Work.freeCall_outL (w : Work) (h : Handle) : (w.freeCall h).outL = w.outL := by
  unfold Work.freeCall; split <;> rfl
@[simp] theorem Work.freeCall_raised (w : Work) (h : Handle) : (w.freeCall h).raised = w.raised := by
  unfold Work.freeCall; split <;> rfl
@[simp] theorem Work.freeCall_runs (w : Work) (h : Handle) : (w.freeCall h).runs = w.runs := by
  unfold Work.freeCall; split <;> rfl
@[simp] theorem Work.freeCall_pins (w : Work) (h : Handle) : (w.freeCall h).st.pins = w.st.pins := by
  unfold Work.freeCall; split <;> rfl
@[simp] theorem Work.freeCall_powered (w : Work) (h : Handle) : (w.freeCall h).st.powered = w.st.powered := by
  unfold Work.freeCall; split <;> rfl
@[simp] theorem Work.freeCall_node (w : Work) (h : Handle) : (w.freeCall h).st.node = w.st.node := by
  unfold Work.freeCall; split <;> rfl
@[simp] theorem Work.freeCall_top (w : Work) (h : Handle) : (w.freeCall h).st.top = w.st.top := by
  unfold Work.freeCall; split <;> rfl
@[simp] theorem Work.freeCall_retained (w : Work) (h : Handle) : (w.freeCall h).st.retained = w.st.retained := by
  unfold Work.freeCall; split <;> rfl
@[simp] theorem Work.freeCall_retentionOk (w : Work) (h : Handle) : (w.freeCall h).st.retentionOk = w.st.retentionOk := by
  unfold Work.freeCall; split <;> rfl
@[simp] theorem Work.freeCall_portL (w : Work) (h : Handle) : (w.freeCall h).st.portL = w.st.portL := by
  unfold Work.freeCall; split <;> rfl
@[simp] theorem Work.freeCall_portH (w : Work) (h : Handle) : (w.freeCall h).st.portH = w.st.portH := by
  unfold Work.freeCall; split <;> rfl
@[simp] theorem Work.freeCall_floors (w : Work) (h : Handle) : (w.freeCall h).st.floors = w.st.floors := by
  unfold Work.freeCall; split <;> rfl
@[simp] theorem Work.freeCall_maps (w : Work) (h : Handle) : (w.freeCall h).st.maps = w.st.maps := by
  unfold Work.freeCall; split <;> rfl
@[simp] theorem Work.freeCall_mirror (w : Work) (h : Handle) : (w.freeCall h).st.mirror = w.st.mirror := by
  unfold Work.freeCall; split <;> rfl
@[simp] theorem Work.freeCall_crosses (w : Work) (h : Handle) : (w.freeCall h).st.crosses = w.st.crosses := by
  unfold Work.freeCall; split <;> rfl
@[simp] theorem Work.freeCall_waiting (w : Work) (h : Handle) : (w.freeCall h).st.waiting = w.st.waiting := by
  unfold Work.freeCall; split <;> rfl
@[simp] theorem Work.freeCall_activity (w : Work) (h : Handle) : (w.freeCall h).st.activity = w.st.activity := by
  unfold Work.freeCall; split <;> rfl
@[simp] theorem Work.freeCall_latch (w : Work) (h : Handle) : (w.freeCall h).st.latch = w.st.latch := by
  unfold Work.freeCall; split <;> rfl
@[simp] theorem Work.freeCall_lineSource (w : Work) (h : Handle) : (w.freeCall h).st.lineSource = w.st.lineSource := by
  unfold Work.freeCall; split <;> rfl
@[simp] theorem Work.freeCall_locked (w : Work) (h : Handle) : (w.freeCall h).st.locked = w.st.locked := by
  unfold Work.freeCall; split <;> rfl
@[simp] theorem Work.freeCall_status (w : Work) (h : Handle) : (w.freeCall h).st.status = w.st.status := by
  unfold Work.freeCall; split <;> rfl
@[simp] theorem Work.freeCall_resetReq (w : Work) (h : Handle) : (w.freeCall h).st.resetReq = w.st.resetReq := by
  unfold Work.freeCall; split <;> rfl
@[simp] theorem Work.freeCall_freeIndex (w : Work) (h : Handle) : (w.freeCall h).st.freeIndex = w.st.freeIndex := by
  unfold Work.freeCall; split <;> rfl
@[simp] theorem Work.freeCall_pending (w : Work) (h : Handle) : (w.freeCall h).st.pending = w.st.pending := by
  unfold Work.freeCall; split <;> rfl

/-! ### `Work.sendL`: what it leaves -/

@[simp] theorem Work.sendL_raised (w : Work) (c : RiserCell) : (w.sendL c).raised = w.raised := by
  unfold Work.sendL; split <;> rfl
@[simp] theorem Work.sendL_runs (w : Work) (c : RiserCell) : (w.sendL c).runs = w.runs := by
  unfold Work.sendL; split <;> rfl
@[simp] theorem Work.sendL_pins (w : Work) (c : RiserCell) : (w.sendL c).st.pins = w.st.pins := by
  unfold Work.sendL; split <;> rfl
@[simp] theorem Work.sendL_powered (w : Work) (c : RiserCell) : (w.sendL c).st.powered = w.st.powered := by
  unfold Work.sendL; split <;> rfl
@[simp] theorem Work.sendL_node (w : Work) (c : RiserCell) : (w.sendL c).st.node = w.st.node := by
  unfold Work.sendL; split <;> rfl
@[simp] theorem Work.sendL_top (w : Work) (c : RiserCell) : (w.sendL c).st.top = w.st.top := by
  unfold Work.sendL; split <;> rfl
@[simp] theorem Work.sendL_retained (w : Work) (c : RiserCell) : (w.sendL c).st.retained = w.st.retained := by
  unfold Work.sendL; split <;> rfl
@[simp] theorem Work.sendL_retentionOk (w : Work) (c : RiserCell) : (w.sendL c).st.retentionOk = w.st.retentionOk := by
  unfold Work.sendL; split <;> rfl
@[simp] theorem Work.sendL_portL (w : Work) (c : RiserCell) : (w.sendL c).st.portL = w.st.portL := by
  unfold Work.sendL; split <;> rfl
@[simp] theorem Work.sendL_portH (w : Work) (c : RiserCell) : (w.sendL c).st.portH = w.st.portH := by
  unfold Work.sendL; split <;> rfl
@[simp] theorem Work.sendL_floors (w : Work) (c : RiserCell) : (w.sendL c).st.floors = w.st.floors := by
  unfold Work.sendL; split <;> rfl
@[simp] theorem Work.sendL_maps (w : Work) (c : RiserCell) : (w.sendL c).st.maps = w.st.maps := by
  unfold Work.sendL; split <;> rfl
@[simp] theorem Work.sendL_mirror (w : Work) (c : RiserCell) : (w.sendL c).st.mirror = w.st.mirror := by
  unfold Work.sendL; split <;> rfl
@[simp] theorem Work.sendL_crosses (w : Work) (c : RiserCell) : (w.sendL c).st.crosses = w.st.crosses := by
  unfold Work.sendL; split <;> rfl
@[simp] theorem Work.sendL_waiting (w : Work) (c : RiserCell) : (w.sendL c).st.waiting = w.st.waiting := by
  unfold Work.sendL; split <;> rfl
@[simp] theorem Work.sendL_calls (w : Work) (c : RiserCell) : (w.sendL c).st.calls = w.st.calls := by
  unfold Work.sendL; split <;> rfl
@[simp] theorem Work.sendL_freeHandles (w : Work) (c : RiserCell) : (w.sendL c).st.freeHandles = w.st.freeHandles := by
  unfold Work.sendL; split <;> rfl
@[simp] theorem Work.sendL_activity (w : Work) (c : RiserCell) : (w.sendL c).st.activity = w.st.activity := by
  unfold Work.sendL; split <;> rfl
@[simp] theorem Work.sendL_latch (w : Work) (c : RiserCell) : (w.sendL c).st.latch = w.st.latch := by
  unfold Work.sendL; split <;> rfl
@[simp] theorem Work.sendL_lineSource (w : Work) (c : RiserCell) : (w.sendL c).st.lineSource = w.st.lineSource := by
  unfold Work.sendL; split <;> rfl
@[simp] theorem Work.sendL_locked (w : Work) (c : RiserCell) : (w.sendL c).st.locked = w.st.locked := by
  unfold Work.sendL; split <;> rfl
@[simp] theorem Work.sendL_status (w : Work) (c : RiserCell) : (w.sendL c).st.status = w.st.status := by
  unfold Work.sendL; split <;> rfl
@[simp] theorem Work.sendL_resetReq (w : Work) (c : RiserCell) : (w.sendL c).st.resetReq = w.st.resetReq := by
  unfold Work.sendL; split <;> rfl
@[simp] theorem Work.sendL_freeIndex (w : Work) (c : RiserCell) : (w.sendL c).st.freeIndex = w.st.freeIndex := by
  unfold Work.sendL; split <;> rfl
@[simp] theorem Work.sendL_pending (w : Work) (c : RiserCell) : (w.sendL c).st.pending = w.st.pending := by
  unfold Work.sendL; split <;> rfl

/-! ### `Work.sendH`: what it leaves -/

@[simp] theorem Work.sendH_outL (w : Work) (c : RiserCell) : (w.sendH c).outL = w.outL := by
  unfold Work.sendH; split <;> (try split) <;> rfl
@[simp] theorem Work.sendH_runs (w : Work) (c : RiserCell) : (w.sendH c).runs = w.runs := by
  unfold Work.sendH; split <;> (try split) <;> rfl
@[simp] theorem Work.sendH_pins (w : Work) (c : RiserCell) : (w.sendH c).st.pins = w.st.pins := by
  unfold Work.sendH; split <;> (try split) <;> rfl
@[simp] theorem Work.sendH_powered (w : Work) (c : RiserCell) : (w.sendH c).st.powered = w.st.powered := by
  unfold Work.sendH; split <;> (try split) <;> rfl
@[simp] theorem Work.sendH_node (w : Work) (c : RiserCell) : (w.sendH c).st.node = w.st.node := by
  unfold Work.sendH; split <;> (try split) <;> rfl
@[simp] theorem Work.sendH_top (w : Work) (c : RiserCell) : (w.sendH c).st.top = w.st.top := by
  unfold Work.sendH; split <;> (try split) <;> rfl
@[simp] theorem Work.sendH_retained (w : Work) (c : RiserCell) : (w.sendH c).st.retained = w.st.retained := by
  unfold Work.sendH; split <;> (try split) <;> rfl
@[simp] theorem Work.sendH_retentionOk (w : Work) (c : RiserCell) : (w.sendH c).st.retentionOk = w.st.retentionOk := by
  unfold Work.sendH; split <;> (try split) <;> rfl
@[simp] theorem Work.sendH_portL (w : Work) (c : RiserCell) : (w.sendH c).st.portL = w.st.portL := by
  unfold Work.sendH; split <;> (try split) <;> rfl
@[simp] theorem Work.sendH_floors (w : Work) (c : RiserCell) : (w.sendH c).st.floors = w.st.floors := by
  unfold Work.sendH; split <;> (try split) <;> rfl
@[simp] theorem Work.sendH_maps (w : Work) (c : RiserCell) : (w.sendH c).st.maps = w.st.maps := by
  unfold Work.sendH; split <;> (try split) <;> rfl
@[simp] theorem Work.sendH_mirror (w : Work) (c : RiserCell) : (w.sendH c).st.mirror = w.st.mirror := by
  unfold Work.sendH; split <;> (try split) <;> rfl
@[simp] theorem Work.sendH_crosses (w : Work) (c : RiserCell) : (w.sendH c).st.crosses = w.st.crosses := by
  unfold Work.sendH; split <;> (try split) <;> rfl
@[simp] theorem Work.sendH_waiting (w : Work) (c : RiserCell) : (w.sendH c).st.waiting = w.st.waiting := by
  unfold Work.sendH; split <;> (try split) <;> rfl
@[simp] theorem Work.sendH_calls (w : Work) (c : RiserCell) : (w.sendH c).st.calls = w.st.calls := by
  unfold Work.sendH; split <;> (try split) <;> rfl
@[simp] theorem Work.sendH_freeHandles (w : Work) (c : RiserCell) : (w.sendH c).st.freeHandles = w.st.freeHandles := by
  unfold Work.sendH; split <;> (try split) <;> rfl
@[simp] theorem Work.sendH_activity (w : Work) (c : RiserCell) : (w.sendH c).st.activity = w.st.activity := by
  unfold Work.sendH; split <;> (try split) <;> rfl
@[simp] theorem Work.sendH_latch (w : Work) (c : RiserCell) : (w.sendH c).st.latch = w.st.latch := by
  unfold Work.sendH; split <;> (try split) <;> rfl
@[simp] theorem Work.sendH_lineSource (w : Work) (c : RiserCell) : (w.sendH c).st.lineSource = w.st.lineSource := by
  unfold Work.sendH; split <;> (try split) <;> rfl
@[simp] theorem Work.sendH_locked (w : Work) (c : RiserCell) : (w.sendH c).st.locked = w.st.locked := by
  unfold Work.sendH; split <;> (try split) <;> rfl
@[simp] theorem Work.sendH_status (w : Work) (c : RiserCell) : (w.sendH c).st.status = w.st.status := by
  unfold Work.sendH; split <;> (try split) <;> rfl
@[simp] theorem Work.sendH_resetReq (w : Work) (c : RiserCell) : (w.sendH c).st.resetReq = w.st.resetReq := by
  unfold Work.sendH; split <;> (try split) <;> rfl
@[simp] theorem Work.sendH_freeIndex (w : Work) (c : RiserCell) : (w.sendH c).st.freeIndex = w.st.freeIndex := by
  unfold Work.sendH; split <;> (try split) <;> rfl
@[simp] theorem Work.sendH_pending (w : Work) (c : RiserCell) : (w.sendH c).st.pending = w.st.pending := by
  unfold Work.sendH; split <;> (try split) <;> rfl

/-! ### `Work.sendF`: what it leaves -/

@[simp] theorem Work.sendF_outL (w : Work) (k : Floor) (c : FloorCell) : (w.sendF k c).outL = w.outL := by
  unfold Work.sendF; split <;> (try split) <;> rfl
@[simp] theorem Work.sendF_runs (w : Work) (k : Floor) (c : FloorCell) : (w.sendF k c).runs = w.runs := by
  unfold Work.sendF; split <;> (try split) <;> rfl
@[simp] theorem Work.sendF_pins (w : Work) (k : Floor) (c : FloorCell) : (w.sendF k c).st.pins = w.st.pins := by
  unfold Work.sendF; split <;> (try split) <;> rfl
@[simp] theorem Work.sendF_powered (w : Work) (k : Floor) (c : FloorCell) : (w.sendF k c).st.powered = w.st.powered := by
  unfold Work.sendF; split <;> (try split) <;> rfl
@[simp] theorem Work.sendF_node (w : Work) (k : Floor) (c : FloorCell) : (w.sendF k c).st.node = w.st.node := by
  unfold Work.sendF; split <;> (try split) <;> rfl
@[simp] theorem Work.sendF_top (w : Work) (k : Floor) (c : FloorCell) : (w.sendF k c).st.top = w.st.top := by
  unfold Work.sendF; split <;> (try split) <;> rfl
@[simp] theorem Work.sendF_retained (w : Work) (k : Floor) (c : FloorCell) : (w.sendF k c).st.retained = w.st.retained := by
  unfold Work.sendF; split <;> (try split) <;> rfl
@[simp] theorem Work.sendF_retentionOk (w : Work) (k : Floor) (c : FloorCell) : (w.sendF k c).st.retentionOk = w.st.retentionOk := by
  unfold Work.sendF; split <;> (try split) <;> rfl
@[simp] theorem Work.sendF_portL (w : Work) (k : Floor) (c : FloorCell) : (w.sendF k c).st.portL = w.st.portL := by
  unfold Work.sendF; split <;> (try split) <;> rfl
@[simp] theorem Work.sendF_portH (w : Work) (k : Floor) (c : FloorCell) : (w.sendF k c).st.portH = w.st.portH := by
  unfold Work.sendF; split <;> (try split) <;> rfl
@[simp] theorem Work.sendF_maps (w : Work) (k : Floor) (c : FloorCell) : (w.sendF k c).st.maps = w.st.maps := by
  unfold Work.sendF; split <;> (try split) <;> rfl
@[simp] theorem Work.sendF_mirror (w : Work) (k : Floor) (c : FloorCell) : (w.sendF k c).st.mirror = w.st.mirror := by
  unfold Work.sendF; split <;> (try split) <;> rfl
@[simp] theorem Work.sendF_crosses (w : Work) (k : Floor) (c : FloorCell) : (w.sendF k c).st.crosses = w.st.crosses := by
  unfold Work.sendF; split <;> (try split) <;> rfl
@[simp] theorem Work.sendF_waiting (w : Work) (k : Floor) (c : FloorCell) : (w.sendF k c).st.waiting = w.st.waiting := by
  unfold Work.sendF; split <;> (try split) <;> rfl
@[simp] theorem Work.sendF_calls (w : Work) (k : Floor) (c : FloorCell) : (w.sendF k c).st.calls = w.st.calls := by
  unfold Work.sendF; split <;> (try split) <;> rfl
@[simp] theorem Work.sendF_freeHandles (w : Work) (k : Floor) (c : FloorCell) : (w.sendF k c).st.freeHandles = w.st.freeHandles := by
  unfold Work.sendF; split <;> (try split) <;> rfl
@[simp] theorem Work.sendF_activity (w : Work) (k : Floor) (c : FloorCell) : (w.sendF k c).st.activity = w.st.activity := by
  unfold Work.sendF; split <;> (try split) <;> rfl
@[simp] theorem Work.sendF_latch (w : Work) (k : Floor) (c : FloorCell) : (w.sendF k c).st.latch = w.st.latch := by
  unfold Work.sendF; split <;> (try split) <;> rfl
@[simp] theorem Work.sendF_lineSource (w : Work) (k : Floor) (c : FloorCell) : (w.sendF k c).st.lineSource = w.st.lineSource := by
  unfold Work.sendF; split <;> (try split) <;> rfl
@[simp] theorem Work.sendF_locked (w : Work) (k : Floor) (c : FloorCell) : (w.sendF k c).st.locked = w.st.locked := by
  unfold Work.sendF; split <;> (try split) <;> rfl
@[simp] theorem Work.sendF_status (w : Work) (k : Floor) (c : FloorCell) : (w.sendF k c).st.status = w.st.status := by
  unfold Work.sendF; split <;> (try split) <;> rfl
@[simp] theorem Work.sendF_resetReq (w : Work) (k : Floor) (c : FloorCell) : (w.sendF k c).st.resetReq = w.st.resetReq := by
  unfold Work.sendF; split <;> (try split) <;> rfl
@[simp] theorem Work.sendF_freeIndex (w : Work) (k : Floor) (c : FloorCell) : (w.sendF k c).st.freeIndex = w.st.freeIndex := by
  unfold Work.sendF; split <;> (try split) <;> rfl
@[simp] theorem Work.sendF_pending (w : Work) (k : Floor) (c : FloorCell) : (w.sendF k c).st.pending = w.st.pending := by
  unfold Work.sendF; split <;> (try split) <;> rfl

end Sys2Proof.Machine
end

