-- ==== Sys2Proof/Laws/Events.lean ====
section
/-! SUPPORT. The end of an event: what the arbiter's runs, the event bits and the notices come to (R72, R182, R10). -/

namespace Sys2Proof.Machine

/-! ## Event bits -/

@[simp] theorem EventSets.union_empty (e : EventSets) : e.union EventSets.empty = e := by
  cases e; simp [EventSets.union, EventSets.empty]

@[simp] theorem EventSets.empty_get (g : Group) : EventSets.empty.get g = 0 := by cases g <;> rfl

theorem EventSets.get_union (e f : EventSets) (g : Group) : (e.union f).get g = e.get g ||| f.get g := by
  cases g <;> rfl

theorem EventSets.get_set (e : EventSets) (g g' : Group) (v : Word) :
    (e.set g v).get g' = if g' = g then v else e.get g' := by
  cases g <;> cases g' <;> simp [EventSets.set, EventSets.get]

theorem EventSets.get_add (e : EventSets) (x : Event) (g : Group) :
    (e.add x).get g = if g = x.group then e.get g ||| x.mask else e.get g := by
  rw [EventSets.add, EventSets.get_set]; split <;> simp_all

/-- The sets joined with the bit of one event are that event's bit set. -/
@[simp] theorem EventSets.union_add_empty (e : EventSets) (x : Event) :
    e.union (EventSets.empty.add x) = e.add x := by
  cases e; cases x <;> simp [EventSets.union, EventSets.empty, EventSets.add, EventSets.set, EventSets.get, Event.group]

@[simp] theorem State.notices_empty (s : State) (f : EventSets) : s.notices EventSets.empty f = [] := by
  simp [State.notices, allGroups]

/-- An event gives at most one notice for each group (R182). -/
theorem State.notices_length (s : State) (e f : EventSets) : (s.notices e f).length ≤ 3 := by
  simp only [State.notices, List.length_map]
  exact (List.length_filter_le _ _).trans (by simp [allGroups])

/-! ## The arbiter's runs -/

/-- A walk over entries of other ports grants nothing (R73). -/
theorem Work.walk_other {w : Work} {p : Owned} {l : List WaitEntry} (h : ∀ x ∈ l, x.port ≠ p) : w.walk p l = w := by
  induction l with
  | nil => rfl
  | cons x rest ih =>
    simp only [Work.walk, if_neg (h x (by simp))]
    exact ih fun y hy => h y (by simp [hy])

theorem Work.runFor_other {w : Work} {p : Owned} (h : p ∈ w.runs → ∀ x ∈ w.st.waiting, x.port ≠ p) :
    w.runFor p = w := by
  unfold Work.runFor
  split
  · exact Work.walk_other (h (by simpa using ‹w.runs.contains p = true›))
  · rfl

/-- The arbiter grants nothing where no entry waits for a port that it runs for (R72, R73). -/
theorem Work.runArbiter_other {w : Work} (h : ∀ p ∈ w.runs, ∀ x ∈ w.st.waiting, x.port ≠ p) : w.runArbiter = w := by
  have key : ∀ l : List Owned, l.foldl Work.runFor w = w := by
    intro l
    induction l with
    | nil => rfl
    | cons p l ih => rw [List.foldl_cons, Work.runFor_other (h p)]; exact ih
  exact key allOwned

@[simp] theorem Work.runArbiter_noRuns {w : Work} (h : w.runs = []) : w.runArbiter = w :=
  Work.runArbiter_other (by simp [h])

/-! ## Flush -/

/-- An event that sets no bit and sends nothing down port L ends in the state it has made. -/
theorem Work.flush_quiet {w : Work} (hr : w.raised = EventSets.empty) (ho : w.outL = []) : w.flush = w.st := by
  unfold Work.flush
  split <;> simp [State.raisedAtEnd, State.placeL, hr, ho]

/-- The cells of an event that sets no bit join port L's queue, where it is UP and has room (R10, R14). -/
theorem Work.flush_cells {w : Work} (hr : w.raised = EventSets.empty) (hu : w.st.riserUp .L = true)
    (hroom : w.st.portL.queue.length + w.outL.length ≤ 16) :
    w.flush = { w.st with portL := { w.st.portL with queue := w.st.portL.queue ++ w.outL } } := by
  have hn : ¬ (16 - w.st.portL.queue.length < w.outL.length) := by omega
  have ht : w.outL.take (16 - w.st.portL.queue.length) = w.outL := List.take_of_length_le (by omega)
  simp [Work.flush, hu, State.raisedAtEnd, hr, State.placeL, Config.queueDepth, hn, ht]

/-- The end of an event of which port L is UP, its notices and cells all finding room (R182, R10). -/
theorem Work.flush_room {w : Work} (hu : w.st.riserUp .L = true)
    (hroom : w.st.portL.queue.length + (w.st.notices w.raised w.raised).length + w.outL.length ≤ 16) :
    w.flush = { w.st with
      status := w.st.status.union w.raised
      portL := { w.st.portL with queue := w.st.portL.queue ++ (w.st.notices w.raised w.raised ++ w.outL) } } := by
  have hd : Config.queueDepth = 16 := rfl
  have hn : ¬ (Config.queueDepth - w.st.portL.queue.length <
      (w.st.notices w.raised w.raised).length + w.outL.length) := by
    omega
  have ht : (w.st.notices w.raised w.raised ++ w.outL).take (Config.queueDepth - w.st.portL.queue.length) =
      w.st.notices w.raised w.raised ++ w.outL := List.take_of_length_le (by rw [List.length_append]; omega)
  simp only [Work.flush, hu, State.raisedAtEnd, State.placeL, if_true, if_neg hn, ht]

/-- The end of an event while port L is DOWN: its bits are set and nothing is sent (R10, R182). -/
theorem Work.flush_down {w : Work} (hu : w.st.riserUp .L = false) :
    w.flush = { w.st with status := w.st.status.union w.raised } := by
  simp [Work.flush, hu]

/-- An event that does nothing ends as it began. -/
@[simp] theorem Work.finish_start (s : State) : (Work.start s).finish = s := by
  rw [Work.finish, Work.runArbiter_noRuns (by simp), Work.flush_quiet (by simp) (by simp), Work.start_st]

/-! ## Commands -/

/-- A command of the unpowered part changes nothing. -/
theorem event_unpowered {s : State} {f : Work → Work} (h : s.powered = false) : event s f = .next s := by
  simp [event, h]

theorem event_powered {s : State} {f : Work → Work} (h : s.powered = true) :
    event s f = .next (f (Work.start s)).finish := by
  simp [event, h]

/-- A riser port that receives cells is UP. -/
theorem State.receives_up {s : State} {p : Riser} (h : s.receives p = true) : s.riserUp p = true := by
  cases p <;> simp_all [State.receives, State.riserUp]

/-- A cell on a riser port that is not UP, or not aligned, is not received (R8, R11). -/
theorem onRiser_deaf {s : State} {p : Riser} {f : Work → Work} (h : s.receives p = false) :
    onRiser s p f = .next s := by
  simp [onRiser, event, h]

/-- The event of a cell that is received. -/
theorem onRiser_receives {s : State} {p : Riser} {f : Work → Work} (hp : s.powered = true) (h : s.receives p = true) :
    onRiser s p f = .next (f (Work.start s)).finish := by
  simp [onRiser, event, h, hp]

/-- A cell on a floor port that is not UP is not received (R8). -/
theorem onFloor_down {s : State} {k : Floor} {f : Work → Work} (h : s.floorUp k = false) : onFloor s k f = .next s := by
  simp [onFloor, event, h]

end Sys2Proof.Machine
end

