-- ==== Sys2Proof/Laws/Moves.lean ====
section
/-! SUPPORT. Everything that the operations over calls can do: each is a sequence of the named changes that `Prim`
lists, with what each asks for. A property that every one of these changes keeps is kept by every operation. -/

namespace Sys2Proof.Machine

/-- One named change of the state by an operation over calls. -/
inductive Prim : Work → Work → Prop
  | raise (w : Work) (e : Event) : Prim w (w.raise e)
  | run (w : Work) (p : Owned) : Prim w (w.run p)
  | modCall (w : Work) (h : Handle) (f : CallRecord → CallRecord) : Prim w (w.modCall h f)
  | freeCall (w : Work) (h : Handle) : Prim w (w.freeCall h)
  | makeCall (w : Work) (h : Handle) (rest : List Handle) (r : CallRecord) (hf : w.st.freeHandles = h :: rest) :
      Prim w (w.makeCall h rest r)
  | setMap (w : Work) (p : Owned) (m : LaneMap) (hm : m.holders.length = (w.st.map p).holders.length) :
      Prim w (w.setMap p m)
  | setMirror (w : Work) (l : LLane) (x : Option Handle) : Prim w (w.setMirror l x)
  | setCrosses (w : Work) (l : List Cross) : Prim w (w.setCrosses l)
  | setActivity (w : Work) (i : SlotNo) (a : Activity) : Prim w (w.setActivity i a)
  | setWaiting (w : Work) (l : List WaitEntry) (hl : l.length ≤ 16 ∨ l.length ≤ w.st.waiting.length) :
      Prim w (w.setWaiting l)
  | sendL (w : Work) (c : RiserCell) : Prim w (w.sendL c)
  | sendH (w : Work) (c : RiserCell) : Prim w (w.sendH c)
  | sendF (w : Work) (k : Floor) (c : FloorCell) : Prim w (w.sendF k c)
  | emptyMirrors (w : Work) : Prim w w.emptyWholeMirror

/-- A sequence of named changes. -/
abbrev Moves : Work → Work → Prop := Relation.ReflTransGen Prim

/-- A property that every named change keeps is kept by a sequence of them. -/
theorem Moves.keeps {P : Work → Prop} (hP : ∀ w w', Prim w w' → P w → P w') {w w' : Work} (h : Moves w w')
    (hw : P w) : P w' := by
  induction h with
  | refl => exact hw
  | tail _ hs ih => exact hP _ _ hs ih

namespace Moves

variable {a w : Work}

theorem rfl' : Moves a a := .refl
theorem raise (hm : Moves a w) (e : Event) : Moves a (w.raise e) := hm.tail (.raise ..)
theorem run (hm : Moves a w) (p : Owned) : Moves a (w.run p) := hm.tail (.run ..)
theorem modCall (hm : Moves a w) (h : Handle) (f : CallRecord → CallRecord) : Moves a (w.modCall h f) :=
  hm.tail (.modCall ..)
theorem freeCall (hm : Moves a w) (h : Handle) : Moves a (w.freeCall h) := hm.tail (.freeCall ..)
theorem setMirror (hm : Moves a w) (l : LLane) (x : Option Handle) : Moves a (w.setMirror l x) :=
  hm.tail (.setMirror ..)
theorem setCrosses (hm : Moves a w) (l : List Cross) : Moves a (w.setCrosses l) := hm.tail (.setCrosses ..)
theorem setActivity (hm : Moves a w) (i : SlotNo) (x : Activity) : Moves a (w.setActivity i x) :=
  hm.tail (.setActivity ..)
theorem sendL (hm : Moves a w) (c : RiserCell) : Moves a (w.sendL c) := hm.tail (.sendL ..)
theorem sendH (hm : Moves a w) (c : RiserCell) : Moves a (w.sendH c) := hm.tail (.sendH ..)
theorem sendF (hm : Moves a w) (k : Floor) (c : FloorCell) : Moves a (w.sendF k c) := hm.tail (.sendF ..)
theorem emptyWholeMirror (hm : Moves a w) : Moves a w.emptyWholeMirror := hm.tail (.emptyMirrors _)
theorem sendRiser (hm : Moves a w) (p : Riser) (c : RiserCell) : Moves a (w.sendRiser p c) := by
  cases p <;> [exact hm.sendL c; exact hm.sendH c]

/-- The continuation of `withCall` may use that the record is live. -/
theorem withCall {h : Handle} {k : CallRecord → Work} (hk : ∀ r, w.call? h = some r → Moves a (k r))
    (hm : Moves a w) : Moves a (w.withCall h k) := by
  unfold Work.withCall; split
  · exact hk _ ‹_›
  · exact hm

theorem setMap (hm : Moves a w) (p : Owned) (hs : List (Option Handle)) (o : List Nat)
    (hl : hs.length = (w.st.map p).holders.length) : Moves a (w.setMap p { holders := hs, order := o }) :=
  hm.tail (.setMap _ _ _ hl)

/-! ## Cells -/

theorem progressDown (hm : Moves a w) (r : CallRecord) (c : Progress) : Moves a (w.progressDown r c) := by
  unfold Work.progressDown; split <;> apply_rules [sendL]
theorem progressUp (hm : Moves a w) (r : CallRecord) (c : Progress) (l : Option Nat) :
    Moves a (w.progressUp r c l) := by
  unfold Work.progressUp; split <;> apply_rules [sendH]
theorem connectToward (hm : Moves a w) (r : CallRecord) (p : Riser) : Moves a (w.connectToward r p) := by
  unfold Work.connectToward; split <;> apply_rules [sendRiser]
theorem statusTo (hm : Moves a w) (h : Handle) (r : CallRecord) (c : Status) (v : Byte) (l : Option Nat) :
    Moves a (w.statusTo h r c v l) := by
  unfold Work.statusTo; split <;> (try split) <;> apply_rules [sendF]

/-! ## Lanes and mirror -/

theorem takeLane (hm : Moves a w) (h : Handle) (p : Owned) (i : Nat) : Moves a (w.takeLane h p i) := by
  unfold Work.takeLane
  exact (hm.setMap _ _ _ (by simp)).modCall _ _
theorem dropOwnedCross (hm : Moves a w) (p : Owned) (i : Nat) : Moves a (w.dropOwnedCross p i) := hm.setCrosses _
theorem dropLCross (hm : Moves a w) (l : LLane) : Moves a (w.dropLCross l) := hm.setCrosses _
theorem freeLane (hm : Moves a w) (h : Handle) : Moves a (w.freeLane h) := by
  unfold Work.freeLane
  refine withCall (fun r _ => ?_) hm
  split
  · exact (((hm.setMap _ _ _ (by simp)).dropOwnedCross _ _).modCall _ _).run _
  · exact hm
theorem fillMirror (hm : Moves a w) (h : Handle) (l : LLane) : Moves a (w.fillMirror h l) :=
  (hm.setMirror _ _).modCall _ _
theorem emptyMirror (hm : Moves a w) (h : Handle) : Moves a (w.emptyMirror h) := by
  unfold Work.emptyMirror
  refine withCall (fun r _ => ?_) hm
  split
  · exact ((hm.setMirror _ _).dropLCross _).modCall _ _
  · exact hm
theorem crossConnect (hm : Moves a w) (h : Handle) : Moves a (w.crossConnect h) := by
  unfold Work.crossConnect
  refine withCall (fun r _ => ?_) hm
  split <;> apply_rules [setCrosses]

/-! ## The end of a call -/

theorem leaveWaiting (hm : Moves a w) (h : Handle) : Moves a (w.leaveWaiting h) :=
  hm.tail (.setWaiting _ _ (.inr (List.length_filter_le _ _)))
theorem cancelOffers (hm : Moves a w) (h : Handle) (k : Floor) (l : List OfferEntry) :
    Moves a (w.cancelOffers h k l) := by
  induction l generalizing w with
  | nil => exact hm
  | cons e es ih =>
    unfold Work.cancelOffers; split
    · exact ih hm
    · exact ih (hm.sendF _ _)
theorem idleActivity (hm : Moves a w) (h : Handle) (i : SlotNo) : Moves a (w.idleActivity h i) := by
  unfold Work.idleActivity; split <;> apply_rules [setActivity]
theorem tellFloor (hm : Moves a w) (h : Handle) (r : CallRecord) (c : Cause) : Moves a (w.tellFloor h r c) := by
  unfold Work.tellFloor; split
  · dsimp only; split <;> apply_rules [idleActivity, statusTo, cancelOffers]
  · exact hm
theorem releaseSides (hm : Moves a w) (r : CallRecord) (c : Cause) : Moves a (w.releaseSides r c) := by
  unfold Work.releaseSides
  cases r.openKey .L <;> cases r.openKey .H <;> apply_rules [sendL, sendH]
theorem clearOrFree (hm : Moves a w) (h : Handle) : Moves a (w.clearOrFree h) := by
  unfold Work.clearOrFree
  refine withCall (fun r _ => ?_) (hm.modCall _ _)
  split <;> apply_rules [modCall, freeCall]
theorem release (hm : Moves a w) (h : Handle) (c : Cause) : Moves a (w.release h c) := by
  unfold Work.release
  exact withCall (fun r _ => ((((((hm.modCall _ _).leaveWaiting _).freeLane _).emptyMirror _).releaseSides _ _).tellFloor
    _ _ _).clearOrFree _) hm
theorem closeCleared (hm : Moves a w) (h : Handle) (p : Riser) : Moves a (w.closeCleared h p) := by
  unfold Work.closeCleared
  refine withCall (fun r _ => ?_) (hm.modCall _ _)
  split <;> apply_rules [modCall, freeCall]

/-! ## Going on -/

theorem forwardSetup (hm : Moves a w) (h : Handle) : Moves a (w.forwardSetup h) :=
  withCall (fun _ _ => (hm.modCall _ _).sendH _) hm
theorem setupDown (hm : Moves a w) (h : Handle) : Moves a (w.setupDown h) :=
  withCall (fun _ _ => (hm.modCall _ _).sendL _) hm
theorem grantUpper (hm : Moves a w) (h : Handle) : Moves a (w.grantUpper h) := by
  unfold Work.grantUpper
  refine withCall (fun r _ => ?_) hm
  cases r.openKey .H <;> apply_rules [setupDown, sendH]
theorem startOffers (hm : Moves a w) (h : Handle) : Moves a (w.startOffers h) := by
  unfold Work.startOffers
  refine withCall (fun r _ => ?_) hm
  split <;> apply_rules [sendF, setActivity, modCall]
theorem connectFlat (hm : Moves a w) (h : Handle) (x : Addr) : Moves a (w.connectFlat h x) := by
  unfold Work.connectFlat
  refine withCall (fun r _ => ?_) hm
  split <;> apply_rules [setActivity, connectToward, crossConnect, cancelOffers, sendF, modCall]
theorem offerAlone (hm : Moves a w) (h : Handle) (x : Addr) : Moves a (w.offerAlone h x) := by
  unfold Work.offerAlone
  refine withCall (fun r _ => ?_) hm
  split <;> apply_rules [sendF]
theorem modEntry (hm : Moves a w) (h : Handle) (i : Nat) (g : OfferEntry → OfferEntry) : Moves a (w.modEntry h i g) :=
  hm.modCall _ _
theorem followOn (hm : Moves a w) (h : Handle) : Moves a (w.followOn h) := by
  unfold Work.followOn
  refine withCall (fun r _ => ?_) hm
  split
  · split
    · split <;> apply_rules [offerAlone, modCall]
    · exact hm
  · exact hm
theorem countEntries (hm : Moves a w) (h : Handle) : Moves a (w.countEntries h) := by
  unfold Work.countEntries
  refine withCall (fun r _ => ?_) hm
  split
  · split <;> apply_rules [release]
  · exact hm
theorem windowEnds (hm : Moves a w) (h : Handle) (i : Nat) (e : OfferEntry) : Moves a (w.windowEnds h i e) := by
  unfold Work.windowEnds
  split <;> apply_rules [offerAlone, countEntries, followOn, raise, modEntry]

end Moves

end Sys2Proof.Machine
end

