-- ==== Sys2Proof/Laws/Waiting.lean ====
section
/-! SUPPORT. What happens to the wait list: the end of a call takes the record's entry out and touches no other entry
(R70, R71); a record that joins adds one entry (R64). -/

namespace Sys2Proof.Machine

theorem Work.withCall_waiting {w : Work} {h : Handle} {k : CallRecord → Work} {l : List WaitEntry}
    (hw : w.st.waiting = l) (hk : ∀ r, w.call? h = some r → (k r).st.waiting = l) : (w.withCall h k).st.waiting = l := by
  unfold Work.withCall; split
  · exact hk _ ‹_›
  · exact hw

@[simp] theorem Work.statusTo_waiting (w : Work) (h : Handle) (r : CallRecord) (c : Status) (v : Byte)
    (l : Option Nat) : (w.statusTo h r c v l).st.waiting = w.st.waiting := by
  unfold Work.statusTo; split <;> (try split) <;> simp

@[simp] theorem Work.cancelOffers_waiting (w : Work) (h : Handle) (k : Floor) (l : List OfferEntry) :
    (w.cancelOffers h k l).st.waiting = w.st.waiting := by
  induction l generalizing w with
  | nil => rfl
  | cons e es ih => unfold Work.cancelOffers; split <;> simp [ih]

@[simp] theorem Work.dropOwnedCross_waiting (w : Work) (p : Owned) (i : Nat) :
    (w.dropOwnedCross p i).st.waiting = w.st.waiting := rfl

@[simp] theorem Work.dropLCross_waiting (w : Work) (l : LLane) : (w.dropLCross l).st.waiting = w.st.waiting := rfl

@[simp] theorem Work.freeLane_waiting (w : Work) (h : Handle) : (w.freeLane h).st.waiting = w.st.waiting :=
  withCall_waiting rfl fun r _ => by split <;> simp

@[simp] theorem Work.emptyMirror_waiting (w : Work) (h : Handle) : (w.emptyMirror h).st.waiting = w.st.waiting :=
  withCall_waiting rfl fun r _ => by split <;> simp

@[simp] theorem Work.releaseSides_waiting (w : Work) (r : CallRecord) (c : Cause) :
    (w.releaseSides r c).st.waiting = w.st.waiting := by
  unfold Work.releaseSides
  cases r.openKey .L <;> cases r.openKey .H <;> simp

@[simp] theorem Work.idleActivity_waiting (w : Work) (h : Handle) (i : SlotNo) :
    (w.idleActivity h i).st.waiting = w.st.waiting := by
  unfold Work.idleActivity; split <;> simp

@[simp] theorem Work.tellFloor_waiting (w : Work) (h : Handle) (r : CallRecord) (c : Cause) :
    (w.tellFloor h r c).st.waiting = w.st.waiting := by
  unfold Work.tellFloor; split
  · dsimp only; split <;> simp
  · rfl

@[simp] theorem Work.clearOrFree_waiting (w : Work) (h : Handle) : (w.clearOrFree h).st.waiting = w.st.waiting :=
  withCall_waiting (by simp) fun r _ => by split <;> simp

@[simp] theorem Work.leaveWaiting_waiting (w : Work) (h : Handle) :
    (w.leaveWaiting h).st.waiting = w.st.waiting.filter fun x => !(x.handle == h) := rfl

/-- The end of a live record's call takes its entry, if it has one, out of the wait list (R70, R71). -/
theorem Work.release_waiting {w : Work} {h : Handle} {r : CallRecord} (c : Cause) (hr : w.call? h = some r) :
    (w.release h c).st.waiting = w.st.waiting.filter fun x => !(x.handle == h) := by
  simp [Work.release, Work.withCall, hr]

theorem Work.release_waiting_le (w : Work) (h : Handle) (c : Cause) :
    (w.release h c).st.waiting.length ≤ w.st.waiting.length := by
  cases hr : w.call? h with
  | none => simp [Work.release, Work.withCall, hr]
  | some r => rw [Work.release_waiting c hr]; exact List.length_filter_le _ _

/-- A placed entry makes the list one longer (R64). -/
@[simp] theorem State.placed_length (s : State) (x : WaitEntry) (e : Nat) (l : List WaitEntry) :
    (s.placed x e l).length = l.length + 1 := by
  have := congrArg List.length (List.takeWhile_append_dropWhile (p := fun y => decide (e ≤ s.entryPriority y)) (l := l))
  simp only [List.length_append] at this
  simp only [State.placed, List.length_append, List.length_cons]
  omega

theorem Work.joinWaiting_length (w : Work) (h : Handle) (p : Owned) (cls : Class) (x : CallState) :
    (w.joinWaiting h p cls x).st.waiting.length = w.st.waiting.length + 1 := by
  simp [Work.joinWaiting]

/-- The last entry of a list that takes it out is one shorter, or more. -/
theorem leave_tail {l : List WaitEntry} {t : WaitEntry} (ht : l.getLast? = some t) :
    (l.filter fun x => !(x.handle == t.handle)).length < l.length := by
  apply List.length_filter_lt_length_iff_exists.2
  exact ⟨t, List.mem_of_getLast? ht, by simp⟩

end Sys2Proof.Machine
end

