-- ==== Sys2Proof/Laws/MovesCalls.lean ====
section
/-! SUPPORT. The arbiter, the lane request and the commands over calls, as sequences of the named changes (`Moves`). -/

namespace Sys2Proof.Machine.Moves

variable {a w : Work}

/-! ## The arbiter -/

theorem joinWaiting (hm : Moves a w) (h : Handle) (p : Owned) (cls : Class) (x : CallState)
    (hl : w.st.waiting.length < 16) : Moves a (w.joinWaiting h p cls x) := by
  unfold Work.joinWaiting
  exact modCall (hm.tail (.setWaiting _ _ (.inl (by rw [State.placed_length]; omega)))) _ _

theorem tellQueued (hm : Moves a w) (h : Handle) (r : CallRecord) : Moves a (w.tellQueued h r) := by
  unfold Work.tellQueued
  split <;> apply_rules [progressDown, progressUp, statusTo]

/-- Joining a list that is not full, or taking the place of its tail, or neither (R65, R66). -/
theorem queueCall (hm : Moves a w) (h : Handle) (p : Owned) (r : CallRecord) (hl : w.st.waiting.length ≤ 16) :
    Moves a (w.queueCall h p r).1 := by
  have hd : Config.waitDepth = 16 := rfl
  unfold Work.queueCall
  split
  · split
    · next tail ht =>
      split
      · refine (joinWaiting (((hm.leaveWaiting _).release _ _).raise _) _ _ _ _ ?_).tellQueued _ _
        have h1 := Work.release_waiting_le (w.leaveWaiting tail.handle) tail.handle .congestion
        have h2 := leave_tail ht
        rw [Work.leaveWaiting_waiting] at h1
        simp only [Work.raise_st]
        omega
      · exact hm.raise _
    · exact hm.raise _
  · next hf =>
    refine (hm.joinWaiting _ _ _ _ ?_).tellQueued _ _
    simp only [State.waitFull, decide_eq_true_eq] at hf
    omega

theorem endVictim (hm : Moves a w) (v : Handle) (p : Owned) : Moves a (w.endVictim v p) := by
  unfold Work.endVictim
  refine withCall (fun r _ => ?_) hm
  split
  · next hc =>
    have hl : w.st.waiting.length < 16 := by
      have := hc.2
      simp only [State.waitFull, decide_eq_true_eq] at this
      have hd : Config.waitDepth = 16 := rfl
      omega
    cases p <;> dsimp only <;> split <;> apply_rules [progressDown, progressUp, statusTo, joinWaiting]
  · exact hm.release _ _

theorem preempt (hm : Moves a w) (h : Handle) (p : Owned) (i : Nat) (v : Handle) : Moves a (w.preempt h p i v) :=
  ((((hm.takeLane _ _ _).dropOwnedCross _ _).raise _).modCall _ _).endVictim _ _

theorem requestLane (hm : Moves a w) (h : Handle) (p : Owned) (r : CallRecord) (hl : w.st.waiting.length ≤ 16) :
    Moves a (w.requestLane h p r).1 := by
  unfold Work.requestLane
  split
  · split
    · exact hm.takeLane _ _ _
    · split
      · exact hm.preempt _ _ _ _
      · exact hm.queueCall _ _ _ hl
  · exact hm

theorem goOn (hm : Moves a w) (h : Handle) (r : CallRecord) : Moves a (w.goOn h r) := by
  unfold Work.goOn
  split
  · split
    · split <;> apply_rules [connectFlat, startOffers]
    · exact hm.startOffers _
  all_goals apply_rules [forwardSetup, grantUpper, setupDown]

theorem resume (hm : Moves a w) (h : Handle) (r : CallRecord) (p : Owned) (i : Nat) : Moves a (w.resume h r p i) := by
  unfold Work.resume
  cases r.heldBelow <;> cases p <;> dsimp only <;>
    simp only [Bool.false_eq_true, if_true, if_false] <;>
    apply_rules [progressDown, progressUp, statusTo, crossConnect, modCall]

theorem grant (hm : Moves a w) (h : Handle) (p : Owned) (i : Nat) : Moves a (w.grant h p i) := by
  unfold Work.grant
  refine withCall (fun r _ => ?_) hm
  dsimp only
  split <;> apply_rules [Moves.resume, goOn, leaveWaiting, takeLane]

theorem walk (hm : Moves a w) (p : Owned) (l : List WaitEntry) : Moves a (w.walk p l) := by
  induction l generalizing w with
  | nil => exact hm
  | cons x rest ih =>
    unfold Work.walk
    split
    · split
      · exact ih (hm.grant _ _ _)
      · exact hm
    · exact ih hm

theorem runFor (hm : Moves a w) (p : Owned) : Moves a (w.runFor p) := by
  unfold Work.runFor; split <;> apply_rules [walk]

theorem runArbiter (hm : Moves a w) : Moves a w.runArbiter := by
  have key : ∀ (l : List Owned) {w : Work}, Moves a w → Moves a (l.foldl Work.runFor w) := by
    intro l
    induction l with
    | nil => exact fun h => h
    | cons p l ih => exact fun h => ih (h.runFor p)
  exact key _ hm

/-! ## New calls -/

/-- What a lane request asks for: a continuation that goes on from whatever the request did. -/
theorem lane (hm : Moves a w) (h : Handle) (p : Owned) (k : Work → LaneOutcome → Work) (hl : w.st.waiting.length ≤ 16)
    (hk : ∀ w o, Moves a w → Moves a (k w o)) : Moves a (w.lane h p k) :=
  withCall (fun _ _ => hk _ _ (hm.requestLane _ _ _ hl)) hm

theorem routeHigh (hm : Moves a w) (h : Handle) (hl : w.st.waiting.length ≤ 16) : Moves a (w.routeHigh h) := by
  unfold Work.routeHigh
  refine lane (hm.modCall _ _) _ _ _ hl fun w o hw => ?_
  split <;> apply_rules [forwardSetup, release]

theorem askFloor (hm : Moves a w) (h : Handle) (k : Floor) (i : SlotNo) (hl : w.st.waiting.length ≤ 16) :
    Moves a (w.askFloor h k i) := by
  unfold Work.askFloor
  refine lane hm _ _ _ hl fun w o hw => ?_
  split <;> apply_rules [startOffers, release, setActivity]

theorem routeFloor (hm : Moves a w) (h : Handle) (cls : Class) (k : Floor) (i : SlotNo)
    (hl : w.st.waiting.length ≤ 16) : Moves a (w.routeFloor h cls k i) := by
  unfold Work.routeFloor
  dsimp only
  split
  · split
    · exact askFloor (hm.modCall _ _) _ _ _ hl
    · split
      · exact askFloor (((hm.modCall _ _).raise _).release _ _) _ _ _ ((Work.release_waiting_le _ _ _).trans hl)
      · apply_rules [release, modCall]
  · apply_rules [release, modCall]

theorem routeUp (hm : Moves a w) (h : Handle) (cls : Class) (dest : Word) (hl : w.st.waiting.length ≤ 16) :
    Moves a (w.routeUp h cls dest) := by
  unfold Work.routeUp
  split
  · exact hm.release _ _
  · split
    · exact hm.routeHigh _ hl
    · exact hm.routeFloor _ _ _ _ hl
    · split <;> apply_rules [release, raise]
    · exact hm

theorem askDown (hm : Moves a w) (h : Handle) (p : Owned) (hl : w.st.waiting.length ≤ 16) : Moves a (w.askDown h p) := by
  unfold Work.askDown
  refine lane hm _ _ _ hl fun w o hw => ?_
  split <;> apply_rules [grantUpper, release]

theorem routeCallDown (hm : Moves a w) (h : Handle) (cls : Class) (dest : Word) (p : Owned)
    (hl : w.st.waiting.length ≤ 16) : Moves a (w.routeCallDown h cls dest p) := by
  unfold Work.routeCallDown
  split
  · exact hm.release _ _
  · split
    · exact hm.release _ _
    · exact hm.askDown _ _ hl

theorem makeCall (hm : Moves a w) (h : Handle) (rest : List Handle) (r : CallRecord)
    (hf : w.st.freeHandles = h :: rest) : Moves a (w.makeCall h rest r) := hm.tail (.makeCall _ _ _ _ hf)

/-! ## Cells and endings -/

theorem named (hm : Moves a w) (p : Riser) (key : Key) (k : Handle → CallRecord → Work)
    (hk : ∀ h r, w.call? h = some r → Moves a (k h r)) : Moves a (w.named p key k) := by
  unfold Work.named
  split
  · refine withCall (fun r hr => ?_) hm
    split
    · exact hm
    · exact hk _ _ hr
  · exact hm.raise _

theorem relayHold (hm : Moves a w) (r : CallRecord) (c : Progress) : Moves a (w.relayHold r c) := by
  unfold Work.relayHold
  repeat' split
  all_goals apply_rules [progressDown, raise]

theorem tellOrigin (hm : Moves a w) (h : Handle) (r : CallRecord) (s : Status) (c : Progress) :
    Moves a (w.tellOrigin h r s c) := by
  unfold Work.tellOrigin; split <;> apply_rules [statusTo, progressUp]

theorem preAnswer (hm : Moves a w) (h : Handle) (k : Floor) (x : Addr) : Moves a (w.preAnswer h k x) := by
  unfold Work.preAnswer
  refine withCall (fun r _ => ?_) hm
  split
  · split <;> apply_rules [sendF, modCall]
  · exact hm

theorem callDown (hm : Moves a w) (k : Floor) (x : Addr) (i : SlotNo) (hl : w.st.waiting.length ≤ 16) :
    Moves a (w.callDown k x i) := by
  unfold Work.callDown
  split
  · exact (hm.sendF _ _).raise _
  · next hf => exact routeCallDown ((hm.makeCall _ _ _ hf).setActivity _ _) _ _ _ _ hl

theorem purge (hm : Moves a w) (l : List WaitEntry) : Moves a (w.purge l) := by
  induction l generalizing w with
  | nil => exact hm
  | cons x rest ih =>
    unfold Work.purge
    apply ih
    split
    · split <;> apply_rules [release]
    · exact hm

theorem eachCall (hm : Moves a w) (f : Work → Handle → CallRecord → Work)
    (hf : ∀ w h r, Moves a w → w.call? h = some r → Moves a (f w h r)) : Moves a (w.eachCall f) := by
  unfold Work.eachCall
  have key : ∀ (l : List Handle) {w : Work}, Moves a w →
      Moves a (l.foldl (fun w h => w.withCall h fun r => f w h r) w) := by
    intro l
    induction l with
    | nil => exact fun h => h
    | cons p l ih => exact fun h => ih (withCall (fun r hr => hf _ _ _ h hr) h)
  exact key _ hm

theorem cutCall (hm : Moves a w) (h : Handle) (r : CallRecord) (p : Riser) (c : Cause) :
    Moves a (w.cutCall h r p c) := by
  unfold Work.cutCall; split <;> apply_rules [closeCleared, release, modCall]

theorem endFloorCalls (hm : Moves a w) (k : Floor) (c : Cause) : Moves a (w.endFloorCalls k c) := by
  unfold Work.endFloorCalls
  refine (hm.eachCall _ fun w h r hw _ => ?_).run _
  split <;> apply_rules [release]

theorem endUpperCalls (hm : Moves a w) : Moves a w.endUpperCalls := by
  unfold Work.endUpperCalls
  refine (hm.eachCall _ fun w h r hw _ => ?_).run _
  split <;> apply_rules [cutCall]

theorem endAllCalls (hm : Moves a w) : Moves a w.endAllCalls :=
  hm.emptyWholeMirror.eachCall _ fun _ _ _ hw _ => hw.cutCall _ _ _ _

theorem announceFire (hm : Moves a w) : Moves a w.announceFire := by
  unfold Work.announceFire; split <;> apply_rules [sendH]

theorem sendAllL (hm : Moves a w) (l : List RiserCell) : Moves a (w.sendAllL l) := by
  unfold Work.sendAllL
  induction l generalizing w with
  | nil => exact hm
  | cons c l ih => exact ih (hm.sendL c)

end Sys2Proof.Machine.Moves
end

