-- ==== Sys2Proof/Laws/Invariant.lean ====
section
/-! SUPPORT. The invariant of `Safety` and the pieces of an event: the named changes keep it, and so does the end of an
event. -/

namespace Sys2Proof.Machine

/-! ## Event bits -/

theorem EventSets.NamedOnly.add {e : EventSets} (h : e.NamedOnly) (x : Event) : (e.add x).NamedOnly := by
  intro g
  have hg := h g
  rw [EventSets.get_add]
  split
  · rename_i hx; subst hx
    have hm : x.mask &&& ~~~x.group.named = 0 := by cases x <;> decide
    rw [BitVec.and_or_distrib_right, hg, hm]; rfl
  · exact hg

theorem EventSets.NamedOnly.union {e f : EventSets} (he : e.NamedOnly) (hf : f.NamedOnly) : (e.union f).NamedOnly := by
  intro g
  have h1 := he g
  have h2 := hf g
  rw [EventSets.get_union, BitVec.and_or_distrib_right, h1, h2]; rfl

theorem EventSets.NamedOnly.empty : EventSets.empty.NamedOnly := fun g => by cases g <;> decide

theorem EventSets.NamedOnly.set {e : EventSets} (h : e.NamedOnly) (g : Group) {v : Word}
    (hv : v &&& ~~~g.named = 0) : (e.set g v).NamedOnly := by
  intro g'
  rw [EventSets.get_set]; split
  · rename_i hx; subst hx; exact hv
  · exact h g'

/-! ## An event in progress -/

/-- The owned ports have distinct places in the tables. -/
theorem Owned.idx_inj {p q : Owned} (h : p.idx = q.idx) : p = q := by
  have hv := congrArg Fin.val h
  cases p <;> cases q <;> simp only [Owned.idx, Fin.val_zero] at hv
  · rfl
  · omega
  · omega
  · exact congrArg _ (Fin.ext (by omega))

/-- The state so far keeps the invariant, and the bits so far are named ones. -/
structure Work.Ok (w : Work) : Prop where
  inv    : w.st.Inv
  raised : w.raised.NamedOnly

theorem Work.start_ok {s : State} (h : s.Inv) : (Work.start s).Ok := ⟨h, .empty⟩

theorem State.HandlesOk.modCall {s : State} (hs : s.HandlesOk) (h : Handle) (f : CallRecord → CallRecord) :
    ({ s with calls := s.calls.set h (s.calls[h].map f) } : State).HandlesOk := by
  refine ⟨hs.1, fun h' => ?_⟩
  rw [← hs.2 h']
  by_cases e : h = h'
  · subst e; simp
  · simp [Fin.val_inj, e]

theorem State.HandlesOk.freeCall {s : State} (hs : s.HandlesOk) {h : Handle} {r : CallRecord}
    (hr : s.calls[h] = some r) :
    ({ s with calls := s.calls.set h none, freeHandles := s.freeHandles ++ [h] } : State).HandlesOk := by
  have hn : h ∉ s.freeHandles := by rw [← hs.2 h, hr]; simp
  refine ⟨?_, fun h' => ?_⟩
  · rw [List.nodup_append]
    exact ⟨hs.1, by simp, by rintro x hx y hy rfl; simp at hy; exact hn (hy ▸ hx)⟩
  · by_cases e : h = h'
    · subst e; simp
    · have := hs.2 h'
      simp only [Fin.getElem_fin] at this
      simp [Fin.val_inj, e, this, Ne.symm e]

theorem State.HandlesOk.makeCall {s : State} (hs : s.HandlesOk) {h : Handle} {rest : List Handle} (r : CallRecord)
    (hf : s.freeHandles = h :: rest) :
    ({ s with calls := s.calls.set h (some r), freeHandles := rest } : State).HandlesOk := by
  have hnd := hs.1
  rw [hf, List.nodup_cons] at hnd
  refine ⟨hnd.2, fun h' => ?_⟩
  by_cases e : h = h'
  · subst e; simp [hnd.1]
  · have := hs.2 h'
    rw [hf] at this
    simp only [Fin.getElem_fin] at this
    simp [Fin.val_inj, e, this, Ne.symm e]

/-- Every named change keeps the invariant. -/
theorem Prim.ok {w w' : Work} (hp : Prim w w') (hw : w.Ok) : w'.Ok := by
  obtain ⟨hi, hr⟩ := hw
  cases hp with
  | raise e => exact ⟨hi, hr.add e⟩
  | run p => exact ⟨hi, hr⟩
  | modCall h f => exact ⟨{ hi with handles := hi.handles.modCall h f }, hr⟩
  | freeCall h =>
    unfold Work.freeCall Work.call? State.call?
    split
    · exact ⟨{ hi with handles := hi.handles.freeCall ‹_› }, hr⟩
    · exact ⟨hi, hr⟩
  | makeCall h rest r hf => exact ⟨{ hi with handles := hi.handles.makeCall r hf }, hr⟩
  | setMap p m hm =>
    refine ⟨{ hi with lanes := fun q => ?_ }, hr⟩
    by_cases e : p.idx = q.idx
    · obtain rfl := Owned.idx_inj e
      have := hi.lanes p
      simp [State.map, Work.setMap] at this hm ⊢
      omega
    · have := hi.lanes q
      simp only [State.map, Work.setMap, Fin.getElem_fin] at this ⊢
      rw [Vector.getElem_set_ne _ _ (by simpa [Fin.ext_iff] using e)]
      exact this
  | setMirror l x => exact ⟨{ hi with }, hr⟩
  | setCrosses l => exact ⟨{ hi with }, hr⟩
  | setActivity i a => exact ⟨{ hi with }, hr⟩
  | setWaiting l hl => exact ⟨{ hi with waiting := hl.elim id fun h => h.trans hi.waiting }, hr⟩
  | sendL c => unfold Work.sendL; split <;> exact ⟨hi, hr⟩
  | sendH c =>
    unfold Work.sendH
    split
    · next hu =>
      split
      · next hl =>
        refine ⟨{ hi with queueH := ⟨?_, ?_⟩ }, hr⟩
        · have hd : Config.queueDepth = 16 := rfl
          simp only [List.length_append, List.length_singleton]; omega
        · intro hd; simp [State.riserUp] at hu; simp [hu] at hd
      · exact ⟨hi, hr.add _⟩
    · exact ⟨hi, hr⟩
  | sendF k c =>
    unfold Work.sendF
    split
    · next hu =>
      split
      · next hl =>
        refine ⟨{ hi with queues := fun k' => ?_ }, hr⟩
        by_cases e : k = k'
        · subst e
          refine ⟨?_, ?_⟩
          · have hd : Config.queueDepth = 16 := rfl
            simp only [Fin.getElem_fin, Vector.getElem_set_self, List.length_append, List.length_singleton] at hl ⊢
            omega
          · intro hd; simp [State.floorUp] at hu; simp [hu] at hd
        · have := hi.queues k'
          simp only [Fin.getElem_fin] at this ⊢
          rw [Vector.getElem_set_ne _ _ (by simpa [Fin.ext_iff] using e)]
          exact this
      · exact ⟨hi, hr.add _⟩
    · exact ⟨hi, hr⟩
  | emptyMirrors =>
    refine ⟨{ hi with handles := ⟨hi.handles.1, fun h => ?_⟩ }, hr⟩
    have := hi.handles.2 h
    simp only [Fin.getElem_fin] at this
    simp [Work.emptyWholeMirror, this]

theorem Moves.ok {w w' : Work} (hm : Moves w w') (hw : w.Ok) : w'.Ok :=
  hm.keeps (fun _ _ => Prim.ok) hw

/-- The end of an event keeps the invariant. -/
theorem Work.flush_inv {w : Work} (hw : w.Ok) : w.flush.Inv := by
  obtain ⟨hi, hr⟩ := hw
  unfold Work.flush
  split
  · next hu =>
    have hn : (w.st.raisedAtEnd w.raised w.outL).NamedOnly := by
      unfold State.raisedAtEnd; split
      · exact hr.add _
      · exact hr
    refine { hi with status := hi.status.union hn, queueL := ⟨?_, ?_⟩ }
    · have := hi.queueL.1
      have hd : Config.queueDepth = 16 := rfl
      simp only [State.placeL, List.length_append, List.length_take]
      omega
    · intro hd; simp [State.riserUp] at hu; simp [State.placeL, hu] at hd
  · exact { hi with status := hi.status.union hr }

theorem Work.finish_inv {w : Work} (hw : w.Ok) : w.finish.Inv :=
  Work.flush_inv ((Moves.rfl' (a := w)).runArbiter.ok hw)

/-- A command that is one event keeps the invariant where its effect does. -/
theorem event_inv {s t : State} {f : Work → Work} (hs : s.Inv) (hf : (Work.start s).Ok → (f (Work.start s)).Ok)
    (h : event s f = .next t) : t.Inv := by
  simp only [event, Host.Outcome.next.injEq] at h
  subst h
  split
  · exact Work.finish_inv (hf (Work.start_ok hs))
  · exact hs

end Sys2Proof.Machine
end

