-- ==== Sys2Proof/Laws/Named.lean ====
section
/-! SUPPORT. The named changes of state in which the statements speak (`Safety`): for each, every field that it leaves as it
was, and what it makes of the ports' link and line states and of the tables it changes. No proof need unfold one to read a
field it does not change. -/

namespace Sys2Proof.Machine

/-! ### Cells that join port L's queue -/

@[simp] theorem State.sentL_pins (s : State) (l : List RiserCell) : (s.sentL l).pins = s.pins := by
  unfold State.sentL; split <;> rfl
@[simp] theorem State.sentL_powered (s : State) (l : List RiserCell) : (s.sentL l).powered = s.powered := by
  unfold State.sentL; split <;> rfl
@[simp] theorem State.sentL_node (s : State) (l : List RiserCell) : (s.sentL l).node = s.node := by
  unfold State.sentL; split <;> rfl
@[simp] theorem State.sentL_top (s : State) (l : List RiserCell) : (s.sentL l).top = s.top := by
  unfold State.sentL; split <;> rfl
@[simp] theorem State.sentL_retained (s : State) (l : List RiserCell) : (s.sentL l).retained = s.retained := by
  unfold State.sentL; split <;> rfl
@[simp] theorem State.sentL_retentionOk (s : State) (l : List RiserCell) : (s.sentL l).retentionOk = s.retentionOk := by
  unfold State.sentL; split <;> rfl
@[simp] theorem State.sentL_portH (s : State) (l : List RiserCell) : (s.sentL l).portH = s.portH := by
  unfold State.sentL; split <;> rfl
@[simp] theorem State.sentL_floors (s : State) (l : List RiserCell) : (s.sentL l).floors = s.floors := by
  unfold State.sentL; split <;> rfl
@[simp] theorem State.sentL_maps (s : State) (l : List RiserCell) : (s.sentL l).maps = s.maps := by
  unfold State.sentL; split <;> rfl
@[simp] theorem State.sentL_mirror (s : State) (l : List RiserCell) : (s.sentL l).mirror = s.mirror := by
  unfold State.sentL; split <;> rfl
@[simp] theorem State.sentL_crosses (s : State) (l : List RiserCell) : (s.sentL l).crosses = s.crosses := by
  unfold State.sentL; split <;> rfl
@[simp] theorem State.sentL_waiting (s : State) (l : List RiserCell) : (s.sentL l).waiting = s.waiting := by
  unfold State.sentL; split <;> rfl
@[simp] theorem State.sentL_calls (s : State) (l : List RiserCell) : (s.sentL l).calls = s.calls := by
  unfold State.sentL; split <;> rfl
@[simp] theorem State.sentL_freeHandles (s : State) (l : List RiserCell) : (s.sentL l).freeHandles = s.freeHandles := by
  unfold State.sentL; split <;> rfl
@[simp] theorem State.sentL_activity (s : State) (l : List RiserCell) : (s.sentL l).activity = s.activity := by
  unfold State.sentL; split <;> rfl
@[simp] theorem State.sentL_latch (s : State) (l : List RiserCell) : (s.sentL l).latch = s.latch := by
  unfold State.sentL; split <;> rfl
@[simp] theorem State.sentL_lineSource (s : State) (l : List RiserCell) : (s.sentL l).lineSource = s.lineSource := by
  unfold State.sentL; split <;> rfl
@[simp] theorem State.sentL_locked (s : State) (l : List RiserCell) : (s.sentL l).locked = s.locked := by
  unfold State.sentL; split <;> rfl
@[simp] theorem State.sentL_status (s : State) (l : List RiserCell) : (s.sentL l).status = s.status := by
  unfold State.sentL; split <;> rfl
@[simp] theorem State.sentL_resetReq (s : State) (l : List RiserCell) : (s.sentL l).resetReq = s.resetReq := by
  unfold State.sentL; split <;> rfl
@[simp] theorem State.sentL_freeIndex (s : State) (l : List RiserCell) : (s.sentL l).freeIndex = s.freeIndex := by
  unfold State.sentL; split <;> rfl
@[simp] theorem State.sentL_pending (s : State) (l : List RiserCell) : (s.sentL l).pending = s.pending := by
  unfold State.sentL; split <;> rfl

/-! ### Cells that join port H's queue -/

@[simp] theorem State.sentH_pins (s : State) (l : List RiserCell) : (s.sentH l).pins = s.pins := by
  unfold State.sentH; split <;> rfl
@[simp] theorem State.sentH_powered (s : State) (l : List RiserCell) : (s.sentH l).powered = s.powered := by
  unfold State.sentH; split <;> rfl
@[simp] theorem State.sentH_node (s : State) (l : List RiserCell) : (s.sentH l).node = s.node := by
  unfold State.sentH; split <;> rfl
@[simp] theorem State.sentH_top (s : State) (l : List RiserCell) : (s.sentH l).top = s.top := by
  unfold State.sentH; split <;> rfl
@[simp] theorem State.sentH_retained (s : State) (l : List RiserCell) : (s.sentH l).retained = s.retained := by
  unfold State.sentH; split <;> rfl
@[simp] theorem State.sentH_retentionOk (s : State) (l : List RiserCell) : (s.sentH l).retentionOk = s.retentionOk := by
  unfold State.sentH; split <;> rfl
@[simp] theorem State.sentH_portL (s : State) (l : List RiserCell) : (s.sentH l).portL = s.portL := by
  unfold State.sentH; split <;> rfl
@[simp] theorem State.sentH_floors (s : State) (l : List RiserCell) : (s.sentH l).floors = s.floors := by
  unfold State.sentH; split <;> rfl
@[simp] theorem State.sentH_maps (s : State) (l : List RiserCell) : (s.sentH l).maps = s.maps := by
  unfold State.sentH; split <;> rfl
@[simp] theorem State.sentH_mirror (s : State) (l : List RiserCell) : (s.sentH l).mirror = s.mirror := by
  unfold State.sentH; split <;> rfl
@[simp] theorem State.sentH_crosses (s : State) (l : List RiserCell) : (s.sentH l).crosses = s.crosses := by
  unfold State.sentH; split <;> rfl
@[simp] theorem State.sentH_waiting (s : State) (l : List RiserCell) : (s.sentH l).waiting = s.waiting := by
  unfold State.sentH; split <;> rfl
@[simp] theorem State.sentH_calls (s : State) (l : List RiserCell) : (s.sentH l).calls = s.calls := by
  unfold State.sentH; split <;> rfl
@[simp] theorem State.sentH_freeHandles (s : State) (l : List RiserCell) : (s.sentH l).freeHandles = s.freeHandles := by
  unfold State.sentH; split <;> rfl
@[simp] theorem State.sentH_activity (s : State) (l : List RiserCell) : (s.sentH l).activity = s.activity := by
  unfold State.sentH; split <;> rfl
@[simp] theorem State.sentH_latch (s : State) (l : List RiserCell) : (s.sentH l).latch = s.latch := by
  unfold State.sentH; split <;> rfl
@[simp] theorem State.sentH_lineSource (s : State) (l : List RiserCell) : (s.sentH l).lineSource = s.lineSource := by
  unfold State.sentH; split <;> rfl
@[simp] theorem State.sentH_locked (s : State) (l : List RiserCell) : (s.sentH l).locked = s.locked := by
  unfold State.sentH; split <;> rfl
@[simp] theorem State.sentH_status (s : State) (l : List RiserCell) : (s.sentH l).status = s.status := by
  unfold State.sentH; split <;> rfl
@[simp] theorem State.sentH_resetReq (s : State) (l : List RiserCell) : (s.sentH l).resetReq = s.resetReq := by
  unfold State.sentH; split <;> rfl
@[simp] theorem State.sentH_freeIndex (s : State) (l : List RiserCell) : (s.sentH l).freeIndex = s.freeIndex := by
  unfold State.sentH; split <;> rfl
@[simp] theorem State.sentH_pending (s : State) (l : List RiserCell) : (s.sentH l).pending = s.pending := by
  unfold State.sentH; split <;> rfl

/-! ### Cells that join a floor port's queue -/

@[simp] theorem State.sentF_pins (s : State) (k : Floor) (l : List FloorCell) : (s.sentF k l).pins = s.pins := by
  unfold State.sentF; split <;> rfl
@[simp] theorem State.sentF_powered (s : State) (k : Floor) (l : List FloorCell) : (s.sentF k l).powered = s.powered := by
  unfold State.sentF; split <;> rfl
@[simp] theorem State.sentF_node (s : State) (k : Floor) (l : List FloorCell) : (s.sentF k l).node = s.node := by
  unfold State.sentF; split <;> rfl
@[simp] theorem State.sentF_top (s : State) (k : Floor) (l : List FloorCell) : (s.sentF k l).top = s.top := by
  unfold State.sentF; split <;> rfl
@[simp] theorem State.sentF_retained (s : State) (k : Floor) (l : List FloorCell) : (s.sentF k l).retained = s.retained := by
  unfold State.sentF; split <;> rfl
@[simp] theorem State.sentF_retentionOk (s : State) (k : Floor) (l : List FloorCell) : (s.sentF k l).retentionOk = s.retentionOk := by
  unfold State.sentF; split <;> rfl
@[simp] theorem State.sentF_portL (s : State) (k : Floor) (l : List FloorCell) : (s.sentF k l).portL = s.portL := by
  unfold State.sentF; split <;> rfl
@[simp] theorem State.sentF_portH (s : State) (k : Floor) (l : List FloorCell) : (s.sentF k l).portH = s.portH := by
  unfold State.sentF; split <;> rfl
@[simp] theorem State.sentF_maps (s : State) (k : Floor) (l : List FloorCell) : (s.sentF k l).maps = s.maps := by
  unfold State.sentF; split <;> rfl
@[simp] theorem State.sentF_mirror (s : State) (k : Floor) (l : List FloorCell) : (s.sentF k l).mirror = s.mirror := by
  unfold State.sentF; split <;> rfl
@[simp] theorem State.sentF_crosses (s : State) (k : Floor) (l : List FloorCell) : (s.sentF k l).crosses = s.crosses := by
  unfold State.sentF; split <;> rfl
@[simp] theorem State.sentF_waiting (s : State) (k : Floor) (l : List FloorCell) : (s.sentF k l).waiting = s.waiting := by
  unfold State.sentF; split <;> rfl
@[simp] theorem State.sentF_calls (s : State) (k : Floor) (l : List FloorCell) : (s.sentF k l).calls = s.calls := by
  unfold State.sentF; split <;> rfl
@[simp] theorem State.sentF_freeHandles (s : State) (k : Floor) (l : List FloorCell) : (s.sentF k l).freeHandles = s.freeHandles := by
  unfold State.sentF; split <;> rfl
@[simp] theorem State.sentF_activity (s : State) (k : Floor) (l : List FloorCell) : (s.sentF k l).activity = s.activity := by
  unfold State.sentF; split <;> rfl
@[simp] theorem State.sentF_latch (s : State) (k : Floor) (l : List FloorCell) : (s.sentF k l).latch = s.latch := by
  unfold State.sentF; split <;> rfl
@[simp] theorem State.sentF_lineSource (s : State) (k : Floor) (l : List FloorCell) : (s.sentF k l).lineSource = s.lineSource := by
  unfold State.sentF; split <;> rfl
@[simp] theorem State.sentF_locked (s : State) (k : Floor) (l : List FloorCell) : (s.sentF k l).locked = s.locked := by
  unfold State.sentF; split <;> rfl
@[simp] theorem State.sentF_status (s : State) (k : Floor) (l : List FloorCell) : (s.sentF k l).status = s.status := by
  unfold State.sentF; split <;> rfl
@[simp] theorem State.sentF_resetReq (s : State) (k : Floor) (l : List FloorCell) : (s.sentF k l).resetReq = s.resetReq := by
  unfold State.sentF; split <;> rfl
@[simp] theorem State.sentF_freeIndex (s : State) (k : Floor) (l : List FloorCell) : (s.sentF k l).freeIndex = s.freeIndex := by
  unfold State.sentF; split <;> rfl
@[simp] theorem State.sentF_pending (s : State) (k : Floor) (l : List FloorCell) : (s.sentF k l).pending = s.pending := by
  unfold State.sentF; split <;> rfl

/-! ### A record put in its place -/

@[simp] theorem State.putCall_pins (s : State) (h : Handle) (r : CallRecord) : (s.putCall h r).pins = s.pins := rfl
@[simp] theorem State.putCall_powered (s : State) (h : Handle) (r : CallRecord) : (s.putCall h r).powered = s.powered := rfl
@[simp] theorem State.putCall_node (s : State) (h : Handle) (r : CallRecord) : (s.putCall h r).node = s.node := rfl
@[simp] theorem State.putCall_top (s : State) (h : Handle) (r : CallRecord) : (s.putCall h r).top = s.top := rfl
@[simp] theorem State.putCall_retained (s : State) (h : Handle) (r : CallRecord) : (s.putCall h r).retained = s.retained := rfl
@[simp] theorem State.putCall_retentionOk (s : State) (h : Handle) (r : CallRecord) : (s.putCall h r).retentionOk = s.retentionOk := rfl
@[simp] theorem State.putCall_portL (s : State) (h : Handle) (r : CallRecord) : (s.putCall h r).portL = s.portL := rfl
@[simp] theorem State.putCall_portH (s : State) (h : Handle) (r : CallRecord) : (s.putCall h r).portH = s.portH := rfl
@[simp] theorem State.putCall_floors (s : State) (h : Handle) (r : CallRecord) : (s.putCall h r).floors = s.floors := rfl
@[simp] theorem State.putCall_maps (s : State) (h : Handle) (r : CallRecord) : (s.putCall h r).maps = s.maps := rfl
@[simp] theorem State.putCall_mirror (s : State) (h : Handle) (r : CallRecord) : (s.putCall h r).mirror = s.mirror := rfl
@[simp] theorem State.putCall_crosses (s : State) (h : Handle) (r : CallRecord) : (s.putCall h r).crosses = s.crosses := rfl
@[simp] theorem State.putCall_waiting (s : State) (h : Handle) (r : CallRecord) : (s.putCall h r).waiting = s.waiting := rfl
@[simp] theorem State.putCall_freeHandles (s : State) (h : Handle) (r : CallRecord) : (s.putCall h r).freeHandles = s.freeHandles := rfl
@[simp] theorem State.putCall_activity (s : State) (h : Handle) (r : CallRecord) : (s.putCall h r).activity = s.activity := rfl
@[simp] theorem State.putCall_latch (s : State) (h : Handle) (r : CallRecord) : (s.putCall h r).latch = s.latch := rfl
@[simp] theorem State.putCall_lineSource (s : State) (h : Handle) (r : CallRecord) : (s.putCall h r).lineSource = s.lineSource := rfl
@[simp] theorem State.putCall_locked (s : State) (h : Handle) (r : CallRecord) : (s.putCall h r).locked = s.locked := rfl
@[simp] theorem State.putCall_status (s : State) (h : Handle) (r : CallRecord) : (s.putCall h r).status = s.status := rfl
@[simp] theorem State.putCall_resetReq (s : State) (h : Handle) (r : CallRecord) : (s.putCall h r).resetReq = s.resetReq := rfl
@[simp] theorem State.putCall_freeIndex (s : State) (h : Handle) (r : CallRecord) : (s.putCall h r).freeIndex = s.freeIndex := rfl
@[simp] theorem State.putCall_pending (s : State) (h : Handle) (r : CallRecord) : (s.putCall h r).pending = s.pending := rfl

/-! ### A record freed -/

@[simp] theorem State.freed_pins (s : State) (h : Handle) : (s.freed h).pins = s.pins := rfl
@[simp] theorem State.freed_powered (s : State) (h : Handle) : (s.freed h).powered = s.powered := rfl
@[simp] theorem State.freed_node (s : State) (h : Handle) : (s.freed h).node = s.node := rfl
@[simp] theorem State.freed_top (s : State) (h : Handle) : (s.freed h).top = s.top := rfl
@[simp] theorem State.freed_retained (s : State) (h : Handle) : (s.freed h).retained = s.retained := rfl
@[simp] theorem State.freed_retentionOk (s : State) (h : Handle) : (s.freed h).retentionOk = s.retentionOk := rfl
@[simp] theorem State.freed_portL (s : State) (h : Handle) : (s.freed h).portL = s.portL := rfl
@[simp] theorem State.freed_portH (s : State) (h : Handle) : (s.freed h).portH = s.portH := rfl
@[simp] theorem State.freed_floors (s : State) (h : Handle) : (s.freed h).floors = s.floors := rfl
@[simp] theorem State.freed_maps (s : State) (h : Handle) : (s.freed h).maps = s.maps := rfl
@[simp] theorem State.freed_mirror (s : State) (h : Handle) : (s.freed h).mirror = s.mirror := rfl
@[simp] theorem State.freed_crosses (s : State) (h : Handle) : (s.freed h).crosses = s.crosses := rfl
@[simp] theorem State.freed_waiting (s : State) (h : Handle) : (s.freed h).waiting = s.waiting := rfl
@[simp] theorem State.freed_activity (s : State) (h : Handle) : (s.freed h).activity = s.activity := rfl
@[simp] theorem State.freed_latch (s : State) (h : Handle) : (s.freed h).latch = s.latch := rfl
@[simp] theorem State.freed_lineSource (s : State) (h : Handle) : (s.freed h).lineSource = s.lineSource := rfl
@[simp] theorem State.freed_locked (s : State) (h : Handle) : (s.freed h).locked = s.locked := rfl
@[simp] theorem State.freed_status (s : State) (h : Handle) : (s.freed h).status = s.status := rfl
@[simp] theorem State.freed_resetReq (s : State) (h : Handle) : (s.freed h).resetReq = s.resetReq := rfl
@[simp] theorem State.freed_freeIndex (s : State) (h : Handle) : (s.freed h).freeIndex = s.freeIndex := rfl
@[simp] theorem State.freed_pending (s : State) (h : Handle) : (s.freed h).pending = s.pending := rfl

/-! ### An activity put in its place -/

@[simp] theorem State.putActivity_pins (s : State) (i : SlotNo) (a : Activity) : (s.putActivity i a).pins = s.pins := rfl
@[simp] theorem State.putActivity_powered (s : State) (i : SlotNo) (a : Activity) : (s.putActivity i a).powered = s.powered := rfl
@[simp] theorem State.putActivity_node (s : State) (i : SlotNo) (a : Activity) : (s.putActivity i a).node = s.node := rfl
@[simp] theorem State.putActivity_top (s : State) (i : SlotNo) (a : Activity) : (s.putActivity i a).top = s.top := rfl
@[simp] theorem State.putActivity_retained (s : State) (i : SlotNo) (a : Activity) : (s.putActivity i a).retained = s.retained := rfl
@[simp] theorem State.putActivity_retentionOk (s : State) (i : SlotNo) (a : Activity) : (s.putActivity i a).retentionOk = s.retentionOk := rfl
@[simp] theorem State.putActivity_portL (s : State) (i : SlotNo) (a : Activity) : (s.putActivity i a).portL = s.portL := rfl
@[simp] theorem State.putActivity_portH (s : State) (i : SlotNo) (a : Activity) : (s.putActivity i a).portH = s.portH := rfl
@[simp] theorem State.putActivity_floors (s : State) (i : SlotNo) (a : Activity) : (s.putActivity i a).floors = s.floors := rfl
@[simp] theorem State.putActivity_maps (s : State) (i : SlotNo) (a : Activity) : (s.putActivity i a).maps = s.maps := rfl
@[simp] theorem State.putActivity_mirror (s : State) (i : SlotNo) (a : Activity) : (s.putActivity i a).mirror = s.mirror := rfl
@[simp] theorem State.putActivity_crosses (s : State) (i : SlotNo) (a : Activity) : (s.putActivity i a).crosses = s.crosses := rfl
@[simp] theorem State.putActivity_waiting (s : State) (i : SlotNo) (a : Activity) : (s.putActivity i a).waiting = s.waiting := rfl
@[simp] theorem State.putActivity_calls (s : State) (i : SlotNo) (a : Activity) : (s.putActivity i a).calls = s.calls := rfl
@[simp] theorem State.putActivity_freeHandles (s : State) (i : SlotNo) (a : Activity) : (s.putActivity i a).freeHandles = s.freeHandles := rfl
@[simp] theorem State.putActivity_latch (s : State) (i : SlotNo) (a : Activity) : (s.putActivity i a).latch = s.latch := rfl
@[simp] theorem State.putActivity_lineSource (s : State) (i : SlotNo) (a : Activity) : (s.putActivity i a).lineSource = s.lineSource := rfl
@[simp] theorem State.putActivity_locked (s : State) (i : SlotNo) (a : Activity) : (s.putActivity i a).locked = s.locked := rfl
@[simp] theorem State.putActivity_status (s : State) (i : SlotNo) (a : Activity) : (s.putActivity i a).status = s.status := rfl
@[simp] theorem State.putActivity_resetReq (s : State) (i : SlotNo) (a : Activity) : (s.putActivity i a).resetReq = s.resetReq := rfl
@[simp] theorem State.putActivity_freeIndex (s : State) (i : SlotNo) (a : Activity) : (s.putActivity i a).freeIndex = s.freeIndex := rfl
@[simp] theorem State.putActivity_pending (s : State) (i : SlotNo) (a : Activity) : (s.putActivity i a).pending = s.pending := rfl

/-! ### A lane taken -/

@[simp] theorem State.laneTaken_pins (s : State) (p : Owned) (i : Nat) (h : Handle) : (s.laneTaken p i h).pins = s.pins := rfl
@[simp] theorem State.laneTaken_powered (s : State) (p : Owned) (i : Nat) (h : Handle) : (s.laneTaken p i h).powered = s.powered := rfl
@[simp] theorem State.laneTaken_node (s : State) (p : Owned) (i : Nat) (h : Handle) : (s.laneTaken p i h).node = s.node := rfl
@[simp] theorem State.laneTaken_top (s : State) (p : Owned) (i : Nat) (h : Handle) : (s.laneTaken p i h).top = s.top := rfl
@[simp] theorem State.laneTaken_retained (s : State) (p : Owned) (i : Nat) (h : Handle) : (s.laneTaken p i h).retained = s.retained := rfl
@[simp] theorem State.laneTaken_retentionOk (s : State) (p : Owned) (i : Nat) (h : Handle) : (s.laneTaken p i h).retentionOk = s.retentionOk := rfl
@[simp] theorem State.laneTaken_portL (s : State) (p : Owned) (i : Nat) (h : Handle) : (s.laneTaken p i h).portL = s.portL := rfl
@[simp] theorem State.laneTaken_portH (s : State) (p : Owned) (i : Nat) (h : Handle) : (s.laneTaken p i h).portH = s.portH := rfl
@[simp] theorem State.laneTaken_floors (s : State) (p : Owned) (i : Nat) (h : Handle) : (s.laneTaken p i h).floors = s.floors := rfl
@[simp] theorem State.laneTaken_mirror (s : State) (p : Owned) (i : Nat) (h : Handle) : (s.laneTaken p i h).mirror = s.mirror := rfl
@[simp] theorem State.laneTaken_crosses (s : State) (p : Owned) (i : Nat) (h : Handle) : (s.laneTaken p i h).crosses = s.crosses := rfl
@[simp] theorem State.laneTaken_waiting (s : State) (p : Owned) (i : Nat) (h : Handle) : (s.laneTaken p i h).waiting = s.waiting := rfl
@[simp] theorem State.laneTaken_calls (s : State) (p : Owned) (i : Nat) (h : Handle) : (s.laneTaken p i h).calls = s.calls := rfl
@[simp] theorem State.laneTaken_freeHandles (s : State) (p : Owned) (i : Nat) (h : Handle) : (s.laneTaken p i h).freeHandles = s.freeHandles := rfl
@[simp] theorem State.laneTaken_activity (s : State) (p : Owned) (i : Nat) (h : Handle) : (s.laneTaken p i h).activity = s.activity := rfl
@[simp] theorem State.laneTaken_latch (s : State) (p : Owned) (i : Nat) (h : Handle) : (s.laneTaken p i h).latch = s.latch := rfl
@[simp] theorem State.laneTaken_lineSource (s : State) (p : Owned) (i : Nat) (h : Handle) : (s.laneTaken p i h).lineSource = s.lineSource := rfl
@[simp] theorem State.laneTaken_locked (s : State) (p : Owned) (i : Nat) (h : Handle) : (s.laneTaken p i h).locked = s.locked := rfl
@[simp] theorem State.laneTaken_status (s : State) (p : Owned) (i : Nat) (h : Handle) : (s.laneTaken p i h).status = s.status := rfl
@[simp] theorem State.laneTaken_resetReq (s : State) (p : Owned) (i : Nat) (h : Handle) : (s.laneTaken p i h).resetReq = s.resetReq := rfl
@[simp] theorem State.laneTaken_freeIndex (s : State) (p : Owned) (i : Nat) (h : Handle) : (s.laneTaken p i h).freeIndex = s.freeIndex := rfl
@[simp] theorem State.laneTaken_pending (s : State) (p : Owned) (i : Nat) (h : Handle) : (s.laneTaken p i h).pending = s.pending := rfl

/-! ### An event set, with its notice -/

@[simp] theorem State.withEvent_pins (s : State) (e : Event) : (s.withEvent e).pins = s.pins := s.sentL_pins _
@[simp] theorem State.withEvent_powered (s : State) (e : Event) : (s.withEvent e).powered = s.powered := s.sentL_powered _
@[simp] theorem State.withEvent_node (s : State) (e : Event) : (s.withEvent e).node = s.node := s.sentL_node _
@[simp] theorem State.withEvent_top (s : State) (e : Event) : (s.withEvent e).top = s.top := s.sentL_top _
@[simp] theorem State.withEvent_retained (s : State) (e : Event) : (s.withEvent e).retained = s.retained := s.sentL_retained _
@[simp] theorem State.withEvent_retentionOk (s : State) (e : Event) : (s.withEvent e).retentionOk = s.retentionOk := s.sentL_retentionOk _
@[simp] theorem State.withEvent_portH (s : State) (e : Event) : (s.withEvent e).portH = s.portH := s.sentL_portH _
@[simp] theorem State.withEvent_floors (s : State) (e : Event) : (s.withEvent e).floors = s.floors := s.sentL_floors _
@[simp] theorem State.withEvent_maps (s : State) (e : Event) : (s.withEvent e).maps = s.maps := s.sentL_maps _
@[simp] theorem State.withEvent_mirror (s : State) (e : Event) : (s.withEvent e).mirror = s.mirror := s.sentL_mirror _
@[simp] theorem State.withEvent_crosses (s : State) (e : Event) : (s.withEvent e).crosses = s.crosses := s.sentL_crosses _
@[simp] theorem State.withEvent_waiting (s : State) (e : Event) : (s.withEvent e).waiting = s.waiting := s.sentL_waiting _
@[simp] theorem State.withEvent_calls (s : State) (e : Event) : (s.withEvent e).calls = s.calls := s.sentL_calls _
@[simp] theorem State.withEvent_freeHandles (s : State) (e : Event) : (s.withEvent e).freeHandles = s.freeHandles := s.sentL_freeHandles _
@[simp] theorem State.withEvent_activity (s : State) (e : Event) : (s.withEvent e).activity = s.activity := s.sentL_activity _
@[simp] theorem State.withEvent_latch (s : State) (e : Event) : (s.withEvent e).latch = s.latch := s.sentL_latch _
@[simp] theorem State.withEvent_lineSource (s : State) (e : Event) : (s.withEvent e).lineSource = s.lineSource := s.sentL_lineSource _
@[simp] theorem State.withEvent_locked (s : State) (e : Event) : (s.withEvent e).locked = s.locked := s.sentL_locked _
@[simp] theorem State.withEvent_resetReq (s : State) (e : Event) : (s.withEvent e).resetReq = s.resetReq := s.sentL_resetReq _
@[simp] theorem State.withEvent_freeIndex (s : State) (e : Event) : (s.withEvent e).freeIndex = s.freeIndex := s.sentL_freeIndex _
@[simp] theorem State.withEvent_pending (s : State) (e : Event) : (s.withEvent e).pending = s.pending := s.sentL_pending _

/-! ### What the changed fields become -/

@[simp] theorem State.sentL_nil (s : State) : s.sentL [] = s := by unfold State.sentL; split <;> simp
@[simp] theorem State.sentH_nil (s : State) : s.sentH [] = s := by unfold State.sentH; split <;> simp
@[simp] theorem State.sentF_nil (s : State) (k : Floor) : s.sentF k [] = s := by
  unfold State.sentF
  split
  · rw [List.append_nil, show s.floors.set k { s.floors[k] with queue := s.floors[k].queue } = s.floors from
      Vector.set_getElem_self k.isLt]
  · rfl

@[simp] theorem State.sentL_riserUp (s : State) (l : List RiserCell) (p : Riser) : (s.sentL l).riserUp p = s.riserUp p := by
  unfold State.sentL; split <;> cases p <;> rfl

@[simp] theorem State.sentH_riserUp (s : State) (l : List RiserCell) (p : Riser) : (s.sentH l).riserUp p = s.riserUp p := by
  unfold State.sentH; split <;> cases p <;> rfl

@[simp] theorem State.sentF_riserUp (s : State) (k : Floor) (l : List FloorCell) (p : Riser) :
    (s.sentF k l).riserUp p = s.riserUp p := by
  unfold State.sentF; split <;> cases p <;> rfl

@[simp] theorem State.sentF_floorUp (s : State) (k j : Floor) (l : List FloorCell) :
    (s.sentF k l).floorUp j = s.floorUp j := by
  unfold State.sentF
  split
  · unfold State.floorUp
    by_cases h : k = j
    · subst h; simp
    · have : k.val ≠ j.val := fun e => h (Fin.ext e)
      simp [this]
  · rfl

@[simp] theorem State.withEvent_status (s : State) (e : Event) : (s.withEvent e).status = s.status.add e := rfl

@[simp] theorem State.withEvent_riserUp (s : State) (e : Event) (p : Riser) :
    (s.withEvent e).riserUp p = s.riserUp p := by
  have h := s.sentL_riserUp (s.noticeOf e) p
  cases p <;> exact h

theorem State.call?_putCall (s : State) (h v : Handle) (r : CallRecord) :
    (s.putCall h r).call? v = if h = v then some r else s.call? v := by
  by_cases e : h = v
  · subst e; simp [State.call?, State.putCall]
  · have : h.val ≠ v.val := fun x => e (Fin.ext x)
    simp [State.call?, State.putCall, this, e]

theorem State.call?_freed (s : State) (h v : Handle) : (s.freed h).call? v = if h = v then none else s.call? v := by
  by_cases e : h = v
  · subst e; simp [State.call?, State.freed]
  · have : h.val ≠ v.val := fun x => e (Fin.ext x)
    simp [State.call?, State.freed, this, e]

end Sys2Proof.Machine
end

