-- ==== Sys2Proof/Laws/Outcome.lean ====
section
/-! SUPPORT. The end of an event in the words of the statements (`Safety`), what a matched key tells of its record
(R85), and the cells that find room in their queue (R10). -/

namespace Sys2Proof.Machine

/-! ## Keys -/

/-- A key names a live record whose side on that port is open with that key (R85). -/
theorem State.keyed_spec {s : State} {p : Riser} {key : Key} {h : Handle} (hk : s.keyed p key = some h) :
    ∃ r, s.call? h = some r ∧ r.openKey p = some key := by
  unfold State.keyed at hk
  split at hk
  · split at hk
    · split at hk
      · next r hr =>
        split at hk
        · cases hk; exact ⟨r, hr, ‹_›⟩
        · cases hk
      · cases hk
    · cases hk
  · have := List.find?_some hk
    split at this
    · next r hr => exact ⟨r, hr, by simpa using this⟩
    · cases this

/-- The side of the record that a key names is open with that key. -/
theorem State.keyed_open {s : State} {p : Riser} {key : Key} {h : Handle} {r : CallRecord}
    (hk : s.keyed p key = some h) (hr : s.call? h = some r) : r.openKey p = some key := by
  obtain ⟨r', hr', ho⟩ := State.keyed_spec hk
  rw [hr] at hr'; cases hr'; exact ho

/-- A cell for a record that is not in CLEARING goes to the rule of its kind (R85, R149). -/
theorem Work.named_live {w : Work} {p : Riser} {key : Key} {h : Handle} {r : CallRecord}
    {k : Handle → CallRecord → Work} (hk : w.st.keyed p key = some h) (hr : w.st.call? h = some r)
    (hc : r.state ≠ .clearing) : w.named p key k = k h r := by
  simp [Work.named, hk, Work.withCall, Work.call?, hr, hc]

/-- A cell for an unknown key sets PROTOCOL (R149). -/
theorem Work.named_unknown {w : Work} {p : Riser} {key : Key} {k : Handle → CallRecord → Work}
    (hk : w.st.keyed p key = none) : w.named p key k = w.raise .protocol := by
  simp [Work.named, hk]

/-- A cell for a record in CLEARING is discarded (R149). -/
theorem Work.named_clearing {w : Work} {p : Riser} {key : Key} {h : Handle} {r : CallRecord}
    {k : Handle → CallRecord → Work} (hk : w.st.keyed p key = some h) (hr : w.st.call? h = some r)
    (hc : r.state = .clearing) : w.named p key k = w := by
  simp [Work.named, hk, Work.withCall, Work.call?, hr, hc]

/-! ## Cells with room -/

theorem Work.sendH_room {w : Work} {c : RiserCell} (h : w.st.roomH 1) : w.sendH c = { w with st := w.st.sentH [c] } := by
  have hd : Config.queueDepth = 16 := rfl
  unfold Work.sendH State.sentH
  by_cases hu : w.st.riserUp .H = true
  · have := h hu
    simp only [hu, if_true]
    rw [if_pos (by omega)]
  · simp only [if_neg hu]

theorem Work.sendF_room {w : Work} {k : Floor} {c : FloorCell} (h : w.st.roomF k 1) :
    w.sendF k c = { w with st := w.st.sentF k [c] } := by
  have hd : Config.queueDepth = 16 := rfl
  unfold Work.sendF State.sentF
  by_cases hu : w.st.floorUp k = true
  · have := h hu
    simp only [hu, if_true]
    rw [if_pos (by omega)]
  · simp only [if_neg hu]

/-! ## The end of an event -/

/-- An event that sets no bit, and after which the arbiter grants nothing, ends with its cells on port L's queue. -/
theorem Work.finish_cells {w : Work} (hr : w.raised = EventSets.empty) (hl : w.st.roomL w.outL.length)
    (ha : ∀ p ∈ w.runs, ∀ x ∈ w.st.waiting, x.port ≠ p) : w.finish = w.st.sentL w.outL := by
  rw [Work.finish, Work.runArbiter_other ha]
  unfold State.sentL
  by_cases hu : w.st.riserUp .L = true
  · rw [if_pos hu]
    rcases hl hu with h0 | hl
    · rw [List.length_eq_zero_iff] at h0
      rw [Work.flush_quiet hr h0, h0, List.append_nil]
    · rw [Work.flush_cells hr hu hl]
  · rw [if_neg hu, Work.flush_down (by simpa using hu), hr, EventSets.union_empty]

/-- An event's bit is one bit. -/
theorem Event.mask_twoPow (e : Event) : ∃ i : Fin 16, e.mask = BitVec.twoPow 16 i.val := by
  cases e
  all_goals first
    | exact ⟨0, by decide⟩ | exact ⟨1, by decide⟩ | exact ⟨2, by decide⟩ | exact ⟨3, by decide⟩ | exact ⟨4, by decide⟩
    | exact ⟨5, by decide⟩ | exact ⟨6, by decide⟩

/-- A bit that an event sets calls for a notice where it was clear and is unmasked. -/
theorem Event.calls_iff (e : Event) (a k : Word) : e.mask &&& ~~~a &&& ~~~k ≠ 0 ↔ a &&& e.mask = 0 ∧ k &&& e.mask = 0 := by
  obtain ⟨i, hi⟩ := e.mask_twoPow
  have hz : ¬ BitVec.twoPow 16 i.val = 0#16 := (by decide : ∀ j : Fin 16, ¬ BitVec.twoPow 16 j.val = 0#16) i
  have h16 := i.isLt
  rw [hi, BitVec.and_comm (BitVec.twoPow 16 _), BitVec.and_twoPow, BitVec.and_twoPow, BitVec.and_twoPow,
    BitVec.getLsbD_not]
  cases ha : a.getLsbD i.val <;> cases hk : k.getLsbD i.val <;>
    simp only [h16, decide_true, Bool.true_and, Bool.not_false, Bool.not_true, if_true, Bool.false_eq_true, if_false,
      BitVec.zero_and, BitVec.and_comm (BitVec.twoPow 16 _), BitVec.and_twoPow, BitVec.getLsbD_not, hk] <;>
    simp <;> exact hz

/-- The notices of an event that sets one bit (R182). -/
theorem State.notices_one (s : State) (e : Event) :
    s.notices (EventSets.empty.add e) (EventSets.empty.add e) = s.noticeOf e := by
  have hg : ∀ g, (EventSets.empty.add e).get g = if g = e.group then e.mask else 0 := by
    intro g; rw [EventSets.get_add]; split <;> simp
  have hc := e.calls_iff (s.status.get e.group) (s.retained.masks.get e.group)
  have hf : (allGroups.filter fun g =>
      (EventSets.empty.add e).get g &&& ~~~(s.status.get g) &&& ~~~(s.retained.masks.get g) ≠ 0) =
      if s.status.get e.group &&& e.mask = 0 ∧ s.retained.masks.get e.group &&& e.mask = 0 then [e.group] else [] := by
    have hp : ∀ g, decide ((EventSets.empty.add e).get g &&& ~~~(s.status.get g) &&& ~~~(s.retained.masks.get g) ≠ 0) =
        if g = e.group then
          decide (s.status.get e.group &&& e.mask = 0 ∧ s.retained.masks.get e.group &&& e.mask = 0)
        else false := by
      intro g
      rw [hg]
      split
      · next h => subst h; exact decide_eq_decide.2 hc
      · simp
    simp only [hp]
    split
    · next h => simp only [h, and_self, decide_true]; cases e.group <;> rfl
    · next h => simp only [h, decide_false]; cases e.group <;> rfl
  unfold State.notices State.noticeOf
  rw [hf]
  split
  · simp [EventSets.get_add]
  · rfl

theorem State.noticeOf_length (s : State) (e : Event) : (s.noticeOf e).length ≤ 1 := by
  unfold State.noticeOf; split <;> simp

/-- An event that sets one bit, sends no other cell down port L, and after which the arbiter grants nothing (R182). -/
theorem Work.finish_event {w : Work} {e : Event} (hr : w.raised = EventSets.empty.add e) (ho : w.outL = [])
    (hl : w.st.roomL 1) (ha : ∀ p ∈ w.runs, ∀ x ∈ w.st.waiting, x.port ≠ p) : w.finish = w.st.withEvent e := by
  rw [Work.finish, Work.runArbiter_other ha]
  unfold State.withEvent State.sentL
  by_cases hu : w.st.riserUp .L = true
  · have h1 := hl hu
    have h2 := w.st.noticeOf_length e
    rw [if_pos hu, Work.flush_room hu (by rw [hr, State.notices_one, ho, List.length_nil]; omega), hr, ho,
      State.notices_one, List.append_nil, EventSets.union_add_empty]
  · rw [if_neg hu, Work.flush_down (by simpa using hu), hr, EventSets.union_add_empty]

end Sys2Proof.Machine
end

