-- ==== Sys2Proof/Laws/Shows.lean ====
section
/-! SUPPORT. What an event in progress will leave where its cells find room (`Work.shows`), and what each operation of an
event makes of that, in the named changes of the statements (`Safety`): a lane taken, a cell sent, a record changed. -/

namespace Sys2Proof.Machine

/-- The state that the end of an event leaves if its notices and its cells all find room on port L (R182, R10). -/
def Work.shows (w : Work) : State :=
  { w.st.sentL (w.st.notices w.raised w.raised ++ w.outL) with status := w.st.status.union w.raised }

/-- The cells that an event has for port L. -/
def Work.toL (w : Work) : Nat := (w.st.notices w.raised w.raised).length + w.outL.length

/-- An event ends in the state it shows where its notices and cells for port L find room. -/
theorem Work.flush_shows {w : Work} (hr : w.st.roomL w.toL) : w.flush = w.shows := by
  unfold Work.shows State.sentL
  by_cases hu : w.st.riserUp .L = true
  · rw [if_pos hu]
    by_cases h0 : w.toL = 0
    · have hn : (w.st.notices w.raised w.raised).length = 0 := by unfold Work.toL at h0; omega
      have ho : w.outL.length = 0 := by unfold Work.toL at h0; omega
      rw [List.length_eq_zero_iff] at hn ho
      have hd : ¬ Config.queueDepth - w.st.portL.queue.length < 0 + 0 := by omega
      simp [Work.flush, hu, State.raisedAtEnd, hn, ho, State.placeL]
    · have := hr hu
      rw [Work.flush_room hu (by unfold Work.toL at h0 this; omega)]
  · rw [if_neg hu, Work.flush_down (by simpa using hu)]

theorem Work.shows_start (s : State) : (Work.start s).shows = s := by
  simp [Work.shows, Work.start]

/-! ## What it reads -/

section
variable (w : Work)

@[simp] theorem Work.shows_retained : w.shows.retained = w.st.retained := by simp [Work.shows]
@[simp] theorem Work.shows_node : w.shows.node = w.st.node := by simp [Work.shows]
@[simp] theorem Work.shows_maps : w.shows.maps = w.st.maps := by simp [Work.shows]
@[simp] theorem Work.shows_waiting : w.shows.waiting = w.st.waiting := by simp [Work.shows]
@[simp] theorem Work.shows_calls : w.shows.calls = w.st.calls := by simp [Work.shows]
@[simp] theorem Work.shows_crosses : w.shows.crosses = w.st.crosses := by simp [Work.shows]
@[simp] theorem Work.shows_mirror : w.shows.mirror = w.st.mirror := by simp [Work.shows]
@[simp] theorem Work.shows_activity : w.shows.activity = w.st.activity := by simp [Work.shows]
@[simp] theorem Work.shows_portH : w.shows.portH = w.st.portH := by simp [Work.shows]
@[simp] theorem Work.shows_floors : w.shows.floors = w.st.floors := by simp [Work.shows]
@[simp] theorem Work.shows_call? (h : Handle) : w.shows.call? h = w.st.call? h := by simp [State.call?]
@[simp] theorem Work.shows_map (p : Owned) : w.shows.map p = w.st.map p := by simp [State.map]
@[simp] theorem Work.shows_floorUp (k : Floor) : w.shows.floorUp k = w.st.floorUp k := by simp [State.floorUp]
@[simp] theorem Work.shows_riserUp (p : Riser) : w.shows.riserUp p = w.st.riserUp p := by
  have h := w.st.sentL_riserUp (w.st.notices w.raised w.raised ++ w.outL) p
  cases p <;> exact h
@[simp] theorem Work.shows_entryPriority (x : WaitEntry) : w.shows.entryPriority x = w.st.entryPriority x := by
  simp [State.entryPriority]
@[simp] theorem Work.shows_admitLane (p : Owned) (e : Nat) : w.shows.admitLane p e = w.st.admitLane p e := by
  have hl : ∀ i, w.shows.laneState p i = w.st.laneState p i := by
    intro i; simp [State.laneState, State.holder, State.outMark]
  have hu : w.shows.usable p = w.st.usable p := by cases p <;> simp [State.usable]
  have hn : w.shows.needed p e = w.st.needed p e := by simp [State.needed, State.settings]
  have hf : w.shows.freeCount p = w.st.freeCount p := by
    simp [State.freeCount, State.outCount, State.heldCount, State.holder, hl]
  unfold State.admitLane State.admits State.freeLanes
  rw [hu, hn, hf]
  simp only [hl]
@[simp] theorem Work.shows_talkTimer (c : Class) : w.shows.talkTimer c = w.st.talkTimer c := by
  simp [State.talkTimer]

end

/-! ## Records -/

theorem State.putCall_putCall (s : State) (h : Handle) (r r' : CallRecord) :
    (s.putCall h r).putCall h r' = s.putCall h r' := by
  simp [State.putCall, Vector.set_set]

theorem Work.modCall_live {w : Work} {h : Handle} {r : CallRecord} {f : CallRecord → CallRecord}
    (hr : w.st.call? h = some r) : w.modCall h f = { w with st := w.st.putCall h (f r) } := by
  have hr' : w.st.calls[h] = some r := hr
  simp [Work.modCall, State.putCall, hr']

theorem Work.withCall_live {w : Work} {h : Handle} {r : CallRecord} {k : CallRecord → Work}
    (hr : w.st.call? h = some r) : w.withCall h k = k r := by
  simp [Work.withCall, Work.call?, hr]

/-! ## What each operation makes of it -/

/-- A change of the state that leaves port L, the status, the node and the masks alone, and does not look at the first two. -/
theorem Work.shows_of (w : Work) (f : State → State)
    (hf : ∀ (s : State) (a : RiserPort) (b : EventSets),
      f { s with portL := a, status := b } = { f s with portL := a, status := b })
    (hn : (f w.st).node = w.st.node) (hm : (f w.st).retained.masks = w.st.retained.masks) :
    ({ w with st := f w.st } : Work).shows = f w.shows := by
  have h0 : f w.st = { f w.st with portL := w.st.portL, status := w.st.status } := hf w.st w.st.portL w.st.status
  have hL : (f w.st).portL = w.st.portL := by rw [h0]
  have hS : (f w.st).status = w.st.status := by rw [h0]
  have hN : (f w.st).notices w.raised w.raised = w.st.notices w.raised w.raised := by
    simp only [State.notices, hn, hm, hS]
  have hU : (f w.st).riserUp .L = w.st.riserUp .L := by simp only [State.riserUp, hL]
  unfold Work.shows State.sentL
  simp only [hN, hU, hL, hS]
  by_cases hu : w.st.riserUp .L = true
  · rw [if_pos hu, if_pos hu]
    exact (hf w.st _ _).symm
  · rw [if_neg hu, if_neg hu]
    exact ((hf w.st w.st.portL _).trans (by rw [← hL])).symm

theorem Work.shows_putCall (w : Work) (h : Handle) (r : CallRecord) :
    ({ w with st := w.st.putCall h r } : Work).shows = w.shows.putCall h r :=
  w.shows_of (fun s => s.putCall h r) (fun _ _ _ => rfl) rfl rfl

theorem Work.shows_modCall {w : Work} {h : Handle} {r : CallRecord} {f : CallRecord → CallRecord}
    (hr : w.st.call? h = some r) : (w.modCall h f).shows = w.shows.putCall h (f r) := by
  rw [Work.modCall_live hr]; exact w.shows_putCall h _

theorem Work.shows_setActivity (w : Work) (i : SlotNo) (a : Activity) :
    (w.setActivity i a).shows = w.shows.putActivity i a :=
  w.shows_of (fun s => s.putActivity i a) (fun _ _ _ => rfl) rfl rfl

theorem Work.shows_setCrosses (w : Work) (l : List Cross) :
    (w.setCrosses l).shows = { w.shows with crosses := l } :=
  w.shows_of (fun s => { s with crosses := l }) (fun _ _ _ => rfl) rfl rfl

theorem Work.shows_setWaiting (w : Work) (l : List WaitEntry) :
    (w.setWaiting l).shows = { w.shows with waiting := l } :=
  w.shows_of (fun s => { s with waiting := l }) (fun _ _ _ => rfl) rfl rfl

theorem Work.shows_setMirror (w : Work) (l : LLane) (x : Option Handle) :
    (w.setMirror l x).shows = { w.shows with mirror := w.shows.mirror.set l x } :=
  w.shows_of (fun s => { s with mirror := s.mirror.set l x }) (fun _ _ _ => rfl) rfl rfl

theorem Work.shows_setMap (w : Work) (p : Owned) (m : LaneMap) :
    (w.setMap p m).shows = { w.shows with maps := w.shows.maps.set p.idx m } :=
  w.shows_of (fun s => { s with maps := s.maps.set p.idx m }) (fun _ _ _ => rfl) rfl rfl

theorem Work.shows_freeCall {w : Work} {h : Handle} {r : CallRecord} (hr : w.st.call? h = some r) :
    (w.freeCall h).shows = w.shows.freed h := by
  have : w.freeCall h = { w with st := w.st.freed h } := by simp [Work.freeCall, Work.call?, hr, State.freed]
  rw [this]
  exact w.shows_of (fun s => s.freed h) (fun _ _ _ => rfl) rfl rfl

theorem Work.shows_leaveWaiting (w : Work) (h : Handle) :
    (w.leaveWaiting h).shows = { w.shows with waiting := w.shows.waiting.filter fun x => !(x.handle == h) } := by
  rw [Work.shows_waiting]; exact w.shows_setWaiting _

@[simp] theorem Work.shows_run (w : Work) (p : Owned) : (w.run p).shows = w.shows := rfl

theorem State.sentL_sentL (s : State) (a b : List RiserCell) : (s.sentL a).sentL b = s.sentL (a ++ b) := by
  by_cases hu : s.portL.link = .up <;> simp [State.sentL, State.riserUp, hu]

theorem Work.shows_sendL (w : Work) (c : RiserCell) : (w.sendL c).shows = w.shows.sentL [c] := by
  by_cases hu : w.st.riserUp .L = true
  · have : w.sendL c = { w with outL := w.outL ++ [c] } := by simp [Work.sendL, hu]
    rw [this]
    have h2 : w.shows.riserUp .L = true := by rw [Work.shows_riserUp]; exact hu
    unfold State.sentL
    rw [if_pos h2]
    unfold Work.shows State.sentL
    simp [hu]
  · have : w.sendL c = w := by simp [Work.sendL, hu]
    rw [this]
    unfold State.sentL
    rw [if_neg (by rw [Work.shows_riserUp]; exact hu)]

theorem Work.shows_sendH {w : Work} {c : RiserCell} (h : w.st.roomH 1) : (w.sendH c).shows = w.shows.sentH [c] := by
  rw [Work.sendH_room h]
  refine w.shows_of (fun s => s.sentH [c]) (fun s a b => ?_) (by simp) (by simp)
  by_cases hu : s.portH.link = .up <;> simp [State.sentH, State.riserUp, hu]

theorem Work.shows_sendF {w : Work} {k : Floor} {c : FloorCell} (h : w.st.roomF k 1) :
    (w.sendF k c).shows = w.shows.sentF k [c] := by
  rw [Work.sendF_room h]
  refine w.shows_of (fun s => s.sentF k [c]) (fun s a b => ?_) (by simp) (by simp)
  by_cases hu : s.floors[k.val].line = .up <;> simp [State.sentF, State.floorUp, hu]

end Sys2Proof.Machine
end

