-- ==== Sys2Proof/Tests/Slice0.lean ====
section
/-! SUPPORT. Our own tests. First small states and the smoke test of well-formedness; then, command by command, one or
two single steps whose expected result is written out from the rules or the worked examples of the manual; last, for every
statement with hypotheses, states and operands that meet them. -/

set_option maxRecDepth 8000

namespace Sys2Proof.Tests

open Sys2Proof.Machine

/-! ## States -/

/-- The state after a command (the state itself where it were to stop). -/
def after (c : Instr) (s : State) : State :=
  match exec c s with
  | .next t => t
  | _ => s

/-- A paired flat 5 and a follow-on flat 6 on floor port 0, behind one window. -/
def flat : Slot :=
  { number := 5, port := 0, main := 1, ext := some 2, mode := .paired, quiet := 1, quietCeiling := 6,
    residentQuiet := true, callDown := 3, unlatch := true }

/-- Settings of a small house, in service. -/
def house : Retained :=
  { Retained.default with
    ordinary := Retained.default.ordinary.set 0 { base := 1, limit := 9, target := .floor 0 }
    slots := (Retained.default.slots.set 0 flat).set 1
      { flat with number := 6, main := 3, ext := some 4, mode := .followOn, quiet := 0 }
    service := .inService }

/-- A floor port that is UP. -/
def lineUp : FloorPort := { line := .up, faultMark := false, good := true, count := 0, queue := [], wire := [] }

/-- Every port UP, no call, no event. -/
def on : State :=
  { State.reset with
    retained := house
    portL := { State.reset.portL with link := .up, aligned := true }
    portH := { State.reset.portH with link := .up, aligned := true }
    floors := Vector.replicate 8 lineUp
    status := EventSets.empty }

/-- Port L's queue holds sixteen cells. -/
def fullL : State := { on with portL := { on.portL with queue := List.replicate 16 riserRestart } }

/-- Keys that the neighbours formed. -/
def lowKey : Key := { side := .low, ref := 9 }
def highKey : Key := { side := .high, ref := 11 }

/-- A record with handle 0 in its tables. -/
def put (s : State) (r : CallRecord) : State :=
  let t : State := { s.putCall 0 r with
    freeHandles := s.freeHandles.tail
    mirror := match r.lLane with
      | some l => s.mirror.set l (some 0)
      | none => s.mirror
    crosses := match r.state, r.lLane, r.ownedPort, r.ownedLane with
      | .connected, some l, some p, some i => [{ handle := 0, lLane := l, port := p, lane := i }]
      | _, _, _, _ => [] }
  match r.ownedPort, r.ownedLane with
  | some p, some i => t.laneTaken p i 0
  | _, _ => t

/-- An upward call from panel 3, with L lane 4. -/
def upward (st : CallState) (far : Far) (lane : Option Nat) (timer : Option Timer) : CallRecord :=
  { state := st, dir := .up, cls := 2, origin := .panel 3, dest := 500, low := .opened lowKey, lLane := some 4,
    heldBelow := false, far := far, ownedLane := lane, timer := timer, talkOwner := false, pendingCause := none }

/-- Routed HIGH on H lane 2. -/
def upHigh (st : CallState) (timer : Option Timer := none) : State :=
  put on (upward st (.high (.opened (ownKey .H 0))) (some 2) timer)

/-- The far side of a call to flat 5. -/
def flatSide (entries : List OfferEntry) (answering : Option Addr) : FloorSide :=
  { port := 0, slot := 0, main := 1, ext := some 2, mode := .paired, entries := entries, answering := answering,
    preAnswered := false }

/-- An offer entry with its window running. -/
def entry (a : Addr) (st : OfferState) (retries : Nat := 0) : OfferEntry :=
  { addr := a, state := st, retries := retries, window := some 4 }

/-- A call to flat 5 on lane 1 of port F0. -/
def upFlat (st : CallState) (act : Activity) (entries : List OfferEntry) (answering : Option Addr := none)
    (timer : Option Timer := none) : State :=
  (put on (upward st (.floor (flatSide entries answering)) (some 1) timer)).putActivity 0 act

/-- A call to flat 5 whose paired OFFER is out. -/
def offered : State := upFlat .offering (.offered 0) [entry 1 .sent, entry 2 .sent]

/-- A call connected to handset 1 of flat 5. -/
def talking : State :=
  upFlat .connected (.engaged 0) [entry 1 .answered] (some 1)
    (some { purpose := .talkLimit, left := 1800, near := some 1700 })

/-- A downward call on the segment below with key (HIGH, 0). -/
def downward (st : CallState) (far : Far) (l : Option LLane) (timer : Option Timer) : State :=
  let s := put on { upward st far (some 1) timer with
    dir := .down, dest := 0, low := .opened (ownKey .L 0), lLane := l, origin := .apartment 1302, cls := 3 }
  match far with
  | .floor _ => s.putActivity 0 (.originating 0)
  | _ => s

/-- A call relayed from above. -/
def relayed (st : CallState) (l : Option LLane) (timer : Option Timer := none) : State :=
  downward st (.high (.opened highKey)) l timer

/-- A call dialled at handset 1 of flat 5. -/
def dialled (st : CallState) (l : Option LLane) (timer : Option Timer := none) : State :=
  downward st (.floor (flatSide [] (some 1))) l timer

/-- A record timer that runs. -/
def running (p : Purpose) : Option Timer := some { purpose := p, left := 9, near := none }

/-- A record waits for port H: no lane, its entry alone in the list. -/
def waitingH (s : State) : State :=
  { put s (upward .waitingLane (.high .unopened) none (running .laneWait)) with
    waiting := [{ handle := 0, port := .H, steps := 0, ageing := some 100 }] }

/-- A call is CONNECTED on the one lane in service of port F0, which keeps no reserve, and a record with handle 1 to the flat
of slot 1 waits for it. -/
def inLine (r : CallRecord) (act : Activity) : State :=
  { talking.putCall 1 r with
    retained := { house with
      outMarks := house.outMarks.set 1 [true, false, true]
      settings := house.settings.set 1 { fire := 0, priority := 0, threshold := 5 } }
    freeHandles := talking.freeHandles.tail
    mirror := match r.lLane with
      | some l => talking.mirror.set l (some 1)
      | none => talking.mirror
    activity := talking.activity.set 1 act
    waiting := [{ handle := 1, port := .F 0, steps := 0, ageing := none }] }

/-- The floor side of a call of flat 6. -/
def otherSide (answering : Option Addr) : FloorSide :=
  { flatSide [] answering with slot := 1, main := 3, ext := some 4, mode := .followOn }

/-- An upward call of class 2 waits for it. -/
def upInLine : State :=
  inLine { upward .waitingLane (.floor (otherSide none)) none (running .laneWait) with
    low := .opened { side := .low, ref := 10 }, lLane := some 5 } (.pending 1)

/-- A queued DIAL of flat 6 waits for it. -/
def dialInLine : State :=
  inLine { upward .waitingLane (.floor (otherSide (some 3))) none (running .laneWait) with
    dir := .down, dest := 0, low := .unopened, lLane := none, origin := .dialled 1, cls := 3 } (.originating 1)

/-- A request for this switch, node 1. -/
def request (item field index value : Nat) (expected : Nat := 0) : Request :=
  { node := 1, item := BitVec.ofNat 8 item, field := BitVec.ofNat 8 field, index := BitVec.ofNat 8 index, result := 0,
    value := BitVec.ofNat 16 value, expected := BitVec.ofNat 16 expected, spare := 0 }

/-- The state of the record with handle 0. -/
def stateOf (s : State) : Option CallState := (s.call? 0).map CallRecord.state

/-- The result and value of the last cell of port L's queue, a reply. -/
def lastReply (s : State) : Option (Byte × Word) :=
  match s.portL.queue.getLast? with
  | some (.mgmt .reply _ q) => some (q.result, q.value)
  | _ => none

/-- The call cells of port L's queue and of port H's queue, by kind and code. -/
def callsL (s : State) : List (CallKind × Byte) :=
  s.portL.queue.filterMap fun c => match c with
    | .call c => some (c.kind, c.code)
    | _ => none
def callsH (s : State) : List (CallKind × Byte) :=
  s.portH.queue.filterMap fun c => match c with
    | .call c => some (c.kind, c.code)
    | _ => none

/-- The cells of port F0's queue, by kind, address, code and value. -/
def cellsF (s : State) : List (FloorKind × Addr × Byte × Byte) :=
  s.floors[0].queue.map fun c => (c.kind, c.addr, c.code, c.value)

/-! ## Well-formedness -/

/-- A raw cell of a floor branch that is not eight bytes long is refused; one of eight is accepted. -/
theorem test_wf_raw_cell :
    (Instr.cellCheckFailed (.F 0) [1, 2]).wf = false ∧ (Instr.cellCheckFailed .L (List.replicate 8 0)).wf = false ∧
    (Instr.cellCheckFailed (.F 0) (List.replicate 8 0)).wf = true ∧
    (Instr.cellCheckFailed .H (List.replicate 16 0)).wf = true := by decide

/-! ## Cells on the line -/

/-- The worked check of chapter 1, a STATUS QUEUED to address 5; with byte 4 turned into 3 it fails. -/
theorem test_check_example :
    checkPasses [3, 197, 128, 12, 2, 0, 122, 46] = true ∧ checkWord [3, 197, 128, 12, 2, 0] = 31278 ∧
    (statusCell 12 5 .queued).bytes = [3, 197, 128, 12, 2, 0, 122, 46] ∧
    checkPasses [3, 197, 128, 12, 3, 0, 122, 46] = false := by decide

/-- A SETUP written out byte by byte from R18: kind 1, key (HIGH, 12), lane NONE, apartment origin and class 5, the
destination and the origin with their high bytes first. -/
theorem test_setup_bytes :
    receive .H (withCheck [1, 0x8C, 255, 0x15, 0, 0, 0x05, 0x16, 0, 0, 0, 0, 0, 0]) =
      .command (.setupFromAbove { side := .high, ref := 12 } 255 0 5 1 1302) := by decide

/-- A floor cell written out from R20: QUIET 7 from address 5, its lane bits NONE. -/
theorem test_quiet_bytes :
    receive (.F 3) (withCheck [14, 0xC5, 128, 0, 7, 0]) = .command (.quiet 3 5 7) := by decide

/-- A management request written out from R19: READ of item 9, field 1. -/
theorem test_request_bytes :
    receive .L (withCheck [11, 1, 1, 9, 1, 0, 0, 0, 0, 0, 0, 0, 0, 0]) = .command (.read (request 9 1 0 0)) := by decide

/-- A cell with one bit wrong fails its check; kind 14 on a riser, and an OFFER from a handset, are no commands (R5 to
R7). -/
theorem test_bad_cells :
    receive (.F 0) [3, 197, 128, 12, 2, 1, 122, 46] = .checkFailed ∧
    receive .L (withCheck (14 :: List.replicate 13 0)) = .wrongKind ∧
    receive (.F 0) (withCheck [1, 0, 0, 0, 0, 0]) = .wrongKind := by decide

/-! ## Resets and supplies -/

/-- R184: retention held keeps the retained contents; lost, they take their defaults. -/
theorem test_power_up_reset :
    (after (.powerUpReset { node := 4, top := false, fireHigh := true }) { on with retentionOk := true }).retained =
      house ∧
    (after (.powerUpReset { node := 4, top := true, fireHigh := true }) { on with retentionOk := false }).top = true := by
  decide

/-- R184: the default service state is OUT_OF_SERVICE, and RETENTION_LOST is SYSTEM bit 0. -/
theorem test_power_up_reset_lost :
    (after (.powerUpReset { node := 4, top := false, fireHigh := true }) { on with retentionOk := false }).status.system =
      1 := by decide

/-- R185: the reset waits for its reply, here alone in the queue, and then clears the lock. -/
theorem test_remote_reset :
    (after (.remoteReset on.pins) { on with resetReq := .due, locked := true }).locked = false ∧
    (after (.remoteReset on.pins) { on with locked := true }).locked = true := by decide

/-- R184: a change being stored when the supply fails loses retention. -/
theorem test_main_supply_loss :
    (after (.mainSupplyLoss true) on).retentionOk = false ∧ (after (.mainSupplyLoss false) on).retentionOk = true := by
  decide

/-- R184: the standby supply matters while the main supply is off. -/
theorem test_standby_supply_low :
    (after .standbySupplyLow { on with powered := false }).retentionOk = false ∧
    (after .standbySupplyLow on).retentionOk = true := by decide

/-! ## Lines -/

/-- R14, R182: RESTART first, then the notice of the RETENTION_LOST of the reset. -/
theorem test_link_up :
    (after (.linkUp .L) State.reset).portL.queue =
      [riserRestart, .mgmt .notice 0 { request 10 0 0 1 with node := 1 }] := by decide

/-- R160: port H announces the line source behind its RESTART. -/
theorem test_link_up_fire :
    callsH (after (.linkUp .H) { on with portH := State.reset.portH, lineSource := true }) =
      [(.restart, 0), (.fireOn, 0)] := by decide

/-- R169 and section 10.6: a CONNECTED call through port H is released LINK_DOWN (20) toward port L. -/
theorem test_link_down :
    (callsL (after (.linkDown .H) (upHigh .connected)), stateOf (after (.linkDown .H) (upHigh .connected))) =
      ([(.release, 20)], some .clearing) := by decide

/-- R170: port L's fall empties the mirror. -/
theorem test_link_down_low : (after (.linkDown .L) (upHigh .connected)).mirror = Vector.replicate 12 none := by decide

/-- Section 11.7: F2 goes FAULT, LINE bit 2. -/
theorem test_floor_fault :
    ((after (.floorFault 2) on).floors[2].line, (after (.floorFault 2) on).status.line) = (.fault, 4) := by decide

/-- R12, R14: the line comes UP and RESTART is its first cell. -/
theorem test_floor_line_good :
    (after (.floorLineGood 2) { on with floors := on.floors.set 2 { lineUp with line := .fault } }).floors[2].queue =
      [floorRestart] := by decide

/-- R11: alignment lost starts the count again. -/
theorem test_frame_alignment_loss :
    (after (.frameAlignmentLoss .L) { on with portL := { on.portL with count := 40 } }).portL.count = 0 := by decide

/-- R11: a cell that arrives while the framer is not aligned is lost, though the link is still UP. -/
theorem test_unaligned_loses_cells :
    let s : State := { on with portH := { on.portH with aligned := false } }
    after .restartFromAbove s = s ∧ after (.releaseDone .H highKey) s = s := by decide

/-- R10, R182: at fifteen waiting cells the first of an event's two joins, the other is lost, TX_OVERFLOW is LINE bit 4, and
its own notice finds the queue full. -/
theorem test_overflow :
    let s : State := { on with portL := { on.portL with queue := List.replicate 15 riserRestart }, freeHandles := [] }
    let t := after (.setupFromBelow lowKey 4 500 2 0 3) { s with status := { s.status with system := 0 } }
    (t.portL.queue.length, t.status.system, t.status.line, callsL t) = (16, 32, 16, callsL s) := by decide

/-- R11: alignment that returns is recorded. -/
theorem test_frame_alignment_return :
    (after (.frameAlignmentReturn .H) { on with portH := { on.portH with aligned := false } }).portH.aligned = true := by
  decide

/-- R12: a fault report starts the count again. -/
theorem test_line_monitor_report_change :
    (after (.lineMonitorReportChange 3 false) on).floors[3].good = false := by decide

/-- R9: the oldest cell leaves. -/
theorem test_transmit_cell :
    (after (.transmitCell .L) { on with portL := { on.portL with queue := [riserRestart, fireOnCell] } }).portL.queue =
      [fireOnCell] := by decide

/-- Section 11.7: a bad check sets LINE bit 3 and sends one notice; a second sends none. -/
theorem test_cell_check_failed :
    let bad : List Byte := [3, 197, 128, 12, 3, 0, 122, 46]
    ((after (.cellCheckFailed (.F 5) bad) on).status.line,
      (after (.cellCheckFailed (.F 5) bad) { on with status := { on.status with line := 12 } }).portL.queue) =
      (8, []) := by decide

/-- R6: kind 14 on a riser is discarded with PROTOCOL, CALL bit 5. -/
theorem test_cell_unknown_kind :
    (after (.cellCheckFailed .H (withCheck (14 :: List.replicate 13 0))) on).status.call = 32 := by decide

/-! ## Calls from below and above -/

/-- Section 5.9 at 0.0 s: class 7 from panel 0 under ceiling 6, routed HIGH, takes the lowest lane. -/
theorem test_setup_from_below_high :
    let t := after (.setupFromBelow { side := .low, ref := 12 } 5 3304 7 0 0) on
    (t.call? 0).map (fun r => (r.state, r.cls.val, r.ownedLane, r.timer)) =
      some (.forwarded, 6, some 0, some { purpose := .progressWait, left := 50, near := none }) := by decide

/-- Section 6.9 at 0.0 s: a paired flat is offered by one OFFER with both addresses. -/
theorem test_setup_from_below_flat :
    (after (.setupFromBelow lowKey 4 5 3 0 0) on).floors[0].queue =
      [{ kind := .offer, lane := some 0, addr := 1, second := some 2, handle := 0, code := 0, value := 0 }] := by decide

/-- Section 7.7 at node 1: a relayed call that finds a lane names it to the node above. -/
theorem test_setup_from_above :
    let t := after (.setupFromAbove { side := .high, ref := 14 } 255 0 3 1 1302) on
    (callsH t, callsL t, stateOf t) = ([(.laneGrant, 0)], [(.setup, 0)], some .awaitingGrant) := by decide

/-- R133: the lane granted below enters the mirror. -/
theorem test_lane_grant :
    let t := after (.laneGrant .L (ownKey .L 0) 4) (relayed .awaitingGrant none)
    (stateOf t, t.mirror[4]) = (some .forwarded, some 0) := by decide

/-- R96. -/
theorem test_alerting_from_above :
    let t := after (.alertingFromAbove (ownKey .H 0) 255) (upHigh .forwarded (running .progressWait))
    (stateOf t, callsL t) = (some .ringing, [(.progress, 1)]) := by decide

/-- Section 5.9 at 1.5 s: the timer restarts at 250 units. -/
theorem test_queued_from_above :
    ((after (.queuedFromAbove (ownKey .H 0) 255) (upHigh .forwarded (running .progressWait))).call? 0).map
      CallRecord.timer = some (startTimer .progressWait 250) := by decide

/-- Section 5.9 at 200 s. -/
theorem test_held_from_above :
    callsL (after (.heldFromAbove (ownKey .H 0) 255) (upHigh .connected)) = [(.progress, 3)] := by decide

/-- Section 5.9 at 212 s. -/
theorem test_resumed_from_above :
    callsL (after (.resumedFromAbove (ownKey .H 0) 255) (upHigh .connected)) = [(.progress, 4)] := by decide

/-- Section 8.8 at 170.1 s; from below the same cell sets CALL bit 5. -/
theorem test_limit_near_from_above :
    (callsL (after (.limitNearFromAbove .H (ownKey .H 0) 255) (upHigh .connected)),
      (after (.limitNearFromAbove .L lowKey 255) (upHigh .connected)).status.call) = ([(.progress, 5)], 32) := by decide

/-- Section 5.9 at 19.0 s: the lanes are joined. -/
theorem test_connect_from_above :
    let t := after (.connectFromAbove (ownKey .H 0)) (upHigh .ringing)
    (t.crosses, callsL t) = ([{ handle := 0, lLane := 4, port := .H, lane := 2 }], [(.connect, 0)]) := by decide

/-- Section 7.7 at 0.2 s: 230 units, and STATUS QUEUED to the dialling handset. -/
theorem test_queued_from_below :
    let t := after (.queuedFromBelow (ownKey .L 0) 255) (dialled .awaitingGrant none (running .grantWait))
    ((t.call? 0).map CallRecord.timer, cellsF t) = (some (startTimer .grantWait 230), [(.status, 1, 2, 0)]) := by decide

/-- Section 7.7 at 7.1 s. -/
theorem test_alerting_from_below :
    let t := after (.alertingFromBelow (ownKey .L 0) 255) (dialled .forwarded (some 4) (running .progressWait))
    ((t.call? 0).map CallRecord.timer, cellsF t) = (some (startTimer .ringTime 300), [(.status, 1, 1, 0)]) := by decide

/-- Section 7.7 at 15.1 s. -/
theorem test_connect_from_below :
    let t := after (.connectFromBelow (ownKey .L 0)) (dialled .ringing (some 4) (running .ringTime))
    ((t.call? 0).map CallRecord.talkOwner, cellsF t, t.activity[0]) =
      (some true, [(.status, 1, 3, 0)], .engaged 0) := by decide

/-- Section 8.8 at 60.1 s: the mirror entry and the cross-connect go, the floor lane stays. -/
theorem test_held_from_below :
    let t := after (.heldFromBelow lowKey 255) talking
    (t.mirror[4], t.crosses, t.holder (.F 0) 1) = (none, [], some 0) ∧ cellsF t = [(.status, 1, 4, 0)] := by decide

/-- Section 8.8 at 70.1 s. -/
theorem test_resumed_from_below :
    let t := after (.resumedFromBelow lowKey 8) (after (.heldFromBelow lowKey 255) talking)
    (t.mirror[8], t.crosses) = (some 0, [{ handle := 0, lLane := 8, port := .F 0, lane := 1 }]) := by decide

/-- Section 8.8 at 180 s, node 1: answered, and passed on up port H. -/
theorem test_release :
    let t := after (.release .L lowKey 1) (upHigh .connected)
    (callsL t, callsH t, stateOf t) = ([(.releaseDone, 0)], [(.release, 1)], some .clearing) := by decide

/-- Section 5.10: the last open side frees the record, its handle at the tail. -/
theorem test_release_done :
    let t := after (.releaseDone .H (ownKey .H 0)) (after (.release .L lowKey 1) (upHigh .connected))
    (stateOf t, t.freeHandles.getLast?) = (none, some 0) := by decide

/-- Section 8.8 at 175.1 s: relayed with the record's own panel. -/
theorem test_unlatch_from_above :
    (after (.unlatchFromAbove .H (ownKey .H 0) 0 0) (upHigh .connected)).portL.queue = [unlatchCell lowKey 3] := by
  decide

/-- R171: NEIGHBOUR_RESTART (21) goes up port H, and the mirror is empty. -/
theorem test_restart_from_below :
    let t := after .restartFromBelow (upHigh .connected)
    (callsH t, t.mirror[4], stateOf t) = ([(.release, 21)], none, some .clearing) := by decide

/-- R60, R72, R171: RESTART from below ends the call below and frees its lane; a queued DIAL, untouched, then goes on. -/
theorem test_restart_from_below_grants :
    let t := after .restartFromBelow dialInLine
    (stateOf t, (t.call? 1).map (fun r => (r.state, r.ownedLane)), callsL t, t.waiting) =
      (none, some (.awaitingGrant, some 1), [(.setup, 0)], []) := by decide

/-- R172: NEIGHBOUR_RESTART goes down port L. -/
theorem test_restart_from_above :
    callsL (after .restartFromAbove (upHigh .connected)) = [(.release, 21)] := by decide

/-- R172, R175: a call that still waits for an H lane keeps its place, and its grant after the RESTART sends its SETUP up. -/
theorem test_restart_from_above_waiting :
    let t := after .restartFromAbove (waitingH on)
    (t.waiting, callsL t) = ((waitingH on).waiting, []) ∧ callsH (after (.ageingStep 0) t) = [(.setup, 0)] := by decide

/-! ## Fire service -/

/-- Section 9.11 at 8 s: a rising edge sets the latch and SYSTEM bit 1. -/
theorem test_fire_edge :
    let t := after (.fireEdge true)
      { on with retained := { house with sense := .riseLatch }, pins := { on.pins with fireHigh := false } }
    (t.latch, t.status.system) = (true, 2) := by decide

/-- Section 9.11 at 0 s: relayed up, SYSTEM bit 2, and a waiting call of class 2 removed with FIRE_MODE (17). -/
theorem test_fire_on :
    let t := after (.fireOn .L) (waitingH on)
    (callsH t, t.status.system, t.waiting, callsL t) = ([(.fireOn, 0)], 4, [], [(.release, 17)]) := by decide

/-- Section 9.11 at 60 s: line source and latch cleared. -/
theorem test_fire_off :
    let t := after (.fireOff .L) { on with lineSource := true, latch := true }
    (t.lineSource, t.latch, callsH t) = (false, false, [(.fireOff, 0)]) := by decide

/-! ## Handsets -/

/-- Section 6.9 at 0.1 s. -/
theorem test_alert :
    let t := after (.alert 0 1 0) offered
    (stateOf t, callsL t) = (some .ringing, [(.progress, 1)]) := by decide

/-- Section 6.9 at 6.2 s: STATUS CONNECTED to the one that answers, CANCEL to the other. -/
theorem test_answer :
    let t := after (.answer 0 2 0) offered
    (cellsF t, callsL t, t.activity[0]) =
      ([(.status, 2, 3, 0), (.cancel, 1, 0, 0)], [(.connect, 0)], .engaged 0) := by decide

/-- R118: both handsets refuse and the call is released REFUSED (4). -/
theorem test_refuse :
    callsL (after (.refuse 0 2 0) (upFlat .offering (.offered 0) [entry 1 .refused, entry 2 .sent])) =
      [(.release, 4)] := by decide

/-- R116: an early expiry of the window; the OFFER goes again, to that handset alone. -/
theorem test_repeat_offer :
    cellsF (after (.repeatOffer 0 2 0) offered) = [(.offer, 2, 0, 0)] := by decide

/-- R116, R118: the third retry is the last; HANDSET_ABSENT is LINE bit 5 and cause 5. -/
theorem test_response_window_expiry :
    let t := after (.responseWindowExpiry 0 0) (upFlat .offering (.offered 0) [entry 1 .sent 3])
    (t.status.line, callsL t) = (32, [(.release, 5)]) := by decide

/-- Section 7.7 at 0.0 s. -/
theorem test_dial :
    let t := after (.dial 0 1) on
    (stateOf t, t.activity[0], callsL t) = (some .awaitingGrant, .originating 0, [(.setup, 0)]) := by decide

/-- R121: a flat whose call is PENDING pre-answers it. -/
theorem test_dial_pending :
    cellsF (after (.dial 0 2) (upFlat .waitingLane (.pending 0) [])) = [(.status, 2, 2, 0)] := by decide

/-- R144: the other side is told NORMAL (1), the handset hears CLEARED. -/
theorem test_hook :
    let t := after (.hook 0 1) talking
    (callsL t, cellsF t) = ([(.release, 1)], [(.status, 1, 7, 1)]) := by decide

/-- R60, R72: the lane that the end of a call frees goes to the call that waits for it. -/
theorem test_hook_grants :
    let t := after (.hook 0 1) upInLine
    (t.waiting, t.holder (.F 0) 1, t.activity[1]) = ([], some 1, .offered 1) ∧
    cellsF t = [(.status, 1, 7, 1), (.offer, 3, 0, 0)] := by decide

/-- R143: the answering handset of a live record is matched though no slot has it; in CLEARING it is not. -/
theorem test_call_of_moved :
    let d : Retained := { house with slots := house.slots.set 0 { flat with number := 0 } }
    ({ talking with retained := d }.callOf 0 1, { talking with retained := d }.callOf 1 1,
      { upFlat .clearing .idle [] (some 1) with retained := d }.callOf 0 1) = (some 0, none, none) := by decide

/-- Section 6.9 at 41.0 s: the ceiling bounds the level stored. -/
theorem test_quiet : cellsF (after (.quiet 0 1 7) on) = [(.status, 1, 8, 6)] := by decide

/-- Section 8.8 at 175 s, and section 9.11 at 20 s: FIRE_MODE is cause 17. -/
theorem test_unlatch :
    (callsL (after (.unlatch 0 1) talking), cellsF (after (.unlatch 0 1) { talking with lineSource := true })) =
      ([(.unlatch, 0)], [(.status, 1, 10, 17)]) := by decide

/-- R7: no effect. -/
theorem test_handset_restart : after (.handsetRestart 0 1) on = on := by decide

/-! ## Timers -/

/-- R68: LANE_TIMEOUT is CALL bit 2 and cause 9. -/
theorem test_lane_wait_expiry :
    let t := after (.laneWaitExpiry 0) (waitingH on)
    (t.waiting, t.status.call, callsL t) = ([], 4, [(.release, 9)]) := by decide

/-- Section 3.8 at 10 s: a step moves the entry up, and with no lane to be had it stays. -/
theorem test_ageing_step :
    (after (.ageingStep 0) (waitingH { on with
      retained := { house with outMarks := house.outMarks.set 0 (List.replicate 12 true) } })).waiting =
      [{ handle := 0, port := .H, steps := 1, ageing := some 100 }] := by decide

/-- Section 4.8 at 30 s: a step at which the arbiter grants the lowest FREE lane. -/
theorem test_ageing_step_grants :
    let t := after (.ageingStep 0) (waitingH on)
    (t.waiting, stateOf t, t.holder .H 0) = ([], some .forwarded, some 0) := by decide

/-- Section 5.10: NO_PROGRESS (10) toward both sides. -/
theorem test_progress_wait_expiry :
    let t := after (.progressWaitExpiry 0) (upHigh .forwarded (running .progressWait))
    (callsL t, callsH t) = ([(.release, 10)], [(.release, 10)]) := by decide

/-- R138. -/
theorem test_grant_wait_expiry :
    callsH (after (.grantWaitExpiry 0) (relayed .awaitingGrant none (running .grantWait))) = [(.release, 10)] := by
  decide

/-- Section 6.10 at 31.7 s: CANCEL in entry order, then RELEASE NO_ANSWER (6). -/
theorem test_ring_timer_expiry :
    let t := after (.ringTimerExpiry 0)
      (upFlat .ringing (.offered 0) [entry 1 .alerting, entry 2 .sent] none (running .ringTime))
    (cellsF t, callsL t) = ([(.cancel, 1, 0, 0), (.cancel, 2, 0, 0)], [(.release, 6)]) := by decide

/-- Section 8.8 at 170 s. -/
theorem test_limit_near :
    let t := after (.limitNear 0) talking
    (callsL t, cellsF t) = ([(.progress, 5)], [(.status, 1, 6, 0)]) := by decide

/-- Section 8.8 at 180 s, node 2: TALK_LIMIT is 11. -/
theorem test_talk_limit_expiry :
    let t := after (.talkLimitExpiry 0) talking
    (callsL t, cellsF t, t.activity[0]) = ([(.release, 11)], [(.status, 1, 7, 11)], .idle) := by decide

/-- R148: freed with a side still open, CALL bit 4. -/
theorem test_guard_timer_expiry :
    let t := after (.guardTimerExpiry 0) (after (.release .L lowKey 1) (upHigh .connected))
    (stateOf t, t.status.call) = (none, 16) := by decide

/-! ## Management -/

/-- R176: another node's request goes up port H unchanged. -/
theorem test_mgmt_request_forward :
    (after (.mgmtRequestForward .L 1 { request 1 0 0 0 with node := 6 }) on).portH.queue =
      [.mgmt .request 1 { request 1 0 0 0 with node := 6 }] := by decide

/-- R176: a reply from above goes down unchanged. -/
theorem test_mgmt_relay_down :
    (after (.mgmtRelayDown .H false 1 { request 1 0 0 0 with node := 6 }) on).portL.queue =
      [.mgmt .reply 1 { request 1 0 0 0 with node := 6 }] := by decide

/-- Section 11.7: READ of item 9 field 1 is 1 while the lock is set. -/
theorem test_read : lastReply (after (.read (request 9 1 0 0)) { on with locked := true }) = some (1, 1) := by decide

/-- R37: a quiet level above its ceiling is CLAMPED (2) to it. -/
theorem test_write : lastReply (after (.write (request 3 5 0 7)) on) = some (2, 6) := by decide

/-- R35: the number of the other flat is a DUPLICATE (6), and the present value is answered. -/
theorem test_write_duplicate : lastReply (after (.write (request 3 0 0 6)) on) = some (6, 5) := by decide

/-- R49, R72: with the fire reserve written 0, the one lane in service goes to the call that waits for it. -/
theorem test_write_reserve_grants :
    let d : Retained := { house with
      outMarks := house.outMarks.set 0 (List.replicate 11 true ++ [false])
      settings := house.settings.set 0 { fire := 1, priority := 0, threshold := 5 } }
    let t := after (.write (request 5 0 1 0)) (waitingH { on with retained := d })
    (stateOf t, t.holder .H 11, t.waiting) = (some .forwarded, some 0, []) := by decide

/-- R157, R161, R162: LEVEL_HIGH is code 2; written with the FIRE pin high it is the entry into fire mode. -/
theorem test_write_sense_enters :
    let t := after (.write (request 8 0 0 2)) (waitingH { on with pins := { on.pins with fireHigh := true } })
    (t.status.system, t.waiting, callsL t) = (2, [], [(.release, 17)]) ∧ t.portL.queue.length = 3 := by decide

/-- R50: an ageing period of 0 ends the step under way. -/
theorem test_write_ageing_stops :
    (after (.write (request 6 5 0 0)) (waitingH on)).waiting.map WaitEntry.ageing = [none] := by decide

/-- R177: an index above 9 names no port, NO_ITEM (4); and there is no item 15. -/
theorem test_no_item :
    [Instr.laneOut (request 0 0 10 0), .portEnable (request 0 0 10 0), .update (request 15 0 0 0)].map
      (fun c => lastReply (after c on)) = [some (4, 0), some (4, 0), some (4, 0)] := by decide

/-- R40: a failed compare is COMPARE_FAILED (8) with the present value; a good one is DONE with the old value. -/
theorem test_update :
    (lastReply (after (.update (request 3 5 0 0 3)) on), lastReply (after (.update (request 3 5 0 0 1)) on)) =
      (some (8, 1), some (1, 1)) := by decide

/-- Section 11.7: FLOOR_FAULT sets again while its cause is present. -/
theorem test_clear_events :
    let t := after (.clearEvents (request 0 0 2 12))
      { on with status := { on.status with line := 12 },
                floors := on.floors.set 2 { lineUp with line := .fault, faultMark := true } }
    (t.status.line, lastReply t, t.portL.queue.length) = (4, some (1, 4), 2) := by decide

/-- R182: bits that name no event are stored as 0. -/
theorem test_set_masks : lastReply (after (.setMasks (request 0 0 1 65535)) on) = some (1, 63) := by decide

/-- R61: a HELD lane becomes pending-out. -/
theorem test_lane_out :
    (after (.laneOut (request 0 2 1 0)) (upHigh .connected)).laneState .H 2 = .pendingOut 0 := by decide

/-- R62: port L's lanes are not this switch's; BAD_VALUE is 5. -/
theorem test_lane_in : lastReply (after (.laneIn (request 0 2 0 0)) on) = some (5, 0) := by decide

/-- R167, R179: PORT_DISABLED (19) to the call, and the mark is kept. -/
theorem test_port_disable :
    let t := after (.portDisable (request 0 0 2 0)) talking
    (t.floors[0].line, t.retained.disabled[0], callsL t) = (.disabled, true, [(.release, 19)]) := by decide

/-- R12: an enabled port starts in FAULT. -/
theorem test_port_enable :
    (after (.portEnable (request 0 0 2 0)) { on with floors := on.floors.set 0 { lineUp with line := .disabled } }).floors[
      0].line = .fault := by decide

/-- R181: a value above 1 is BAD_VALUE. -/
theorem test_set_service :
    ((after (.setService (request 0 0 0 1)) on).retained.service, lastReply (after (.setService (request 0 0 0 2)) on)) =
      (.outOfService, some (5, 0)) := by decide

/-- R180: a locked switch refuses a write LOCKED (3), SYSTEM bit 3. -/
theorem test_lock :
    let t := after (.write (request 5 0 4 2)) (after (.lock (request 0 0 0 0)) on)
    (lastReply t, t.status.system) = (some (3, 0), 8) := by decide

/-- R185: with no room for its reply the reset takes effect at once; else it waits for the reply to leave. -/
theorem test_reset :
    ((after (.reset (request 0 0 0 0)) fullL).portL.link, (after (.reset (request 0 0 0 0)) on).portL.link) =
      (.down, .up) := by decide

/-! ## The directory's worked example (section 2.10) -/

/-- Node 2 of the example. -/
def nodeTwo : State :=
  let w (base limit : Nat) (t : Target) : Window := { base := base, limit := limit, target := t }
  let x (number : Nat) (k : Floor) (a : Addr) : Slot :=
    { Slot.default with number := number, port := k, main := a }
  { on with
    floors := on.floors.set 2 { lineUp with line := .fault }
    retained := { house with
      ordinary := #v[w 901 906 (.floor 0), w 1001 1006 (.floor 1), w 1101 1106 (.floor 2), w 1201 1206 (.floor 3),
        w 1301 1306 (.floor 4), w 1401 1406 (.floor 5), w 1501 1506 (.floor 6), w 1601 1699 (.floor 7)]
      exceptions := #v[w 1690 1699 .bar, w 1203 1203 (.floor 4), w 2001 2010 .bar, w 1 0 .high]
      slots := ((((((Vector.replicate 96 Slot.default).set 0 (x 901 0 1)).set 10 (x 1101 2 1)).set 13
        (x 1202 3 2)).set 14 (x 1203 4 7)).set 20 (x 1302 4 2)).set 30 (x 1505 3 6) } }

/-- Its ten lookups, in the order of the example's table. -/
theorem test_routing_example :
    [901, 1202, 1203, 1505, 1104, 1101, 1695, 1606, 2005, 0].map nodeTwo.route =
      [.floor 0 0, .floor 3 13, .floor 4 14, .refused .noSuchApartment true, .refused .noSuchApartment false,
       .refused .lineFault false, .refused .barred false, .refused .noSuchApartment false, .high,
       .refused .invalid false] := by decide

/-- The preemption of section 3.8 at 30 s: of the class 2 holders of lanes 0, 2 and 6, the latest in grant order. -/
theorem test_victim_example :
    let classes : List Sys2Proof.Class := [2, 3, 2, 4, 5, 6, 2, 3]
    let s : State := (List.finRange 8).foldl
      (fun s i => (s.putCall ⟨i.val, by omega⟩ { upward .connected (.high .unopened) (some i.val) none with
        cls := classes[i.val]'(by simp [classes]) }).laneTaken .H i.val ⟨i.val, by omega⟩) on
    s.victim .H 7 = some (6, 6) := by decide

/-! ## Witnesses: for each statement with hypotheses, what meets them

`alive s p` gathers the hypotheses that most of the statements about riser cells share: the part is powered, the port is
UP, and there is room in the queues. -/

/-- Powered, port p UP and aligned, room for n cells on each riser port and on F0. -/
def alive (s : State) (p : Riser) (n : Nat := 1) : Bool :=
  s.powered && s.receives p && decide (s.roomL n) && decide (s.roomH n) && decide (s.roomF 0 n)

/-- `State.InLine` and `State.roomToGrant` as Booleans. -/
def lined (s : State) (l : List WaitEntry) : Bool := decide (s.InLine l)
def roomy (s : State) (p : Owned) (n : Nat) : Bool := decide (s.roomToGrant p n)

/-- The record with handle 0 is named by a key on a port and has a state and a direction. -/
def named (s : State) (p : Riser) (key : Key) (st : CallState) (d : Dir) : Bool :=
  alive s p && s.keyed p key == some 0 && stateOf s == some st && (s.call? 0).map CallRecord.dir == some d

theorem wit_StepRunsFront : { on with pending := [.handsetRestart 0 1] }.pending = .handsetRestart 0 1 :: [] := by decide

theorem wit_IdleIsOneUnit :
    on.pending = [] ∧ on.powered = true ∧ { on with powered := false }.pending = [] := by decide

theorem wit_PowerUpReset : on.retentionOk = true ∧ { on with retentionOk := false }.retentionOk = false := by decide

theorem wit_RemoteReset :
    on.takes (request 0 0 0 0) ∧ on.roomL 1 ∧ fullL.takes (request 0 0 0 0) ∧ 16 ≤ fullL.portL.queue.length ∧
    { on with resetReq := .due }.resetReq = .due ∧ on.resetReq ≠ .due := by decide

theorem wit_Supplies :
    on.powered = true ∧ { on with powered := false }.powered = false ∧
    (∀ pins, Instr.linkUp .L ≠ .powerUpReset pins) ∧ Instr.linkUp .L ≠ .standbySupplyLow :=
  ⟨by decide, by decide, by simp, by decide⟩

theorem wit_LinkUp :
    State.reset.portL.link = .down ∧ State.reset.portH.link = .down ∧ State.reset.top = false ∧
    { State.reset with top := true }.top = true ∧
    (let s := { waitingH on with portH := State.reset.portH }
     s.portH.link = .down ∧ s.entriesFor .H = s.waiting ∧ lined s (s.entriesFor .H) ∧
       roomy { s with portH := { on.portH with queue := [riserRestart] } } .H 1) := by decide

theorem wit_LinkDown :
    let s := upHigh .connected
    s.portL.link = .up ∧ s.portH.link = .up ∧ s.resetReq = .none ∧ s.waiting = [] ∧
    s.roomH (s.selected fun r => r.state != .clearing && (r.openKey .H).isSome).length ∧
    (∀ k : Floor, s.roomF k
      (s.floorCellsFor (fun r => r.state != .clearing && r.ownedPort == some (.F k)) .linkDown)) ∧
    s.roomL (1 + (s.selected fun r => r.ownedPort == some .H && r.state != .clearing && (r.openKey .L).isSome).length) ∧
    { s with resetReq := .replyAt 0 }.resetReq = .replyAt 0 ∧ State.reset.portL.link = .down ∧
    State.reset.portH.link = .down := by decide

theorem wit_LineReports :
    on.portL.aligned = true ∧ { on with top := true }.top = true ∧ on.floors[7].good ≠ false ∧
    arrivesOn .restartFromBelow = some .L ∧ State.reset.portL.link = .down ∧
    { on with portL := { on.portL with aligned := false } }.portL.link = .up ∧
    arrivesOn (.handsetRestart 7 31) = some (.F 7) ∧ State.reset.floors[7].line ≠ .up := by decide

theorem wit_FloorLine :
    let mine : CallRecord → Bool := fun r => r.ownedPort == some (.F 0) && r.state != .clearing
    talking.floors[0].line = .up ∧ talking.roomL (1 + (talking.selected fun r => mine r && (r.openKey .L).isSome).length) ∧
    talking.roomH (talking.selected fun r => mine r && (r.openKey .H).isSome).length ∧
    (let s := { upInLine with floors := upInLine.floors.set 0 { lineUp with line := .fault } }
     s.floors[0].line = .fault ∧ s.entriesFor (.F 0) = s.waiting ∧ lined s (s.entriesFor (.F 0)) ∧
       roomy upInLine (.F 0) 1) := by decide

theorem wit_TransmitCell :
    fullL.portL.link = .up ∧ fullL.portL.queue = riserRestart :: List.replicate 15 riserRestart ∧
    on.portL.queue = [] ∧ on.portH.queue = [] ∧ on.floors[0].queue = [] ∧ on.floors[0].line = .up := by decide

theorem wit_CellCheckFailed :
    checkPasses (List.replicate 16 0) = false ∧ on.hears (.F 7) = true ∧ on.hears .L = true ∧ on.roomL 1 ∧
    State.reset.hears .L = false ∧
    (let c := withCheck (14 :: List.replicate 13 0); checkPasses c = true ∧ c.length = 16 ∧ c.head? = some 14) ∧
    (let c := withCheck ([3, 0, 255] ++ List.replicate 5 0 ++ [6] ++ List.replicate 5 0)
     checkPasses c = true ∧ c.length = 16 ∧ (c)[8]? = some 6) ∧
    (let c := withCheck [3, 0, 128, 0, 2, 0]; checkPasses c = true ∧ c.length = 8 ∧ c.head? = some 3) := by decide

theorem wit_AlertingFromAbove :
    laneFieldOk 11 = true ∧ laneFieldOk 255 = true ∧
    named (upHigh .forwarded (running .progressWait)) .H (ownKey .H 0) .forwarded .up ∧
    named (upHigh .ringing) .H (ownKey .H 0) .ringing .up := by decide

theorem wit_HoldAndLimitFromAbove :
    laneFieldOk 0 = true ∧ named (upHigh .connected) .H (ownKey .H 0) .connected .up ∧
    named (upHigh .parked) .H (ownKey .H 0) .parked .up ∧ named (upHigh .connected) .L lowKey .connected .up ∧
    named (upHigh .parked) .L lowKey .parked .up := by decide

theorem wit_LaneGrant :
    named (relayed .awaitingGrant none) .L (ownKey .L 0) .awaitingGrant .down ∧ laneOf 11 = some 11 ∧ laneOf 255 = none ∧
    (relayed .awaitingGrant none).mirror[11] = none ∧
    { relayed .awaitingGrant none with mirror := Vector.replicate 12 (some 1) }.mirror[11] = some 1 ∧
    alive on .H := by decide

theorem wit_ProgressFromBelow :
    named (dialled .awaitingGrant none) .L (ownKey .L 0) .awaitingGrant .down ∧
    named (relayed .awaitingGrant none) .L (ownKey .L 0) .awaitingGrant .down ∧
    named (dialled .forwarded (some 4)) .L (ownKey .L 0) .forwarded .down ∧
    named (relayed .forwarded (some 4)) .L (ownKey .L 0) .forwarded .down ∧
    named (dialled .ringing (some 4)) .L (ownKey .L 0) .ringing .down ∧
    named (relayed .ringing (some 4)) .L (ownKey .L 0) .ringing .down := by decide

theorem wit_ConnectJoins :
    named (upHigh .forwarded) .H (ownKey .H 0) .forwarded .up ∧
    (upHigh .forwarded).call? 0 =
      some (upward .forwarded (.high (.opened (ownKey .H 0))) (some 2) none) ∧
    ((dialled .ringing (some 4)).call? 0).map (fun r => (r.lLane, r.ownedLane, r.answering)) =
      some (some 4, some 1, some 1) ∧
    ((relayed .forwarded (some 4)).call? 0).map (fun r => (r.lLane, r.ownedLane, r.far)) =
      some (some 4, some 1, .high (.opened highKey)) := by decide

/-- A call held below. -/
def heldBelow (s : State) : State :=
  { s with calls := s.calls.set 0 ((s.call? 0).map fun r => { r with heldBelow := true, lLane := none })
           mirror := Vector.replicate 12 none, crosses := [] }

theorem wit_HoldFromBelow :
    named talking .L lowKey .connected .up ∧ named (upHigh .connected) .L lowKey .connected .up ∧
    named (upHigh .parked) .L lowKey .parked .up ∧
    ((upHigh .parked).call? 0).map (fun r => (r.heldBelow, r.lLane)) = some (false, some 4) ∧
    named (heldBelow talking) .L lowKey .connected .up ∧ named (heldBelow (upHigh .parked)) .L lowKey .parked .up ∧
    named (heldBelow (upHigh .connected)) .L lowKey .connected .up ∧ laneOf 0 = some 0 ∧ laneOf 255 = none ∧
    (heldBelow talking).mirror[0] = none := by decide

/-- A record in CLEARING whose two sides are as given. -/
def cleared (low far : RiserSide) : State :=
  put on { upward .clearing (.high far) none (running .guard) with low := low, lLane := none }

theorem wit_ReleaseHandshake :
    named talking .L lowKey .connected .up ∧ named (upHigh .forwarded) .H (ownKey .H 0) .forwarded .up ∧
    talking.roomF 0 3 ∧ upInLine.keyed .L lowKey = some 0 ∧
    (∀ r ∈ upInLine.call? 0, upInLine.waitersOn 0 r = upInLine.waiting ∧ lined upInLine upInLine.waiting) ∧
    named (cleared (.opened lowKey) (.opened (ownKey .H 0))) .L lowKey .clearing .up ∧
    named (cleared .closed (.opened (ownKey .H 0))) .H (ownKey .H 0) .clearing .up := by decide

theorem wit_StrayCells :
    alive on .L ∧ alive on .H ∧ on.keyed .L lowKey = none ∧ on.keyed .H { side := .low, ref := 63 } = none ∧
    laneFieldOk 11 = true ∧ laneFieldOk 255 = true ∧ laneOf 11 = some 11 ∧ (15 : Word).toNat ≤ 15 ∧
    named (upHigh .connected) .L lowKey .connected .up ∧
    named (cleared (.opened lowKey) (.opened (ownKey .H 0))) .L lowKey .clearing .up ∧
    named (cleared (.opened lowKey) (.opened (ownKey .H 0))) .H (ownKey .H 0) .clearing .up ∧ laneFieldOk 12 = false ∧
    named (upHigh .connected) .H (ownKey .H 0) .connected .up ∧ named (upHigh .ringing) .H (ownKey .H 0) .ringing .up ∧
    named (relayed .connected (some 4)) .H highKey .connected .down ∧
    named (relayed .connected (some 4)) .L (ownKey .L 0) .connected .down ∧
    named (heldBelow talking) .L lowKey .connected .up := by decide

theorem wit_UnlatchFromAbove :
    named (upHigh .connected) .H (ownKey .H 0) .connected .up ∧ named (upHigh .parked) .H (ownKey .H 0) .parked .up ∧
    named (relayed .connected (some 4)) .H highKey .connected .down ∧
    { upHigh .connected with lineSource := true }.fireMode = true ∧ (15 : Word).toNat ≤ 15 ∧
    alive on .L ∧ alive on .H ∧ (1 : BitVec 2) ≠ 0 ∧ 15 < (16 : Word).toNat := by decide

theorem wit_Restarts :
    let s := upHigh .connected
    alive s .L ∧ alive s .H ∧ s.waiting = [] ∧
    (s.call? 0).map (fun r => ((r.openKey .L).isSome, (r.openKey .H).isSome)) = some (true, true) ∧
    ((dialled .awaitingGrant none).call? 0).map (fun r => (r.openKey .H).isSome) = some false ∧
    s.roomH (s.selected fun r => r.state != .clearing && (r.openKey .L).isSome && (r.openKey .H).isSome).length ∧
    s.roomL (s.selected fun r => r.state != .clearing && (r.openKey .L).isSome && (r.openKey .H).isSome).length ∧
    (∀ k : Floor, talking.roomF k (talking.floorCellsFor (fun r =>
      r.state != .clearing && (r.openKey .L).isSome && r.ownedPort == some (.F k)) .neighbourRestart)) ∧
    (let left := dialInLine.waitersLeft fun r => (r.openKey .L).isSome
     left = dialInLine.waiting ∧ lined dialInLine left ∧ alive dialInLine .L 3 ∧
       dialInLine.frees (fun r => (r.openKey .L).isSome) (.F 0) = true) ∧
    ((waitingH on).waitersLeft fun r => (r.openKey .H).isSome) = (waitingH on).waiting ∧
    lined (waitingH on) (waitingH on).waiting ∧ alive (waitingH on) .H 2 := by decide

/-- A SETUP from below to a flat, and one routed HIGH, at the bounds of the lane, the origin and the destination. -/
theorem wit_SetupForwarded :
    alive on .L ∧ laneOf 11 = some 11 ∧ originOf 0 15 = some (.panel 15) ∧ (9999 : Word).toNat ≤ 9999 ∧
    on.keyed .L lowKey = none ∧ on.mirror[11] = none ∧ on.freeHandles = 0 :: on.freeHandles.tail ∧
    on.retained.baseClass (.panel 15) 7 = 6 ∧ on.fireRefuses 6 = false ∧ on.route 9999 = .high ∧
    on.admitLane .H 6 = some 0 := by decide

theorem wit_SetupOffered :
    originOf 2 65535 = some (.firePosition 65535) ∧ on.route 5 = .floor 0 0 ∧ on.route 6 = .floor 0 1 ∧
    on.retained.baseClass (.firePosition 65535) 7 = 7 ∧ (on.retained.slots[0].quiet < (2 : Sys2Proof.Class)) ∧
    on.activity[0] = .idle ∧ on.admitLane (.F 0) 7 = some 0 ∧ on.roomF 0 1 := by decide

theorem wit_SetupRefused :
    alive on .L 2 ∧ laneOf 12 = none ∧ originOf 0 16 = none ∧ originOf 1 0 = none ∧ originOf 1 10000 = none ∧
    originOf 3 0 = none ∧ 9999 < (10000 : Word).toNat ∧ highKey.side = .high ∧ talking.keyed .L lowKey ≠ none ∧
    talking.mirror[4] ≠ none ∧ { on with freeHandles := [] }.freeHandles = [] ∧ originOf 1 1 = some (.apartment 1) ∧
    { on with lineSource := true }.fireRefuses 4 = true ∧ on.route 0 = .refused .invalid false ∧
    nodeTwo.route 1505 = .refused .noSuchApartment true ∧ nodeTwo.roomL 2 ∧
    State.reset.retained.service = .outOfService ∧ nodeTwo.retained.service = .inService ∧
    ¬ ((1 : Sys2Proof.Class) = 7 ∨ on.retained.slots[0].quiet < (1 : Sys2Proof.Class)) ∧
    (talking.route 5 = .floor 0 0 ∧ talking.activity[0] ≠ .idle ∧
      talking.retained.slots[0].quiet < (2 : Sys2Proof.Class)) := by decide

theorem wit_DownwardAdmitted :
    alive on .H ∧ laneFieldOk 255 = true ∧ originOf 1 9999 = some (.apartment 9999) ∧ on.keyed .H highKey = none ∧
    on.freeHandles = 0 :: on.freeHandles.tail ∧ on.fireRefuses 6 = false ∧ on.retained.service = .inService ∧
    on.admitLane .H 6 = some 0 ∧ on.floorUp 0 = true ∧ on.retained.handset 0 2 = some (0, .extension) ∧
    on.activity[0] = .idle ∧ on.fireRefuses on.retained.slots[0].callDown = false ∧ on.admitLane (.F 0) 3 = some 0 ∧
    on.roomL 1 := by decide

/-- A number in no ordinary window, one in an ordinary window alone, one also in an exception window, and slots that have and
that lack a number. -/
theorem wit_SetupRefused_route :
    let d := nodeTwo.retained
    let inside : Window → Nat → Prop := fun x n => x.base ≤ x.limit ∧ x.base ≤ n ∧ n ≤ x.limit
    (∀ i : Fin 8, ¬ inside d.ordinary[i] 2005) ∧
    (inside d.ordinary[3] 1202 ∧ (∀ j < (3 : Fin 8), ¬ inside d.ordinary[j] 1202) ∧ ∀ j : Fin 4, ¬ inside d.exceptions[j] 1202) ∧
    (inside d.ordinary[3] 1203 ∧ inside d.exceptions[1] 1203 ∧ ∀ m < (1 : Fin 4), ¬ inside d.exceptions[m] 1203) ∧
    (d.slots[14].number = 1203 ∧ (∀ j < (14 : SlotNo), d.slots[j].number ≠ 1203) ∧ d.slots[14].port = 4) ∧
    ∀ i : SlotNo, d.slots[i].number ≠ 1104 := by decide

/-- Every H lane OUT. -/
def noLanes : State := { on with retained := { house with outMarks := house.outMarks.set 0 (List.replicate 12 true) } }

/-- The list is full of entries of the call with handle 47, of class 2. -/
def fullList : State :=
  let s := noLanes.putCall 47
    { upward .waitingLane (.high .unopened) none (running .laneWait) with low := .opened { side := .low, ref := 20 } }
  { s with
    freeHandles := s.freeHandles.dropLast
    waiting := List.replicate 16 { handle := 47, port := .H, steps := 0, ageing := none } }

/-- The call that a SETUP of class c from panel 3 to number 500 makes. -/
def newHigh (c : Sys2Proof.Class) : CallRecord := newUpward c (.panel 3) 500 lowKey 4 (.high .unopened)

/-- The state in which that call has its record, the handle 0. -/
def withNewHigh (s : State) (c : Sys2Proof.Class) : State :=
  ({ s with freeHandles := s.freeHandles.tail, mirror := s.mirror.set 4 (some 0) } : State).putCall 0 (newHigh c)

theorem asks_high : noLanes.Asks (.setupFromBelow lowKey 4 500 2 0 3) 0 (newHigh 2) (withNewHigh noLanes 2) .H
    fun u => u.sentL [progressCell lowKey .queued] :=
  .high _ _ _ _ _ _ 4 (.panel 3) _ _ _ (by decide) (by decide) (by decide) (by decide) (by decide) (by decide) (by decide)
    (by decide) rfl (by decide) (by decide) (by decide)

theorem asks_high_full (c : Sys2Proof.Class) (hc : c = 2 ∨ c = 3) :
    fullList.Asks (.setupFromBelow lowKey 4 500 c 0 3) 0 (newHigh c) (withNewHigh fullList c) .H
      fun u => u.sentL [progressCell lowKey .queued] := by
  rcases hc with rfl | rfl <;>
  exact .high _ _ _ _ _ _ 4 (.panel 3) _ _ _ (by decide) (by decide) (by decide) (by decide) (by decide) (by decide)
    (by decide) (by decide) rfl (by decide) (by decide) (by decide)

theorem asks_flat : on.Asks (.setupFromBelow lowKey 4 5 2 0 3) 0
    (newUpward 2 (.panel 3) 5 lowKey 4 (.floor (house.slots[0].capture 0 none)))
    (({ on with freeHandles := on.freeHandles.tail, mirror := on.mirror.set 4 (some 0) } : State).putCall 0
      (newUpward 2 (.panel 3) 5 lowKey 4 (.floor (house.slots[0].capture 0 none)))) (.F 0)
    fun u => (u.sentL [progressCell lowKey .queued]).putActivity 0 (.pending 0) :=
  .flat _ _ _ _ _ _ 4 (.panel 3) _ _ _ 0 0 (by decide) (by decide) (by decide) (by decide) (by decide) (by decide)
    (by decide) (by decide) rfl (by decide) (by decide) (by decide) (by decide) (by decide)

theorem asks_relayed : noLanes.Asks (.setupFromAbove highKey 255 0 3 1 1302) 0
    (newDownward 3 (.apartment 1302) 0 (.high (.opened highKey)))
    (({ noLanes with freeHandles := noLanes.freeHandles.tail } : State).putCall 0
      (newDownward 3 (.apartment 1302) 0 (.high (.opened highKey)))) .H
    fun u => u.sentH [progressCell highKey .queued] :=
  .relayed _ _ _ _ _ (.apartment 1302) _ _ _ (by decide) (by decide) (by decide) (by decide) (by decide) (by decide) rfl
    (by decide) (by decide) rfl

theorem asks_dial : on.Asks (.dial 0 1) 0
    (newDownward 3 (.dialled 0) 0 (.floor (house.slots[0].capture 0 (some 1))))
    ((({ on with freeHandles := on.freeHandles.tail } : State).putCall 0
      (newDownward 3 (.dialled 0) 0 (.floor (house.slots[0].capture 0 (some 1))))).putActivity 0 (.originating 0)) (.F 0)
    fun u => u.sentF 0 [statusCell (0 : Handle).val 1 .queued] :=
  .dial _ _ 0 .main _ _ _ (by decide) (by decide) (by decide) (by decide) rfl (by decide) (by decide) rfl

/-- With `asks_high` to `asks_dial`: a call that finds no lane, one that finds the list full behind a tail of its own class or
of a lower one, one that finds port H DOWN, and one that finds a lane. -/
theorem wit_LaneRequests :
    (let t := withNewHigh noLanes 2
     noLanes.roomL 3 ∧ noLanes.roomH 2 ∧ (∀ k : Floor, noLanes.roomF k 2) ∧ t.usable .H = true ∧ t.admitLane .H 2 = none ∧
       t.preemption .H 2 = none ∧ t.waiting.length < 16) ∧
    (∀ c ∈ [(2 : Sys2Proof.Class), 3],
      let t := withNewHigh fullList c
      t.admitLane .H c.val = none ∧ t.preemption .H c = none ∧ 16 ≤ t.waiting.length ∧
        t.waiting.getLast? = some { handle := 47, port := .H, steps := 0, ageing := none } ∧
        t.entryPriority { handle := 47, port := .H, steps := 0, ageing := none } = 2) ∧
    ({ on with portH := State.reset.portH }.usable .H = false ∧
      { on with portH := State.reset.portH }.route 500 = .high) ∧
    (withNewHigh on 2).admitLane .H 2 = some 0 := by decide

theorem wit_SetupFromAboveRefused :
    laneFieldOk 12 = false ∧ laneFieldOk 254 = false ∧ originOf 3 0 = none ∧ lowKey.side = .low ∧
    (relayed .forwarded none).keyed .H highKey ≠ none ∧ on.keyed .H highKey = none ∧
    { on with freeHandles := [] }.freeHandles = [] ∧ { on with lineSource := true }.fireRefuses 0 = true ∧
    State.reset.retained.service = .outOfService ∧ (1 : Word) ≠ 0 := by decide

theorem wit_DialAnswered :
    on.retained.handset 0 31 = none ∧ on.retained.handset 7 1 = none ∧ on.roomF 0 1 ∧ on.roomL 1 ∧
    16 ≤ { on with floors := on.floors.set 0 { lineUp with queue := List.replicate 16 floorRestart } }.floors[0].queue.length ∧
    talking.activity[0] = .engaged 0 ∧ { on with freeHandles := [] }.activity[0] = .idle ∧
    { on with lineSource := true }.fireRefuses 3 = true ∧
    { on with retained := { house with service := .outOfService } }.retained.service = .outOfService ∧
    (upFlat .waitingLane (.pending 0) []).activity[0] = .pending 0 ∧
    ((upFlat .waitingLane (.pending 0) []).call? 0).bind (fun r => r.far.floor?) = some (flatSide [] none) := by decide

theorem wit_AnswerConnects :
    offered.floorUp 0 = true ∧ offered.call? 0 = some (upward .offering
      (.floor (flatSide [entry 1 .sent, entry 2 .sent] none)) (some 1) none) ∧
    entryOf 2 [entry 1 .sent, entry 2 .sent] = some (1, entry 2 .sent) ∧ offered.roomL 1 ∧
    offered.roomF 0 ((flatSide [entry 1 .sent, entry 2 .sent] none).answerCells 0 2 1).length ∧
    offered.retained.handset 0 2 = some (0, .extension) ∧ offered.activity[0] = .offered 0 ∧
    200 < on.retained.talkLimits[2] ∧ talkLegal 0 ∧ talkLegal 200 := by unfold talkLegal; decide

/-- R141: a limit of 200 has no near mark, and one of 201 has it at 101. -/
theorem test_talk_timer :
    [0, 200, 201].map (fun v => { on with retained := { house with talkLimits := house.talkLimits.set 2 v } }.talkTimer 2) =
      [none, some { purpose := .talkLimit, left := 200, near := none },
       some { purpose := .talkLimit, left := 201, near := some 101 }] := by decide

theorem wit_AlertRings :
    offered.matchedEntry 0 1 0 = some (0, entry 1 .sent) ∧ stateOf offered = some .offering ∧
    (upFlat .ringing (.offered 0) [entry 1 .alerting, entry 2 .sent]).matchedEntry 0 2 0 = some (1, entry 2 .sent) := by
  decide

/-- The follow-on flat's call, its main handset offered. -/
def followOn : State :=
  let f : FloorSide := { flatSide [entry 3 .sent] none with slot := 1, main := 3, ext := some 4, mode := .followOn }
  put on (upward .offering (.floor f) (some 1) none)

/-- Both handsets of the follow-on flat offered, the main one absent. -/
def followOnLast : State :=
  let f : FloorSide :=
    { flatSide [entry 3 .absent, entry 4 .sent 3] none with slot := 1, main := 3, ext := some 4, mode := .followOn }
  put on (upward .offering (.floor f) (some 1) none)

theorem wit_RefuseCounts :
    offered.matchedEntry 0 1 0 = some (0, entry 1 .sent) ∧
    (upFlat .ringing (.offered 0) [entry 1 .refused, entry 2 .alerting]).matchedEntry 0 2 0 =
      some (1, entry 2 .alerting) ∧
    followOn.matchedEntry 0 3 0 = some (0, entry 3 .sent) ∧ followOn.roomF 0 1 ∧
    followOnLast.matchedEntry 0 4 0 = some (1, entry 4 .sent 3) ∧
    offered.waitersOn 0 (upward .offering (.floor (flatSide [] none)) (some 1) none) = [] ∧ lined offered [] := by decide

theorem wit_WindowEnds :
    (upFlat .offering (.offered 0) [entry 1 .sent 2]).matchedEntry 0 1 0 = some (0, entry 1 .sent 2) ∧
    (upFlat .offering (.offered 0) [entry 1 .sent 3]).matchedEntry 0 1 0 = some (0, entry 1 .sent 3) ∧
    (upFlat .ringing (.offered 0) [entry 1 .alerting]).matchedEntry 0 1 0 = some (0, entry 1 .alerting) ∧
    (upFlat .offering (.offered 0) [entry 1 .sent 3, entry 2 .sent]).matchedEntry 0 1 0 = some (0, entry 1 .sent 3) ∧
    followOnLast.matchedEntry 0 4 0 = some (1, entry 4 .sent 3) ∧
    (entry 1 .sent 3).window.isSome = true ∧ offered.roomL 2 ∧ offered.roomF 0 1 := by decide

theorem wit_StrayResponses :
    47 < (48 : Byte).toNat ∧ (47 : Byte).toNat = (47 : Handle).val ∧ on.matchedEntry 0 1 47 = none ∧
    on.fromAnswering 0 1 47 = false ∧ talking.matchedEntry 0 1 0 = none ∧ talking.fromAnswering 0 1 0 = true ∧
    State.reset.floors[0].line ≠ .up := by decide

theorem wit_HookAndUnlatch :
    on.callOf 0 1 = none ∧ talking.callOf 0 1 = some 0 ∧ talking.fireMode = false ∧
    { talking with lineSource := true }.fireMode = true ∧ talking.retained.slots[0].unlatch = true ∧
    (dialled .ringing (some 4)).callOf 0 1 = some 0 ∧ stateOf (dialled .ringing (some 4)) = some .ringing ∧
    (dialled .connected (some 4)).callOf 0 1 = some 0 ∧ talking.roomL 1 ∧ talking.roomF 0 1 ∧
    talking.retained.handset 0 1 = some (0, .main) ∧ talking.activity[0].handle? = some 0 ∧
    (∀ r ∈ talking.call? 0, r.answering = some 1 ∧ lined talking (talking.waitersOn 0 r)) ∧
    (∀ r ∈ upInLine.call? 0, lined upInLine (upInLine.waitersOn 0 r)) ∧ upInLine.callOf 0 1 = some 0 := by decide

/-- A flat whose door lock may not be worked. -/
theorem wit_Unlatch_not_permitted :
    { talking with retained := { house with slots := house.slots.set 0 { flat with unlatch := false } } }.callOf 0 1 =
      some 0 := by decide

/-- The two flats have numbers and handsets of their own. -/
theorem house_unique : house.Unique := by
  have h : ∀ i : SlotNo, house.slots[i].occupied = true → i = 0 ∨ i = 1 := by decide
  intro i j hij hi hj
  rcases h i hi with rfl | rfl <;> rcases h j hj with rfl | rfl <;> first | exact absurd rfl hij | decide

theorem wit_QuietStores :
    7 < (8 : Byte).toNat ∧ (7 : Byte).toNat = (7 : Sys2Proof.Class).val ∧ on.retained.handset 0 1 = some (0, .main) ∧
    on.retained.handset 0 0 = none ∧ on.roomF 0 1 ∧ on.roomL 1 := by decide

/-- The record with handle 0 of `s` runs a timer of a purpose. -/
abbrev runs (s : State) (p : Purpose) : Prop := (s.call? 0).map (fun r => r.timing p) = some true

theorem wit_Expiries :
    runs (upHigh .forwarded (running .progressWait)) .progressWait ∧
    runs (relayed .awaitingGrant none (running .grantWait)) .grantWait ∧
    runs (upFlat .ringing (.offered 0) [entry 1 .alerting] none (running .ringTime)) .ringTime ∧
    runs talking .talkLimit ∧ runs (waitingH on) .laneWait ∧ (waitingH on).roomL 2 ∧ alive talking .L ∧
    ((talking.call? 0).bind CallRecord.timer).bind Timer.near = some 1700 ∧
    (∀ r ∈ (waitingH on).call? 0, lined (waitingH on) ((waitingH on).waitersOn 0 r)) ∧
    runs (cleared (.opened lowKey) .closed) .guard ∧ stateOf (cleared (.opened lowKey) .closed) = some .clearing ∧
    (cleared (.opened lowKey) .closed).roomL 1 := by decide

/-- There is room to end a connected call. -/
theorem wit_roomToEnd : talking.roomToEnd 0 (upward .connected (.floor (flatSide [entry 1 .answered] (some 1))) (some 1)
    none) .talkLimit :=
  ⟨by decide, by decide, fun f hf => by cases hf; decide⟩

/-- The same entry on a port whose lanes are all OUT. -/
def stuck : State := waitingH { on with retained := { house with outMarks := house.outMarks.set 0 (List.replicate 12 true) } }

theorem wit_AgeingAndPlacement :
    stuck.waiting.find? (fun y => y.handle == 0 && y.ageing.isSome) =
      some { handle := 0, port := .H, steps := 0, ageing := some 100 } ∧
    stuck.freeLanes .H = [] ∧
    stuck.waiting.Pairwise (fun a b => stuck.entryPriority b ≤ stuck.entryPriority a) ∧
    stuck.entryPriority { handle := 0, port := .H, steps := 4, ageing := none } = 6 ∧
    (let t := { waitingH on with waiting := [{ handle := 0, port := .H, steps := 1, ageing := some 100 }] }
     lined t (t.entriesFor .H) ∧ roomy t .H (t.entriesFor .H).length) := by decide

theorem wit_NeededTable : State.reset.retained.settings = Retained.default.settings := by decide

/-- Two calls on port H of classes 2 and 6, lane 3 taken after lane 2. -/
def twoCalls : State :=
  ((upHigh .connected).putCall 1 { upward .connected (.high .unopened) (some 3) none with cls := 6 }).laneTaken .H 3 1

theorem wit_AdmissionAndVictim :
    on.admitLane .H 4 = some 0 ∧ State.reset.usable .H = false ∧ (twoCalls.map .H).order.Nodup ∧
    twoCalls.victim .H 7 = some (2, 0) ∧ twoCalls.preemption .H 7 = some (2, 0) ∧ 2 ∈ (twoCalls.map .H).order ∧
    twoCalls.laneState .H 2 = .held 0 := by decide

theorem wit_PreemptionPasses :
    (Work.start twoCalls).call? 0 = some (upward .connected (.high (.opened (ownKey .H 0))) (some 2) none) ∧
    2 < (twoCalls.map .H).holders.length ∧ twoCalls.waiting.length < 16 ∧
    stateOf (upHigh .forwarded) = some .forwarded := by decide

/-- A call CONNECTED through port H, every other H lane OUT. -/
def lastLane : State :=
  { upHigh .connected with retained := { house with outMarks := house.outMarks.set 0 (List.replicate 12 true |>.set 2 false) } }

/-- The call of a class 7 SETUP from the fire position to number 500. -/
def urgent : CallRecord := newUpward 7 (.firePosition 0) 500 { side := .low, ref := 8 } 5 (.high .unopened)

/-- The state in which that call has its record, the handle 1. -/
def withUrgent : State :=
  ({ lastLane with freeHandles := lastLane.freeHandles.tail, mirror := lastLane.mirror.set 5 (some 1) } : State).putCall 1
    urgent

theorem asks_urgent : lastLane.Asks (.setupFromBelow { side := .low, ref := 8 } 5 500 7 2 0) 1 urgent withUrgent .H
    fun u => u.sentL [progressCell { side := .low, ref := 8 } .queued] :=
  .high _ _ _ _ _ _ 5 (.firePosition 0) _ _ _ (by decide) (by decide) (by decide) (by decide) (by decide) (by decide)
    (by decide) (by decide) rfl (by decide) (by decide) (by decide)

theorem wit_PreemptionPasses_setup :
    withUrgent.usable .H = true ∧ withUrgent.admitLane .H 7 = none ∧ withUrgent.preemption .H 7 = some (2, 0) ∧
    (withUrgent.call? 0).map (fun r => (r.state, r.ownedPort, r.ownedLane)) =
      some (.connected, some .H, some 2) ∧ withUrgent.waiting.length < 16 ∧
    lastLane.roomL 3 ∧ lastLane.roomH 2 ∧ (∀ k : Floor, lastLane.roomF k 2) := by decide

/-- A class 7 SETUP to the flat whose call is CONNECTED. -/
theorem wit_PreemptionPasses_flat :
    alive talking .L 3 ∧ talking.keyed .L { side := .low, ref := 8 } = none ∧ talking.mirror[5] = none ∧
    talking.retained.baseClass (.firePosition 0) 7 = 7 ∧ talking.fireRefuses 7 = false ∧ talking.route 5 = .floor 0 0 ∧
    talking.activity[0].handle? = some 0 ∧ talking.freeHandles.head? = some 1 ∧ talking.call? 1 = none ∧
    (∀ r ∈ talking.call? 0, lined talking (talking.waitersOn 0 r)) ∧
    (∀ k : Floor, talking.roomF k 2) ∧
    (let rv := upward .connected (.floor (flatSide [entry 1 .answered] (some 1))) (some 1)
       (some { purpose := .talkLimit, left := 1800, near := some 1700 })
     let r := newUpward 7 (.firePosition 0) 5 { side := .low, ref := 8 } 5 (.floor (house.slots[0].capture 0 none))
     let t : State := ({ talking with
       freeHandles := talking.freeHandles.tail, mirror := talking.mirror.set 5 (some 1) } : State).putCall 1 r
     talking.call? 0 = some rv ∧ (rv.lastFloorCells 0 .preempted).length = 1 ∧
       ((t.withEvent .preemption).ended 0 rv .preempted).admitLane (.F 0) 7 = some 0) := by decide

/-- The one call waiting in `waitingH on` has no lane. -/
theorem waitingH_idle : (waitingH on).waitersIdle := by
  refine ⟨by decide, fun x hx r hr => ?_⟩
  have hx' : x.handle = 0 := by
    simp only [waitingH, List.mem_singleton] at hx
    rw [hx]
  rw [hx', show (waitingH on).call? 0 = some (upward .waitingLane (.high .unopened) none (running .laneWait)) by
    decide] at hr
  cases hr
  exact ⟨.inl rfl, rfl⟩

theorem wit_FireEdge :
    on.pins.fireHigh = true ∧  (waitingH on).waiting.length = 1 ∧ (waitingH on).roomL 2 ∧
    (waitingH on).roomH 1 ∧ (∀ k : Floor, (waitingH on).roomF k 1) ∧ on.pins.fireHigh ≠ false ∧
    { on with retained := { house with sense := .fallLatch } }.localSource = false := by decide

theorem wit_FireOnAndOff :
    alive on .L ∧ alive on .H ∧ on.lineSource = false ∧ { on with lineSource := true }.lineSource = true ∧
    (waitingH on).lineSource = false ∧ (waitingH on).fireMode = false ∧ (waitingH on).waiting.length = 1 ∧
    (waitingH on).roomL 2 ∧ (waitingH on).roomH 2 ∧ (∀ k : Floor, (waitingH on).roomF k 1) := by decide

theorem wit_MgmtReaches :
    alive on .L ∧ alive on .H ∧ 15 < (16 : Byte).toNat ∧ MgmtOp.ofByte 0 = none ∧ MgmtOp.ofByte 13 = none ∧
    (MgmtOp.ofByte 12).isSome = true ∧ fullL.receives .H = true ∧ fullL.riserUp .L = true ∧
    16 ≤ fullL.portL.queue.length ∧
    16 ≤ { on with portH := { on.portH with queue := List.replicate 16 riserRestart } }.portH.queue.length ∧ (15 : Byte).toNat ≠ on.node.val ∧ { on with node := 0 }.node.val = 0 := by decide

theorem wit_ReadReplies :
    on.takes (request 9 1 0 0) ∧ on.roomL 1 ∧ fieldRef 15 0 0 = none ∧ fieldRef 0 0 0 = none ∧
    fieldRef 11 0 47 = some (.call 47 0) ∧ on.readField (.call 47 0) = none ∧ fieldRef 14 3 9 = some (.interface (.F 7) 3) ∧
    on.readField (.interface (.F 7) 3) = some 0 ∧ (talking.call? 0).isSome = true ∧
    (waitingH on).waiting[0]? = some { handle := 0, port := .H, steps := 0, ageing := some 100 } ∧
    runs (waitingH on) .laneWait := by decide

/-- The settings of the tests are within their ranges. -/
theorem house_legal : house.Legal where
  ordinary := by unfold Window.Legal; decide
  exceptions := by unfold Window.Legal; decide
  slots := by unfold Slot.Legal; decide
  settings := by
    intro p
    cases p with
    | H => unfold PortSettings.Legal; decide
    | F k => revert k; unfold PortSettings.Legal; decide
  marks := by
    intro p
    cases p with
    | H => decide
    | F k => revert k; decide
  timers := by unfold TimerSettings.Legal; decide
  talkLimits := by unfold talkLegal; decide
  masks := by intro g; cases g <;> decide

theorem wit_QueuedFromAbove : house.Legal := house_legal

theorem wit_WriteDirectory :
    on.takes (request 4 0 15 8) ∧ on.locked = false ∧ on.roomL 1 ∧ fieldRef 4 0 15 = some (.ceiling 15) ∧
    fieldRef 1 0 7 = some (.window (.ordinary 7) .base) ∧ fieldRef 2 1 3 = some (.window (.exception 3) .limit) ∧
    fieldRef 1 2 0 = some (.window (.ordinary 0) .target) ∧ fieldRef 3 5 95 = some (.slot 95 .quiet) ∧
    fieldRef 3 0 0 = some (.slot 0 .number) ∧ fieldRef 3 10 0 = some (.activity 0) ∧
    FieldRef.readOnly (.activity 0) = true ∧ talking.activity[0] ≠ .idle ∧ on.activity[0] = .idle ∧
    on.retained.slots[1].number = 6 ∧ fieldRef 2 2 3 = some (.window (.exception 3) .target) ∧
    fieldRef 3 1 95 = some (.slot 95 .port) ∧ fieldRef 3 2 0 = some (.slot 0 .main) ∧
    fieldRef 3 3 0 = some (.slot 0 .ext) ∧ fieldRef 3 4 0 = some (.slot 0 .mode) ∧
    fieldRef 3 6 0 = some (.slot 0 .quietCeiling) ∧ fieldRef 3 7 0 = some (.slot 0 .residentQuiet) ∧
    fieldRef 3 8 0 = some (.slot 0 .callDown) ∧ fieldRef 3 9 0 = some (.slot 0 .unlatch) ∧
    on.retained.slots[0].port = on.retained.slots[1].port ∧ on.retained.slots[1].main = 3 := by decide

/-- R35: an empty slot that holds a handset of an occupied one is a DUPLICATE (6) when it takes a number. -/
theorem test_write_number_crowded :
    lastReply (after (.write (request 3 0 9 77)) { on with retained := { house with
      slots := house.slots.set 9 { Slot.default with port := 0, main := 2 } } }) = some (6, 0) := by decide

theorem wit_WriteSettings :
    (waitingH on).takes (request 5 0 1 0) ∧ lined (waitingH on) ((waitingH on).entriesFor .H) ∧
    (waitingH on).roomL 2 ∧ roomy (waitingH on) .H ((waitingH on).entriesFor .H).length ∧
    on.roomL 2 ∧ (waitingH on).roomL 3 ∧ (waitingH on).roomH 1 ∧ (∀ k : Floor, (waitingH on).roomF k 1) ∧
    (waitingH on).fireMode = false ∧
    { waitingH on with retained := { house with sense := .levelLow }, pins := { on.pins with fireHigh := false } }.fireMode =
      true ∧ fieldRef 6 0 0 = some (.timer .window) ∧ fieldRef 6 5 0 = some (.timer .ageing) ∧
    fieldRef 7 0 7 = some (.talkLimit 7) ∧ fieldRef 8 1 0 = some .fireClass ∧ fieldRef 5 2 9 = some (.setting (.F 7) .threshold) ∧
    fieldRef 5 1 1 = some (.setting .H .priority) ∧ fieldRef 5 0 1 = some (.setting .H .fire) ∧
    fieldRef 8 0 0 = some .senseMode ∧ SenseMode.ofCode 4 = some .fallLatch ∧ SenseMode.ofCode 5 = none ∧
    { on.storing { house with sense := .fallLatch } with latch := false }.localSource = false := by decide

theorem wit_UpdateCompares :
    on.readField (.slot 0 .quiet) = some 1 ∧ FieldRef.readOnly (.slot 0 .quiet) = false ∧
    (1 : Nat) ≠ (request 3 5 0 0 3).expected.toNat ∧ (1 : Nat) = (request 3 5 0 0 1).expected.toNat ∧
    on.readField (.activity 0) = some 0 ∧ fieldRef 15 0 0 = none ∧ on.roomL 3 := by decide

theorem wit_EventSetsCommanded :
    on.takes (request 0 0 3 0) ∧ on.roomL 2 ∧ 2 < (request 0 0 3 0).index.toNat ∧ Group.ofCode 2 = some .line ∧
    on.causePresent .floorFault = false ∧
    { on with floors := on.floors.set 7 { lineUp with line := .fault, faultMark := true } }.causePresent .floorFault =
      true := by decide

theorem wit_LanesOutAndIn :
    Port.ofNumber 1 = some (Owned.port .H) ∧ Port.ofNumber 9 = some (Owned.port (.F 7)) ∧ 11 < laneCount .H ∧
    laneCount .H ≤ 12 ∧ 2 < laneCount (.F 7) ∧ laneCount (.F 7) ≤ 3 ∧ on.laneState .H 11 ≠ .out ∧
    9 < (request 0 0 10 0).index.toNat ∧ lined on (on.entriesFor .H) ∧ roomy on .H 0 := by decide

theorem wit_PortsDisabledAndEnabled :
    talking.roomL (1 + (talking.selected fun r =>
      (r.ownedPort == some (.F 0) && r.state != .clearing) && (r.openKey .L).isSome).length) ∧
    9 < (request 0 0 10 0).index.toNat ∧ (request 0 0 1 0).index.toNat ≤ 1 ∧ (request 0 0 9 0).index.toNat = (7 : Floor).val + 2 ∧
    on.floors[7].line = .up ∧ State.reset.floors[7].line = .fault ∧
    { on with floors := on.floors.set 7 { lineUp with line := .disabled } }.floors[7].line = .disabled := by decide

theorem wit_ServiceAndLock :
    on.takes (request 0 0 9 1) ∧ on.roomL 2 ∧ on.locked = false ∧ { on with locked := true }.locked = true ∧
    (request 0 0 9 1).value = 1 ∧ 1 < (request 0 0 9 2).value.toNat ∧ (request 0 0 9 1).index.toNat ≤ 9 ∧
    (fieldRef 3 5 0).isSome = true := by decide

theorem wit_LockKeepsRetained :
    { on with locked := true }.locked = true ∧ (∀ pins, Instr.quiet 0 1 7 ≠ .powerUpReset pins) ∧
    exec (.quiet 0 1 7) { on with locked := true } = .next (after (.quiet 0 1 7) { on with locked := true }) :=
  ⟨by decide, by simp, rfl⟩

/-- A call waits for port H, whose lanes are all OUT and keep no reserve, and LANE_IN of lane 3 waits in the queue. -/
def queuedH : State :=
  let d : Retained :=
    { house with
      outMarks := house.outMarks.set 0 (List.replicate 12 true)
      settings := house.settings.set 0 { fire := 0, priority := 0, threshold := 5 } }
  { waitingH { on with retained := d } with pending := [.laneIn (request 0 3 1 0)] }

/-- Its record. -/
def waiter : CallRecord := upward .waitingLane (.high .unopened) none (running .laneWait)

theorem queuedH_call : ∀ h : Handle, queuedH.call? h = if h = 0 then some waiter else none := by decide

theorem queuedH_holder (p : Owned) (i : Nat) : queuedH.holder p i = none := by
  have hm : ∀ p : Owned, (queuedH.map p).holders = List.replicate (laneCount p) none := by
    intro p
    cases p with
    | H => decide
    | F k => revert k; decide
  unfold State.holder
  rw [hm p, List.getElem?_replicate]
  split <;> rfl

theorem queuedH_inv : queuedH.Inv where
  legal :=
    { house_legal with
      settings := by
        intro p
        cases p with
        | H => unfold PortSettings.Legal; decide
        | F k => revert k; unfold PortSettings.Legal; decide
      marks := by
        intro p
        cases p with
        | H => decide
        | F k => revert k; decide }
  unique := house_unique
  status := by intro g; cases g <;> decide
  queueL := by unfold RiserPort.QueueOk; decide
  queueH := by unfold RiserPort.QueueOk; decide
  queues := by unfold FloorPort.QueueOk; decide
  topDown := by decide
  waiting := by decide
  handles := by unfold State.HandlesOk; decide
  lanes := by
    intro p
    cases p with
    | H => decide
    | F k => revert k; decide

theorem queuedH_linked : queuedH.Linked where
  held p i h := by
    rw [queuedH_holder, queuedH_call]
    split <;> simp [waiter, upward]
  order p := by
    have ho : (queuedH.map p).order = [] := by
      cases p with
      | H => decide
      | F k => revert k; decide
    simp [ho, queuedH_holder]
  mirror l h := by
    have hm : ∀ l : LLane, queuedH.mirror[l] = if l = 4 then some 0 else none := by decide
    rw [hm, queuedH_call]
    by_cases hl : l = 4 <;> by_cases hh : h = 0 <;> simp [hl, hh, waiter, upward, eq_comm]
  queued := by
    refine ⟨by decide, fun h => ?_⟩
    rw [queuedH_call, show queuedH.waiting = [{ handle := 0, port := .H, steps := 0, ageing := some 100 }] by decide]
    by_cases hh : h = 0 <;> simp [hh, waiter, upward, CallRecord.Waits, eq_comm]
  waits x hx r hr := by
    rw [show queuedH.waiting = [{ handle := 0, port := .H, steps := 0, ageing := some 100 }] by decide] at hx
    rw [List.mem_singleton] at hx
    subst hx
    rw [queuedH_call] at hr
    cases hr
    exact ⟨rfl, rfl⟩
  sorted := by decide
  settled := by
    intro p x hx
    have hf : queuedH.freeLanes .H = [] := by decide
    cases p with
    | H => simp [State.admitLane, hf]
    | F k =>
      rw [show queuedH.waiting = [{ handle := 0, port := .H, steps := 0, ageing := some 100 }] by decide] at hx
      simp at hx
  activity i h ha := by
    have hi : ∀ i : SlotNo, queuedH.activity[i].handle? = none := by decide
    rw [hi] at ha
    cases ha
  named h r f hr _ hf := by
    rw [queuedH_call] at hr
    split at hr <;> cases hr
    cases hf
  crosses := by
    refine ⟨by decide, fun x => ?_⟩
    rw [show queuedH.crosses = [] by decide, queuedH_call]
    constructor
    · intro h; cases h
    · rintro ⟨r, hr, hj⟩
      split at hr <;> cases hr
      cases hj.state
  clearing h r hr hc := by
    rw [queuedH_call] at hr
    split at hr <;> cases hr
    cases hc
  keys p h r key hr hk := by
    rw [queuedH_call] at hr
    split at hr <;> cases hr
    cases p <;> cases hk
    refine ⟨fun hs => (by cases hs), fun h' r' hr' _ => ?_⟩
    rw [queuedH_call] at hr'
    split at hr'
    · simp_all
    · cases hr'
  below h r hr hb := by
    rw [queuedH_call] at hr
    split at hr <;> cases hr
    cases hb

theorem wit_StepKeepsInv : queuedH.Inv ∧ ∃ t, step queuedH = .next t := ⟨queuedH_inv, _, rfl⟩

theorem wit_StepKeepsLinks : queuedH.Inv ∧ queuedH.Linked ∧ ∃ t, step queuedH = .next t :=
  ⟨queuedH_inv, queuedH_linked, _, rfl⟩

/-- A key names the record that has it, and one that no record has names none. -/
theorem wit_StrayCells_keyed :
    queuedH.Linked ∧ queuedH.keyed .L lowKey = some 0 ∧ queuedH.keyed .L { side := .low, ref := 10 } = none :=
  ⟨queuedH_linked, by decide, by decide⟩

/-- The entry that passes once the lane is FREE, and one that does not because of the reserve. -/
theorem wit_ArbiterGrants :
    let q := request 0 3 1 0
    let x : WaitEntry := { handle := 0, port := .H, steps := 0, ageing := some 100 }
    let marked (s : State) : State := (s.storing { s.retained with
      outMarks := s.retained.outMarks.set 0 (s.retained.outMarks[(0 : Fin 9)].set 3 false) }).replied .laneIn q .done 0
    queuedH.takes q ∧ queuedH.locked = false ∧ Port.ofNumber q.index.toNat = some (Owned.port .H) ∧
    q.field.toNat < laneCount .H ∧ queuedH.laneState .H 3 = .out ∧ queuedH.waiting = [] ++ x :: [] ∧
    (marked queuedH).admitLane .H 2 = some 3 ∧ waiter.Waits ∧ waiter.ownedPort = some .H ∧
    (waiter.lLane.isSome = true ∧ (waiter.openKey .L).isSome = true) ∧ queuedH.roomL 2 ∧ queuedH.roomH 1 ∧
    lined queuedH (queuedH.entriesFor .H) ∧ roomy (marked queuedH) .H (queuedH.entriesFor .H).length ∧
    stuck.laneState .H 3 = .out ∧ (marked stuck).admitLane .H 2 = none := by decide

/-- R76, R77: a PARKED call that is held below resumes without a cross-connect and tells its far side alone. -/
theorem test_lane_in_resumes :
    let r : CallRecord := { upward .parked (.high (.opened (ownKey .H 0))) none (running .laneWait) with
      heldBelow := true, lLane := none }
    let t := after (.laneIn (request 0 3 1 0)) (queuedH.putCall 0 r)
    (stateOf t, t.crosses, callsH t, callsL t) = (some .connected, [], [(.progress, 4)], []) := by decide

end Sys2Proof.Tests
end

