-- ==== Sys2Proof/Proofs/LaneCounts.lean ====
section
/-! PROOFS. The free count and the lanes that a call must leave free (section 3.4, R51 and R53). The free count is the
number of FREE lanes, so what keeps the FREE lanes of a port keeps its free count. -/

namespace Sys2Proof.Machine

/-! ## Lane states -/

theorem State.laneState_eq_free_iff (s : State) (p : Owned) (i : Nat) :
    s.laneState p i = .free ↔ s.holder p i = none ∧ s.outMark p i = false := by
  unfold State.laneState
  split <;> simp_all

theorem State.laneState_eq_out_iff (s : State) (p : Owned) (i : Nat) :
    s.laneState p i = .out ↔ s.holder p i = none ∧ s.outMark p i = true := by
  unfold State.laneState
  split <;> simp_all

theorem State.laneState_eq_held_iff (s : State) (p : Owned) (i : Nat) (h : Handle) :
    s.laneState p i = .held h ↔ s.holder p i = some h ∧ s.outMark p i = false := by
  unfold State.laneState
  split <;> simp_all

theorem State.laneState_eq_pendingOut_iff (s : State) (p : Owned) (i : Nat) (h : Handle) :
    s.laneState p i = .pendingOut h ↔ s.holder p i = some h ∧ s.outMark p i = true := by
  unfold State.laneState
  split <;> simp_all

/-- A change of one lane's mark leaves the marks of the others. -/
theorem State.outMark_storing_set_ne (s : State) (p : Owned) {i j : Nat} (b : Bool) (hij : i ≠ j) :
    (s.storing { s.retained with
      outMarks := s.retained.outMarks.set p.idx (s.retained.outMarks[p.idx].set i b) }).outMark p j =
      s.outMark p j := by
  simp [State.outMark, State.storing, hij]

/-- A change of one lane's holder leaves the holders of the others. -/
theorem State.holder_set_ne (s : State) (p : Owned) {i j : Nat} (x : Option Handle) (order : List Nat) (hij : i ≠ j) :
    ({ s with maps := s.maps.set p.idx { holders := (s.map p).holders.set i x, order := order } } : State).holder p j =
      s.holder p j := by
  simp [State.holder, State.map, hij]

/-! ## The free count (R51) -/

/-- Each lane is FREE, OUT or HELD, and only one of them. -/
theorem State.countP_free_add_out_add_held (s : State) (p : Owned) (lanes : List Nat) :
    lanes.countP (fun i => s.laneState p i == .free) + lanes.countP (fun i => s.laneState p i == .out) +
      lanes.countP (fun i => (s.holder p i).isSome) = lanes.length := by
  induction lanes with
  | nil => rfl
  | cons i rest ih =>
    simp only [List.countP_cons, List.length_cons, beq_iff_eq, s.laneState_eq_free_iff, s.laneState_eq_out_iff]
      at ih ⊢
    cases s.holder p i with
    | none => cases s.outMark p i <;> simp <;> omega
    | some h => simp; omega

theorem State.freeCount_eq_length_freeLanes (s : State) (p : Owned) : s.freeCount p = (s.freeLanes p).length := by
  have h := s.countP_free_add_out_add_held p (laneNumbers p)
  have hN : (laneNumbers p).length = laneCount p := List.length_range
  rw [State.freeLanes, ← List.countP_eq_length_filter]
  unfold State.freeCount State.outCount State.heldCount
  omega

theorem State.freeCount_le_laneCount (s : State) (p : Owned) : s.freeCount p ≤ laneCount p :=
  (Nat.sub_le _ _).trans (Nat.sub_le _ _)

theorem State.freeCount_eq_laneCount_iff (s : State) (p : Owned) :
    s.freeCount p = laneCount p ↔ ∀ i < laneCount p, s.laneState p i = .free := by
  have hN : laneCount p = (laneNumbers p).length := List.length_range.symm
  rw [s.freeCount_eq_length_freeLanes p, State.freeLanes]
  conv_lhs => rw [hN, List.length_filter_eq_length_iff]
  simp [laneNumbers]

/-- A change that makes no lane FREE and takes no FREE lane keeps the free count. -/
theorem State.freeCount_congr {s t : State} {p : Owned}
    (h : ∀ i, t.laneState p i = .free ↔ s.laneState p i = .free) : t.freeCount p = s.freeCount p := by
  rw [t.freeCount_eq_length_freeLanes, s.freeCount_eq_length_freeLanes]
  simp only [State.freeLanes, beq_eq_decide, h]

/-- Nothing but the holders and the marks enters the free count. -/
theorem State.freeCount_of_maps_of_marks {s t : State} (p : Owned) (hm : t.maps = s.maps)
    (ho : t.retained.outMarks = s.retained.outMarks) : t.freeCount p = s.freeCount p :=
  State.freeCount_congr fun i => by
    have hh : t.holder p i = s.holder p i := by unfold State.holder State.map; rw [hm]
    have hb : t.outMark p i = s.outMark p i := by unfold State.outMark; rw [ho]
    rw [State.laneState_eq_free_iff, State.laneState_eq_free_iff, hh, hb]

/-- A HELD lane that goes pending-out was not FREE and does not become so. -/
theorem State.freeCount_markOut_of_held {s : State} {p : Owned} {i : Nat} {h : Handle}
    (hi : s.laneState p i = .held h) :
    (s.storing { s.retained with
      outMarks := s.retained.outMarks.set p.idx (s.retained.outMarks[p.idx].set i true) }).freeCount p =
      s.freeCount p := by
  obtain ⟨hheld, -⟩ := (s.laneState_eq_held_iff p i h).1 hi
  refine State.freeCount_congr fun j => ?_
  rw [State.laneState_eq_free_iff, State.laneState_eq_free_iff]
  change s.holder p j = none ∧ _ ↔ _
  by_cases hij : i = j
  · subst hij
    simp [hheld]
  · rw [s.outMark_storing_set_ne p true hij]

/-- A pending-out lane that its holder frees goes to OUT, from not FREE to not FREE. -/
theorem State.freeCount_free_of_pendingOut {s : State} {p : Owned} {i : Nat} {h : Handle} (order : List Nat)
    (hi : s.laneState p i = .pendingOut h) :
    ({ s with maps := s.maps.set p.idx { holders := (s.map p).holders.set i none, order := order } } :
      State).freeCount p = s.freeCount p := by
  obtain ⟨-, hmark⟩ := (s.laneState_eq_pendingOut_iff p i h).1 hi
  refine State.freeCount_congr fun j => ?_
  rw [State.laneState_eq_free_iff, State.laneState_eq_free_iff]
  change _ ∧ s.outMark p j = false ↔ _
  by_cases hij : i = j
  · subst hij
    simp [hmark]
  · rw [s.holder_set_ne p none order hij]

/-- Settles O44: the FREE lanes are counted through the three-way split of the lanes, and each change that the statement
names keeps which lanes are FREE. -/
theorem freeCount : Obligations.FreeCount := fun s p =>
  ⟨rfl, s.freeCount_eq_length_freeLanes p, s.freeCount_le_laneCount p, s.freeCount_eq_laneCount_iff p,
    fun _ hm ho => State.freeCount_of_maps_of_marks p hm ho, fun _ _ hi => State.freeCount_markOut_of_held hi,
    fun _ _ hi => State.freeCount_free_of_pendingOut _ hi⟩

/-! ## The lanes that a call must leave free (R53) -/

theorem State.needed_of_le_four (s : State) (p : Owned) {e : Nat} (he : e ≤ 4) :
    s.needed p e = (s.settings p).fire + (s.settings p).priority := if_pos he

theorem State.needed_of_five_or_six (s : State) (p : Owned) {e : Nat} (he : e = 5 ∨ e = 6) :
    s.needed p e = (s.settings p).fire := by
  rw [State.needed, if_neg (by omega), if_pos (by omega)]

theorem State.needed_of_seven_le (s : State) (p : Owned) {e : Nat} (he : 7 ≤ e) : s.needed p e = 0 := by
  rw [State.needed, if_neg (by omega), if_neg (by omega)]

/-- No priority must leave more lanes free than the two reserves together. -/
theorem State.needed_le_reserves (s : State) (p : Owned) (e : Nat) :
    s.needed p e ≤ (s.settings p).fire + (s.settings p).priority := by
  obtain he | he | he : e ≤ 4 ∨ (e = 5 ∨ e = 6) ∨ 7 ≤ e := by omega
  · exact (s.needed_of_le_four p he).le
  · exact (s.needed_of_five_or_six p he).trans_le (Nat.le_add_right _ _)
  · exact (s.needed_of_seven_le p he).trans_le (Nat.zero_le _)

/-- The reserves of legal settings leave a lane (R48). -/
theorem State.needed_le_of_legal {s : State} (hs : s.retained.Legal) (p : Owned) (e : Nat) :
    s.needed p e ≤ laneCount p - 1 :=
  (s.needed_le_reserves p e).trans (hs.settings p).1

theorem laneCount_pos (p : Owned) : 0 < laneCount p := by cases p <;> simp [laneCount]

theorem State.needed_lt_freeCount_of_all_free {s : State} (hs : s.retained.Legal) {p : Owned} (e : Nat)
    (hf : ∀ i < laneCount p, s.laneState p i = .free) : s.needed p e < s.freeCount p := by
  rw [(s.freeCount_eq_laneCount_iff p).2 hf]
  have hn := State.needed_le_of_legal hs p e
  have hN := laneCount_pos p
  omega

/-! ### The defaults (R48) -/

/-- The entry of an owned port in a table over the owned ports. -/
theorem perOwned_idx {α : Type} (f : Owned → α) (p : Owned) : (perOwned f)[p.idx] = f p := by
  cases p with
  | H => rfl
  | F k => fin_cases k <;> rfl

theorem State.settings_of_default {s : State} (hs : s.retained.settings = Retained.default.settings) (p : Owned) :
    s.settings p = PortSettings.default p := by
  unfold State.settings
  rw [hs]
  exact perOwned_idx PortSettings.default p

/-- A floor port keeps no priority reserve by default, so every priority below 7 must leave the fire reserve free. -/
theorem State.needed_floor_of_default {s : State} (hs : s.retained.settings = Retained.default.settings) (k : Floor)
    {e : Nat} (he : e ≤ 6) : s.needed (.F k) e = 1 := by
  have hk := State.settings_of_default hs (.F k)
  obtain h4 | h56 : e ≤ 4 ∨ e = 5 ∨ e = 6 := by omega
  · rw [s.needed_of_le_four _ h4, hk]; rfl
  · rw [s.needed_of_five_or_six _ h56, hk]; rfl

/-- Settles O45, by the three rows of R53's table and the default settings of each kind of port. -/
theorem neededTable : Obligations.NeededTable := by
  refine ⟨fun s p e => ⟨s.needed_of_le_four p, s.needed_of_five_or_six p, fun he => s.needed_of_seven_le p he.ge,
    fun hs => ⟨State.needed_le_of_legal hs p e, State.needed_lt_freeCount_of_all_free hs e⟩⟩, fun s hs => ?_⟩
  have hH := State.settings_of_default hs .H
  refine ⟨fun e he => ?_, fun e he => ?_, s.needed_of_seven_le .H le_rfl,
    fun k => ⟨fun e he => State.needed_floor_of_default hs k he, s.needed_of_seven_le _ le_rfl⟩⟩
  · rw [s.needed_of_le_four _ he, hH]; rfl
  · rw [s.needed_of_five_or_six _ (by simpa using he), hH]; rfl

end Sys2Proof.Machine
end

