-- ==== Sys2Proof/Proofs/ProgressFromAbove.lean ====
section
/-! PROOFS. ALERTING and QUEUED from above for a call that this switch has forwarded (section 5.7, R96 and R97). Each is a
PROGRESS cell taken for the record that its key names, a change of that record or none, and a PROGRESS sent on down
port L. -/

namespace Sys2Proof.Machine

/-! ## A PROGRESS cell that is taken, and one that is sent down -/

/-- A PROGRESS whose lane field and key pass goes to the rule of its code, and the event then ends (R6, R85, R149). -/
theorem onProgress_live {s : State} {p : Riser} {key : Key} {lane : Byte} {h : Handle} {r : CallRecord}
    {k : Work → Handle → CallRecord → Work} (hp : s.powered = true) (hu : s.receives p = true)
    (hl : laneFieldOk lane = true) (hk : s.keyed p key = some h) (hr : s.call? h = some r)
    (hc : r.state ≠ .clearing) :
    onProgress s p key lane k = .next (k (Work.start s) h r).finish := by
  rw [onProgress, onRiser_receives hp hu, if_pos hl, Work.named_live (w := Work.start s) hk hr hc]

/-- A PROGRESS down port L adds its cell to those the event has for the port, while the port is UP (R10). -/
theorem Work.progressDown_eq (w : Work) (r : CallRecord) (c : Progress) :
    w.progressDown r c = if w.st.riserUp .L then { w with outL := w.outL ++ r.cellsDown c } else w := by
  unfold Work.progressDown CallRecord.cellsDown
  cases r.openKey .L with
  | none => simp
  | some key => rfl

/-- A record has one L key at most, so one PROGRESS goes down for it (R84). -/
theorem CallRecord.cellsDown_length_le (r : CallRecord) (c : Progress) : (r.cellsDown c).length ≤ 1 := by
  unfold CallRecord.cellsDown
  cases r.openKey .L <;> simp

/-- An event that sets no bit, begins no run and has no cell for port L but one PROGRESS ends with that cell sent. -/
theorem Work.finish_progressDown {w : Work} {r : CallRecord} {c : Progress} (hr : w.raised = EventSets.empty)
    (ho : w.outL = []) (hn : w.runs = []) (hl : w.st.roomL 1) :
    (w.progressDown r c).finish = w.st.sentL (r.cellsDown c) := by
  rw [Work.progressDown_eq, ho, List.nil_append]
  split
  · next hu =>
    have hroom : w.st.roomL (r.cellsDown c).length := fun _ => by
      have h1 := hl hu
      have h2 := r.cellsDown_length_le c
      omega
    exact Work.finish_cells (w := { w with outL := r.cellsDown c }) hr hroom (by simp [hn])
  · next hu =>
    rw [Work.finish_cells hr (fun h => absurd h hu) (by simp [hn]), State.sentL, State.sentL, if_neg hu, if_neg hu]

/-- The same for an event that has changed one live record. -/
theorem Work.finish_modCall_progressDown {s : State} {h : Handle} {r : CallRecord} {f : CallRecord → CallRecord}
    {c : Progress} (hr : s.call? h = some r) (hl : s.roomL 1) :
    (((Work.start s).modCall h f).progressDown r c).finish = (s.putCall h (f r)).sentL (r.cellsDown c) := by
  rw [Work.modCall_live (w := Work.start s) hr]
  exact Work.finish_progressDown rfl rfl rfl hl

/-! ## ALERTING (R96) -/

theorem exec_alertingFromAbove (key : Key) (lane : Byte) (s : State) :
    exec (.alertingFromAbove key lane) s = execAlertingFromAbove key lane s := rfl

/-- Settles O16: a record in FORWARDED stops its progress wait and goes to RINGING, one in RINGING stays as it is, and
each sends one PROGRESS down. -/
theorem alertingFromAbove : Obligations.AlertingFromAbove := by
  intro s key lane h r hp hu hl hk hr hup hroom
  rw [exec_alertingFromAbove, execAlertingFromAbove]
  constructor
  · intro hf
    rw [onProgress_live hp hu hl hk hr (by simp [hf]), if_pos ⟨hup, hf⟩, Work.finish_modCall_progressDown hr hroom]
  · intro hf
    rw [onProgress_live hp hu hl hk hr (by simp [hf]), if_neg (by simp [hf]), if_pos ⟨hup, hf⟩,
      Work.finish_progressDown rfl rfl rfl hroom, Work.start_st]

/-! ## QUEUED (R97) -/

theorem exec_queuedFromAbove (key : Key) (lane : Byte) (s : State) :
    exec (.queuedFromAbove key lane) s = execQueuedFromAbove key lane s := rfl

/-- A record that waits for a lane at a switch above is given the lane wait on top of the progress wait: 2 s to 80 s
(R50, R97). -/
theorem TimerSettings.Legal.laneWait_add_progressWait {x : TimerSettings} (hx : x.Legal) :
    20 ≤ x.laneWait + x.progressWait ∧ x.laneWait + x.progressWait ≤ 800 := by
  obtain ⟨-, -, hlane, -, hprogress, -⟩ := hx
  omega

/-- Settles O17: the rule's case for an upward record in FORWARDED, and the ranges of the two times that it adds. -/
theorem queuedFromAbove : Obligations.QueuedFromAbove := by
  refine ⟨?restart, fun d hd => hd.timers.laneWait_add_progressWait, rfl⟩
  case restart =>
    intro s key lane h r hp hu hl hk hr hup hf hroom
    rw [exec_queuedFromAbove, execQueuedFromAbove, onProgress_live hp hu hl hk hr (by simp [hf]), if_pos ⟨hup, hf⟩,
      Work.finish_modCall_progressDown hr hroom, Work.start_st, State.laneWaitTime, State.progressTime]

end Sys2Proof.Machine
end

