-- ==== Sys2Proof/Proofs/DirectoryWrites.lean ====
section
/-! PROOFS. What a write of a window, a slot or a setting keeps: each stays within the range of its owner (R33 to R38, R48
to R50, R140), and the slots of the directory stay apart (R35, R36). -/

namespace Sys2Proof.Machine

/-! ## Vectors by a small index -/

/-- What is true of the entry put in and of every entry there before is true of every entry. -/
theorem forall_getElem_set {α : Type} {n : Nat} {P : Fin n → α → Prop} {v : Vector α n} (i : Fin n) {x : α}
    (hx : P i x) (hv : ∀ j : Fin n, P j v[j]) (j : Fin n) : P j (v.set i x)[j] := by
  by_cases hij : i = j
  · subst hij; simpa using hx
  · have hne : i.val ≠ j.val := fun e => hij (Fin.ext e)
    simpa [Vector.getElem_set_ne _ _ hne] using hv j

theorem perOwned_forall {α : Type} {P : Owned → α → Prop} {v : Vector α 9} (p : Owned) {x : α} (hx : P p x)
    (hv : ∀ q : Owned, P q v[q.idx]) (q : Owned) : P q (v.set p.idx x)[q.idx] := by
  by_cases hpq : p = q
  · subst hpq; simpa using hx
  · have hne : p.idx.val ≠ q.idx.val := fun e => hpq (Owned.idx_inj (Fin.ext e))
    simpa [Vector.getElem_set_ne _ _ hne] using hv q

/-! ## The retained contents after a write -/

section
variable {d : Retained}

theorem Retained.default_legal : Retained.default.Legal where
  ordinary i := by simp [Retained.default, Window.default, Window.Legal]
  exceptions i := by simp [Retained.default, Window.default, Window.Legal]
  slots i := by simp [Retained.default, Slot.default, Slot.Legal]
  settings p := by
    have hp : Retained.default.settings[p.idx] = PortSettings.default p := perOwned_idx PortSettings.default p
    rw [hp]
    cases p <;> simp [PortSettings.Legal, PortSettings.default, laneCount]
  marks p := by
    have hp : Retained.default.outMarks[p.idx] = noMarks p := perOwned_idx noMarks p
    rw [hp, noMarks, List.length_replicate]
  timers := by simp [Retained.default, TimerSettings.default, TimerSettings.Legal]
  talkLimits c := by fin_cases c <;> simp [Retained.default, defaultTalkLimits, talkLegal]
  masks := .empty

theorem Retained.default_unique : Retained.default.Unique := by
  intro i j _ hi
  simp [Retained.default, Slot.default, Slot.occupied] at hi

theorem Window.write_legal {x : Window} (hx : x.Legal) (f : WindowField) (v : Nat) : (x.write f v).2.Legal := by
  obtain ⟨h1, h2, h3⟩ := hx
  cases f with
  | base =>
    unfold Window.write
    dsimp only
    split
    · next h => exact ⟨h.1, h.2, h3⟩
    · exact ⟨h1, h2, h3⟩
  | limit =>
    unfold Window.write
    dsimp only
    split
    · next h => exact ⟨h1, h2, h⟩
    · exact ⟨h1, h2, h3⟩
  | target =>
    unfold Window.write
    dsimp only
    split <;> exact ⟨h1, h2, h3⟩

theorem PortSettings.write_legal {x : PortSettings} {n : Nat} (hx : x.Legal n) (f : SettingField) (v : Nat) :
    (x.write n f v).2.Legal n := by
  obtain ⟨h1, h2, h3⟩ := hx
  cases f <;> simp only [PortSettings.write, PortSettings.Legal, clampTo] <;> omega

theorem TimerSettings.store_legal {x : TimerSettings} (hx : x.Legal) (f : TimerField) (v : Nat) :
    (x.store f (clampTo f.range.1 f.range.2 v)).Legal := by
  obtain ⟨h1, h2, h3, h4, h5, h6⟩ := hx
  cases f <;> simp only [TimerSettings.store, TimerField.range, TimerSettings.Legal, clampTo] <;> omega

theorem clampTalk_legal (v : Nat) : talkLegal (clampTalk v) := by
  unfold clampTalk talkLegal clampTo
  split <;> omega

/-- A slot field that passes the tests of R33 is stored within its range (R34, R36 to R38). -/
theorem Slot.store_legal {x : Slot} (hx : x.Legal) {f : SlotField} {v : Nat} (hb : f.badValue v = false)
    (hm : f = .main → ∀ h : v < 32, x.ext ≠ some ⟨v, h⟩) (he : f = .ext → ∀ h : v < 32, x.main ≠ ⟨v, h⟩) :
    (x.store f v).Legal := by
  obtain ⟨h1, h2, h3, h4⟩ := hx
  cases f with
  | number => exact ⟨by simpa [SlotField.badValue, Slot.store] using hb, h2, h3, h4⟩
  | port => unfold Slot.store; dsimp only; split <;> exact ⟨h1, h2, h3, h4⟩
  | main =>
    unfold Slot.store; dsimp only; split
    · next h => exact ⟨h1, h2, h3, hm rfl h⟩
    · exact ⟨h1, h2, h3, h4⟩
  | ext =>
    unfold Slot.store; dsimp only; split
    · next h => exact ⟨h1, h2, h3, fun e => he rfl h (Option.some.inj e).symm⟩
    · exact ⟨h1, h2, h3, by simp⟩
  | mode => unfold Slot.store; dsimp only; split <;> exact ⟨h1, h2, h3, h4⟩
  | quiet => exact ⟨h1, min_le_right _ _, h3, h4⟩
  | quietCeiling => exact ⟨h1, min_le_right _ _, h3, h4⟩
  | residentQuiet => exact ⟨h1, h2, h3, h4⟩
  | callDown => exact ⟨h1, h2, min_le_right _ _, h4⟩
  | unlatch => exact ⟨h1, h2, h3, h4⟩

/-- Two slots do not meet: they have neither one number nor, on one port, one handset (R35, R36). -/
def Slot.Apart (x y : Slot) : Prop :=
  x.occupied → y.occupied →
    x.number ≠ y.number ∧
    (x.port = y.port → x.main ≠ y.main ∧ x.ext ≠ some y.main ∧ y.ext ≠ some x.main ∧ (x.ext.isSome → x.ext ≠ y.ext))

theorem Slot.Apart.symm {x y : Slot} (h : x.Apart y) : y.Apart x := by
  intro hy hx
  obtain ⟨hn, hp⟩ := h hx hy
  refine ⟨hn.symm, fun e => ?_⟩
  obtain ⟨h1, h2, h3, h4⟩ := hp e.symm
  refine ⟨h1.symm, h3, h2, fun hs e' => h4 ?_ e'.symm⟩
  rw [← e']; exact hs

theorem Retained.unique_iff : d.Unique ↔ ∀ i j : SlotNo, i ≠ j → d.slots[i].Apart d.slots[j] := by
  constructor
  · intro h i j hij hi hj
    obtain ⟨hn, hp⟩ := h i j hij hi hj
    refine ⟨hn, fun e => ?_⟩
    obtain ⟨h1, h2, h3⟩ := hp e
    obtain ⟨-, h4, -⟩ := (h j i hij.symm hj hi).2 e.symm
    exact ⟨h1, h2, h4, h3⟩
  · intro h i j hij hi hj
    obtain ⟨hn, hp⟩ := h i j hij hi hj
    refine ⟨hn, fun e => ?_⟩
    obtain ⟨h1, h2, -, h4⟩ := hp e
    exact ⟨h1, h2, h4⟩

/-- A slot replaced keeps the slots apart where it is apart from every other. -/
theorem Retained.Unique.set (hd : d.Unique) {i : SlotNo} {y : Slot} (hy : ∀ j, j ≠ i → y.Apart d.slots[j]) :
    ({ d with slots := d.slots.set i y } : Retained).Unique := by
  rw [Retained.unique_iff] at hd ⊢
  have hget : ∀ j : SlotNo, (d.slots.set i y)[j] = if i = j then y else d.slots[j] := fun j => by
    by_cases h : i = j
    · subst h; simp
    · have : i.val ≠ j.val := fun e => h (Fin.ext e)
      simp [h, this]
  intro a b hab
  change (d.slots.set i y)[a].Apart (d.slots.set i y)[b]
  rw [hget, hget]
  split
  · next ha => subst ha; rw [if_neg hab]; exact hy b hab.symm
  · next ha =>
    split
    · next hb => subst hb; exact (hy a hab).symm
    · exact hd a b hab

theorem Retained.numberTaken_eq_false {i : SlotNo} {n : Nat} (h : d.numberTaken i n = false) (j : SlotNo) (hj : j ≠ i)
    (ho : d.slots[j].occupied) : d.slots[j].number ≠ n := by
  intro e
  have hany := List.any_eq_false.1 h j (List.mem_finRange j)
  have ho' : d.slots[j].occupied = true := ho
  simp only [hj, ho', e, ne_eq, not_false_eq_true, decide_true, beq_self_eq_true, Bool.and_self] at hany
  exact hany trivial

theorem Retained.addrTaken_eq_false {i : SlotNo} {k : Floor} {a : Addr} (h : d.addrTaken i k a = false) (j : SlotNo)
    (hj : j ≠ i) (ho : d.slots[j].occupied) (hp : d.slots[j].port = k) :
    d.slots[j].main ≠ a ∧ d.slots[j].ext ≠ some a := by
  have h1 := List.any_eq_false.1 h j (List.mem_finRange j)
  have ho' : d.slots[j].occupied = true := ho
  simp only [Slot.answers, hj, ho', hp, ne_eq, not_false_eq_true, decide_true, beq_self_eq_true, Bool.and_true,
    Bool.true_and, Bool.or_eq_true, beq_iff_eq, not_or] at h1
  exact h1

/-- A slot whose number no other holds, and whose handsets no other slot of its port holds, is apart from the others. -/
theorem Retained.apart_of_free {i : SlotNo} {y : Slot} (hn : d.numberTaken i y.number = false)
    (hm : d.addrTaken i y.port y.main = false) (he : ∀ a, y.ext = some a → d.addrTaken i y.port a = false)
    (j : SlotNo) (hj : j ≠ i) : y.Apart d.slots[j] := by
  intro _ ho
  refine ⟨(Retained.numberTaken_eq_false hn j hj ho).symm, fun hp => ?_⟩
  obtain ⟨h1, h2⟩ := Retained.addrTaken_eq_false hm j hj ho hp.symm
  refine ⟨h1.symm, fun e => ?_, h2, fun hs e => ?_⟩
  · exact (Retained.addrTaken_eq_false (he _ e) j hj ho hp.symm).1 rfl
  · obtain ⟨a, ha⟩ := Option.isSome_iff_exists.1 hs
    exact (Retained.addrTaken_eq_false (he a ha) j hj ho hp.symm).2 (e ▸ ha)

/-- In a legal directory an occupied slot's own number and handsets are free for it. -/
theorem Retained.Unique.free (hd : d.Unique) {i : SlotNo} (ho : d.slots[i].occupied) :
    d.numberTaken i d.slots[i].number = false ∧ d.addrTaken i d.slots[i].port d.slots[i].main = false ∧
      ∀ a, d.slots[i].ext = some a → d.addrTaken i d.slots[i].port a = false := by
  rw [Retained.unique_iff] at hd
  refine ⟨?_, ?_, fun a ha => ?_⟩ <;> refine List.any_eq_false.2 fun j _ hc => ?_ <;>
    simp only [Slot.answers, Bool.and_eq_true, Bool.or_eq_true, decide_eq_true_eq, beq_iff_eq] at hc
  · exact (hd j i hc.1.1 hc.1.2 ho).1 hc.2
  · obtain ⟨hj, ⟨hjo, hp⟩, hm⟩ := hc
    obtain ⟨h1, h2, -, -⟩ := (hd j i hj hjo ho).2 hp
    exact hm.elim h1 h2
  · obtain ⟨hj, ⟨hjo, hp⟩, hm⟩ := hc
    obtain ⟨-, -, h3, h4⟩ := (hd j i hj hjo ho).2 hp
    exact hm.elim (fun e => h3 (by rw [ha, e])) (fun e => h4 (by rw [e]; rfl) (by rw [e, ha]))

theorem Retained.slotClashes_eq_false {i : SlotNo} {k : Floor} (h : d.slotClashes i k = false) :
    d.addrTaken i k d.slots[i].main = false ∧ ∀ a, d.slots[i].ext = some a → d.addrTaken i k a = false := by
  unfold Retained.slotClashes at h
  rw [Bool.or_eq_false_iff] at h
  refine ⟨h.1, fun a ha => ?_⟩
  have h2 := h.2
  rw [ha] at h2
  exact h2

end

/-- A slot write that passes its tests leaves the slots apart (R35, R36). -/
theorem State.store_apart {s : State} (hd : s.retained.Unique) {i : SlotNo} {f : SlotField} {v : Nat}
    (hb : f.badValue v = false) (hc : s.slotConflict i f v = none) (j : SlotNo) (hj : j ≠ i) :
    (s.retained.slots[i].store f v).Apart s.retained.slots[j] := by
  set x := s.retained.slots[i] with hx
  have same : ∀ y : Slot, y.occupied = x.occupied → y.number = x.number → y.port = x.port → y.main = x.main →
      y.ext = x.ext → y.Apart s.retained.slots[j] := by
    intro y ho hn hp hm he hy
    rw [ho] at hy
    obtain ⟨f1, f2, f3⟩ := hd.free hy
    exact Retained.apart_of_free (hn ▸ f1) (hp ▸ hm ▸ f2) (by rw [he, hp]; exact f3) j hj (ho ▸ hy)
  cases f with
  | number =>
    intro hy
    have hv : v ≠ 0 := by
      unfold Slot.store Slot.occupied at hy
      exact of_decide_eq_true hy
    simp only [State.slotConflict, ← hx] at hc
    split at hc
    · cases hc
    · split at hc
      · cases hc
      · next hn =>
        simp only [hv, ne_eq, not_false_eq_true, true_and, not_or, not_and, Bool.not_eq_true] at hn
        obtain ⟨hnum, hclash⟩ := hn
        have hfree : s.retained.addrTaken i x.port x.main = false ∧
            ∀ a, x.ext = some a → s.retained.addrTaken i x.port a = false := by
          by_cases ho : x.occupied = true
          · exact (hd.free ho).2
          · exact Retained.slotClashes_eq_false (hclash (by simpa using ho))
        exact Retained.apart_of_free (y := { x with number := v }) hnum hfree.1 hfree.2 j hj hy
  | port =>
    by_cases h8 : v < 8
    · intro hy
      have hst : x.store .port v = { x with port := ⟨v, h8⟩ } := by simp [Slot.store, h8]
      rw [hst] at hy ⊢
      have ho : x.occupied = true := hy
      simp only [State.slotConflict, ← hx] at hc
      split at hc
      · cases hc
      · split at hc
        · cases hc
        · next hn =>
          have hcl := Retained.slotClashes_eq_false (by simpa [ho] using hn)
          exact Retained.apart_of_free (y := { x with port := ⟨v, h8⟩ }) (hd.free ho).1 hcl.1 hcl.2 j hj hy
    · have hst : x.store .port v = x := by simp [Slot.store, h8]
      rw [hst]; exact same x rfl rfl rfl rfl rfl
  | main =>
    by_cases h32 : v < 32
    · intro hy
      have hst : x.store .main v = { x with main := ⟨v, h32⟩ } := by simp [Slot.store, h32]
      rw [hst] at hy ⊢
      have ho : x.occupied = true := hy
      simp only [State.slotConflict, ← hx] at hc
      rw [dif_pos h32] at hc
      split at hc
      · cases hc
      · next hn =>
        simp only [ho, true_and, not_or, Bool.not_eq_true] at hn
        exact Retained.apart_of_free (y := { x with main := ⟨v, h32⟩ }) (hd.free ho).1 hn.2 (hd.free ho).2.2 j hj hy
    · have hst : x.store .main v = x := by simp [Slot.store, h32]
      rw [hst]; exact same x rfl rfl rfl rfl rfl
  | ext =>
    intro hy
    by_cases h32 : v < 32
    · have hst : x.store .ext v = { x with ext := some ⟨v, h32⟩ } := by simp [Slot.store, h32]
      rw [hst] at hy ⊢
      have ho : x.occupied = true := hy
      simp only [State.slotConflict, ← hx] at hc
      rw [dif_pos h32] at hc
      split at hc
      · cases hc
      · next hn =>
        simp only [ho, true_and, not_or, Bool.not_eq_true] at hn
        refine Retained.apart_of_free (y := { x with ext := some ⟨v, h32⟩ }) (hd.free ho).1 (hd.free ho).2.1 ?_ j hj hy
        rintro a ha
        cases ha
        exact hn.2
    · have hst : x.store .ext v = { x with ext := none } := by simp [Slot.store, h32]
      rw [hst] at hy ⊢
      have ho : x.occupied = true := hy
      exact Retained.apart_of_free (y := { x with ext := none }) (hd.free ho).1 (hd.free ho).2.1 (by simp) j hj hy
  | mode => refine same _ ?_ ?_ ?_ ?_ ?_ <;> (unfold Slot.store; dsimp only; split <;> rfl)
  | quiet => exact same _ rfl rfl rfl rfl rfl
  | quietCeiling => exact same _ rfl rfl rfl rfl rfl
  | residentQuiet => exact same _ rfl rfl rfl rfl rfl
  | callDown => exact same _ rfl rfl rfl rfl rfl
  | unlatch => exact same _ rfl rfl rfl rfl rfl

/-- A slot write keeps the slot legal and apart from the others, whatever its result (R33). -/
theorem State.writeSlot_spec {s : State} (hl : s.retained.Legal) (hd : s.retained.Unique) (i : SlotNo) (f : SlotField)
    (v : Nat) : (s.writeSlot i f v).2.Legal ∧ ∀ j, j ≠ i → (s.writeSlot i f v).2.Apart s.retained.slots[j] := by
  have hkeep : s.retained.slots[i].Legal ∧ ∀ j, j ≠ i → s.retained.slots[i].Apart s.retained.slots[j] :=
    ⟨hl.slots i, fun j hj => Retained.unique_iff.1 hd i j hj.symm⟩
  unfold State.writeSlot
  dsimp only
  split
  · exact hkeep
  · next hb =>
    split
    · exact hkeep
    · split
      · exact hkeep
      · next hc =>
        have hb' : f.badValue v = false := by simpa using hb
        refine ⟨Slot.store_legal (hl.slots i) hb' ?_ ?_, State.store_apart hd hb' hc⟩
        · rintro rfl h32 he
          simp [State.slotConflict, h32] at hc
          exact hc.1 he
        · rintro rfl h32 he
          simp [State.slotConflict, h32] at hc
          exact hc.1 he

end Sys2Proof.Machine
end

