-- ==== Sys2Proof/Proofs/KeepsInv.lean ====
section
/-! PROOFS. The invariant of `Safety` and the changes that are not over calls: the interfaces, the retained contents, the
sources of fire mode, the management operations, the resets and time; and the shapes that a command has. -/

namespace Sys2Proof.Machine

/-! ## Changes of the state that are not calls -/

section
variable {w : Work}

theorem Work.Ok.modState (hw : w.Ok) {f : State → State} (hf : (f w.st).Inv) : (w.modState f).Ok := ⟨hf, hw.raised⟩

/-- A change of the retained contents alone keeps the invariant where it keeps them legal. -/
theorem Work.Ok.modRetained (hw : w.Ok) {f : Retained → Retained} (hl : (f w.st.retained).Legal)
    (hu : (f w.st.retained).Unique) : (w.modRetained f).Ok :=
  hw.modState { hw.inv with legal := hl, unique := hu }

theorem Work.Ok.raise (hw : w.Ok) (e : Event) : (w.raise e).Ok := (Moves.rfl'.raise e).ok hw

theorem Work.Ok.run (hw : w.Ok) (p : Owned) : (w.run p).Ok := (Moves.rfl'.run p).ok hw

theorem Work.Ok.sendL (hw : w.Ok) (c : RiserCell) : (w.sendL c).Ok := (Moves.rfl'.sendL c).ok hw

theorem Work.Ok.sendH (hw : w.Ok) (c : RiserCell) : (w.sendH c).Ok := (Moves.rfl'.sendH c).ok hw

theorem Work.Ok.sendF (hw : w.Ok) (k : Floor) (c : FloorCell) : (w.sendF k c).Ok := (Moves.rfl'.sendF k c).ok hw

theorem Work.Ok.reply (hw : w.Ok) (op : MgmtOp) (q : Request) (r : Result) (v : Nat) : (w.reply op q r v).Ok :=
  hw.sendL _

theorem Work.Ok.drawFree (hw : w.Ok) : w.drawFree.Ok := hw.modState { hw.inv with }

theorem Work.Ok.modPortL (hw : w.Ok) {f : RiserPort → RiserPort} (hf : (f w.st.portL).QueueOk) : (w.modPortL f).Ok :=
  hw.modState { hw.inv with queueL := hf }

theorem Work.Ok.modPortH (hw : w.Ok) {f : RiserPort → RiserPort} (hf : (f w.st.portH).QueueOk)
    (ht : w.st.top = true → (f w.st.portH).link = .down) : (w.modPortH f).Ok :=
  hw.modState { hw.inv with queueH := hf, topDown := ht }

theorem Work.Ok.modFloorPort (hw : w.Ok) {k : Floor} {f : FloorPort → FloorPort} (hf : (f w.st.floors[k]).QueueOk) :
    (w.modFloorPort k f).Ok :=
  hw.modState { hw.inv with queues := forall_getElem_set (P := fun _ p => FloorPort.QueueOk p) k hf hw.inv.queues }

/-- The sources of fire mode may change with the purge that follows (R161, R162). -/
theorem Work.Ok.changeSources (hw : w.Ok) {f : State → State} (hf : (f w.st).Inv) : (w.changeSources f).Ok := by
  have h1 : (w.modState f).Ok := hw.modState hf
  unfold Work.changeSources
  dsimp only
  split <;> split
  · exact (Moves.purge Moves.rfl' _).ok (h1.raise _)
  · exact h1.raise _
  · exact (Moves.purge Moves.rfl' _).ok h1
  · exact h1

/-! ## Management -/

theorem Work.Ok.rewriteAgeing (hw : w.Ok) (a b : Nat) : (w.rewriteAgeing a b).Ok := by
  have hset : ∀ g : WaitEntry → WaitEntry, (w.setWaiting (w.st.waiting.map g)).Ok := fun g =>
    Prim.ok (.setWaiting _ _ (.inr (List.length_map _).le)) hw
  unfold Work.rewriteAgeing
  split
  · exact hset _
  · split
    · exact hset _
    · exact hw

theorem Work.Ok.writeField (hw : w.Ok) (f : FieldRef) (v : Nat) : (w.writeField f v).1.Ok := by
  have hl := hw.inv.legal
  have hu := hw.inv.unique
  cases f with
  | window x f =>
    cases x with
    | ordinary i =>
      exact hw.modRetained (f := fun d => d.setWindow _ ((w.st.retained.window _).write f v).2) { hl with
        ordinary := forall_getElem_set (P := fun _ x => Window.Legal x) i (Window.write_legal (hl.ordinary i) f v) hl.ordinary } hu
    | exception i =>
      exact hw.modRetained (f := fun d => d.setWindow _ ((w.st.retained.window _).write f v).2) { hl with
        exceptions := forall_getElem_set (P := fun _ x => Window.Legal x) i (Window.write_legal (hl.exceptions i) f v)
          hl.exceptions } hu
  | slot i f =>
    obtain ⟨hs, ha⟩ := State.writeSlot_spec hl hu i f v
    exact hw.modRetained (f := fun d => { d with slots := d.slots.set i (w.st.writeSlot i f v).2 })
      { hl with slots := forall_getElem_set (P := fun _ x => Slot.Legal x) i hs hl.slots } (hu.set ha)
  | ceiling n => exact hw.modRetained (f := fun d => { d with ceilings := d.ceilings.set n (clampClass v) }) { hl with } hu
  | setting p f =>
    have h1 := hw.modRetained (f := fun d => { d with
        settings := d.settings.set p.idx ((w.st.settings p).write (laneCount p) f v).2 })
      { hl with
        settings := perOwned_forall (P := fun q x => PortSettings.Legal x (laneCount q)) p
          (PortSettings.write_legal (hl.settings p) f v) hl.settings } hu
    unfold Work.writeField
    dsimp only
    split
    · exact h1
    · exact h1.run p
  | timer f =>
    have h1 := hw.modRetained (f := fun d => { d with timers := d.timers.store f (clampTo f.range.1 f.range.2 v) })
      { hl with timers := TimerSettings.store_legal hl.timers f v } hu
    unfold Work.writeField
    dsimp only
    split
    · exact h1.rewriteAgeing _ _
    · exact h1
  | talkLimit c =>
    exact hw.modRetained (f := fun d => { d with talkLimits := d.talkLimits.set c (clampTalk v) }) { hl with
      talkLimits := forall_getElem_set (P := fun _ x => talkLegal x) c (clampTalk_legal v) hl.talkLimits } hu
  | senseMode =>
    unfold Work.writeField
    dsimp only
    split
    · exact hw.changeSources { hw.inv with legal := { hl with } }
    · exact hw
  | fireClass => exact hw.modRetained (f := fun d => { d with fireClass := clampClass v }) { hl with } hu
  | _ => exact hw

theorem Work.Ok.ifUnlocked (hw : w.Ok) (op : MgmtOp) (q : Request) {k : Work → Work} (hk : (k w).Ok) :
    (w.ifUnlocked op q k).Ok := by
  unfold Work.ifUnlocked
  split
  · exact (hw.raise _).reply _ _ _ _
  · exact hk

theorem Work.Ok.readOp (hw : w.Ok) (q : Request) : (w.readOp q).Ok := by
  unfold Work.readOp
  split
  · exact hw.reply _ _ _ _
  · split
    · exact hw.reply _ _ _ _
    · exact (hw.reply _ _ _ _).drawFree

theorem Work.Ok.writeOp (hw : w.Ok) (q : Request) : (w.writeOp q).Ok := by
  unfold Work.writeOp
  split
  · exact hw.reply _ _ _ _
  · exact hw.ifUnlocked _ _ ((hw.writeField _ _).reply _ _ _ _).drawFree

theorem Work.Ok.updateOp (hw : w.Ok) (q : Request) : (w.updateOp q).Ok := by
  unfold Work.updateOp
  split
  · exact hw.reply _ _ _ _
  · refine hw.ifUnlocked _ _ ?_
    dsimp only
    split
    · exact hw.reply _ _ _ _
    · exact ((hw.writeField _ _).reply _ _ _ _).drawFree

theorem Work.Ok.setAgain (hw : w.Ok) (g : Group) (v : Word) : (w.setAgain g v).Ok := by
  unfold Work.setAgain
  generalize lastingEvents = l
  induction l generalizing w with
  | nil => exact hw
  | cons e l ih =>
    rw [List.foldl_cons]
    split
    · exact ih (hw.raise e)
    · exact ih hw

theorem Work.Ok.clearEventsOp (hw : w.Ok) (q : Request) : (w.clearEventsOp q).Ok := by
  unfold Work.clearEventsOp
  split
  · exact hw.reply _ _ _ _
  · next g _ =>
    have hbits : w.st.status.get g &&& ~~~q.value &&& ~~~g.named = 0 := by
      have h0 := hw.inv.status g
      rw [BitVec.and_assoc, BitVec.and_comm (~~~q.value), ← BitVec.and_assoc, h0]
      exact BitVec.zero_and
    exact ((hw.modState { hw.inv with status := hw.inv.status.set g hbits }).setAgain _ _).reply _ _ _ _

theorem Work.Ok.setMasksOp (hw : w.Ok) (q : Request) : (w.setMasksOp q).Ok := by
  unfold Work.setMasksOp
  split
  · exact hw.reply _ _ _ _
  · next g _ =>
    have hbits : q.value &&& g.named &&& ~~~g.named = 0 := by
      rw [BitVec.and_assoc, BitVec.and_not_self]
      exact BitVec.and_zero
    refine Work.Ok.reply (hw.modRetained ?_ hw.inv.unique) _ _ _ _
    exact { hw.inv.legal with masks := hw.inv.legal.masks.set g hbits }

theorem Work.Ok.portOp (hw : w.Ok) (op : MgmtOp) (q : Request) {k : Work → Port → Work} (hk : ∀ p, (k w p).Ok) :
    (w.portOp op q k).Ok := by
  unfold Work.portOp
  split
  · exact hw.reply _ _ _ _
  · exact hw.ifUnlocked _ _ (hk _)

theorem Work.Ok.setMark (hw : w.Ok) (p : Owned) (i : Nat) (b : Bool) : (w.setMark p i b).Ok :=
  hw.modRetained { hw.inv.legal with
    marks := perOwned_forall (P := fun q x => List.length x = laneCount q) p
      ((List.length_set ..).trans (hw.inv.legal.marks p)) hw.inv.legal.marks } hw.inv.unique

theorem Work.Ok.laneOutOp (hw : w.Ok) (q : Request) : (w.laneOutOp q).Ok := by
  refine hw.portOp _ _ fun p => ?_
  split
  · exact (hw.setMark _ _ _).reply _ _ _ _
  · exact hw.reply _ _ _ _

theorem Work.Ok.laneInOp (hw : w.Ok) (q : Request) : (w.laneInOp q).Ok := by
  refine hw.portOp _ _ fun p => ?_
  dsimp only
  split
  · split
    · exact ((hw.setMark _ _ _).reply _ _ _ _).run _
    · exact (hw.setMark _ _ _).reply _ _ _ _
  · exact hw.reply _ _ _ _

theorem Work.Ok.setDisabled (hw : w.Ok) (k : Floor) (b : Bool) : (w.setDisabled k b).Ok :=
  hw.modRetained { hw.inv.legal with } hw.inv.unique

theorem Work.Ok.disablePort (hw : w.Ok) (k : Floor) : (w.disablePort k).Ok := by
  have h1 := (hw.modFloorPort (k := k) (f := fun p => { p with line := .disabled, faultMark := false, count := 0, queue := [] })
    ⟨Nat.zero_le _, fun _ => rfl⟩).setDisabled k true
  unfold Work.disablePort
  dsimp only
  split
  · exact (Moves.rfl'.endFloorCalls _ _).ok h1
  · exact h1

theorem Work.Ok.portDisableOp (hw : w.Ok) (q : Request) : (w.portDisableOp q).Ok := by
  refine hw.portOp _ _ fun p => ?_
  cases p with
  | F k =>
    dsimp only
    split
    · exact hw.reply _ _ _ _
    · exact (hw.disablePort _).reply _ _ _ _
  | _ => exact hw.reply _ _ _ _

theorem Work.Ok.portEnableOp (hw : w.Ok) (q : Request) : (w.portEnableOp q).Ok := by
  refine hw.portOp _ _ fun p => ?_
  cases p with
  | F k =>
    dsimp only
    split
    · next hd =>
      have hq := hw.inv.queues k
      refine Work.Ok.reply (Work.Ok.setDisabled (hw.modFloorPort ⟨hq.1, fun _ => hq.2 ?_⟩) _ _) _ _ _ _
      rw [hd]; decide
    · exact hw.reply _ _ _ _
  | _ => exact hw.reply _ _ _ _

theorem Work.Ok.setServiceOp (hw : w.Ok) (q : Request) : (w.setServiceOp q).Ok := by
  refine hw.ifUnlocked _ _ ?_
  split
  · exact Work.Ok.reply (hw.modRetained { hw.inv.legal with } hw.inv.unique) _ _ _ _
  · exact Work.Ok.reply (hw.modRetained { hw.inv.legal with } hw.inv.unique) _ _ _ _
  · exact hw.reply _ _ _ _

theorem Work.Ok.lockOp (hw : w.Ok) (q : Request) : (w.lockOp q).Ok :=
  Work.Ok.reply (hw.modState { hw.inv with }) _ _ _ _

theorem Work.Ok.resetOp (hw : w.Ok) (q : Request) : (w.resetOp q).Ok :=
  Work.Ok.reply (hw.modState { hw.inv with }) _ _ _ _

theorem Work.Ok.serve (hw : w.Ok) (op : MgmtOp) (q : Request) : (w.serve op q).Ok := by
  cases op with
  | read => exact hw.readOp q
  | write => exact hw.writeOp q
  | update => exact hw.updateOp q
  | clearEvents => exact hw.clearEventsOp q
  | setMasks => exact hw.setMasksOp q
  | laneOut => exact hw.laneOutOp q
  | laneIn => exact hw.laneInOp q
  | portDisable => exact hw.portDisableOp q
  | portEnable => exact hw.portEnableOp q
  | setService => exact hw.setServiceOp q
  | lock => exact hw.lockOp q
  | reset => exact hw.resetOp q

theorem Work.Ok.forwardRequest (hw : w.Ok) (op : Byte) (q : Request) : (w.forwardRequest op q).Ok := by
  unfold Work.forwardRequest
  split
  · exact hw
  · exact hw.sendH _

end

/-! ## Resets, supplies and time -/

section
variable {s t : State}

/-- The volatile state at its reset values keeps the invariant with any legal contents. -/
theorem State.restarted_inv {d : Retained} (hl : d.Legal) (hu : d.Unique) (pins : Pins) (a b : Bool)
    (good : Floor → Bool) : (s.restarted d pins a b good).Inv where
  legal := hl
  unique := hu
  status := .empty
  queueL := ⟨Nat.zero_le _, fun _ => rfl⟩
  queueH := ⟨Nat.zero_le _, fun _ => rfl⟩
  queues k := by
    simp only [State.restarted, Fin.getElem_fin, Vector.getElem_ofFn]
    exact ⟨Nat.zero_le _, fun _ => rfl⟩
  topDown _ := rfl
  waiting := Nat.zero_le _
  handles := ⟨List.nodup_finRange 48, fun h => by simp [State.restarted, allHandles]⟩
  lanes p := by
    have hp : (perOwned LaneMap.empty)[p.idx] = LaneMap.empty p := perOwned_idx _ p
    simp only [State.map, State.restarted]
    rw [hp, LaneMap.empty, List.length_replicate]

theorem State.evaluateFire_inv (hs : s.Inv) : s.evaluateFire.Inv := by
  unfold State.evaluateFire
  split
  · exact { hs with status := hs.status.add _ }
  · exact hs

theorem State.remoteReset_inv (hs : s.Inv) (pins : Pins) : (s.remoteReset pins).Inv :=
  State.evaluateFire_inv (State.restarted_inv hs.legal hs.unique _ _ _ _)

theorem State.resetIfEmptied_inv (hs : s.Inv) : s.resetIfEmptied.Inv := by
  unfold State.resetIfEmptied
  split
  · exact State.remoteReset_inv hs _
  · exact hs

theorem State.resetAtOnce_inv (ht : t.Inv) (q : Request) : (s.resetAtOnce q t).Inv := by
  unfold State.resetAtOnce
  split
  · exact State.remoteReset_inv ht _
  · exact ht

theorem RiserPort.tick_queueOk {p : RiserPort} (hp : p.QueueOk) : p.tick.QueueOk := by
  unfold RiserPort.tick
  split <;> exact hp

theorem RiserPort.tick_link (p : RiserPort) : p.tick.link = p.link := by
  unfold RiserPort.tick
  split <;> rfl

theorem FloorPort.tick_queueOk {p : FloorPort} (hp : p.QueueOk) : p.tick.QueueOk := by
  unfold FloorPort.tick
  split <;> exact hp

theorem State.tick_inv (hs : s.Inv) : s.tick.Inv := by
  refine { hs with
    queueL := RiserPort.tick_queueOk hs.queueL, queueH := ?_, queues := fun k => ?_, topDown := fun ht => ?_,
    waiting := (List.length_map _).trans_le hs.waiting, handles := ⟨hs.handles.1, fun h => ?_⟩ }
  · simp only [State.tick]
    split
    · exact hs.queueH
    · exact RiserPort.tick_queueOk hs.queueH
  · simp only [State.tick, Fin.getElem_fin, Vector.getElem_ofFn]
    exact FloorPort.tick_queueOk (hs.queues k)
  · have ht' : s.top = true := ht
    simp only [State.tick, ht', if_true]
    exact hs.topDown ht'
  · rw [show s.tick.freeHandles = s.freeHandles from rfl, ← hs.handles.2 h]
    simp [State.tick]

/-! ## The shapes of a command -/

theorem onRiser_inv {p : Riser} {f : Work → Work} (hs : s.Inv) (hf : ∀ w : Work, w.Ok → (f w).Ok)
    (h : onRiser s p f = .next t) : t.Inv := by
  refine event_inv hs (fun hw => ?_) h
  split
  · exact hf _ hw
  · exact hw

theorem onFloor_inv {k : Floor} {f : Work → Work} (hs : s.Inv) (hf : ∀ w : Work, w.Ok → (f w).Ok)
    (h : onFloor s k f = .next t) : t.Inv := by
  refine event_inv hs (fun hw => ?_) h
  split
  · exact hf _ hw
  · exact hw

theorem onlyFromBelow_inv {p : Riser} {e : Event} {f : Work → Work} (hs : s.Inv) (hf : ∀ w : Work, w.Ok → (f w).Ok)
    (h : onlyFromBelow s p e f = .next t) : t.Inv := by
  refine onRiser_inv hs (fun w hw => ?_) h
  cases p with
  | L => exact hf w hw
  | H => exact hw.raise e

theorem onRequest_inv {op : MgmtOp} {q : Request} {f : Work → Work} (hs : s.Inv) (hf : ∀ w : Work, w.Ok → (f w).Ok)
    (h : onRequest s op q f = .next t) : t.Inv := by
  refine onRiser_inv hs (fun w hw => ?_) h
  split
  · exact hw.raise _
  · split
    · exact hf w hw
    · exact hw.forwardRequest _ _

/-- A cell for a record that its key names: what it does is a sequence of named changes. -/
theorem onProgress_inv {p : Riser} {key : Key} {lane : Byte} {k : Work → Handle → CallRecord → Work} (hs : s.Inv)
    (hk : ∀ w h r, Moves w (k w h r)) (h : onProgress s p key lane k = .next t) : t.Inv := by
  refine onRiser_inv hs (fun w hw => ?_) h
  split
  · exact (Moves.rfl'.named _ _ _ fun h r _ => hk w h r).ok hw
  · exact hw.raise _

theorem onResponse_inv {k : Floor} {a : Addr} {b : Byte} {c : Bool} {f : Work → Handle → Nat → OfferEntry → Work}
    (hs : s.Inv) (hf : ∀ w h i e, Moves w (f w h i e)) (h : onResponse s k a b c f = .next t) : t.Inv := by
  refine onFloor_inv hs (fun w hw => ?_) h
  split
  · exact hw.raise _
  · split
    · exact (hf _ _ _ _).ok hw
    · split
      · exact hw.sendF _ _
      · exact hw

theorem onExpiry_inv {h : Handle} {m : Purpose} {k : Work → CallRecord → Work} (hs : s.Inv)
    (hk : ∀ w r, Moves w (k w r)) (ht : onExpiry s h m k = .next t) : t.Inv := by
  refine event_inv hs (fun hw => (Moves.rfl'.withCall fun r _ => ?_).ok hw) ht
  split
  · exact hk _ r
  · exact .refl

end

end Sys2Proof.Machine
end

