-- ==== Sys2Proof/Proofs/StepKeepsInv.lean ====
section
/-! PROOFS. Every step keeps the invariant of `Safety` (O8). A command over calls is a sequence of the named changes
(`Moves`), which keep it; the others are taken one by one. -/

namespace Sys2Proof.Machine

/-! ## The commands -/

section
variable {s t : State}

theorem execLinkUp_inv (p : Riser) (hs : s.Inv) (h : execLinkUp p s = .next t) : t.Inv := by
  refine event_inv hs (fun hw => ?_) h
  split
  · exact hw
  · cases p with
    | L => exact (Moves.rfl'.sendAllL _).ok ((hw.modPortL ⟨Nat.zero_le _, fun _ => rfl⟩).sendL _)
    | H =>
      dsimp only
      split
      · exact hw
      · next htop =>
        exact ((Moves.rfl'.announceFire).run _).ok
          ((hw.modPortH ⟨Nat.zero_le _, fun _ => rfl⟩ fun e => absurd e htop).sendH _)

theorem State.lowerL_inv (hs : s.Inv) : s.lowerL.Inv :=
  State.resetIfEmptied_inv (Work.finish_inv (Moves.rfl'.endAllCalls.ok
    (((Work.start_ok hs).modPortL ⟨Nat.zero_le _, fun _ => rfl⟩).raise _)))

theorem State.lowerH_inv (hs : s.Inv) : s.lowerH.Inv :=
  Work.finish_inv (Moves.rfl'.endUpperCalls.ok
    (((Work.start_ok hs).modPortH ⟨Nat.zero_le _, fun _ => rfl⟩ fun _ => rfl).raise _))

theorem execLinkDown_inv (p : Riser) (hs : s.Inv) (h : execLinkDown p s = .next t) : t.Inv := by
  simp only [execLinkDown, Host.Outcome.next.injEq] at h
  subst h
  split
  · cases p with
    | L => exact State.lowerL_inv hs
    | H => exact State.lowerH_inv hs
  · exact hs

theorem execFloorFault_inv (k : Floor) (hs : s.Inv) (h : execFloorFault k s = .next t) : t.Inv := by
  refine event_inv hs (fun hw => ?_) h
  split
  · exact (Moves.rfl'.endFloorCalls _ _).ok ((hw.modFloorPort ⟨Nat.zero_le _, fun _ => rfl⟩).raise _)
  · exact hw

theorem execFloorLineGood_inv (k : Floor) (hs : s.Inv) (h : execFloorLineGood k s = .next t) : t.Inv := by
  refine event_inv hs (fun hw => ?_) h
  split
  · exact ((hw.modFloorPort ⟨Nat.zero_le _, fun _ => rfl⟩).sendF _ _).run _
  · exact hw

theorem execFireEdge_inv (high : Bool) (hs : s.Inv) (h : execFireEdge high s = .next t) : t.Inv := by
  refine event_inv hs (fun hw => ?_) h
  split
  · exact hw
  · exact hw.changeSources { hw.inv with }

theorem RiserPort.sent_queueOk {p : RiserPort} (hp : p.QueueOk) : p.sent.QueueOk := by
  unfold RiserPort.sent
  split
  · next c rest hl hq =>
    have hlen := hp.1
    rw [hq, List.length_cons] at hlen
    exact ⟨by dsimp only; omega, fun hd => absurd (hl.symm.trans hd) (by decide)⟩
  · exact hp

theorem RiserPort.sent_link (p : RiserPort) : p.sent.link = p.link := by
  unfold RiserPort.sent
  split <;> rfl

theorem FloorPort.sent_queueOk {p : FloorPort} (hp : p.QueueOk) : p.sent.QueueOk := by
  unfold FloorPort.sent
  split
  · next c rest hl hq =>
    have hlen := hp.1
    rw [hq, List.length_cons] at hlen
    exact ⟨by dsimp only; omega, fun hd => absurd hl hd⟩
  · exact hp

theorem execTransmitCell_inv (p : Port) (hs : s.Inv) (h : execTransmitCell p s = .next t) : t.Inv := by
  refine event_inv hs (fun hw => hw.modState ?_) h
  cases p with
  | L => exact { hw.inv with queueL := RiserPort.sent_queueOk hw.inv.queueL }
  | H =>
    exact { hw.inv with
      queueH := RiserPort.sent_queueOk hw.inv.queueH
      topDown := fun ht => (RiserPort.sent_link _).trans (hw.inv.topDown ht) }
  | F k =>
    exact { hw.inv with
      queues := forall_getElem_set (P := fun _ p => FloorPort.QueueOk p) k (FloorPort.sent_queueOk (hw.inv.queues k))
        hw.inv.queues }

theorem execCellCheckFailed_inv (p : Port) (bytes : List Byte) (hs : s.Inv)
    (h : execCellCheckFailed p bytes s = .next t) : t.Inv := by
  refine event_inv hs (fun hw => ?_) h
  split
  · split
    · exact hw.raise _
    · exact hw.raise _
    · exact hw
  · exact hw

theorem execSetupFromBelow_inv (key : Key) (lane : Byte) (dest : Word) (cls : Class) (okind : BitVec 2) (origin : Word)
    (hs : s.Inv) (h : execSetupFromBelow key lane dest cls okind origin s = .next t) : t.Inv := by
  refine onRiser_inv hs (fun w hw => ?_) h
  split
  · split
    · split
      · exact (hw.sendL _).raise _
      · next hf =>
        exact (((Moves.rfl'.makeCall _ _ _ hf).fillMirror _ _).routeUp _ _ _ hw.inv.waiting).ok hw
    · exact hw.raise _
  · exact hw.raise _

theorem execSetupFromAbove_inv (key : Key) (lane : Byte) (dest : Word) (cls : Class) (okind : BitVec 2) (origin : Word)
    (hs : s.Inv) (h : execSetupFromAbove key lane dest cls okind origin s = .next t) : t.Inv := by
  refine onRiser_inv hs (fun w hw => ?_) h
  split
  · split
    · split
      · exact (hw.sendH _).raise _
      · next hf => exact ((Moves.rfl'.makeCall _ _ _ hf).routeCallDown _ _ _ _ hw.inv.waiting).ok hw
    · exact hw.raise _
  · exact hw.raise _

theorem execLaneGrant_inv (p : Riser) (key : Key) (lane : Byte) (hs : s.Inv)
    (h : execLaneGrant p key lane s = .next t) : t.Inv := by
  refine onlyFromBelow_inv hs (fun w hw => ?_) h
  split
  · exact hw.raise _
  · refine (Moves.rfl'.named _ _ _ fun h r _ => ?_).ok hw
    split
    · exact (Moves.rfl'.fillMirror _ _).modCall _ _
    · exact Moves.rfl'.raise _

theorem execAlertingFromAbove_inv (key : Key) (lane : Byte) (hs : s.Inv)
    (h : execAlertingFromAbove key lane s = .next t) : t.Inv := by
  refine onProgress_inv hs (fun w h r => ?_) h
  split
  · exact (Moves.rfl'.modCall _ _).progressDown _ _
  · split
    · exact Moves.rfl'.progressDown _ _
    · exact Moves.rfl'.raise _

theorem execQueuedFromAbove_inv (key : Key) (lane : Byte) (hs : s.Inv)
    (h : execQueuedFromAbove key lane s = .next t) : t.Inv := by
  refine onProgress_inv hs (fun w h r => ?_) h
  split
  · exact (Moves.rfl'.modCall _ _).progressDown _ _
  · exact Moves.rfl'.raise _

theorem execLimitNearFromAbove_inv (p : Riser) (key : Key) (lane : Byte) (hs : s.Inv)
    (h : execLimitNearFromAbove p key lane s = .next t) : t.Inv := by
  refine onProgress_inv hs (fun w h r => ?_) h
  split
  · exact Moves.rfl'.progressDown _ _
  · exact Moves.rfl'.raise _

theorem execConnectFromAbove_inv (key : Key) (hs : s.Inv) (h : execConnectFromAbove key s = .next t) : t.Inv := by
  refine onRiser_inv hs (fun w hw => (Moves.rfl'.named _ _ _ fun h r _ => ?_).ok hw) h
  split
  · exact ((Moves.rfl'.modCall _ _).crossConnect _).connectToward _ _
  · exact Moves.rfl'.raise _

theorem execQueuedFromBelow_inv (key : Key) (lane : Byte) (hs : s.Inv)
    (h : execQueuedFromBelow key lane s = .next t) : t.Inv := by
  refine onProgress_inv hs (fun w h r => ?_) h
  split
  · exact (Moves.rfl'.modCall _ _).tellOrigin _ _ _ _
  · split
    · exact (Moves.rfl'.modCall _ _).tellOrigin _ _ _ _
    · exact Moves.rfl'.raise _

theorem execAlertingFromBelow_inv (key : Key) (lane : Byte) (hs : s.Inv)
    (h : execAlertingFromBelow key lane s = .next t) : t.Inv := by
  refine onProgress_inv hs (fun w h r => ?_) h
  split
  · split
    · exact (Moves.rfl'.modCall _ _).statusTo _ _ _ _ _
    · exact (Moves.rfl'.modCall _ _).progressUp _ _ _
  · split
    · split
      · exact .refl
      · exact Moves.rfl'.progressUp _ _ _
    · exact Moves.rfl'.raise _

theorem execConnectFromBelow_inv (key : Key) (hs : s.Inv) (h : execConnectFromBelow key s = .next t) : t.Inv := by
  refine onRiser_inv hs (fun w hw => (Moves.rfl'.named _ _ _ fun h r _ => ?_).ok hw) h
  split
  · split
    · exact (((Moves.rfl'.modCall _ _).crossConnect _).statusTo _ _ _ _ _).setActivity _ _
    · exact ((Moves.rfl'.modCall _ _).crossConnect _).connectToward _ _
  · exact Moves.rfl'.raise _

theorem execHeldFromBelow_inv (key : Key) (lane : Byte) (hs : s.Inv)
    (h : execHeldFromBelow key lane s = .next t) : t.Inv := by
  refine onProgress_inv hs (fun w h r => ?_) h
  split
  · dsimp only
    split
    · exact ((Moves.rfl'.emptyMirror _).modCall _ _).tellOrigin _ _ _ _
    · exact (Moves.rfl'.emptyMirror _).modCall _ _
  · exact Moves.rfl'.raise _

theorem execResumedFromBelow_inv (key : Key) (lane : Byte) (hs : s.Inv)
    (h : execResumedFromBelow key lane s = .next t) : t.Inv := by
  refine onRiser_inv hs (fun w hw => ?_) h
  split
  · exact hw.raise _
  · refine (Moves.rfl'.named _ _ _ fun h r _ => ?_).ok hw
    split
    · have hm := fun l => (Moves.rfl' (a := w).fillMirror h l).modCall h fun r => { r with heldBelow := false }
      dsimp only
      split
      · split
        · exact ((hm _).crossConnect _).statusTo _ _ _ _ _
        · exact ((hm _).crossConnect _).progressUp _ _ _
      · exact hm _
    · exact Moves.rfl'.raise _

theorem execRelease_inv (p : Riser) (key : Key) (code : Byte) (hs : s.Inv) (h : execRelease p key code s = .next t) :
    t.Inv := by
  refine onRiser_inv hs (fun w hw => ?_) h
  split
  · exact (Moves.rfl'.sendRiser _ _).ok hw
  · refine (Moves.rfl'.withCall fun r _ => ?_).ok hw
    split
    · exact Moves.rfl'.closeCleared _ _
    · exact ((Moves.rfl'.sendRiser _ _).modCall _ _).release _ _

theorem execReleaseDone_inv (p : Riser) (key : Key) (hs : s.Inv) (h : execReleaseDone p key s = .next t) : t.Inv := by
  refine onRiser_inv hs (fun w hw => ?_) h
  split
  · exact hw.raise _
  · refine (Moves.rfl'.withCall fun r _ => ?_).ok hw
    split
    · exact Moves.rfl'.closeCleared _ _
    · exact Moves.rfl'.raise _

theorem execUnlatchFromAbove_inv (p : Riser) (key : Key) (okind : BitVec 2) (origin : Word) (hs : s.Inv)
    (h : execUnlatchFromAbove p key okind origin s = .next t) : t.Inv := by
  refine onRiser_inv hs (fun w hw => ?_) h
  cases p with
  | L => exact hw.raise _
  | H =>
    dsimp only
    split
    · refine (Moves.rfl'.named _ _ _ fun h r _ => ?_).ok hw
      split
      · exact Moves.rfl'.raise _
      · split
        · exact .refl
        · split
          · split
            · exact .refl
            · exact Moves.rfl'.sendL _
          · exact .refl
          · exact Moves.rfl'.raise _
    · exact hw.raise _

theorem execRestartFromBelow_inv (hs : s.Inv) (h : execRestartFromBelow s = .next t) : t.Inv := by
  refine onRiser_inv hs (fun w hw => (Moves.rfl'.emptyWholeMirror.eachCall _ fun w h r hm _ => ?_).ok hw) h
  split
  · exact hm.cutCall _ _ _ _
  · exact hm

theorem execRestartFromAbove_inv (hs : s.Inv) (h : execRestartFromAbove s = .next t) : t.Inv := by
  refine onRiser_inv hs (fun w hw => (Moves.announceFire (Moves.rfl'.eachCall _ fun w h r hm _ => ?_)).ok hw) h
  split
  · exact hm.cutCall _ _ _ _
  · exact hm

theorem execFireOn_inv (p : Riser) (hs : s.Inv) (h : execFireOn p s = .next t) : t.Inv := by
  refine onlyFromBelow_inv hs (fun w hw => ?_) h
  have h1 : (w.relayFire fireOnCell).Ok := by
    unfold Work.relayFire
    split
    · exact hw
    · exact hw.sendH _
  dsimp only
  split
  · exact h1
  · exact (h1.raise _).changeSources { h1.inv with }

theorem execFireOff_inv (p : Riser) (hs : s.Inv) (h : execFireOff p s = .next t) : t.Inv := by
  refine onlyFromBelow_inv hs (fun w hw => ?_) h
  have h1 := hw.changeSources (f := fun s => { s with lineSource := false, latch := false }) { hw.inv with }
  unfold Work.relayFire
  split
  · exact h1
  · exact h1.sendH _

theorem execMgmtRequestForward_inv (p : Riser) (op : Byte) (q : Request) (hs : s.Inv)
    (h : execMgmtRequestForward p op q s = .next t) : t.Inv := by
  unfold execMgmtRequestForward at h
  split at h
  · next u hu =>
    have hinv : u.Inv := by
      refine onlyFromBelow_inv hs (fun w hw => ?_) hu
      split
      · exact hw.raise _
      · split
        · exact hw.raise _
        · split
          · exact hw.serve _ _
          · exact hw.forwardRequest _ _
    cases h
    split
    · exact State.resetAtOnce_inv hinv _
    · exact hinv
  · next hne => exact absurd h (hne t)

theorem execMgmtRelayDown_inv (p : Riser) (notice : Bool) (op : Byte) (q : Request) (hs : s.Inv)
    (h : execMgmtRelayDown p notice op q s = .next t) : t.Inv := by
  refine onRiser_inv hs (fun w hw => ?_) h
  cases p with
  | L => exact hw.raise _
  | H => exact hw.sendL _

theorem execReset_inv (q : Request) (hs : s.Inv) (h : execReset q s = .next t) : t.Inv := by
  unfold execReset at h
  split at h
  · next u hu =>
    have hinv : u.Inv := onRequest_inv hs (fun w hw => hw.resetOp q) hu
    cases h
    exact State.resetAtOnce_inv hinv _
  · next hne => exact absurd h (hne t)

theorem execAlert_inv (k : Floor) (a : Addr) (b : Byte) (hs : s.Inv) (h : execAlert k a b s = .next t) : t.Inv := by
  refine onResponse_inv hs (fun w h i e => ?_) h
  refine Moves.withCall (fun r _ => ?_) (Moves.rfl'.modEntry _ _ _)
  split
  · exact ((Moves.rfl'.modEntry _ _ _).modCall _ _).progressDown _ _
  · exact Moves.rfl'.modEntry _ _ _

theorem execRepeatOffer_inv (k : Floor) (a : Addr) (b : Byte) (hs : s.Inv) (h : execRepeatOffer k a b s = .next t) :
    t.Inv := by
  refine onResponse_inv hs (fun w h i e => ?_) h
  split
  · exact Moves.rfl'.windowEnds _ _ _
  · exact Moves.rfl'.offerAlone _ _

theorem execResponseWindowExpiry_inv (h : Handle) (i : Fin 2) (hs : s.Inv)
    (ht : execResponseWindowExpiry h i s = .next t) : t.Inv := by
  refine event_inv hs (fun hw => (Moves.rfl'.withCall fun r _ => ?_).ok hw) ht
  split
  · split
    · split
      · exact Moves.rfl'.windowEnds _ _ _
      · exact .refl
    · exact .refl
  · exact .refl

theorem execDial_inv (k : Floor) (a : Addr) (hs : s.Inv) (h : execDial k a s = .next t) : t.Inv := by
  refine onFloor_inv hs (fun w hw => ?_) h
  split
  · exact hw.sendF _ _
  · split
    · exact (Moves.rfl'.callDown _ _ _ hw.inv.waiting).ok hw
    · exact (Moves.rfl'.connectFlat _ _).ok hw
    · exact (Moves.rfl'.preAnswer _ _ _).ok hw
    · exact hw.sendF _ _
    · exact hw.sendF _ _

theorem execHook_inv (k : Floor) (a : Addr) (hs : s.Inv) (h : execHook k a s = .next t) : t.Inv := by
  refine onFloor_inv hs (fun w hw => ?_) h
  split
  · exact (Moves.rfl'.release _ _).ok hw
  · exact hw

theorem execUnlatch_inv (k : Floor) (a : Addr) (hs : s.Inv) (h : execUnlatch k a s = .next t) : t.Inv := by
  refine onFloor_inv hs (fun w hw => ?_) h
  split
  · exact hw.sendF _ _
  · refine (Moves.rfl'.withCall fun r _ => ?_).ok hw
    split
    · exact Moves.rfl'.sendF _ _
    · split
      · exact (Moves.rfl'.sendL _).sendF _ _
      · exact Moves.rfl'.sendF _ _

theorem Slot.quieted_legal {x : Slot} (hx : x.Legal) (v : Class) : (x.quieted v).Legal := by
  unfold Slot.quieted
  split
  · exact ⟨hx.1, min_le_right _ _, hx.2.2⟩
  · exact hx

theorem Slot.quieted_apart {x y : Slot} (h : x.Apart y) (v : Class) : (x.quieted v).Apart y := by
  unfold Slot.quieted
  split <;> exact h

theorem execQuiet_inv (k : Floor) (a : Addr) (level : Byte) (hs : s.Inv) (h : execQuiet k a level s = .next t) :
    t.Inv := by
  refine onFloor_inv hs (fun w hw => ?_) h
  split
  · next hv =>
    split
    · exact hw
    · next i _ _ =>
      refine Work.Ok.sendF (hw.modState { hw.inv with legal := ?_, unique := ?_ }) _ _
      · exact { hw.inv.legal with
          slots := forall_getElem_set (P := fun _ x => Slot.Legal x) i (Slot.quieted_legal (hw.inv.legal.slots i) _)
            hw.inv.legal.slots }
      · exact hw.inv.unique.set fun j hj => Slot.quieted_apart (Retained.unique_iff.1 hw.inv.unique i j hj.symm) _
  · exact hw.raise _

theorem execLaneWaitExpiry_inv (h : Handle) (hs : s.Inv) (ht : execLaneWaitExpiry h s = .next t) : t.Inv := by
  refine onExpiry_inv hs (fun w r => ?_) ht
  split
  · exact (Moves.rfl'.raise _).release _ _
  · exact .refl

/-- An expiry that ends the call in its state. -/
theorem release_expiry_inv {h : Handle} {m : Purpose} {x : CallState} {c : Cause} (hs : s.Inv)
    (ht : onExpiry s h m (fun w r => if r.state = x then w.release h c else w) = .next t) : t.Inv := by
  refine onExpiry_inv hs (fun w r => ?_) ht
  split
  · exact Moves.rfl'.release _ _
  · exact .refl

theorem State.Inv.find?_length {p : WaitEntry → Bool} {x : WaitEntry} (hs : s.Inv)
    (hx : s.waiting.find? p = some x) : (s.waiting.filter fun y => !(y.handle == x.handle)).length < 16 := by
  refine lt_of_lt_of_le (List.length_filter_lt_length_iff_exists.2 ⟨x, List.mem_of_find?_eq_some hx, by simp⟩) hs.waiting

theorem execAgeingStep_inv (h : Handle) (hs : s.Inv) (ht : execAgeingStep h s = .next t) : t.Inv := by
  refine event_inv hs (fun hw => ?_) ht
  refine (Moves.rfl'.withCall fun r _ => ?_).ok hw
  split
  · next x hx =>
    have hh : x.handle = h := by
      have hp := List.find?_some hx
      simp only [Bool.and_eq_true, beq_iff_eq] at hp
      exact hp.1
    refine Moves.run (Relation.ReflTransGen.tail (Moves.rfl'.leaveWaiting h) (.setWaiting _ _ (.inl ?_))) _
    have hl := State.Inv.find?_length hw.inv hx
    rw [hh] at hl
    rw [State.placed_length]
    exact hl
  · exact .refl

theorem execLimitNear_inv (h : Handle) (hs : s.Inv) (ht : execLimitNear h s = .next t) : t.Inv := by
  refine onExpiry_inv hs (fun w r => ?_) ht
  split
  · split
    · exact ((Moves.rfl'.modCall _ _).progressDown _ _).statusTo _ _ _ _ _
    · exact .refl
  · exact .refl

theorem execGuardTimerExpiry_inv (h : Handle) (hs : s.Inv) (ht : execGuardTimerExpiry h s = .next t) : t.Inv := by
  refine onExpiry_inv hs (fun w r => ?_) ht
  split
  · exact (Moves.rfl'.freeCall _).raise _
  · exact .refl

theorem RiserPort.framed_queueOk {p : RiserPort} (hp : p.QueueOk) (a : Bool) : (p.framed a).QueueOk := by
  unfold RiserPort.framed
  split <;> exact hp

theorem Work.Ok.framer {w : Work} (hw : w.Ok) (p : Riser) (a : Bool) : (w.framer p a).Ok := by
  cases p with
  | L => exact hw.modPortL (f := fun p => p.framed a) (RiserPort.framed_queueOk hw.inv.queueL a)
  | H =>
    unfold Work.framer
    dsimp only
    split
    · exact hw
    · next ht => exact hw.modPortH (f := fun p => p.framed a) (RiserPort.framed_queueOk hw.inv.queueH a) fun e => absurd e ht

theorem framer_event_inv (p : Riser) (a : Bool) (hs : s.Inv) (h : event s (fun w => w.framer p a) = .next t) : t.Inv :=
  event_inv hs (fun hw => hw.framer p a) h

theorem execLineMonitorReportChange_inv (k : Floor) (good : Bool) (hs : s.Inv)
    (h : execLineMonitorReportChange k good s = .next t) : t.Inv := by
  refine event_inv hs (fun hw => hw.modFloorPort ?_) h
  unfold FloorPort.reported
  split <;> exact hw.inv.queues k

theorem execPowerUpReset_inv (pins : Pins) (hs : s.Inv) (h : execPowerUpReset pins s = .next t) : t.Inv := by
  simp only [execPowerUpReset, Host.Outcome.next.injEq] at h
  subst h
  refine State.evaluateFire_inv ?_
  split
  · exact State.restarted_inv hs.legal hs.unique _ _ _ _
  · have hd := State.restarted_inv (s := s) Retained.default_legal Retained.default_unique pins false false fun _ => false
    exact { hd with status := hd.status.add _ }

theorem execRemoteReset_inv (pins : Pins) (hs : s.Inv) (h : execRemoteReset pins s = .next t) : t.Inv := by
  simp only [execRemoteReset, Host.Outcome.next.injEq] at h
  subst h
  split
  · exact State.remoteReset_inv hs pins
  · exact hs

theorem execMainSupplyLoss_inv (b : Bool) (hs : s.Inv) (h : execMainSupplyLoss b s = .next t) : t.Inv := by
  simp only [execMainSupplyLoss, Host.Outcome.next.injEq] at h
  subst h
  split
  · exact { State.restarted_inv (s := s) hs.legal hs.unique s.pins false false fun _ => false with }
  · exact hs

theorem execStandbySupplyLow_inv (hs : s.Inv) (h : execStandbySupplyLow s = .next t) : t.Inv := by
  simp only [execStandbySupplyLow, Host.Outcome.next.injEq] at h
  subst h
  split
  · exact hs
  · exact { hs with }

end

/-- Every command keeps the invariant. -/
theorem exec_inv (c : Instr) {s t : State} (hs : s.Inv) (h : exec c s = .next t) : t.Inv := by
  cases c with
  | powerUpReset pins => exact execPowerUpReset_inv pins hs h
  | remoteReset pins => exact execRemoteReset_inv pins hs h
  | linkUp p => exact execLinkUp_inv p hs h
  | linkDown p => exact execLinkDown_inv p hs h
  | floorFault k => exact execFloorFault_inv k hs h
  | floorLineGood k => exact execFloorLineGood_inv k hs h
  | fireEdge b => exact execFireEdge_inv b hs h
  | transmitCell p => exact execTransmitCell_inv p hs h
  | cellCheckFailed p bytes => exact execCellCheckFailed_inv p bytes hs h
  | setupFromBelow key lane dest cls okind origin => exact execSetupFromBelow_inv key lane dest cls okind origin hs h
  | setupFromAbove key lane dest cls okind origin => exact execSetupFromAbove_inv key lane dest cls okind origin hs h
  | laneGrant p key lane => exact execLaneGrant_inv p key lane hs h
  | alertingFromAbove key lane => exact execAlertingFromAbove_inv key lane hs h
  | queuedFromAbove key lane => exact execQueuedFromAbove_inv key lane hs h
  | heldFromAbove key lane => exact onProgress_inv hs (fun w _ r => Moves.rfl'.relayHold r _) h
  | resumedFromAbove key lane => exact onProgress_inv hs (fun w _ r => Moves.rfl'.relayHold r _) h
  | limitNearFromAbove p key lane => exact execLimitNearFromAbove_inv p key lane hs h
  | connectFromAbove key => exact execConnectFromAbove_inv key hs h
  | queuedFromBelow key lane => exact execQueuedFromBelow_inv key lane hs h
  | alertingFromBelow key lane => exact execAlertingFromBelow_inv key lane hs h
  | connectFromBelow key => exact execConnectFromBelow_inv key hs h
  | heldFromBelow key lane => exact execHeldFromBelow_inv key lane hs h
  | resumedFromBelow key lane => exact execResumedFromBelow_inv key lane hs h
  | release p key code => exact execRelease_inv p key code hs h
  | releaseDone p key => exact execReleaseDone_inv p key hs h
  | unlatchFromAbove p key okind origin => exact execUnlatchFromAbove_inv p key okind origin hs h
  | restartFromBelow => exact execRestartFromBelow_inv hs h
  | restartFromAbove => exact execRestartFromAbove_inv hs h
  | fireOn p => exact execFireOn_inv p hs h
  | fireOff p => exact execFireOff_inv p hs h
  | mgmtRequestForward p op q => exact execMgmtRequestForward_inv p op q hs h
  | mgmtRelayDown p notice op q => exact execMgmtRelayDown_inv p notice op q hs h
  | read q => exact onRequest_inv hs (fun w hw => hw.readOp q) h
  | write q => exact onRequest_inv hs (fun w hw => hw.writeOp q) h
  | update q => exact onRequest_inv hs (fun w hw => hw.updateOp q) h
  | clearEvents q => exact onRequest_inv hs (fun w hw => hw.clearEventsOp q) h
  | setMasks q => exact onRequest_inv hs (fun w hw => hw.setMasksOp q) h
  | laneOut q => exact onRequest_inv hs (fun w hw => hw.laneOutOp q) h
  | laneIn q => exact onRequest_inv hs (fun w hw => hw.laneInOp q) h
  | portDisable q => exact onRequest_inv hs (fun w hw => hw.portDisableOp q) h
  | portEnable q => exact onRequest_inv hs (fun w hw => hw.portEnableOp q) h
  | setService q => exact onRequest_inv hs (fun w hw => hw.setServiceOp q) h
  | lock q => exact onRequest_inv hs (fun w hw => hw.lockOp q) h
  | reset q => exact execReset_inv q hs h
  | alert k a b => exact execAlert_inv k a b hs h
  | answer k a b => exact onResponse_inv hs (fun w h _ _ => Moves.rfl'.connectFlat h a) h
  | refuse k a b =>
    exact onResponse_inv hs (fun w h i _ => ((Moves.rfl'.modEntry h i _).followOn h).countEntries h) h
  | repeatOffer k a b => exact execRepeatOffer_inv k a b hs h
  | responseWindowExpiry h' i => exact execResponseWindowExpiry_inv h' i hs h
  | dial k a => exact execDial_inv k a hs h
  | hook k a => exact execHook_inv k a hs h
  | quiet k a b => exact execQuiet_inv k a b hs h
  | unlatch k a => exact execUnlatch_inv k a hs h
  | handsetRestart k a => exact event_inv hs id h
  | laneWaitExpiry h' => exact execLaneWaitExpiry_inv h' hs h
  | ageingStep h' => exact execAgeingStep_inv h' hs h
  | progressWaitExpiry h' => exact release_expiry_inv hs h
  | grantWaitExpiry h' => exact release_expiry_inv hs h
  | ringTimerExpiry h' => exact release_expiry_inv hs h
  | limitNear h' => exact execLimitNear_inv h' hs h
  | talkLimitExpiry h' => exact release_expiry_inv hs h
  | guardTimerExpiry h' => exact execGuardTimerExpiry_inv h' hs h
  | frameAlignmentLoss p => exact framer_event_inv p _ hs h
  | frameAlignmentReturn p => exact framer_event_inv p _ hs h
  | lineMonitorReportChange k good => exact execLineMonitorReportChange_inv k good hs h
  | mainSupplyLoss b => exact execMainSupplyLoss_inv b hs h
  | standbySupplyLow => exact execStandbySupplyLow_inv hs h

/-- Settles O8: a step runs one command, which keeps the invariant, or lets one timer unit pass. -/
theorem stepKeepsInv : Obligations.StepKeepsInv := by
  intro s t hs h
  unfold step at h
  split at h
  · cases h
    unfold State.idle
    split
    · exact State.tick_inv hs
    · exact hs
  · next c rest _ => exact exec_inv c (s := { s with pending := rest }) { hs with } h

end Sys2Proof.Machine
end

