-- ==== Sys2Proof/Proofs/EventMakes.lean ====
section
/-! PROOFS. An event in progress against the words of the statements (`Work.Makes`): what its tables have become, whatever
room the queues have, and, where its cells find room, the whole state that its end will leave (R10, R182). One rule for each
named change; a rule asks for room only under the condition `R` of the relation. -/

namespace Sys2Proof.Machine

/-! ## A state without its queues and its event bits -/

/-- The state with every transmit queue emptied and no event bit set. -/
def State.bare (s : State) : State :=
  { s with
    portL := { s.portL with queue := [] }
    portH := { s.portH with queue := [] }
    floors := s.floors.map fun p => { p with queue := [] }
    status := EventSets.empty }

section
variable {s t : State}

theorem State.bare_floors_set (s : State) (k : Floor) (q : List FloorCell) :
    ({ s with floors := s.floors.set k { s.floors[k] with queue := q } } : State).bare = s.bare := by
  simp only [State.bare, Vector.map_set]
  congr 1
  ext i hi
  by_cases h : k.val = i
  · subst h; simp
  · simp [h]

@[simp] theorem State.bare_sentL (s : State) (l : List RiserCell) : (s.sentL l).bare = s.bare := by
  unfold State.sentL; split <;> rfl

@[simp] theorem State.bare_sentH (s : State) (l : List RiserCell) : (s.sentH l).bare = s.bare := by
  unfold State.sentH; split <;> rfl

@[simp] theorem State.bare_sentF (s : State) (k : Floor) (l : List FloorCell) : (s.sentF k l).bare = s.bare := by
  unfold State.sentF
  split
  · exact s.bare_floors_set k _
  · rfl

@[simp] theorem State.bare_withEvent (s : State) (e : Event) : (s.withEvent e).bare = s.bare :=
  s.bare_sentL (s.noticeOf e)

theorem State.bare_calls (h : s.bare = t.bare) : s.calls = t.calls := (congrArg State.calls h :)
theorem State.bare_call? (h : s.bare = t.bare) (v : Handle) : s.call? v = t.call? v := (congrArg (State.call? · v) h :)
theorem State.bare_maps (h : s.bare = t.bare) : s.maps = t.maps := (congrArg State.maps h :)
theorem State.bare_map (h : s.bare = t.bare) (p : Owned) : s.map p = t.map p := (congrArg (State.map · p) h :)
theorem State.bare_mirror (h : s.bare = t.bare) : s.mirror = t.mirror := (congrArg State.mirror h :)
theorem State.bare_crosses (h : s.bare = t.bare) : s.crosses = t.crosses := (congrArg State.crosses h :)
theorem State.bare_waiting (h : s.bare = t.bare) : s.waiting = t.waiting := (congrArg State.waiting h :)
theorem State.bare_activity (h : s.bare = t.bare) : s.activity = t.activity := (congrArg State.activity h :)
theorem State.bare_retained (h : s.bare = t.bare) : s.retained = t.retained := (congrArg State.retained h :)
theorem State.bare_top (h : s.bare = t.bare) : s.top = t.top := (congrArg State.top h :)
theorem State.bare_lineSource (h : s.bare = t.bare) : s.lineSource = t.lineSource := (congrArg State.lineSource h :)
theorem State.bare_fireMode (h : s.bare = t.bare) : s.fireMode = t.fireMode := (congrArg State.fireMode h :)
theorem State.bare_localSource (h : s.bare = t.bare) : s.localSource = t.localSource := (congrArg State.localSource h :)
theorem State.bare_riserUp (h : s.bare = t.bare) (p : Riser) : s.riserUp p = t.riserUp p := by
  have := congrArg (State.riserUp · p) h
  cases p <;> exact this
theorem State.bare_line (h : s.bare = t.bare) (k : Floor) : s.floors[k].line = t.floors[k].line := by
  have := congrArg (fun x : State => x.floors[k].line) h
  simpa [State.bare] using this
theorem State.bare_floorUp (h : s.bare = t.bare) (k : Floor) : s.floorUp k = t.floorUp k := by
  unfold State.floorUp; rw [State.bare_line h k]
theorem State.bare_usable (h : s.bare = t.bare) (p : Owned) : s.usable p = t.usable p := by
  cases p
  · exact State.bare_riserUp h .H
  · exact State.bare_floorUp h _
theorem State.bare_talkTimer (h : s.bare = t.bare) (c : Class) : s.talkTimer c = t.talkTimer c :=
  (congrArg (State.talkTimer · c) h :)
theorem State.bare_entryPriority (h : s.bare = t.bare) (x : WaitEntry) : s.entryPriority x = t.entryPriority x :=
  (congrArg (State.entryPriority · x) h :)
theorem State.bare_placed (h : s.bare = t.bare) : s.placed = t.placed := (congrArg State.placed h :)
theorem State.bare_ageingStart (h : s.bare = t.bare) : s.ageingStart = t.ageingStart := (congrArg State.ageingStart h :)
theorem State.bare_needed (h : s.bare = t.bare) (p : Owned) (e : Nat) : s.needed p e = t.needed p e :=
  (congrArg (State.needed · p e) h :)
theorem State.bare_freeCount (h : s.bare = t.bare) (p : Owned) : s.freeCount p = t.freeCount p :=
  (congrArg (State.freeCount · p) h :)
theorem State.bare_freeLanes (h : s.bare = t.bare) (p : Owned) : s.freeLanes p = t.freeLanes p :=
  (congrArg (State.freeLanes · p) h :)
theorem State.bare_admitLane (h : s.bare = t.bare) (p : Owned) (e : Nat) : s.admitLane p e = t.admitLane p e := by
  unfold State.admitLane State.admits
  rw [State.bare_usable h, State.bare_needed h, State.bare_freeCount h, State.bare_freeLanes h]
theorem State.bare_originWord (h : s.bare = t.bare) (o : Origin) : s.originWord o = t.originWord o :=
  (congrArg (State.originWord · o) h :)
theorem State.bare_setupCell (h : s.bare = t.bare) (r : CallRecord) (key : Key) (l : Option Nat) :
    setupCell s r key l = setupCell t r key l := by
  unfold setupCell; rw [State.bare_originWord h]

/-! ## Room in the queues -/

theorem State.roomL.mono {n m : Nat} (h : s.roomL n) (hm : m ≤ n) : s.roomL m := fun hu => by
  have := h hu; omega
theorem State.roomH.mono {n m : Nat} (h : s.roomH n) (hm : m ≤ n) : s.roomH m := fun hu => by
  have := h hu; omega
theorem State.roomF.mono {k : Floor} {n m : Nat} (h : s.roomF k n) (hm : m ≤ n) : s.roomF k m := fun hu => by
  have := h hu; omega

theorem State.roomL_sentL {l : List RiserCell} {n : Nat} (h : s.roomL (l.length + n)) : (s.sentL l).roomL n := by
  intro hu
  rw [State.sentL_riserUp] at hu
  have := h hu
  simp only [State.sentL, hu, if_true, List.length_append]
  omega
theorem State.roomH_sentH {l : List RiserCell} {n : Nat} (h : s.roomH (l.length + n)) : (s.sentH l).roomH n := by
  intro hu
  rw [State.sentH_riserUp] at hu
  have := h hu
  simp only [State.sentH, hu, if_true, List.length_append]
  omega
theorem State.roomF_sentF {k : Floor} {l : List FloorCell} {n : Nat} (h : s.roomF k (l.length + n)) :
    (s.sentF k l).roomF k n := by
  intro hu
  rw [State.sentF_floorUp] at hu
  have := h hu
  simp only [State.sentF, hu, if_true, Fin.getElem_fin, Vector.getElem_set_self, List.length_append] at this ⊢
  omega
theorem State.roomF_sentF_ne {k j : Floor} {l : List FloorCell} {n : Nat} (hkj : k ≠ j) (h : s.roomF j n) :
    (s.sentF k l).roomF j n := by
  intro hu
  rw [State.sentF_floorUp] at hu
  have := h hu
  unfold State.sentF
  split
  · have hne : k.val ≠ j.val := fun e => hkj (Fin.ext e)
    simpa [hne] using this
  · exact this

@[simp] theorem State.roomL_sentH (l : List RiserCell) (n : Nat) : (s.sentH l).roomL n ↔ s.roomL n := by
  simp only [State.roomL, State.sentH_riserUp, State.sentH_portL]
@[simp] theorem State.roomL_sentF (k : Floor) (l : List FloorCell) (n : Nat) : (s.sentF k l).roomL n ↔ s.roomL n := by
  simp only [State.roomL, State.sentF_riserUp, State.sentF_portL]
@[simp] theorem State.roomH_sentL (l : List RiserCell) (n : Nat) : (s.sentL l).roomH n ↔ s.roomH n := by
  simp only [State.roomH, State.sentL_riserUp, State.sentL_portH]
@[simp] theorem State.roomH_sentF (k : Floor) (l : List FloorCell) (n : Nat) : (s.sentF k l).roomH n ↔ s.roomH n := by
  simp only [State.roomH, State.sentF_riserUp, State.sentF_portH]
@[simp] theorem State.roomF_sentL (k : Floor) (l : List RiserCell) (n : Nat) : (s.sentL l).roomF k n ↔ s.roomF k n := by
  simp only [State.roomF, State.floorUp, State.sentL_floors]
@[simp] theorem State.roomF_sentH (k : Floor) (l : List RiserCell) (n : Nat) : (s.sentH l).roomF k n ↔ s.roomF k n := by
  simp only [State.roomF, State.floorUp, State.sentH_floors]
@[simp] theorem State.roomH_withEvent (e : Event) (n : Nat) : (s.withEvent e).roomH n ↔ s.roomH n :=
  State.roomH_sentL _ n
@[simp] theorem State.roomF_withEvent (k : Floor) (e : Event) (n : Nat) : (s.withEvent e).roomF k n ↔ s.roomF k n :=
  State.roomF_sentL k _ n
theorem State.roomL_withEvent {e : Event} {n : Nat} (h : s.roomL (n + 1)) : (s.withEvent e).roomL n := by
  have h1 : (s.sentL (s.noticeOf e)).roomL n :=
    State.roomL_sentL (h.mono (by have := s.noticeOf_length e; omega))
  exact h1

end

/-- Cells have joined a riser port's queue. -/
def State.sentOn (s : State) : Riser → List RiserCell → State
  | .L, cells => s.sentL cells
  | .H, cells => s.sentH cells

/-! ## The relation -/

/-- The tables of an event in progress are those of the state `u`; and, under the condition `R`, its notices and cells find
room on port L and `u` is what the end of the event leaves. -/
structure Work.Makes (R : Prop) (w : Work) (u : State) : Prop where
  bare : w.st.bare = u.bare
  full : R → w.shows = u ∧ w.st.roomL w.toL

namespace Work.Makes

variable {R : Prop} {w : Work} {s u : State}

theorem start (R : Prop) (s : State) : (Work.start s).Makes R s :=
  ⟨rfl, fun _ => ⟨Work.shows_start s, fun _ => .inl (by simp [Work.toL])⟩⟩

/-- A change that adds no cell for port L and no event bit, and makes of the state it shows what it makes of its own. -/
theorem mod {w' : Work} (h : w.Makes R u) (f : State → State) (hb : w'.st.bare = (f u).bare)
    (hs : R → w'.shows = f w.shows) (ht : R → w'.toL = w.toL) (hl : w'.st.portL = w.st.portL) : w'.Makes R (f u) where
  bare := hb
  full r := by
    obtain ⟨h1, h2⟩ := h.full r
    refine ⟨by rw [hs r, h1], ?_⟩
    rw [ht r]
    simpa only [State.roomL, State.riserUp, hl] using h2

theorem run (h : w.Makes R u) (p : Owned) : (w.run p).Makes R u := ⟨h.bare, fun r => h.full r⟩

theorem putCall (h : w.Makes R u) (v : Handle) (r : CallRecord) :
    ({ w with st := w.st.putCall v r } : Work).Makes R (u.putCall v r) := by
  refine h.mod (fun s => s.putCall v r) ?_ (fun _ => w.shows_putCall v r) (fun _ => rfl) rfl
  exact congrArg (State.putCall · v r) h.bare

theorem modCall (h : w.Makes R u) {v : Handle} {r : CallRecord} {f : CallRecord → CallRecord}
    (hr : u.call? v = some r) : (w.modCall v f).Makes R (u.putCall v (f r)) := by
  have hr' : w.st.call? v = some r := (State.bare_call? h.bare v).trans hr
  rw [Work.modCall_live hr']
  exact h.putCall v _

theorem setActivity (h : w.Makes R u) (i : SlotNo) (a : Activity) :
    (w.setActivity i a).Makes R (u.putActivity i a) := by
  refine h.mod (fun s => s.putActivity i a) ?_ (fun _ => w.shows_setActivity i a) (fun _ => rfl) rfl
  exact congrArg (State.putActivity · i a) h.bare

theorem setCrosses (h : w.Makes R u) (l : List Cross) : (w.setCrosses l).Makes R { u with crosses := l } := by
  refine h.mod (fun s => { s with crosses := l }) ?_ (fun _ => w.shows_setCrosses l) (fun _ => rfl) rfl
  exact congrArg (fun s : State => { s with crosses := l }) h.bare

theorem setWaiting (h : w.Makes R u) (l : List WaitEntry) : (w.setWaiting l).Makes R { u with waiting := l } := by
  refine h.mod (fun s => { s with waiting := l }) ?_ (fun _ => w.shows_setWaiting l) (fun _ => rfl) rfl
  exact congrArg (fun s : State => { s with waiting := l }) h.bare

theorem setMirror (h : w.Makes R u) (l : LLane) (x : Option Handle) :
    (w.setMirror l x).Makes R { u with mirror := u.mirror.set l x } := by
  refine h.mod (fun s => { s with mirror := s.mirror.set l x }) ?_ (fun _ => w.shows_setMirror l x) (fun _ => rfl) rfl
  exact congrArg (fun s : State => { s with mirror := s.mirror.set l x }) h.bare

theorem setMap (h : w.Makes R u) (p : Owned) (m : LaneMap) :
    (w.setMap p m).Makes R { u with maps := u.maps.set p.idx m } := by
  refine h.mod (fun s => { s with maps := s.maps.set p.idx m }) ?_ (fun _ => w.shows_setMap p m) (fun _ => rfl) rfl
  exact congrArg (fun s : State => { s with maps := s.maps.set p.idx m }) h.bare

theorem freeCall (h : w.Makes R u) {v : Handle} {r : CallRecord} (hr : u.call? v = some r) :
    (w.freeCall v).Makes R (u.freed v) := by
  have hr' : w.st.call? v = some r := (State.bare_call? h.bare v).trans hr
  have he : w.freeCall v = { w with st := w.st.freed v } := by simp [Work.freeCall, Work.call?, hr', State.freed]
  refine h.mod (fun s => s.freed v) ?_ (fun _ => Work.shows_freeCall hr') (fun _ => ?_) (by rw [he]; rfl)
  · rw [he]; exact congrArg (State.freed · v) h.bare
  · rw [he]; rfl

/-- A cell for port L. -/
theorem sendL (h : w.Makes R u) {c : RiserCell} (hroom : R → u.roomL 1) : (w.sendL c).Makes R (u.sentL [c]) where
  bare := by
    rw [State.bare_sentL, ← h.bare]
    unfold Work.sendL
    split <;> rfl
  full r := by
    obtain ⟨h1, h2⟩ := h.full r
    refine ⟨by rw [Work.shows_sendL, h1], ?_⟩
    intro hu
    have hu' : w.st.riserUp .L = true := by simpa only [State.riserUp, Work.sendL_portL] using hu
    have h3 := hroom r
    rw [← h1] at h3
    have h4 := h3 (by rw [Work.shows_riserUp]; exact hu')
    have h5 : w.sendL c = { w with outL := w.outL ++ [c] } := by simp [Work.sendL, hu']
    rw [h5]
    simp only [Work.shows, State.sentL, hu', if_true, List.length_append] at h4
    simp only [Work.toL, List.length_append, List.length_singleton]
    omega

/-- A cell for port H. -/
theorem sendH (h : w.Makes R u) {c : RiserCell} (hroom : R → u.roomH 1) : (w.sendH c).Makes R (u.sentH [c]) := by
  have hw : R → w.st.roomH 1 := fun r => by
    have h1 := hroom r
    rw [← (h.full r).1] at h1
    simpa only [State.roomH, Work.shows_riserUp, Work.shows_portH] using h1
  refine h.mod (fun s => s.sentH [c]) ?_ (fun r => Work.shows_sendH (hw r)) (fun r => ?_) (by simp)
  · rw [State.bare_sentH, ← h.bare]
    unfold Work.sendH
    split
    · split <;> rfl
    · rfl
  · rw [Work.sendH_room (hw r)]
    simp [Work.toL, State.notices]

/-- A cell for a floor port. -/
theorem sendF (h : w.Makes R u) {k : Floor} {c : FloorCell} (hroom : R → u.roomF k 1) :
    (w.sendF k c).Makes R (u.sentF k [c]) := by
  have hw : R → w.st.roomF k 1 := fun r => by
    have h1 := hroom r
    rw [← (h.full r).1] at h1
    simpa only [State.roomF, Work.shows_floorUp, Work.shows_floors] using h1
  refine h.mod (fun s => s.sentF k [c]) ?_ (fun r => Work.shows_sendF (hw r)) (fun r => ?_) (by simp)
  · rw [State.bare_sentF, ← h.bare]
    unfold Work.sendF
    split
    · split
      · exact State.bare_floors_set _ k _
      · rfl
    · rfl
  · rw [Work.sendF_room (hw r)]
    simp [Work.toL, State.notices]

theorem sendRiser (h : w.Makes R u) {p : Riser} {c : RiserCell} (hL : R → p = .L → u.roomL 1)
    (hH : R → p = .H → u.roomH 1) :
    (w.sendRiser p c).Makes R (u.sentOn p [c]) := by
  cases p with
  | L => exact h.sendL fun r => hL r rfl
  | H => exact h.sendH fun r => hH r rfl

/-- The first event bit of an event, with no cell for port L yet. -/
theorem raise (h : w.Makes R u) {e : Event} (he : R → w.raised = EventSets.empty ∧ w.outL = [])
    (hroom : R → u.roomL 1) : (w.raise e).Makes R (u.withEvent e) where
  bare := by rw [State.bare_withEvent]; exact h.bare
  full r := by
    obtain ⟨h1, -⟩ := h.full r
    obtain ⟨hr, ho⟩ := he r
    have hs : w.shows = w.st := by simp [Work.shows, hr, ho]
    rw [hs] at h1
    subst h1
    have hN : (w.raise e).st.notices (w.raise e).raised (w.raise e).raised = w.st.noticeOf e := by
      rw [Work.raise_st, Work.raise_raised, hr, State.notices_one]
    refine ⟨?_, ?_⟩
    · unfold Work.shows
      rw [hN, Work.raise_st, Work.raise_outL, ho, List.append_nil, Work.raise_raised, hr, EventSets.union_add_empty]
      rfl
    · refine State.roomL.mono (hroom r) ?_
      unfold Work.toL
      rw [hN, Work.raise_outL, ho]
      exact w.st.noticeOf_length e

/-- Whatever room there is, an event bit changes no table. -/
theorem raise_bare (h : w.Makes False u) (e : Event) : (w.raise e).Makes False u := ⟨h.bare, False.elim⟩

/-- The continuation of `withCall` for a live record. -/
theorem withCall (h : w.Makes R u) {v : Handle} {r : CallRecord} {k : CallRecord → Work} (hr : u.call? v = some r)
    {u' : State} (hk : (k r).Makes R u') : (w.withCall v k).Makes R u' := by
  have hr' : w.st.call? v = some r := (State.bare_call? h.bare v).trans hr
  rw [Work.withCall_live hr']
  exact hk

/-- The end of an event for which the arbiter does not run. -/
theorem finish (h : w.Makes True u) (hn : w.runs = []) : w.finish = u := by
  obtain ⟨h1, h2⟩ := h.full trivial
  rw [Work.finish, Work.runArbiter_noRuns hn, Work.flush_shows h2, h1]

theorem flush (h : w.Makes True u) : w.flush = u := by
  obtain ⟨h1, h2⟩ := h.full trivial
  rw [Work.flush_shows h2, h1]

end Work.Makes

theorem Work.flush_bare (w : Work) : w.flush.bare = w.st.bare := by
  unfold Work.flush
  split <;> rfl

end Sys2Proof.Machine
end

