-- ==== Sys2Proof/Proofs/EventParts.lean ====
section
/-! PROOFS. What the small parts of an event make of the state that it will leave (`Work.Makes`): the cells toward one side
of a call, the mirror, the cross-connects; and the commands that begin no run of the arbiter. -/

namespace Sys2Proof.Machine

/-! ## The runs that an event asks for -/

section
variable (w : Work) (h : Handle) (r : CallRecord)

theorem Work.withCall_runs {w : Work} {h : Handle} {k : CallRecord → Work} (hk : ∀ r, (k r).runs = w.runs) :
    (w.withCall h k).runs = w.runs := by
  unfold Work.withCall
  split
  · exact hk _
  · rfl

@[simp] theorem Work.sendRiser_runs (p : Riser) (c : RiserCell) : (w.sendRiser p c).runs = w.runs := by
  cases p
  · exact w.sendL_runs c
  · exact w.sendH_runs c

@[simp] theorem Work.progressDown_runs (c : Progress) : (w.progressDown r c).runs = w.runs := by
  unfold Work.progressDown; split <;> simp

@[simp] theorem Work.progressUp_runs (c : Progress) (l : Option Nat) : (w.progressUp r c l).runs = w.runs := by
  unfold Work.progressUp; split <;> simp

@[simp] theorem Work.connectToward_runs (p : Riser) : (w.connectToward r p).runs = w.runs := by
  unfold Work.connectToward; split <;> simp

@[simp] theorem Work.statusTo_runs (c : Status) (v : Byte) (l : Option Nat) : (w.statusTo h r c v l).runs = w.runs := by
  unfold Work.statusTo
  split
  · split <;> simp
  · rfl

@[simp] theorem Work.tellOrigin_runs (c : Status) (d : Progress) : (w.tellOrigin h r c d).runs = w.runs := by
  unfold Work.tellOrigin; split <;> simp

@[simp] theorem Work.crossConnect_runs : (w.crossConnect h).runs = w.runs := by
  refine Work.withCall_runs fun r => ?_
  split <;> simp

@[simp] theorem Work.fillMirror_runs (l : LLane) : (w.fillMirror h l).runs = w.runs := by simp [Work.fillMirror]

@[simp] theorem Work.emptyMirror_runs : (w.emptyMirror h).runs = w.runs := by
  refine Work.withCall_runs fun r => ?_
  unfold Work.dropLCross
  split <;> simp

@[simp] theorem Work.closeCleared_runs (p : Riser) : (w.closeCleared h p).runs = w.runs := by
  refine (Work.withCall_runs fun r => ?_).trans (Work.modCall_runs _ _ _)
  split <;> simp

end

/-! ## Reading through the named changes -/

section
variable (s : State)

@[simp] theorem State.call?_sentL (l : List RiserCell) (v : Handle) : (s.sentL l).call? v = s.call? v := by
  simp [State.call?]
@[simp] theorem State.call?_sentH (l : List RiserCell) (v : Handle) : (s.sentH l).call? v = s.call? v := by
  simp [State.call?]
@[simp] theorem State.call?_sentF (k : Floor) (l : List FloorCell) (v : Handle) : (s.sentF k l).call? v = s.call? v := by
  simp [State.call?]
@[simp] theorem State.call?_putActivity (i : SlotNo) (a : Activity) (v : Handle) :
    (s.putActivity i a).call? v = s.call? v := rfl
@[simp] theorem State.call?_laneTaken (p : Owned) (i : Nat) (h v : Handle) : (s.laneTaken p i h).call? v = s.call? v := rfl
@[simp] theorem State.call?_withEvent (e : Event) (v : Handle) : (s.withEvent e).call? v = s.call? v := by
  simp [State.call?]
@[simp] theorem State.call?_putCall_self (h : Handle) (r : CallRecord) : (s.putCall h r).call? h = some r := by
  simp [State.call?_putCall]

theorem State.call?_putCall_ne {h v : Handle} (r : CallRecord) (hv : h ≠ v) : (s.putCall h r).call? v = s.call? v := by
  simp [State.call?_putCall, hv]

/-- Writing back the record that is there changes nothing. -/
theorem State.putCall_self {h : Handle} {r : CallRecord} (hr : s.call? h = some r) : s.putCall h r = s := by
  have hr' : s.calls[h.val] = some r := hr
  have : s.calls.set h (some r) = s.calls := by rw [← hr']; exact Vector.set_getElem_self h.isLt
  show ({ s with calls := s.calls.set h (some r) } : State) = s
  rw [this]

theorem State.sentF_sentF (k : Floor) (a b : List FloorCell) : (s.sentF k a).sentF k b = s.sentF k (a ++ b) := by
  by_cases hu : s.floors[k.val].line = .up <;> simp [State.sentF, State.floorUp, hu]

end

/-- The keys of a record with its floor side are those of its low side. -/
@[simp] theorem CallRecord.openKey_L (r : CallRecord) : r.openKey .L = r.low.key? := rfl

/-- The cross-connect that a record's lanes call for (R139). -/
def CallRecord.joins (r : CallRecord) (h : Handle) : List Cross :=
  match r.lLane, r.ownedPort, r.ownedLane with
  | some l, some p, some i => [{ handle := h, lLane := l, port := p, lane := i }]
  | _, _, _ => []

/-- The state after a record's mirror entry is emptied, with its cross-connect (R47). -/
def State.mirrorEmptied (s : State) (v : Handle) (r : CallRecord) : State :=
  match r.lLane with
  | some l => ({ s with mirror := s.mirror.set l none, crosses := s.crosses.filter fun x => !(x.lLane == l) } :
      State).putCall v { r with lLane := none }
  | none => s

namespace Work.Makes

variable {R : Prop} {w : Work} {s u : State}

/-- Cells for port L, one after the other. -/
theorem sendLOption (h : w.Makes R u) (key : Option Key) (c : Key → RiserCell)
    (hroom : R → u.roomL (key.toList.map c).length) :
    (match key with | some k => w.sendL (c k) | none => w).Makes R (u.sentL (key.toList.map c)) := by
  cases key with
  | none => simpa using h
  | some k => exact h.sendL hroom

theorem sendHOption (h : w.Makes R u) (key : Option Key) (c : Key → RiserCell)
    (hroom : R → u.roomH (key.toList.map c).length) :
    (match key with | some k => w.sendH (c k) | none => w).Makes R (u.sentH (key.toList.map c)) := by
  cases key with
  | none => simpa using h
  | some k => exact h.sendH hroom

theorem progressDown (h : w.Makes R u) (r : CallRecord) (c : Progress) (hroom : R → u.roomL (r.cellsDown c).length) :
    (w.progressDown r c).Makes R (u.sentL (r.cellsDown c)) :=
  h.sendLOption (r.openKey .L) (progressCell · c) hroom

theorem progressUp (h : w.Makes R u) (r : CallRecord) (c : Progress) (l : Option Nat)
    (hroom : R → u.roomH (r.cellsUp c l).length) : (w.progressUp r c l).Makes R (u.sentH (r.cellsUp c l)) :=
  h.sendHOption (r.openKey .H) (progressCell · c l) hroom

/-- A STATUS to the handset on the call, where the record has one. -/
theorem statusToFloor (h : w.Makes R u) (v : Handle) {r : CallRecord} {f : FloorSide} (hf : r.far = .floor f) (c : Status)
    (x : Byte) (l : Option Nat) (hroom : R → u.roomF f.port f.answering.toList.length) :
    (w.statusTo v r c x l).Makes R (u.sentF f.port (f.answering.toList.map fun a => statusCell v.val a c x l)) := by
  simp only [Work.statusTo, hf]
  cases hfa : f.answering with
  | none => simpa using h
  | some a => rw [hfa] at hroom; exact h.sendF hroom

theorem statusTo (h : w.Makes R u) (v : Handle) (r : CallRecord) (c : Status) (l : Option Nat)
    (hroom : R → ∀ f, r.far = .floor f → u.roomF f.port f.answering.toList.length) :
    (w.statusTo v r c 0 l).Makes R (u.statusSent v r c l) := by
  unfold State.statusSent
  split
  · next f hf => exact h.statusToFloor v hf c 0 l fun hR => hroom hR f hf
  · next hf =>
    unfold Work.statusTo
    split
    · next f hf' => exact absurd hf' (hf f)
    · exact h

theorem crossConnect (h : w.Makes R u) {v : Handle} {r : CallRecord} (hr : u.call? v = some r) :
    (w.crossConnect v).Makes R { u with crosses := u.crosses ++ r.joins v } := by
  refine h.withCall hr ?_
  rw [State.bare_crosses h.bare]
  unfold CallRecord.joins
  rcases r.lLane with _ | l <;> rcases r.ownedPort with _ | p <;> rcases r.ownedLane with _ | i
  case some.some.some => exact h.setCrosses _
  all_goals simpa using h

theorem fillMirror (h : w.Makes R u) {v : Handle} {r : CallRecord} (hr : u.call? v = some r) (l : LLane) :
    (w.fillMirror v l).Makes R
      (({ u with mirror := u.mirror.set l (some v) } : State).putCall v { r with lLane := some l }) :=
  (h.setMirror l (some v)).modCall (f := fun r => { r with lLane := some l }) hr

theorem emptyMirror (h : w.Makes R u) {v : Handle} {r : CallRecord} (hr : u.call? v = some r) :
    (w.emptyMirror v).Makes R (u.mirrorEmptied v r) := by
  refine h.withCall hr ?_
  unfold State.mirrorEmptied
  cases r.lLane with
  | none => exact h
  | some l =>
    have hc : (w.setMirror l none).st.crosses = u.crosses :=
      (State.bare_crosses h.bare :)
    have h1 := ((h.setMirror l none).setCrosses (u.crosses.filter fun x => !(x.lLane == l))).modCall (v := v) (r := r)
      (f := fun r => { r with lLane := none }) hr
    simp only [Work.dropLCross, hc]
    exact h1

/-- A side of a record in CLEARING closes, and the record is freed when no side remains open (R147). -/
theorem closeCleared (h : w.Makes R u) {v : Handle} {r : CallRecord} (hr : u.call? v = some r) (p : Riser) :
    (w.closeCleared v p).Makes R
      (if (r.closeSide p).anyOpen then u.putCall v (r.closeSide p) else u.freed v) := by
  have h1 := h.modCall (f := fun r => r.closeSide p) hr
  have hr1 : (u.putCall v (r.closeSide p)).call? v = some (r.closeSide p) := u.call?_putCall_self v _
  refine h1.withCall hr1 ?_
  split
  · exact h1
  · have h2 := h1.freeCall hr1
    have : (u.putCall v (r.closeSide p)).freed v = u.freed v := by simp [State.freed, State.putCall, Vector.set_set]
    rwa [this] at h2

end Work.Makes

/-! ## Commands that begin no run of the arbiter -/

section
variable {s u : State}

theorem event_makes {f : Work → Work} (hp : s.powered = true) (h : (f (Work.start s)).Makes True u)
    (hn : (f (Work.start s)).runs = []) : event s f = .next u := by
  rw [event_powered hp, h.finish hn]

theorem onRiser_makes {p : Riser} {f : Work → Work} (hp : s.powered = true) (hu : s.receives p = true)
    (h : (f (Work.start s)).Makes True u) (hn : (f (Work.start s)).runs = []) : onRiser s p f = .next u := by
  rw [onRiser_receives hp hu, h.finish hn]

/-- The event of a floor cell that is received. -/
theorem onFloor_receives {k : Floor} {f : Work → Work} (hp : s.powered = true) (hu : s.floorUp k = true) :
    onFloor s k f = .next (f (Work.start s)).finish := by
  simp [onFloor, event, hu, hp]

theorem onFloor_makes {k : Floor} {f : Work → Work} (hp : s.powered = true) (hu : s.floorUp k = true)
    (h : (f (Work.start s)).Makes True u) (hn : (f (Work.start s)).runs = []) : onFloor s k f = .next u := by
  rw [onFloor_receives hp hu, h.finish hn]

/-- A PROGRESS whose lane field and key pass, of a rule that begins no run (R6, R85). -/
theorem onProgress_makes {p : Riser} {key : Key} {lane : Byte} {h : Handle} {r : CallRecord}
    {k : Work → Handle → CallRecord → Work} (hp : s.powered = true) (hu : s.receives p = true)
    (hl : laneFieldOk lane = true) (hk : s.keyed p key = some h) (hr : s.call? h = some r)
    (hc : r.state ≠ .clearing) (hm : (k (Work.start s) h r).Makes True u) (hn : (k (Work.start s) h r).runs = []) :
    onProgress s p key lane k = .next u := by
  rw [onProgress_live hp hu hl hk hr hc, hm.finish hn]

/-- A cell that a rule discards with an event (R6, R7, R149). -/
theorem onRiser_raise {p : Riser} {f : Work → Work} {e : Event} (hp : s.powered = true) (hu : s.receives p = true)
    (hroom : s.roomL 1) (hf : f (Work.start s) = (Work.start s).raise e) : onRiser s p f = .next (s.withEvent e) := by
  rw [onRiser_receives hp hu, hf]
  exact congrArg _ (((Work.Makes.start True s).raise (fun _ => ⟨rfl, rfl⟩) fun _ => hroom).finish rfl)

/-- A cell that a rule discards without an event. -/
theorem onRiser_nothing {p : Riser} {f : Work → Work} (hf : f (Work.start s) = Work.start s) :
    onRiser s p f = .next s := by
  simp [onRiser, event, hf]

theorem onFloor_raise {k : Floor} {f : Work → Work} {e : Event} (hp : s.powered = true) (hu : s.floorUp k = true)
    (hroom : s.roomL 1) (hf : f (Work.start s) = (Work.start s).raise e) : onFloor s k f = .next (s.withEvent e) := by
  rw [onFloor_receives hp hu, hf]
  exact congrArg _ (((Work.Makes.start True s).raise (fun _ => ⟨rfl, rfl⟩) fun _ => hroom).finish rfl)

theorem onFloor_nothing {k : Floor} {f : Work → Work} (hf : f (Work.start s) = Work.start s) :
    onFloor s k f = .next s := by
  simp [onFloor, event, hf]

end

end Sys2Proof.Machine
end

