-- ==== Sys2Proof/Proofs/CommandArms.lean ====
section
/-! PROOFS. Each command's meaning by the name that the model gives it (`exec`, one arm each). -/

namespace Sys2Proof.Machine

theorem exec_powerUpReset (pins : Pins) (s : State) : exec (.powerUpReset pins) s = execPowerUpReset pins s := rfl
theorem exec_remoteReset (pins : Pins) (s : State) : exec (.remoteReset pins) s = execRemoteReset pins s := rfl
theorem exec_linkUp (p : Riser) (s : State) : exec (.linkUp p) s = execLinkUp p s := rfl
theorem exec_linkDown (p : Riser) (s : State) : exec (.linkDown p) s = execLinkDown p s := rfl
theorem exec_floorFault (k : Floor) (s : State) : exec (.floorFault k) s = execFloorFault k s := rfl
theorem exec_floorLineGood (k : Floor) (s : State) : exec (.floorLineGood k) s = execFloorLineGood k s := rfl
theorem exec_fireEdge (high : Bool) (s : State) : exec (.fireEdge high) s = execFireEdge high s := rfl
theorem exec_transmitCell (p : Port) (s : State) : exec (.transmitCell p) s = execTransmitCell p s := rfl
theorem exec_cellCheckFailed (p : Port) (bytes : List Byte) (s : State) :
    exec (.cellCheckFailed p bytes) s = execCellCheckFailed p bytes s := rfl
theorem exec_setupFromBelow (key : Key) (lane : Byte) (dest : Word) (cls : Class) (okind : BitVec 2) (origin : Word) (s : State) :
    exec (.setupFromBelow key lane dest cls okind origin) s =
      execSetupFromBelow key lane dest cls okind origin s := rfl
theorem exec_setupFromAbove (key : Key) (lane : Byte) (dest : Word) (cls : Class) (okind : BitVec 2) (origin : Word) (s : State) :
    exec (.setupFromAbove key lane dest cls okind origin) s =
      execSetupFromAbove key lane dest cls okind origin s := rfl
theorem exec_laneGrant (p : Riser) (key : Key) (lane : Byte) (s : State) :
    exec (.laneGrant p key lane) s = execLaneGrant p key lane s := rfl
theorem exec_heldFromAbove (key : Key) (lane : Byte) (s : State) :
    exec (.heldFromAbove key lane) s = execHeldFromAbove key lane s := rfl
theorem exec_resumedFromAbove (key : Key) (lane : Byte) (s : State) :
    exec (.resumedFromAbove key lane) s = execResumedFromAbove key lane s := rfl
theorem exec_limitNearFromAbove (p : Riser) (key : Key) (lane : Byte) (s : State) :
    exec (.limitNearFromAbove p key lane) s = execLimitNearFromAbove p key lane s := rfl
theorem exec_connectFromAbove (key : Key) (s : State) :
    exec (.connectFromAbove key) s = execConnectFromAbove key s := rfl
theorem exec_queuedFromBelow (key : Key) (lane : Byte) (s : State) :
    exec (.queuedFromBelow key lane) s = execQueuedFromBelow key lane s := rfl
theorem exec_alertingFromBelow (key : Key) (lane : Byte) (s : State) :
    exec (.alertingFromBelow key lane) s = execAlertingFromBelow key lane s := rfl
theorem exec_connectFromBelow (key : Key) (s : State) :
    exec (.connectFromBelow key) s = execConnectFromBelow key s := rfl
theorem exec_heldFromBelow (key : Key) (lane : Byte) (s : State) :
    exec (.heldFromBelow key lane) s = execHeldFromBelow key lane s := rfl
theorem exec_resumedFromBelow (key : Key) (lane : Byte) (s : State) :
    exec (.resumedFromBelow key lane) s = execResumedFromBelow key lane s := rfl
theorem exec_release (p : Riser) (key : Key) (code : Byte) (s : State) :
    exec (.release p key code) s = execRelease p key code s := rfl
theorem exec_releaseDone (p : Riser) (key : Key) (s : State) :
    exec (.releaseDone p key) s = execReleaseDone p key s := rfl
theorem exec_unlatchFromAbove (p : Riser) (key : Key) (okind : BitVec 2) (origin : Word) (s : State) :
    exec (.unlatchFromAbove p key okind origin) s = execUnlatchFromAbove p key okind origin s := rfl
theorem exec_restartFromBelow (s : State) : exec .restartFromBelow s = execRestartFromBelow s := rfl
theorem exec_restartFromAbove (s : State) : exec .restartFromAbove s = execRestartFromAbove s := rfl
theorem exec_fireOn (p : Riser) (s : State) : exec (.fireOn p) s = execFireOn p s := rfl
theorem exec_fireOff (p : Riser) (s : State) : exec (.fireOff p) s = execFireOff p s := rfl
theorem exec_mgmtRequestForward (p : Riser) (op : Byte) (q : Request) (s : State) :
    exec (.mgmtRequestForward p op q) s = execMgmtRequestForward p op q s := rfl
theorem exec_mgmtRelayDown (p : Riser) (notice : Bool) (op : Byte) (q : Request) (s : State) :
    exec (.mgmtRelayDown p notice op q) s = execMgmtRelayDown p notice op q s := rfl
theorem exec_read (q : Request) (s : State) : exec (.read q) s = execRead q s := rfl
theorem exec_write (q : Request) (s : State) : exec (.write q) s = execWrite q s := rfl
theorem exec_update (q : Request) (s : State) : exec (.update q) s = execUpdate q s := rfl
theorem exec_clearEvents (q : Request) (s : State) : exec (.clearEvents q) s = execClearEvents q s := rfl
theorem exec_setMasks (q : Request) (s : State) : exec (.setMasks q) s = execSetMasks q s := rfl
theorem exec_laneOut (q : Request) (s : State) : exec (.laneOut q) s = execLaneOut q s := rfl
theorem exec_laneIn (q : Request) (s : State) : exec (.laneIn q) s = execLaneIn q s := rfl
theorem exec_portDisable (q : Request) (s : State) : exec (.portDisable q) s = execPortDisable q s := rfl
theorem exec_portEnable (q : Request) (s : State) : exec (.portEnable q) s = execPortEnable q s := rfl
theorem exec_setService (q : Request) (s : State) : exec (.setService q) s = execSetService q s := rfl
theorem exec_lock (q : Request) (s : State) : exec (.lock q) s = execLock q s := rfl
theorem exec_reset (q : Request) (s : State) : exec (.reset q) s = execReset q s := rfl
theorem exec_alert (k : Floor) (a : Addr) (handle : Byte) (s : State) :
    exec (.alert k a handle) s = execAlert k a handle s := rfl
theorem exec_answer (k : Floor) (a : Addr) (handle : Byte) (s : State) :
    exec (.answer k a handle) s = execAnswer k a handle s := rfl
theorem exec_refuse (k : Floor) (a : Addr) (handle : Byte) (s : State) :
    exec (.refuse k a handle) s = execRefuse k a handle s := rfl
theorem exec_repeatOffer (k : Floor) (a : Addr) (handle : Byte) (s : State) :
    exec (.repeatOffer k a handle) s = execRepeatOffer k a handle s := rfl
theorem exec_responseWindowExpiry (h : Handle) (i : Fin 2) (s : State) :
    exec (.responseWindowExpiry h i) s = execResponseWindowExpiry h i s := rfl
theorem exec_dial (k : Floor) (a : Addr) (s : State) : exec (.dial k a) s = execDial k a s := rfl
theorem exec_hook (k : Floor) (a : Addr) (s : State) : exec (.hook k a) s = execHook k a s := rfl
theorem exec_quiet (k : Floor) (a : Addr) (level : Byte) (s : State) :
    exec (.quiet k a level) s = execQuiet k a level s := rfl
theorem exec_unlatch (k : Floor) (a : Addr) (s : State) : exec (.unlatch k a) s = execUnlatch k a s := rfl
theorem exec_handsetRestart (k : Floor) (a : Addr) (s : State) :
    exec (.handsetRestart k a) s = execHandsetRestart k a s := rfl
theorem exec_laneWaitExpiry (h : Handle) (s : State) : exec (.laneWaitExpiry h) s = execLaneWaitExpiry h s := rfl
theorem exec_ageingStep (h : Handle) (s : State) : exec (.ageingStep h) s = execAgeingStep h s := rfl
theorem exec_progressWaitExpiry (h : Handle) (s : State) :
    exec (.progressWaitExpiry h) s = execProgressWaitExpiry h s := rfl
theorem exec_grantWaitExpiry (h : Handle) (s : State) : exec (.grantWaitExpiry h) s = execGrantWaitExpiry h s := rfl
theorem exec_ringTimerExpiry (h : Handle) (s : State) : exec (.ringTimerExpiry h) s = execRingTimerExpiry h s := rfl
theorem exec_limitNear (h : Handle) (s : State) : exec (.limitNear h) s = execLimitNear h s := rfl
theorem exec_talkLimitExpiry (h : Handle) (s : State) : exec (.talkLimitExpiry h) s = execTalkLimitExpiry h s := rfl
theorem exec_guardTimerExpiry (h : Handle) (s : State) :
    exec (.guardTimerExpiry h) s = execGuardTimerExpiry h s := rfl
theorem exec_frameAlignmentLoss (p : Riser) (s : State) :
    exec (.frameAlignmentLoss p) s = execFrameAlignmentLoss p s := rfl
theorem exec_frameAlignmentReturn (p : Riser) (s : State) :
    exec (.frameAlignmentReturn p) s = execFrameAlignmentReturn p s := rfl
theorem exec_lineMonitorReportChange (k : Floor) (good : Bool) (s : State) :
    exec (.lineMonitorReportChange k good) s = execLineMonitorReportChange k good s := rfl
theorem exec_mainSupplyLoss (midStore : Bool) (s : State) :
    exec (.mainSupplyLoss midStore) s = execMainSupplyLoss midStore s := rfl
theorem exec_standbySupplyLow (s : State) : exec .standbySupplyLow s = execStandbySupplyLow s := rfl

end Sys2Proof.Machine
end

