-- ==== Sys2Proof/Proofs/HoldAndConnect.lean ====
section
/-! PROOFS. The cells that name a record by its key and begin no run of the arbiter (sections 5.7, 7.4, 8.4 to 8.6): each
is received, taken for the record its key names, and either follows its rule or is discarded. -/

namespace Sys2Proof.Machine

variable {s : State}

/-! ## What a cell that is not accepted does -/

/-- A call cell for a record that is not in CLEARING, of a rule that begins no run (R85, R149). -/
theorem onRiser_named_makes {u : State} {p : Riser} {key : Key} {h : Handle} {r : CallRecord}
    {k : Work → Handle → CallRecord → Work} (hp : s.powered = true) (hu : s.receives p = true)
    (hk : s.keyed p key = some h) (hr : s.call? h = some r) (hc : r.state ≠ .clearing)
    (hm : (k (Work.start s) h r).Makes True u) (hn : (k (Work.start s) h r).runs = []) :
    onRiser s p (fun w => w.named p key (k w)) = .next u := by
  have e := Work.named_live (w := Work.start s) (k := k (Work.start s)) hk hr hc
  exact onRiser_makes hp hu (by rw [e]; exact hm) (by rw [e]; exact hn)

/-- A PROGRESS that its rule discards with PROTOCOL. -/
theorem onProgress_discard {p : Riser} {key : Key} {lane : Byte} {h : Handle} {r : CallRecord}
    {k : Work → Handle → CallRecord → Work} (hp : s.powered = true) (hu : s.receives p = true)
    (hl : laneFieldOk lane = true) (hk : s.keyed p key = some h) (hr : s.call? h = some r) (hc : r.state ≠ .clearing)
    (hroom : s.roomL 1) (hd : k (Work.start s) h r = (Work.start s).raise .protocol) :
    onProgress s p key lane k = .next (s.withEvent .protocol) :=
  onRiser_raise hp hu hroom (by rw [if_pos hl, Work.named_live (w := Work.start s) hk hr hc, hd])

/-- A PROGRESS for an unknown key (R149). -/
theorem onProgress_unknown {p : Riser} {key : Key} {lane : Byte} {k : Work → Handle → CallRecord → Work}
    (hp : s.powered = true) (hu : s.receives p = true) (hl : laneFieldOk lane = true) (hk : s.keyed p key = none)
    (hroom : s.roomL 1) : onProgress s p key lane k = .next (s.withEvent .protocol) :=
  onRiser_raise hp hu hroom (by rw [if_pos hl, Work.named_unknown (w := Work.start s) hk])

/-- A PROGRESS whose lane field is out of range (R6). -/
theorem onProgress_badLane {p : Riser} {key : Key} {lane : Byte} {k : Work → Handle → CallRecord → Work}
    (hp : s.powered = true) (hu : s.receives p = true) (hl : laneFieldOk lane = false) (hroom : s.roomL 1) :
    onProgress s p key lane k = .next (s.withEvent .protocol) :=
  onRiser_raise hp hu hroom (by simp [hl])

/-- A PROGRESS for a record in CLEARING (R149). -/
theorem onProgress_clearing {p : Riser} {key : Key} {lane : Byte} {h : Handle} {r : CallRecord}
    {k : Work → Handle → CallRecord → Work} (hl : laneFieldOk lane = true) (hk : s.keyed p key = some h)
    (hr : s.call? h = some r) (hc : r.state = .clearing) : onProgress s p key lane k = .next s :=
  onRiser_nothing (by rw [if_pos hl, Work.named_clearing (w := Work.start s) hk hr hc])

/-- A call cell for a record in CLEARING (R149). -/
theorem onRiser_named_clearing {p : Riser} {key : Key} {h : Handle} {r : CallRecord}
    {k : Work → Handle → CallRecord → Work} (hk : s.keyed p key = some h)
    (hr : s.call? h = some r) (hc : r.state = .clearing) : onRiser s p (fun w => w.named p key (k w)) = .next s :=
  onRiser_nothing (Work.named_clearing (w := Work.start s) hk hr hc)

/-- A call cell that its rule discards with PROTOCOL. -/
theorem onRiser_named_discard {p : Riser} {key : Key} {h : Handle} {r : CallRecord}
    {k : Work → Handle → CallRecord → Work} (hp : s.powered = true) (hu : s.receives p = true)
    (hk : s.keyed p key = some h) (hr : s.call? h = some r) (hc : r.state ≠ .clearing) (hroom : s.roomL 1)
    (hd : k (Work.start s) h r = (Work.start s).raise .protocol) :
    onRiser s p (fun w => w.named p key (k w)) = .next (s.withEvent .protocol) :=
  onRiser_raise hp hu hroom (by rw [Work.named_live (w := Work.start s) hk hr hc, hd])

/-- A call cell for an unknown key (R149). -/
theorem onRiser_named_unknown {p : Riser} {key : Key} {k : Work → Handle → CallRecord → Work}
    (hp : s.powered = true) (hu : s.receives p = true) (hk : s.keyed p key = none) (hroom : s.roomL 1) :
    onRiser s p (fun w => w.named p key (k w)) = .next (s.withEvent .protocol) :=
  onRiser_raise hp hu hroom (Work.named_unknown (w := Work.start s) hk)

/-! ## HELD, RESUMED and LIMIT_NEAR from above (R98, R99, R137) -/

theorem CallRecord.cellsUp_length_le (r : CallRecord) (c : Progress) (l : Option Nat) : (r.cellsUp c l).length ≤ 1 := by
  unfold CallRecord.cellsUp; cases r.openKey .H <;> simp

theorem Work.Makes.relayHold {R : Prop} {w : Work} {u : State} (h : w.Makes R u) {r : CallRecord} (c : Progress)
    (hc : r.state = .connected) (hroom : R → u.roomL 1) : (w.relayHold r c).Makes R (u.sentL (r.cellsDown c)) := by
  rw [Work.relayHold, if_pos hc]
  exact h.progressDown r c fun hR => (hroom hR).mono (r.cellsDown_length_le c)

@[simp] theorem Work.relayHold_runs (w : Work) (r : CallRecord) (c : Progress) : (w.relayHold r c).runs = w.runs := by
  unfold Work.relayHold
  split
  · simp
  · split <;> simp

/-- Settles O18: the relays in CONNECTED, the discards in PARKED, and LIMIT_NEAR on either port. -/
theorem holdAndLimitFromAbove : Obligations.HoldAndLimitFromAbove := by
  refine ⟨fun s key lane h r hp hu hl hk hr => ⟨fun hc hroom => ?relayed, fun hc => ?parked⟩,
    fun s key lane h r hp hl hr hc hroom => ⟨fun hu hk => ?above, fun hu hk => ?below⟩⟩
  case relayed =>
    rw [exec_heldFromAbove, exec_resumedFromAbove, execHeldFromAbove, execResumedFromAbove]
    have hm (c : Progress) : ((Work.start s).relayHold r c).Makes True (s.sentL (r.cellsDown c)) :=
      (Work.Makes.start True s).relayHold c hc fun _ => hroom
    exact ⟨onProgress_makes hp hu hl hk hr (by simp [hc]) (hm .held) (by simp),
      onProgress_makes hp hu hl hk hr (by simp [hc]) (hm .resumed) (by simp)⟩
  case parked =>
    rw [exec_heldFromAbove, exec_resumedFromAbove, execHeldFromAbove, execResumedFromAbove]
    have hm (c : Progress) : (Work.start s).relayHold r c = Work.start s := by simp [Work.relayHold, hc]
    exact ⟨onProgress_makes hp hu hl hk hr (by simp [hc]) (by rw [hm]; exact .start True s) (by simp),
      onProgress_makes hp hu hl hk hr (by simp [hc]) (by rw [hm]; exact .start True s) (by simp)⟩
  case above =>
    rw [exec_limitNearFromAbove, execLimitNearFromAbove]
    refine onProgress_makes hp hu hl hk hr (by rintro e; simp [e] at hc) ?_ ?_ <;> rw [if_pos ⟨rfl, hc⟩]
    · exact (Work.Makes.start True s).progressDown r _ fun _ => hroom.mono (r.cellsDown_length_le _)
    · simp
  case below =>
    rw [exec_limitNearFromAbove, execLimitNearFromAbove]
    exact onProgress_discard hp hu hl hk hr (by rintro e; simp [e] at hc) hroom (if_neg (by simp))

/-! ## CONNECT (R100, R136) -/

theorem CallRecord.joins_of {r : CallRecord} {l : LLane} {p : Owned} {i : Nat} (hl : r.lLane = some l)
    (hp : r.ownedPort = some p) (hi : r.ownedLane = some i) (h : Handle) :
    r.joins h = [{ handle := h, lLane := l, port := p, lane := i }] := by
  simp [CallRecord.joins, hl, hp, hi]

/-- The owned port of a record with a floor side is that side's (R45). -/
theorem CallRecord.ownedPort_floor {r : CallRecord} {f : FloorSide} (hf : r.far = .floor f) :
    r.ownedPort = some (.F f.port) := by
  simp [CallRecord.ownedPort, hf]

theorem CallRecord.ownedPort_high {r : CallRecord} {x : RiserSide} (hf : r.far = .high x) : r.ownedPort = some .H := by
  simp [CallRecord.ownedPort, hf]

/-- A record whose far side is open on port H is owned by port H (R45, R84). -/
theorem CallRecord.far_of_openKey_H {r : CallRecord} {key : Key} (h : r.openKey .H = some key) :
    r.far = .high (.opened key) := by
  rcases hf : r.far with _ | f | (_ | k | _) <;>
    simp [CallRecord.openKey, hf, Far.riser?, RiserSide.key?] at h
  rw [h]

theorem CallRecord.openKey_H_opened {r : CallRecord} {key : Key} (hf : r.far = .high (.opened key)) :
    r.openKey .H = some key := by
  simp [CallRecord.openKey, hf, Far.riser?, RiserSide.key?]

theorem CallRecord.cellsUp_opened {r : CallRecord} {key : Key} (hf : r.far = .high (.opened key)) (c : Progress)
    (l : Option Nat) : r.cellsUp c l = [progressCell key c l] := by
  simp [CallRecord.cellsUp, CallRecord.openKey_H_opened hf]

theorem Work.Makes.connectToward {R : Prop} {w : Work} {u : State} (h : w.Makes R u) {r : CallRecord} {p : Riser}
    {key : Key} (hk : r.openKey p = some key) (hL : R → p = .L → u.roomL 1) (hH : R → p = .H → u.roomH 1) :
    (w.connectToward r p).Makes R (u.sentOn p [connectCell key]) := by
  unfold Work.connectToward
  rw [hk]
  exact h.sendRiser hL hH

/-- The lanes of a record that has both are joined (R139). -/
theorem Work.Makes.crossConnectOf {R : Prop} {w : Work} {u : State} (h : w.Makes R u) {v : Handle} {r : CallRecord}
    {l : LLane} {p : Owned} {i : Nat} (hr : u.call? v = some r) (hl : r.lLane = some l) (hp : r.ownedPort = some p)
    (hi : r.ownedLane = some i) :
    (w.crossConnect v).Makes R
      { u with crosses := u.crosses ++ [{ handle := v, lLane := l, port := p, lane := i }] } := by
  rw [← CallRecord.joins_of hl hp hi v]
  exact h.crossConnect hr

/-- A call that is in FORWARDED or RINGING is not in CLEARING. -/
theorem CallRecord.not_clearing_of_progress {r : CallRecord} (h : r.state = .forwarded ∨ r.state = .ringing) :
    r.state ≠ .clearing := by
  rintro e; simp [e] at h

/-- Settles O19: the record changes, its lanes are joined, and each side is told, in that order. -/
theorem connectJoins : Obligations.ConnectJoins := by
  refine ⟨?above, fun s key h r l i hp hu hk hr hd hst hl hi => ⟨?floor, ?relayed⟩⟩
  case above =>
    intro s key lowKey h r l i hp hu hk hr hd hst hlow hl hi hroom
    rw [exec_connectFromAbove, execConnectFromAbove]
    have hfar := CallRecord.far_of_openKey_H (State.keyed_open hk hr)
    refine onRiser_named_makes hp hu hk hr (CallRecord.not_clearing_of_progress hst) ?_ ?_ <;> rw [if_pos ⟨hd, hst⟩]
    · have h1 := (Work.Makes.start True s).modCall (f := fun r => { r with state := .connected, timer := none }) hr
      have h2 := h1.crossConnectOf (s.call?_putCall_self h _) hl (CallRecord.ownedPort_high hfar) hi
      exact h2.connectToward (r := r) (p := .L) (key := lowKey) (by simp [hlow, RiserSide.key?]) (fun _ _ => hroom)
        (by simp)
    · simp
  case floor =>
    intro f a hf ha hroom
    rw [exec_connectFromBelow, execConnectFromBelow]
    refine onRiser_named_makes hp hu hk hr (CallRecord.not_clearing_of_progress hst) ?_ ?_ <;> rw [if_pos ⟨hd, hst⟩] <;>
      split
    · next f' hf' =>
      cases hf.symm.trans hf'
      have h1 := (Work.Makes.start True s).modCall
        (f := fun r => { r with state := .connected, talkOwner := true, timer := s.talkTimer r.cls }) hr
      have h2 := h1.crossConnectOf (s.call?_putCall_self h _) hl (CallRecord.ownedPort_floor hf) hi
      have h3 := h2.statusToFloor h hf .connected 0 r.ownedLane (fun _ => by rw [ha]; exact hroom)
      rw [ha] at h3
      rw [← hi]
      exact h3.setActivity f.slot (.engaged h)
    · next hn => exact absurd hf (hn f)
    · simp
    · simp
  case relayed =>
    intro farKey hf hroom
    rw [exec_connectFromBelow, execConnectFromBelow]
    refine onRiser_named_makes hp hu hk hr (CallRecord.not_clearing_of_progress hst) ?_ ?_ <;> rw [if_pos ⟨hd, hst⟩] <;>
      split
    · next f hf' => cases hf.symm.trans hf'
    · have h1 := (Work.Makes.start True s).modCall (f := fun r => { r with state := .connected, timer := none }) hr
      have h2 := h1.crossConnectOf (s.call?_putCall_self h _) hl (CallRecord.ownedPort_high hf) hi
      exact h2.connectToward (r := r) (p := .H) (CallRecord.openKey_H_opened hf) (by simp) (fun _ _ => hroom)
    · simp
    · simp

end Sys2Proof.Machine
end

