-- ==== Sys2Proof/Proofs/CellsFromBelow.lean ====
section
/-! PROOFS. LANE-GRANT and the PROGRESS cells from below (sections 7.4 and 8.5), and UNLATCH from above (section 8.6). -/

namespace Sys2Proof.Machine

variable {s : State}

/-! ## LANE-GRANT (R133) -/

/-- The mirror test of R46. -/
theorem State.mirrorTest_iff (s : State) (h : Handle) (r : CallRecord) (l : LLane) :
    s.mirrorTest h r l = true ↔
      (s.mirror[l] = none ∨ s.mirror[l] = some h) ∧ (r.lLane = none ∨ r.lLane = some l) := by
  simp [State.mirrorTest]

theorem execLaneGrant_L (key : Key) (lane : Byte) (s : State) : execLaneGrant .L key lane s =
    onRiser s .L fun w => match laneOf lane with
      | none => w.raise .protocol
      | some l => w.named .L key fun h r =>
        if r.state = .awaitingGrant ∧ w.st.mirrorTest h r l then
          (w.fillMirror h l).modCall h fun r =>
            { r with state := .forwarded, timer := startTimer .progressWait w.st.progressTime }
        else w.raise .protocol := rfl

/-- Settles O20: the mirror test decides between the record's new lane and PROTOCOL. -/
theorem laneGrant : Obligations.LaneGrant := by
  refine ⟨fun s key lane l h r hp hl hu hk hr hst => ⟨fun ht => ?granted, fun ht hroom => ?refused⟩,
    fun s key lane hp hroom => ⟨fun hl hu => ?noLane, fun hu => ?onPortH⟩⟩
  case granted =>
    rw [exec_laneGrant, execLaneGrant_L, hl]
    refine onRiser_named_makes hp hu hk hr (by simp [hst]) ?_ ?_ <;>
      rw [if_pos ⟨hst, (s.mirrorTest_iff h r l).2 ht⟩]
    · have h1 := ((Work.Makes.start True s).fillMirror hr l).modCall
        (f := fun r => { r with state := .forwarded, timer := startTimer .progressWait s.progressTime })
        (State.call?_putCall_self _ h _)
      rw [State.putCall_putCall] at h1
      exact h1
    · simp
  case refused =>
    rw [exec_laneGrant, execLaneGrant_L, hl]
    exact onRiser_named_discard hp hu hk hr (by simp [hst]) hroom
      (if_neg fun hc => ht ((s.mirrorTest_iff h r l).1 hc.2))
  case noLane =>
    rw [exec_laneGrant, execLaneGrant_L, hl]
    exact onRiser_raise hp hu hroom rfl
  case onPortH => exact onRiser_raise (f := fun w => w.raise .protocol) hp hu hroom rfl

/-! ## QUEUED and ALERTING from below (R134, R135) -/

theorem Work.Makes.tellOrigin_floor {R : Prop} {w : Work} {u : State} (h : w.Makes R u) (v : Handle) {r : CallRecord}
    {f : FloorSide} {a : Addr} (hf : r.far = .floor f) (ha : f.answering = some a) (c : Status) (d : Progress)
    (hroom : R → u.roomF f.port 1) : (w.tellOrigin v r c d).Makes R (u.sentF f.port [statusCell v.val a c]) := by
  have h1 := h.statusToFloor v hf c 0 none fun hR => by rw [ha]; exact hroom hR
  rw [ha] at h1
  simpa [Work.tellOrigin, hf] using h1

theorem Work.Makes.progressUpOpened {R : Prop} {w : Work} {u : State} (h : w.Makes R u) {r : CallRecord} {key : Key}
    (hf : r.far = .high (.opened key)) (c : Progress) (l : Option Nat) (hroom : R → u.roomH 1) :
    (w.progressUp r c l).Makes R (u.sentH [progressCell key c l]) := by
  have h1 := h.progressUp r c l fun hR => (hroom hR).mono (r.cellsUp_length_le c l)
  rwa [CallRecord.cellsUp_opened hf] at h1

theorem Work.Makes.tellOrigin_high {R : Prop} {w : Work} {u : State} (h : w.Makes R u) (v : Handle) {r : CallRecord}
    {key : Key} (hf : r.far = .high (.opened key)) (c : Status) (d : Progress) (hroom : R → u.roomH 1) :
    (w.tellOrigin v r c d).Makes R (u.sentH [progressCell key d]) := by
  have h1 := h.progressUpOpened hf d none hroom
  simpa only [Work.tellOrigin, hf] using h1

/-- The rule of QUEUED from below, for a downward record in one of the two states that accept it: its timer starts
again, and the far side is told (R134). -/
theorem queuedFromBelow_eq {key : Key} {lane : Byte} {h : Handle} {r : CallRecord} (hp : s.powered = true)
    (hu : s.receives .L = true) (hl : laneFieldOk lane = true) (hk : s.keyed .L key = some h)
    (hr : s.call? h = some r) (hd : r.dir = .down) {purpose : Purpose} {own : Nat}
    (hst : (r.state = .awaitingGrant ∧ purpose = .grantWait ∧ own = s.retained.timers.grantWait) ∨
      (r.state = .forwarded ∧ purpose = .progressWait ∧ own = s.retained.timers.progressWait)) :
    exec (.queuedFromBelow key lane) s =
      .next (((Work.start s).modCall h fun r =>
        { r with timer := startTimer purpose (s.retained.timers.laneWait + own) }).tellOrigin h r .queued
          .queued).finish := by
  rw [exec_queuedFromBelow, execQueuedFromBelow]
  rcases hst with ⟨hst, rfl, rfl⟩ | ⟨hst, rfl, rfl⟩
  · rw [onProgress_live hp hu hl hk hr (by simp [hst]), if_pos ⟨hd, hst⟩]
    rfl
  · rw [onProgress_live hp hu hl hk hr (by simp [hst]), if_neg (by simp [hst]), if_pos ⟨hd, hst⟩]
    rfl

/-- Settles O21: each accepting state's change of the record, and the cell toward its far side. -/
theorem progressFromBelow : Obligations.ProgressFromBelow := by
  refine ⟨?queued, fun s key lane h r hp hu hl hk hr hd => ⟨fun f a hf ha => ⟨fun hst hroom => ?ring, fun hst => ?rings⟩,
    fun farKey hf hroom => ⟨fun hst => ?relay, fun hst => ?again⟩⟩⟩
  case queued =>
    intro s key lane h r hp hu hl hk hr hd purpose own hst
    rw [queuedFromBelow_eq hp hu hl hk hr hd hst]
    have h1 := (Work.Makes.start True s).modCall
      (f := fun r => { r with timer := startTimer purpose (s.retained.timers.laneWait + own) }) hr
    refine ⟨fun f a hf ha hroom => ?_, fun farKey hf hroom => ?_⟩
    · rw [(h1.tellOrigin_floor h hf ha .queued .queued fun _ => hroom).finish (by simp)]
    · rw [(h1.tellOrigin_high h hf .queued .queued fun _ => hroom).finish (by simp)]
  case ring =>
    rw [exec_alertingFromBelow, execAlertingFromBelow, onProgress_live hp hu hl hk hr (by simp [hst]),
      if_pos ⟨hd, hst⟩]
    have h1 := (Work.Makes.start True s).modCall
      (f := fun r => { r with state := .ringing, timer := startTimer .ringTime s.retained.timers.ring }) hr
    have h2 := h1.statusToFloor h hf .ringback 0 none fun _ => by rw [ha]; exact hroom
    rw [ha] at h2
    split
    · exact congrArg _ (h2.finish (by simp))
    · next hn => exact absurd hf (hn f)
  case rings =>
    rw [exec_alertingFromBelow, execAlertingFromBelow, onProgress_live hp hu hl hk hr (by simp [hst]),
      if_neg (by simp [hst]), if_pos ⟨hd, hst⟩]
    split
    · simp
    · next hn => exact absurd hf (hn f)
  case relay =>
    rw [exec_alertingFromBelow, execAlertingFromBelow, onProgress_live hp hu hl hk hr (by simp [hst]),
      if_pos ⟨hd, hst⟩]
    have h1 := (Work.Makes.start True s).modCall (f := fun r => { r with state := .ringing, timer := none }) hr
    split
    · next f hf' => cases hf.symm.trans hf'
    · exact congrArg _ ((h1.progressUpOpened hf .alerting none fun _ => hroom).finish (by simp))
  case again =>
    rw [exec_alertingFromBelow, execAlertingFromBelow, onProgress_live hp hu hl hk hr (by simp [hst]),
      if_neg (by simp [hst]), if_pos ⟨hd, hst⟩]
    split
    · next f hf' => cases hf.symm.trans hf'
    · exact congrArg _ (((Work.Makes.start True s).progressUpOpened hf .alerting none fun _ => hroom).finish (by simp))

/-! ## HELD and RESUMED from below (R150, R151) -/

/-- The tables after HELD from below: the mirror entry and its cross-connect go, and the record is held below (R150). -/
theorem Work.Makes.heldBelow {R : Prop} {w : Work} {u : State} (h : w.Makes R u) {v : Handle} {r : CallRecord} {l : LLane}
    (hr : u.call? v = some r) (hl : r.lLane = some l) :
    ((w.emptyMirror v).modCall v fun r => { r with heldBelow := true }).Makes R
      { u.putCall v { r with lLane := none, heldBelow := true } with
        mirror := u.mirror.set l none, crosses := u.crosses.filter fun x => !(x.lLane == l) } := by
  have h1 := h.emptyMirror hr
  rw [State.mirrorEmptied, hl] at h1
  have h2 := h1.modCall (f := fun r => { r with heldBelow := true }) (State.call?_putCall_self _ v _)
  rw [State.putCall_putCall] at h2
  exact h2

/-- The tables after RESUMED from below: the lane is in the mirror and the record is no longer held below (R151). -/
theorem Work.Makes.resumedBelow {R : Prop} {w : Work} {u : State} (h : w.Makes R u) {v : Handle} {r : CallRecord}
    (hr : u.call? v = some r) (l : LLane) :
    ((w.fillMirror v l).modCall v fun r => { r with heldBelow := false }).Makes R
      { u.putCall v { r with lLane := some l, heldBelow := false } with mirror := u.mirror.set l (some v) } := by
  have h2 := (h.fillMirror hr l).modCall (f := fun r => { r with heldBelow := false }) (State.call?_putCall_self _ v _)
  rw [State.putCall_putCall] at h2
  exact h2

/-- Settles O22: what HELD takes from the record RESUMED gives back, by the mirror test; in CONNECTED the far side hears
of it. -/
theorem holdFromBelow : Obligations.HoldFromBelow := by
  refine ⟨fun s key lane h r l hp hu hl hk hr hb hL => ⟨fun hst => ?parked, fun hst => ⟨?heldFloor, ?heldHigh⟩⟩,
    fun s key lane h r l hp hu hl hk hr => ⟨fun hb ht => ⟨fun hst => ?resumedParked, fun hst i hi => ⟨?backFloor, ?backHigh⟩⟩,
      ?fails⟩, ?noLane⟩
  case parked =>
    rw [exec_heldFromBelow, execHeldFromBelow, onProgress_live hp hu hl hk hr (by simp [hst]), if_pos ⟨hb, .inr hst⟩,
      if_neg (by simp [hst])]
    exact congrArg _ (((Work.Makes.start True s).heldBelow hr hL).finish (by simp))
  case heldFloor =>
    intro f a hf ha hroom
    rw [exec_heldFromBelow, execHeldFromBelow, onProgress_live hp hu hl hk hr (by simp [hst]), if_pos ⟨hb, .inl hst⟩,
      if_pos hst]
    exact congrArg _ ((((Work.Makes.start True s).heldBelow hr hL).tellOrigin_floor h hf ha .held .held
      fun _ => hroom).finish (by simp))
  case heldHigh =>
    intro farKey hf hroom
    rw [exec_heldFromBelow, execHeldFromBelow, onProgress_live hp hu hl hk hr (by simp [hst]), if_pos ⟨hb, .inl hst⟩,
      if_pos hst]
    exact congrArg _ ((((Work.Makes.start True s).heldBelow hr hL).tellOrigin_high h hf .held .held
      fun _ => hroom).finish (by simp))
  case resumedParked =>
    rw [exec_resumedFromBelow, execResumedFromBelow, hl]
    refine onRiser_named_makes hp hu hk hr (by simp [hst]) ?_ ?_ <;>
      rw [if_pos ⟨hb, .inr hst, (s.mirrorTest_iff h r l).2 ht⟩, if_neg (by simp [hst])]
    · exact (Work.Makes.start True s).resumedBelow hr l
    · simp
  case backFloor =>
    intro f a hf ha hroom
    rw [exec_resumedFromBelow, execResumedFromBelow, hl]
    refine onRiser_named_makes hp hu hk hr (by simp [hst]) ?_ ?_ <;>
      rw [if_pos ⟨hb, .inl hst, (s.mirrorTest_iff h r l).2 ht⟩, if_pos hst] <;> split
    · have h1 := ((Work.Makes.start True s).resumedBelow hr l).crossConnectOf (State.call?_putCall_self _ h _) rfl
        (CallRecord.ownedPort_floor hf) hi
      have h2 := h1.statusToFloor h hf .resumed 0 r.ownedLane fun _ => by rw [ha]; exact hroom
      rw [ha] at h2
      rw [← hi]
      exact h2
    · next hn => exact absurd hf (hn f)
    · simp
    · simp
  case backHigh =>
    intro farKey hf hroom
    rw [exec_resumedFromBelow, execResumedFromBelow, hl]
    refine onRiser_named_makes hp hu hk hr (by simp [hst]) ?_ ?_ <;>
      rw [if_pos ⟨hb, .inl hst, (s.mirrorTest_iff h r l).2 ht⟩, if_pos hst] <;> split
    · next f hf' => cases hf.symm.trans hf'
    · have h1 := ((Work.Makes.start True s).resumedBelow hr l).crossConnectOf (State.call?_putCall_self _ h _) rfl
        (CallRecord.ownedPort_high hf) hi
      rw [← hi]
      exact h1.progressUpOpened hf .resumed r.ownedLane fun _ => hroom
    · simp
    · simp
  case fails =>
    intro hc ht hroom
    rw [exec_resumedFromBelow, execResumedFromBelow, hl]
    refine onRiser_named_discard hp hu hk hr hc hroom (if_neg ?_)
    rintro ⟨hb, -, hm⟩
    rcases ht with hb' | ht
    · simp [hb'] at hb
    · exact ht ((s.mirrorTest_iff h r l).1 hm)
  case noLane =>
    intro s key lane hp hu hl hroom
    rw [exec_resumedFromBelow, execResumedFromBelow, hl]
    exact onRiser_raise hp hu hroom rfl

end Sys2Proof.Machine
end

