-- ==== Sys2Proof/Proofs/StrayCells.lean ====
section
/-! PROOFS. UNLATCH from above (section 8.6), the match of a key (R85), and the cells that no rule accepts (R149). -/

namespace Sys2Proof.Machine

variable {s : State}

/-! ## UNLATCH from above (R153) -/

theorem execUnlatchFromAbove_H (key : Key) (okind : BitVec 2) (origin : Word) (s : State) :
    execUnlatchFromAbove .H key okind origin s = onRiser s .H fun w =>
      if okind = 0 ∧ origin.toNat ≤ 15 then
        w.named .H key fun _ r =>
          if r.dir = .down then w.raise .protocol
          else if r.state ≠ .connected then w
          else match r.origin, r.openKey .L with
            | .panel n, some lowKey => if w.st.fireMode then w else w.sendL (unlatchCell lowKey n)
            | .panel _, none => w
            | _, _ => w.raise .protocol
      else w.raise .protocol := rfl

/-- An UNLATCH from above whose panel field passes is taken for the record its key names. -/
theorem exec_unlatch_panel {key : Key} {origin : Word} (ho : origin.toNat ≤ 15) :
    exec (.unlatchFromAbove .H key 0 origin) s = onRiser s .H fun w => w.named .H key fun _ r =>
      if r.dir = .down then w.raise .protocol
      else if r.state ≠ .connected then w
      else match r.origin, r.openKey .L with
        | .panel n, some lowKey => if w.st.fireMode then w else w.sendL (unlatchCell lowKey n)
        | .panel _, none => w
        | _, _ => w.raise .protocol := by
  rw [exec_unlatchFromAbove, execUnlatchFromAbove_H]
  simp only [ho, and_self, if_true]

/-- Settles O25: by direction, by state, by origin, and by fire mode, in the order of the rule's tests. -/
theorem unlatchFromAbove : Obligations.UnlatchFromAbove := by
  refine ⟨fun s key origin h r hp hu ho hk hr hc hroom => ⟨?panel, ?other, ?early⟩,
    fun s key okind origin hp hroom => ⟨fun hu => ?portL, fun hu hbad => ?bad⟩⟩
  case panel =>
    intro n lowKey hd hst hn hlow
    have hkL : r.openKey .L = some lowKey := by simp [hlow, RiserSide.key?]
    rw [exec_unlatch_panel ho]
    by_cases hf : s.fireMode = true
    · rw [if_pos hf]
      refine onRiser_named_makes hp hu hk hr hc ?_ ?_ <;>
        simp only [hd, hst, hn, hkL, hf, if_true, Work.start_st, ne_eq, not_true_eq_false, if_false, reduceCtorEq]
      · exact .start True s
      · rfl
    · rw [if_neg hf]
      refine onRiser_named_makes hp hu hk hr hc ?_ ?_ <;>
        simp only [hd, hst, hn, hkL, hf, Work.start_st, ne_eq, not_true_eq_false, if_false, reduceCtorEq,
          Bool.false_eq_true]
      · exact (Work.Makes.start True s).sendL fun _ => hroom
      · simp
  case other =>
    intro hbad
    rw [exec_unlatch_panel ho]
    refine onRiser_named_discard hp hu hk hr hc hroom ?_
    by_cases hd : r.dir = .down
    · rw [if_pos hd]
    · obtain ⟨hst, hn⟩ := hbad.resolve_left hd
      rw [if_neg hd, if_neg (by simp [hst])]
      cases hor : r.origin with
      | panel n => exact absurd hor (hn n)
      | _ => rfl
  case early =>
    intro hd hst
    rw [exec_unlatch_panel ho]
    refine onRiser_nothing ?_
    rw [Work.named_live (w := Work.start s) hk hr hc, if_neg (by simp [hd]), if_pos hst]
  case portL => exact onRiser_raise (f := fun w => w.raise .protocol) hp hu hroom rfl
  case bad =>
    rw [exec_unlatchFromAbove, execUnlatchFromAbove_H]
    refine onRiser_raise hp hu hroom (if_neg ?_)
    rintro ⟨h0, h15⟩
    rcases hbad with hb | hb
    · exact hb h0
    · omega

/-! ## The match of a key (R85) -/

/-- In a state whose tables agree a key names the one record whose side on the port is open with it. -/
theorem State.keyed_iff (hs : s.Linked) (p : Riser) (key : Key) (h : Handle) :
    s.keyed p key = some h ↔ ∃ r, s.call? h = some r ∧ r.openKey p = some key := by
  refine ⟨State.keyed_spec, fun ⟨r, hr, ho⟩ => ?_⟩
  obtain ⟨hown, huniq⟩ := hs.keys p h r key hr ho
  rcases hv : s.keyed p key with _ | v
  swap
  · obtain ⟨r', hr', ho'⟩ := State.keyed_spec hv
    rw [huniq v r' hr' ho']
  unfold State.keyed at hv
  by_cases hside : key.side = ownSide p
  · have hval : key.ref.val = h.val := hown hside
    have hlt : key.ref.val < 48 := hval ▸ h.isLt
    have hh : (⟨key.ref.val, hlt⟩ : Handle) = h := Fin.ext hval
    rw [if_pos hside, dif_pos hlt, hh, hr] at hv
    simp [ho] at hv
  · rw [if_neg hside] at hv
    have := List.find?_eq_none.1 hv h (List.mem_finRange h)
    simp [hr, ho] at this

/-! ## Cells that no rule accepts (R6, R101, R137, R149) -/

/-- A RELEASE for an unknown key is answered, without an event. -/
theorem release_unknown {p : Riser} {key : Key} (code : Byte) (hp : s.powered = true) (hu : s.receives p = true)
    (hL : s.roomL 1) (hH : s.roomH 1) (hk : s.keyed p key = none) :
    exec (.release p key code) s = .next (s.sentOn p [releaseDoneCell key]) := by
  rw [exec_release, execRelease]
  refine onRiser_makes hp hu ?_ ?_ <;> rw [Work.start_st, hk]
  · exact (Work.Makes.start True s).sendRiser (fun _ _ => hL) fun _ _ => hH
  · simp

/-- A LANE-GRANT on port L whose lane field is in range names a lane, or none. -/
theorem laneGrant_discard {key : Key} {lane : Byte} (hp : s.powered = true) (hu : s.receives .L = true) (hroom : s.roomL 1)
    (hd : ∀ l, laneOf lane = some l →
      ((Work.start s).named .L key fun h r =>
        if r.state = .awaitingGrant ∧ (Work.start s).st.mirrorTest h r l then
          ((Work.start s).fillMirror h l).modCall h fun r =>
            { r with state := .forwarded, timer := startTimer .progressWait (Work.start s).st.progressTime }
        else (Work.start s).raise .protocol) = (Work.start s).raise .protocol) :
    exec (.laneGrant .L key lane) s = .next (s.withEvent .protocol) := by
  rw [exec_laneGrant, execLaneGrant_L]
  cases hl : laneOf lane with
  | none => exact onRiser_raise hp hu hroom rfl
  | some l => exact onRiser_raise hp hu hroom (hd l hl)

theorem resumedFromBelow_discard {key : Key} {lane : Byte} (hp : s.powered = true) (hu : s.receives .L = true)
    (hroom : s.roomL 1)
    (hd : ∀ (l : LLane) (k : Handle → CallRecord → Work),
      (∀ h r, k h r = if r.heldBelow ∧ (r.state = .connected ∨ r.state = .parked) ∧ s.mirrorTest h r l then
        k h r else (Work.start s).raise .protocol) →
      laneOf lane = some l → (Work.start s).named .L key k = (Work.start s).raise .protocol) :
    exec (.resumedFromBelow key lane) s = .next (s.withEvent .protocol) := by
  rw [exec_resumedFromBelow, execResumedFromBelow]
  cases hl : laneOf lane with
  | none => exact onRiser_raise hp hu hroom rfl
  | some l =>
    refine onRiser_raise hp hu hroom (hd l _ (fun h r => ?_) hl)
    rw [Work.start_st]
    split <;> rfl

theorem laneOf_eq_none {lane : Byte} (h : laneFieldOk lane = false) : laneOf lane = none := by
  simp only [laneFieldOk, Bool.or_eq_false_iff, decide_eq_false_iff_not] at h
  simp only [laneOf, dif_neg (show ¬ lane.toNat < 12 by omega)]

/-- The cells for an unknown key, but RELEASE. -/
theorem discards_unknown {p : Riser} {key : Key} {lane : Byte} (hp : s.powered = true) (hu : s.receives p = true)
    (hroom : s.roomL 1) (hk : s.keyed p key = none) (hl : laneFieldOk lane = true) :
    exec (.limitNearFromAbove p key lane) s = .next (s.withEvent .protocol) ∧
    (p = .H →
      exec (.alertingFromAbove key lane) s = .next (s.withEvent .protocol) ∧
      exec (.queuedFromAbove key lane) s = .next (s.withEvent .protocol) ∧
      exec (.heldFromAbove key lane) s = .next (s.withEvent .protocol) ∧
      exec (.resumedFromAbove key lane) s = .next (s.withEvent .protocol) ∧
      exec (.connectFromAbove key) s = .next (s.withEvent .protocol) ∧
      ∀ origin : Word, origin.toNat ≤ 15 →
        exec (.unlatchFromAbove .H key 0 origin) s = .next (s.withEvent .protocol)) ∧
    (p = .L →
      exec (.laneGrant .L key lane) s = .next (s.withEvent .protocol) ∧
      exec (.queuedFromBelow key lane) s = .next (s.withEvent .protocol) ∧
      exec (.alertingFromBelow key lane) s = .next (s.withEvent .protocol) ∧
      exec (.connectFromBelow key) s = .next (s.withEvent .protocol) ∧
      exec (.heldFromBelow key lane) s = .next (s.withEvent .protocol) ∧
      exec (.resumedFromBelow key lane) s = .next (s.withEvent .protocol)) := by
  refine ⟨?limit, ?above, ?below⟩
  case limit =>
    rw [exec_limitNearFromAbove, execLimitNearFromAbove]; exact onProgress_unknown hp hu hl hk hroom
  case above =>
    rintro rfl
    rw [exec_alertingFromAbove, exec_queuedFromAbove, exec_heldFromAbove, exec_resumedFromAbove, exec_connectFromAbove,
      execAlertingFromAbove, execQueuedFromAbove, execHeldFromAbove, execResumedFromAbove, execConnectFromAbove]
    refine ⟨onProgress_unknown hp hu hl hk hroom, onProgress_unknown hp hu hl hk hroom,
      onProgress_unknown hp hu hl hk hroom, onProgress_unknown hp hu hl hk hroom,
      onRiser_named_unknown hp hu hk hroom, fun origin ho => ?_⟩
    rw [exec_unlatch_panel ho]
    exact onRiser_named_unknown hp hu hk hroom
  case below =>
    rintro rfl
    rw [exec_queuedFromBelow, exec_alertingFromBelow, exec_heldFromBelow, exec_connectFromBelow, execQueuedFromBelow,
      execAlertingFromBelow, execHeldFromBelow, execConnectFromBelow]
    exact ⟨laneGrant_discard hp hu hroom fun l _ => Work.named_unknown (w := Work.start s) hk,
      onProgress_unknown hp hu hl hk hroom, onProgress_unknown hp hu hl hk hroom, onRiser_named_unknown hp hu hk hroom,
      onProgress_unknown hp hu hl hk hroom,
      resumedFromBelow_discard hp hu hroom fun _ _ _ _ => Work.named_unknown (w := Work.start s) hk⟩

/-- The cells for a record in CLEARING. -/
theorem discards_clearing {key : Key} {lane : Byte} {h : Handle} {r : CallRecord} (hl : laneFieldOk lane = true)
    (hr : s.call? h = some r) (hc : r.state = .clearing) :
    (s.keyed .H key = some h →
      (∀ c ∈ [Instr.alertingFromAbove key lane, .queuedFromAbove key lane, .heldFromAbove key lane,
        .resumedFromAbove key lane, .limitNearFromAbove .H key lane, .connectFromAbove key], exec c s = .next s) ∧
      ∀ origin : Word, origin.toNat ≤ 15 → exec (.unlatchFromAbove .H key 0 origin) s = .next s) ∧
    (s.keyed .L key = some h →
      (∀ c ∈ [Instr.queuedFromBelow key lane, .alertingFromBelow key lane, .limitNearFromAbove .L key lane,
        .connectFromBelow key, .heldFromBelow key lane], exec c s = .next s) ∧
      (∀ l, laneOf lane = some l →
        exec (.laneGrant .L key lane) s = .next s ∧ exec (.resumedFromBelow key lane) s = .next s)) := by
  refine ⟨fun hk => ⟨?above, fun origin ho => ?unlatch⟩, fun hk => ⟨?below, fun l hlane => ⟨?grant, ?resumed⟩⟩⟩
  case above =>
    simp only [List.forall_mem_cons, List.not_mem_nil, false_imp_iff, implies_true, and_true, exec_alertingFromAbove,
      exec_queuedFromAbove, exec_heldFromAbove, exec_resumedFromAbove, exec_limitNearFromAbove, exec_connectFromAbove,
      execAlertingFromAbove, execQueuedFromAbove, execHeldFromAbove, execResumedFromAbove, execLimitNearFromAbove,
      execConnectFromAbove]
    exact ⟨onProgress_clearing hl hk hr hc, onProgress_clearing hl hk hr hc, onProgress_clearing hl hk hr hc,
      onProgress_clearing hl hk hr hc, onProgress_clearing hl hk hr hc, onRiser_named_clearing hk hr hc⟩
  case unlatch =>
    rw [exec_unlatch_panel ho]
    exact onRiser_named_clearing hk hr hc
  case below =>
    simp only [List.forall_mem_cons, List.not_mem_nil, false_imp_iff, implies_true, and_true, exec_queuedFromBelow,
      exec_alertingFromBelow, exec_limitNearFromAbove, exec_connectFromBelow, exec_heldFromBelow, execQueuedFromBelow,
      execAlertingFromBelow, execLimitNearFromAbove, execConnectFromBelow, execHeldFromBelow]
    exact ⟨onProgress_clearing hl hk hr hc, onProgress_clearing hl hk hr hc, onProgress_clearing hl hk hr hc,
      onRiser_named_clearing hk hr hc, onProgress_clearing hl hk hr hc⟩
  case grant =>
    rw [exec_laneGrant, execLaneGrant_L, hlane]
    exact onRiser_named_clearing hk hr hc
  case resumed =>
    rw [exec_resumedFromBelow, execResumedFromBelow, hlane]
    exact onRiser_named_clearing hk hr hc

/-- The cells from above that name a live record in a state or direction that does not accept them. -/
theorem discards_above {key : Key} {lane : Byte} {h : Handle} {r : CallRecord} (hp : s.powered = true)
    (hu : s.receives .H = true) (hl : laneFieldOk lane = true) (hk : s.keyed .H key = some h) (hr : s.call? h = some r)
    (hc : r.state ≠ .clearing) (hroom : s.roomL 1) :
    (¬ (r.dir = .up ∧ (r.state = .forwarded ∨ r.state = .ringing)) →
      exec (.alertingFromAbove key lane) s = .next (s.withEvent .protocol) ∧
      exec (.connectFromAbove key) s = .next (s.withEvent .protocol)) ∧
    (¬ (r.dir = .up ∧ r.state = .forwarded) →
      exec (.queuedFromAbove key lane) s = .next (s.withEvent .protocol)) ∧
    (r.state ≠ .connected → r.state ≠ .parked →
      exec (.heldFromAbove key lane) s = .next (s.withEvent .protocol) ∧
      exec (.resumedFromAbove key lane) s = .next (s.withEvent .protocol) ∧
      exec (.limitNearFromAbove .H key lane) s = .next (s.withEvent .protocol)) := by
  rw [exec_alertingFromAbove, exec_connectFromAbove, exec_queuedFromAbove, exec_heldFromAbove, exec_resumedFromAbove,
    exec_limitNearFromAbove, execAlertingFromAbove, execConnectFromAbove, execQueuedFromAbove, execHeldFromAbove,
    execResumedFromAbove, execLimitNearFromAbove]
  refine ⟨fun hn => ⟨?alerting, ?connect⟩, fun hn => ?queued, fun hnc hnp => ⟨?held, ?resumed, ?limit⟩⟩
  case alerting =>
    exact onProgress_discard hp hu hl hk hr hc hroom
      (by rw [if_neg fun x => hn ⟨x.1, .inl x.2⟩, if_neg fun x => hn ⟨x.1, .inr x.2⟩])
  case connect => exact onRiser_named_discard hp hu hk hr hc hroom (if_neg hn)
  case queued => exact onProgress_discard hp hu hl hk hr hc hroom (if_neg hn)
  case held => exact onProgress_discard hp hu hl hk hr hc hroom (by simp [Work.relayHold, hnc, hnp])
  case resumed => exact onProgress_discard hp hu hl hk hr hc hroom (by simp [Work.relayHold, hnc, hnp])
  case limit => exact onProgress_discard hp hu hl hk hr hc hroom (by simp [hnc, hnp])

/-- The cells from below that name a live record in a state or direction that does not accept them. -/
theorem discards_below {key : Key} {lane : Byte} {h : Handle} {r : CallRecord} (hp : s.powered = true)
    (hu : s.receives .L = true) (hl : laneFieldOk lane = true) (hk : s.keyed .L key = some h) (hr : s.call? h = some r)
    (hc : r.state ≠ .clearing) (hroom : s.roomL 1) :
    exec (.limitNearFromAbove .L key lane) s = .next (s.withEvent .protocol) ∧
    (r.state ≠ .awaitingGrant → exec (.laneGrant .L key lane) s = .next (s.withEvent .protocol)) ∧
    (¬ (r.dir = .down ∧ (r.state = .awaitingGrant ∨ r.state = .forwarded)) →
      exec (.queuedFromBelow key lane) s = .next (s.withEvent .protocol)) ∧
    (¬ (r.dir = .down ∧ (r.state = .forwarded ∨ r.state = .ringing)) →
      exec (.alertingFromBelow key lane) s = .next (s.withEvent .protocol) ∧
      exec (.connectFromBelow key) s = .next (s.withEvent .protocol)) ∧
    (r.heldBelow = true ∨ (r.state ≠ .connected ∧ r.state ≠ .parked) →
      exec (.heldFromBelow key lane) s = .next (s.withEvent .protocol)) ∧
    (r.heldBelow = false ∨ (r.state ≠ .connected ∧ r.state ≠ .parked) →
      exec (.resumedFromBelow key lane) s = .next (s.withEvent .protocol)) := by
  rw [exec_limitNearFromAbove, exec_queuedFromBelow, exec_alertingFromBelow, exec_connectFromBelow, exec_heldFromBelow,
    execLimitNearFromAbove, execQueuedFromBelow, execAlertingFromBelow, execConnectFromBelow, execHeldFromBelow]
  refine ⟨?limit, fun hn => ?grant, fun hn => ?queued, fun hn => ⟨?alerting, ?connect⟩, fun hn => ?held,
    fun hn => ?resumed⟩
  case limit => exact onProgress_discard hp hu hl hk hr hc hroom (by simp)
  case grant =>
    exact laneGrant_discard hp hu hroom fun l _ =>
      (Work.named_live (w := Work.start s) hk hr hc).trans (if_neg fun x => hn x.1)
  case queued =>
    exact onProgress_discard hp hu hl hk hr hc hroom
      (by rw [if_neg fun x => hn ⟨x.1, .inl x.2⟩, if_neg fun x => hn ⟨x.1, .inr x.2⟩])
  case alerting =>
    exact onProgress_discard hp hu hl hk hr hc hroom
      (by rw [if_neg fun x => hn ⟨x.1, .inl x.2⟩, if_neg fun x => hn ⟨x.1, .inr x.2⟩])
  case connect => exact onRiser_named_discard hp hu hk hr hc hroom (if_neg hn)
  case held =>
    refine onProgress_discard hp hu hl hk hr hc hroom (if_neg fun x => ?_)
    rcases hn with hb | ⟨h1, h2⟩
    · simp [hb] at x
    · exact x.2.elim h1 h2
  case resumed =>
    refine resumedFromBelow_discard hp hu hroom fun l k hkk _ => ?_
    rw [Work.named_live (w := Work.start s) hk hr hc, hkk, if_neg]
    rintro ⟨hb, hst, -⟩
    rcases hn with hn | ⟨h1, h2⟩
    · simp [hn] at hb
    · exact hst.elim h1 h2

/-- The cells whose lane field is out of range. -/
theorem discards_badLane {key : Key} {lane : Byte} (hp : s.powered = true) (hl : laneFieldOk lane = false)
    (hroom : s.roomL 1) :
    (s.receives .H = true → ∀ c ∈ [Instr.alertingFromAbove key lane, .queuedFromAbove key lane,
      .heldFromAbove key lane, .resumedFromAbove key lane, .limitNearFromAbove .H key lane],
      exec c s = .next (s.withEvent .protocol)) ∧
    (s.receives .L = true → ∀ c ∈ [Instr.laneGrant .L key lane, .queuedFromBelow key lane,
      .alertingFromBelow key lane, .heldFromBelow key lane, .resumedFromBelow key lane,
      .limitNearFromAbove .L key lane], exec c s = .next (s.withEvent .protocol)) := by
  simp only [List.forall_mem_cons, List.not_mem_nil, false_imp_iff, implies_true, and_true, exec_alertingFromAbove,
    exec_queuedFromAbove, exec_heldFromAbove, exec_resumedFromAbove, exec_limitNearFromAbove, exec_queuedFromBelow,
    exec_alertingFromBelow, exec_heldFromBelow, execAlertingFromAbove, execQueuedFromAbove, execHeldFromAbove,
    execResumedFromAbove, execLimitNearFromAbove, execQueuedFromBelow, execAlertingFromBelow, execHeldFromBelow]
  have hno := laneOf_eq_none hl
  exact ⟨fun hu => ⟨onProgress_badLane hp hu hl hroom, onProgress_badLane hp hu hl hroom,
      onProgress_badLane hp hu hl hroom, onProgress_badLane hp hu hl hroom, onProgress_badLane hp hu hl hroom⟩,
    fun hu => ⟨laneGrant_discard hp hu hroom fun l h => (by rw [hno] at h; cases h),
      onProgress_badLane hp hu hl hroom, onProgress_badLane hp hu hl hroom, onProgress_badLane hp hu hl hroom,
      resumedFromBelow_discard hp hu hroom fun l _ _ h => (by rw [hno] at h; cases h),
      onProgress_badLane hp hu hl hroom⟩⟩

/-- Settles O24: the match of a key, then each family of cells that no rule accepts. -/
theorem strayCells : Obligations.StrayCells := by
  refine ⟨fun s p key h hs => State.keyed_iff hs p key h,
    fun s p key hp hu hL hH => ⟨fun hk => ⟨fun code => ?release, ?doneUnknown,
      fun lane hl => discards_unknown hp hu hL hk hl⟩, fun h r hk hr hc => ?doneLive⟩,
    fun s key lane h r hp hl hr hc => ⟨fun _ => (discards_clearing hl hr hc).1, fun _ => (discards_clearing hl hr hc).2⟩,
    fun s key lane h r hp hl hr hc hroom => ⟨fun hu hk => discards_above hp hu hl hk hr hc hroom,
      fun hu hk => discards_below hp hu hl hk hr hc hroom⟩,
    fun s key lane hp hl hroom => discards_badLane hp hl hroom⟩
  case release =>
    rw [release_unknown code hp hu hL hH hk]
    cases p <;> rfl
  case doneUnknown =>
    rw [exec_releaseDone, execReleaseDone]
    exact onRiser_raise hp hu hL (by simp [hk])
  case doneLive =>
    rw [exec_releaseDone, execReleaseDone]
    exact onRiser_raise hp hu hL (by simp [hk, Work.withCall, Work.call?, hr, hc])

end Sys2Proof.Machine
end

