-- ==== Sys2Proof/Proofs/CallFrame.lean ====
section
/-! PROOFS. What no operation over calls touches: the pins, the retained contents, the ports' link and line states, the fire
sources, the lock, the queue of waiting commands (`State.frame`); that every command completes (assumption 18); and what the
table lock holds (R180). -/

namespace Sys2Proof.Machine

/-- The state without what the operations over calls change: the tables of the calls, the transmit queues and the status. -/
def State.frame (s : State) : State :=
  { s.bare with
    maps := State.reset.maps, mirror := State.reset.mirror, crosses := [], waiting := [], calls := State.reset.calls
    freeHandles := [], activity := State.reset.activity }

section
variable {s t : State}

theorem State.frame_of_bare (h : s.bare = t.bare) : s.frame = t.frame := by unfold State.frame; rw [h]

theorem State.frame_pending (h : s.frame = t.frame) : s.pending = t.pending := (congrArg State.pending h :)
theorem State.frame_retained (h : s.frame = t.frame) : s.retained = t.retained := (congrArg State.retained h :)
theorem State.frame_lineSource (h : s.frame = t.frame) : s.lineSource = t.lineSource := (congrArg State.lineSource h :)
theorem State.frame_resetReq (h : s.frame = t.frame) : s.resetReq = t.resetReq := (congrArg State.resetReq h :)
theorem State.frame_pins (h : s.frame = t.frame) : s.pins = t.pins := (congrArg State.pins h :)
theorem State.frame_portH (h : s.frame = t.frame) : { s.portH with queue := [] } = { t.portH with queue := [] } :=
  (congrArg State.portH h :)

end

theorem Work.sendH_bare (w : Work) (c : RiserCell) : (w.sendH c).st.bare = w.st.bare := by
  unfold Work.sendH
  split
  · split <;> rfl
  · rfl

theorem Work.sendF_bare (w : Work) (k : Floor) (c : FloorCell) : (w.sendF k c).st.bare = w.st.bare := by
  unfold Work.sendF
  split
  · split
    · exact State.bare_floors_set _ k _
    · rfl
  · rfl

/-- No named change of an operation over calls touches the frame. -/
theorem Prim.frame {w w' : Work} (h : Prim w w') : w'.st.frame = w.st.frame := by
  cases h with
  | freeCall h => unfold Work.freeCall; split <;> rfl
  | sendL c => unfold Work.sendL; split <;> rfl
  | sendH c => exact State.frame_of_bare (w.sendH_bare c)
  | sendF k c => exact State.frame_of_bare (w.sendF_bare k c)
  | _ => rfl

theorem Moves.frame {a w : Work} (h : Moves a w) : w.st.frame = a.st.frame :=
  Moves.keeps (P := fun w => w.st.frame = a.st.frame) (fun _ _ hp hw => hp.frame.trans hw) h rfl

theorem Work.flush_frame (w : Work) : w.flush.frame = w.st.frame := State.frame_of_bare w.flush_bare

theorem Work.finish_frame (w : Work) : w.finish.frame = w.st.frame :=
  (Work.flush_frame _).trans (Moves.rfl' (a := w)).runArbiter.frame

theorem Work.withCall_frame {w : Work} {h : Handle} {k : CallRecord → Work} (hk : ∀ r, (k r).st.frame = w.st.frame) :
    (w.withCall h k).st.frame = w.st.frame := by
  unfold Work.withCall
  split <;> [exact hk _; rfl]

/-! ## Lane requests

Of any wait list, for the operations of `Moves` ask that it is within its depth. -/

section
variable (w : Work) (h : Handle)

theorem Work.joinWaiting_frame (p : Owned) (cls : Class) (x : CallState) :
    (w.joinWaiting h p cls x).st.frame = w.st.frame := rfl

theorem Work.queueCall_frame (p : Owned) (r : CallRecord) : (w.queueCall h p r).1.st.frame = w.st.frame := by
  unfold Work.queueCall
  split
  · split
    · split
      · refine ((Moves.rfl'.tellQueued h r).frame.trans (Work.joinWaiting_frame _ h p r.cls .waitingLane)).trans ?_
        exact (((Moves.rfl' (a := w)).leaveWaiting _).release _ _ |>.raise _).frame
      · rfl
    · rfl
  · exact ((Moves.rfl'.tellQueued h r).frame.trans (Work.joinWaiting_frame _ h p r.cls .waitingLane))

theorem Work.requestLane_frame (p : Owned) (r : CallRecord) : (w.requestLane h p r).1.st.frame = w.st.frame := by
  unfold Work.requestLane
  split
  · split
    · exact (Moves.rfl'.takeLane _ _ _).frame
    · split
      · exact (Moves.rfl'.preempt _ _ _ _).frame
      · exact Work.queueCall_frame ..
  · rfl

theorem Work.lane_frame (p : Owned) {k : Work → LaneOutcome → Work} (hk : ∀ w o, (k w o).st.frame = w.st.frame) :
    (w.lane h p k).st.frame = w.st.frame := by
  exact Work.withCall_frame fun r => (hk _ _).trans (Work.requestLane_frame ..)

theorem Work.routeHigh_frame : (w.routeHigh h).st.frame = w.st.frame := by
  unfold Work.routeHigh
  refine (Work.lane_frame _ h _ fun w o => ?_).trans rfl
  cases o <;> [exact (Moves.rfl'.forwardSetup _).frame; rfl; exact (Moves.rfl'.release _ _).frame]

theorem Work.askFloor_frame (k : Floor) (i : SlotNo) : (w.askFloor h k i).st.frame = w.st.frame := by
  refine Work.lane_frame _ h _ fun w o => ?_
  cases o <;> [exact (Moves.rfl'.startOffers _).frame; rfl; exact (Moves.rfl'.release _ _).frame]

theorem Work.routeFloor_frame (cls : Class) (k : Floor) (i : SlotNo) :
    (w.routeFloor h cls k i).st.frame = w.st.frame := by
  simp only [Work.routeFloor]
  split
  · split
    · exact Work.askFloor_frame ..
    · split
      · exact (Work.askFloor_frame ..).trans ((Moves.rfl'.raise _).release _ _).frame
      · exact (Moves.rfl'.release _ _).frame
  · exact (Moves.rfl'.release _ _).frame

theorem Work.routeUp_frame (cls : Class) (dest : Word) : (w.routeUp h cls dest).st.frame = w.st.frame := by
  unfold Work.routeUp
  split
  · exact (Moves.rfl'.release _ _).frame
  · split
    · exact Work.routeHigh_frame ..
    · exact Work.routeFloor_frame ..
    · refine ((Moves.rfl'.release _ _).frame).trans ?_
      split <;> rfl
    · rfl

theorem Work.askDown_frame (p : Owned) : (w.askDown h p).st.frame = w.st.frame := by
  refine Work.lane_frame _ h _ fun w o => ?_
  cases o <;> [exact (Moves.rfl'.grantUpper _).frame; rfl; exact (Moves.rfl'.release _ _).frame]

theorem Work.routeCallDown_frame (cls : Class) (dest : Word) (p : Owned) :
    (w.routeCallDown h cls dest p).st.frame = w.st.frame := by
  unfold Work.routeCallDown
  split
  · exact (Moves.rfl'.release _ _).frame
  · split
    · exact (Moves.rfl'.release _ _).frame
    · exact Work.askDown_frame ..

theorem Work.callDown_frame (k : Floor) (a : Addr) (i : SlotNo) : (w.callDown k a i).st.frame = w.st.frame := by
  unfold Work.callDown
  split
  · exact ((Moves.rfl'.sendF _ _).raise _).frame
  · exact Work.routeCallDown_frame ..

end

/-! ## What a command leaves -/

/-- Retained contents under the table lock: all but the masks and the quiet levels stand (R180, R182, R123). -/
def Retained.LockedTo (d d' : Retained) : Prop :=
  d' = { d with masks := d'.masks, slots := d'.slots } ∧
  ∀ i : SlotNo, d'.slots[i] = { d.slots[i] with quiet := d'.slots[i].quiet }

theorem Retained.LockedTo.rfl (d : Retained) : d.LockedTo d := ⟨Eq.refl d, fun _ => Eq.refl _⟩

/-- An event so far: the queue of waiting commands stands, and under the lock the retained contents do. -/
structure Work.Keeps (s : State) (w : Work) : Prop where
  pending  : w.st.pending = s.pending
  retained : s.locked = true → s.retained.LockedTo w.st.retained

/-- The same of a command's next state. -/
structure State.Keeps (s t : State) : Prop where
  pending  : t.pending = s.pending
  retained : s.locked = true → s.retained.LockedTo t.retained

theorem State.Keeps.rfl (s : State) : s.Keeps s := ⟨Eq.refl _, fun _ => .rfl _⟩

namespace Work.Keeps

variable {s : State} {w w' : Work}

theorem frame (h : w.Keeps s) (hf : w'.st.frame = w.st.frame) : w'.Keeps s :=
  ⟨(State.frame_pending hf).trans h.pending, fun hl => by rw [State.frame_retained hf]; exact h.retained hl⟩

theorem moves (h : w.Keeps s) (hm : Moves w w') : w'.Keeps s := h.frame hm.frame

/-- A change of fields other than the retained contents. -/
theorem modState (h : w.Keeps s) {f : State → State} (hp : (f w.st).pending = w.st.pending)
    (hr : (f w.st).retained = w.st.retained) : (w.modState f).Keeps s :=
  ⟨hp.trans h.pending, fun hl => by rw [Work.modState_st, hr]; exact h.retained hl⟩

theorem reply (h : w.Keeps s) (op : MgmtOp) (q : Request) (r : Result) (v : Nat) : (w.reply op q r v).Keeps s :=
  h.moves (Moves.rfl'.sendL _)

theorem drawFree (h : w.Keeps s) : w.drawFree.Keeps s := h.modState rfl rfl

theorem purge (h : w.Keeps s) (l : List WaitEntry) : (w.purge l).Keeps s := h.moves (Moves.rfl'.purge l)

theorem changeSources {f : State → State} (hf : (w.modState f).Keeps s) :
    (w.changeSources f).Keeps s := by
  have hf' := hf.moves (Moves.rfl'.raise .fireLocal)
  unfold Work.changeSources
  dsimp only
  split
  · split <;> [exact hf'.purge _; exact hf']
  · split <;> [exact hf.purge _; exact hf]

/-- What the lock refuses changes nothing retained, so what it lets through need only leave the queue. -/
theorem ifUnlocked (h : w.Keeps s) (hl : w.st.locked = s.locked) (op : MgmtOp) (q : Request) {k : Work → Work}
    (ho : lockable op = true) (hk : (k w).st.pending = w.st.pending) : (w.ifUnlocked op q k).Keeps s := by
  unfold Work.ifUnlocked
  rw [ho, hl]
  cases hs : s.locked with
  | false => exact ⟨hk.trans h.pending, fun hl => by simp [hs] at hl⟩
  | true => exact (h.moves (Moves.rfl'.raise _)).reply _ _ _ _

end Work.Keeps

section
variable {s t : State} {w : Work}

theorem Work.Keeps.finish (h : w.Keeps s) : s.Keeps w.finish :=
  ⟨(State.frame_pending w.finish_frame).trans h.pending,
    fun hl => by rw [State.frame_retained w.finish_frame]; exact h.retained hl⟩

theorem Work.Keeps.start (s : State) : (Work.start s).Keeps s := ⟨rfl, fun _ => .rfl _⟩

/-- A command answers a next state that keeps the queue and what the lock holds, and does nothing without the main
supply. -/
def Completes (s : State) (o : Host.Outcome State Fault Refusal) : Prop :=
  ∃ t, o = .next t ∧ s.Keeps t ∧ (s.powered = false → t = s)

theorem event_completes {f : Work → Work} (h : (f (Work.start s)).Keeps s) : Completes s (event s f) := by
  refine ⟨_, rfl, ?_, fun hp => if_neg (by simp [hp])⟩
  split
  · exact h.finish
  · exact .rfl s

theorem onRiser_completes {p : Riser} {f : Work → Work} (h : (f (Work.start s)).Keeps s) :
    Completes s (onRiser s p f) :=
  event_completes (by split <;> [exact h; exact .start s])

theorem onFloor_completes {k : Floor} {f : Work → Work} (h : (f (Work.start s)).Keeps s) :
    Completes s (onFloor s k f) :=
  event_completes (by split <;> [exact h; exact .start s])

/-- An event that touches no more than the operations over calls do. -/
theorem event_frame_completes {f : Work → Work} (h : ∀ w, (f w).st.frame = w.st.frame) : Completes s (event s f) :=
  event_completes ((Work.Keeps.start s).frame (h _))

theorem onRiser_frame_completes {p : Riser} {f : Work → Work} (h : ∀ w, (f w).st.frame = w.st.frame) :
    Completes s (onRiser s p f) := onRiser_completes ((Work.Keeps.start s).frame (h _))

theorem onFloor_frame_completes {k : Floor} {f : Work → Work} (h : ∀ w, (f w).st.frame = w.st.frame) :
    Completes s (onFloor s k f) := onFloor_completes ((Work.Keeps.start s).frame (h _))

theorem Work.named_frame {w : Work} {p : Riser} {key : Key} {k : Handle → CallRecord → Work}
    (hk : ∀ h r, (k h r).st.frame = w.st.frame) : (w.named p key k).st.frame = w.st.frame := by
  unfold Work.named
  split
  · exact Work.withCall_frame fun r => by split <;> [rfl; exact hk _ _]
  · rfl

theorem onProgress_completes {p : Riser} {key : Key} {lane : Byte} {k : Work → Handle → CallRecord → Work}
    (hk : ∀ w h r, (k w h r).st.frame = w.st.frame) : Completes s (onProgress s p key lane k) :=
  onRiser_frame_completes fun w => by split <;> [exact Work.named_frame (hk w); rfl]

theorem onlyFromBelow_completes {p : Riser} {e : Event} {f : Work → Work} (h : (f (Work.start s)).Keeps s) :
    Completes s (onlyFromBelow s p e f) :=
  onRiser_completes (by cases p <;> [exact h; exact (Work.Keeps.start s).moves (Moves.rfl'.raise _)])

theorem onResponse_completes {k : Floor} {a : Addr} {b : Byte} {c : Bool} {f : Work → Handle → Nat → OfferEntry → Work}
    (hf : ∀ w h i e, Moves w (f w h i e)) : Completes s (onResponse s k a b c f) :=
  onFloor_frame_completes fun w => by
    split
    · rfl
    · split
      · exact (hf _ _ _ _).frame
      · split <;> [exact (Moves.rfl'.sendF _ _).frame; rfl]

theorem onExpiry_completes {h : Handle} {m : Purpose} {k : Work → CallRecord → Work} (hk : ∀ w r, Moves w (k w r)) :
    Completes s (onExpiry s h m k) :=
  event_frame_completes fun w => (Moves.rfl'.withCall fun r _ => by split <;> [exact hk w r; exact .refl]).frame

theorem onRequest_completes {op : MgmtOp} {q : Request} {f : Work → Work} (hf : (f (Work.start s)).Keeps s) :
    Completes s (onRequest s op q f) := by
  refine onRiser_completes ?_
  split
  · exact (Work.Keeps.start s).moves (Moves.rfl'.raise _)
  · split
    · exact hf
    · unfold Work.forwardRequest
      split
      · exact .start s
      · exact (Work.Keeps.start s).moves (Moves.rfl'.sendH _)

end

end Sys2Proof.Machine
end

