-- ==== Sys2Proof/Proofs/EveryCommand.lean ====
section
/-! PROOFS. Every command completes and leaves the queue (assumptions 1 and 18); under the table lock the retained contents
stand but for masks and quiet levels (R180, R182, R123). Each command is an event over calls, or one whose few other changes
are looked at here. -/

namespace Sys2Proof.Machine

section
variable {s : State}

/-! ## Management -/

theorem Work.changeSources_pending {w : Work} {f : State → State} (hf : (f w.st).pending = w.st.pending) :
    (w.changeSources f).st.pending = w.st.pending := by
  have h : (w.changeSources f).Keeps { w.st with locked := false } :=
    Work.Keeps.changeSources ⟨hf, fun hl => by cases hl⟩
  exact h.pending

theorem Work.writeField_pending (w : Work) (f : FieldRef) (v : Nat) : (w.writeField f v).1.st.pending = w.st.pending := by
  cases f with
  | setting p f => simp only [Work.writeField]; split <;> rfl
  | timer f =>
    simp only [Work.writeField, Work.rewriteAgeing]
    split
    · split
      · rfl
      · split <;> rfl
    · rfl
  | senseMode =>
    simp only [Work.writeField]
    split
    · exact Work.changeSources_pending rfl
    · rfl
  | _ => rfl

theorem Work.reply_pending (w : Work) (op : MgmtOp) (q : Request) (r : Result) (v : Nat) :
    (w.reply op q r v).st.pending = w.st.pending := Work.sendL_pending ..

namespace Work.Keeps

variable {w : Work}

theorem readOp (h : w.Keeps s) (q : Request) : (w.readOp q).Keeps s := by
  unfold Work.readOp
  split
  · exact h.reply _ _ _ _
  · split
    · exact h.reply _ _ _ _
    · exact (h.reply _ _ _ _).drawFree

theorem writeOp (h : w.Keeps s) (hl : w.st.locked = s.locked) (q : Request) : (w.writeOp q).Keeps s := by
  unfold Work.writeOp
  split
  · exact h.reply _ _ _ _
  · refine h.ifUnlocked hl _ q rfl ?_
    exact (Work.reply_pending ..).trans (Work.writeField_pending ..)

theorem updateOp (h : w.Keeps s) (hl : w.st.locked = s.locked) (q : Request) : (w.updateOp q).Keeps s := by
  unfold Work.updateOp
  split
  · exact h.reply _ _ _ _
  · refine h.ifUnlocked hl _ q rfl ?_
    dsimp only
    split
    · exact Work.reply_pending ..
    · exact (Work.reply_pending ..).trans (Work.writeField_pending ..)

theorem clearEventsOp (h : w.Keeps s) (q : Request) : (w.clearEventsOp q).Keeps s := by
  unfold Work.clearEventsOp
  split
  · exact h.reply _ _ _ _
  · next g _ =>
    have h1 := h.modState (f := fun s => { s with status := s.status.set g (s.status.get g &&& ~~~q.value) }) rfl rfl
    refine Work.Keeps.reply ?_ _ _ _ _
    unfold Work.setAgain
    refine List.foldlRecOn lastingEvents _ h1 fun w hw e _ => ?_
    split
    · exact hw.moves (Moves.rfl'.raise _)
    · exact hw

theorem setMasksOp (h : w.Keeps s) (q : Request) : (w.setMasksOp q).Keeps s := by
  unfold Work.setMasksOp
  split
  · exact h.reply _ _ _ _
  · next g _ =>
    refine Work.Keeps.reply (w := w.modRetained fun d => { d with masks := d.masks.set g (q.value &&& g.named) })
      ⟨h.pending, fun hl => ?_⟩ _ _ _ _
    obtain ⟨h1, h2⟩ := h.retained hl
    exact ⟨congrArg (fun d : Retained => { d with masks := d.masks.set g (q.value &&& g.named) }) h1, h2⟩

theorem portOp (h : w.Keeps s) (hl : w.st.locked = s.locked) {op : MgmtOp} (q : Request) {k : Work → Port → Work}
    (ho : lockable op = true) (hk : ∀ p, (k w p).st.pending = w.st.pending) : (w.portOp op q k).Keeps s := by
  unfold Work.portOp
  split
  · exact h.reply _ _ _ _
  · exact h.ifUnlocked hl _ q ho (hk _)

theorem laneOutOp (h : w.Keeps s) (hl : w.st.locked = s.locked) (q : Request) : (w.laneOutOp q).Keeps s :=
  h.portOp hl q rfl fun p => by split <;> exact Work.reply_pending ..

theorem laneInOp (h : w.Keeps s) (hl : w.st.locked = s.locked) (q : Request) : (w.laneInOp q).Keeps s :=
  h.portOp hl q rfl fun p => by
    split
    · dsimp only
      split <;> exact Work.reply_pending ..
    · exact Work.reply_pending ..

theorem portDisableOp (h : w.Keeps s) (hl : w.st.locked = s.locked) (q : Request) : (w.portDisableOp q).Keeps s :=
  h.portOp hl q rfl fun p => by
    split
    · refine (Work.reply_pending ..).trans ?_
      split
      · rfl
      · unfold Work.disablePort
        dsimp only
        split
        · exact (State.frame_pending (Moves.rfl'.endFloorCalls _ _).frame).trans rfl
        · rfl
    · exact Work.reply_pending ..

theorem portEnableOp (h : w.Keeps s) (hl : w.st.locked = s.locked) (q : Request) : (w.portEnableOp q).Keeps s :=
  h.portOp hl q rfl fun p => by
    split
    · refine (Work.reply_pending ..).trans ?_
      split <;> rfl
    · exact Work.reply_pending ..

theorem setServiceOp (h : w.Keeps s) (hl : w.st.locked = s.locked) (q : Request) : (w.setServiceOp q).Keeps s :=
  h.ifUnlocked hl _ q rfl (by split <;> exact Work.reply_pending ..)

theorem lockOp (h : w.Keeps s) (q : Request) : (w.lockOp q).Keeps s := (h.modState rfl rfl).reply _ _ _ _

theorem resetOp (h : w.Keeps s) (q : Request) : (w.resetOp q).Keeps s := (h.modState rfl rfl).reply _ _ _ _

theorem serve (h : w.Keeps s) (hl : w.st.locked = s.locked) (op : MgmtOp) (q : Request) : (w.serve op q).Keeps s := by
  cases op with
  | read => exact h.readOp q
  | write => exact h.writeOp hl q
  | update => exact h.updateOp hl q
  | clearEvents => exact h.clearEventsOp q
  | setMasks => exact h.setMasksOp q
  | laneOut => exact h.laneOutOp hl q
  | laneIn => exact h.laneInOp hl q
  | portDisable => exact h.portDisableOp hl q
  | portEnable => exact h.portEnableOp hl q
  | setService => exact h.setServiceOp hl q
  | lock => exact h.lockOp q
  | reset => exact h.resetOp q

end Work.Keeps

theorem State.remoteReset_pending (s : State) (pins : Pins) : (s.remoteReset pins).pending = s.pending := by
  unfold State.remoteReset State.evaluateFire
  split <;> rfl

theorem State.remoteReset_retained (s : State) (pins : Pins) : (s.remoteReset pins).retained = s.retained := by
  unfold State.remoteReset State.evaluateFire
  split <;> rfl

theorem State.Keeps.remoteReset {t : State} (h : s.Keeps t) (pins : Pins) : s.Keeps (t.remoteReset pins) :=
  ⟨(t.remoteReset_pending pins).trans h.pending, fun hl => by rw [State.remoteReset_retained]; exact h.retained hl⟩

theorem State.Keeps.resetAtOnce {t : State} (h : s.Keeps t) (q : Request) : s.Keeps (s.resetAtOnce q t) := by
  unfold State.resetAtOnce
  split
  · exact h.remoteReset _
  · exact h

theorem State.resetAtOnce_unpowered (q : Request) (t : State) (hp : s.powered = false) : s.resetAtOnce q t = t :=
  if_neg (by simp [hp])

/-! ## Lines -/

theorem Completes.keeps {t : State} {o : Host.Outcome State Fault Refusal} (ho : o = .next t) (h : Completes s o) :
    s.Keeps t ∧ (s.powered = false → t = s) := by
  obtain ⟨u, hu, hk⟩ := h
  rw [ho] at hu
  cases hu
  exact hk

theorem execLinkUp_completes (p : Riser) : Completes s (execLinkUp p s) := by
  refine event_completes ?_
  split
  · exact .start s
  · cases p with
    | L =>
      exact ((Work.Keeps.start s).modState (f := fun s => { s with portL := s.portL.raised }) rfl rfl).moves
        ((Moves.rfl'.sendL _).sendAllL _)
    | H =>
      dsimp only
      split
      · exact .start s
      · exact ((Work.Keeps.start s).modState (f := fun s => { s with portH := s.portH.raised }) rfl rfl).moves
          (((Moves.rfl'.sendH _).announceFire).run _)

theorem execLinkDown_completes (p : Riser) : Completes s (execLinkDown p s) := by
  refine ⟨_, rfl, ?_, fun hp => if_neg (by simp [hp])⟩
  split
  · cases p with
    | L =>
      have h : s.Keeps (((Work.start s).modPortL RiserPort.lowered).raise .linkLDown).endAllCalls.finish :=
        (((Work.Keeps.start s).modState (f := fun s => { s with portL := s.portL.lowered }) rfl rfl).moves
          (Moves.rfl'.raise _).endAllCalls).finish
      show s.Keeps s.lowerL
      unfold State.lowerL State.resetIfEmptied
      split
      · exact h.remoteReset _
      · exact h
    | H =>
      exact (((Work.Keeps.start s).modState (f := fun s => { s with portH := s.portH.lowered }) rfl rfl).moves
        (Moves.rfl'.raise _).endUpperCalls).finish
  · exact .rfl s

theorem modFloorPort_keeps (k : Floor) (f : FloorPort → FloorPort) : ((Work.start s).modFloorPort k f).Keeps s :=
  (Work.Keeps.start s).modState rfl rfl

theorem execFloorFault_completes (k : Floor) : Completes s (execFloorFault k s) := by
  refine event_completes ?_
  split
  · exact (modFloorPort_keeps k _).moves ((Moves.rfl'.raise _).endFloorCalls _ _)
  · exact .start s

theorem execFloorLineGood_completes (k : Floor) : Completes s (execFloorLineGood k s) := by
  refine event_completes ?_
  split
  · exact (modFloorPort_keeps k _).moves ((Moves.rfl'.sendF _ _).run _)
  · exact .start s

theorem framer_completes (p : Riser) (a : Bool) : Completes s (event s fun w => w.framer p a) := by
  refine event_completes ?_
  cases p with
  | L => exact (Work.Keeps.start s).modState (f := fun s => { s with portL := s.portL.framed a }) rfl rfl
  | H =>
    unfold Work.framer
    dsimp only
    split
    · exact .start s
    · exact (Work.Keeps.start s).modState (f := fun s => { s with portH := s.portH.framed a }) rfl rfl

/-! ## Calls -/

theorem execSetupFromBelow_completes (key : Key) (lane : Byte) (dest : Word) (cls : Class) (okind : BitVec 2)
    (origin : Word) : Completes s (execSetupFromBelow key lane dest cls okind origin s) := by
  refine onRiser_frame_completes fun w => ?_
  split
  · split
    · split
      · exact ((Moves.rfl'.sendL _).raise _).frame
      · exact Work.routeUp_frame ..
    · rfl
  · rfl

theorem execSetupFromAbove_completes (key : Key) (lane : Byte) (dest : Word) (cls : Class) (okind : BitVec 2)
    (origin : Word) : Completes s (execSetupFromAbove key lane dest cls okind origin s) := by
  refine onRiser_frame_completes fun w => ?_
  split
  · split
    · split
      · exact ((Moves.rfl'.sendH _).raise _).frame
      · exact Work.routeCallDown_frame ..
    · rfl
  · rfl

theorem execLaneGrant_completes (p : Riser) (key : Key) (lane : Byte) : Completes s (execLaneGrant p key lane s) := by
  refine onlyFromBelow_completes ((Work.Keeps.start s).frame ?_)
  split
  · rfl
  · exact Work.named_frame fun h r => by split <;> rfl

theorem alerting_queued_completes (key : Key) (lane : Byte) :
    Completes s (execAlertingFromAbove key lane s) ∧ Completes s (execQueuedFromAbove key lane s) := by
  refine ⟨onProgress_completes fun w h r => ?_, onProgress_completes fun w h r => ?_⟩
  · split
    · exact ((Moves.rfl'.modCall _ _).progressDown _ _).frame
    · split <;> [exact (Moves.rfl'.progressDown _ _).frame; rfl]
  · split <;> [exact ((Moves.rfl'.modCall _ _).progressDown _ _).frame; rfl]

theorem execLimitNearFromAbove_completes (p : Riser) (key : Key) (lane : Byte) :
    Completes s (execLimitNearFromAbove p key lane s) :=
  onProgress_completes fun w h r => by split <;> [exact (Moves.rfl'.progressDown _ _).frame; rfl]

theorem execConnectFromAbove_completes (key : Key) : Completes s (execConnectFromAbove key s) :=
  onRiser_frame_completes fun w => Work.named_frame fun h r => by
    split <;> [exact (((Moves.rfl'.modCall _ _).crossConnect _).connectToward _ _).frame; rfl]

theorem execQueuedFromBelow_completes (key : Key) (lane : Byte) : Completes s (execQueuedFromBelow key lane s) :=
  onProgress_completes fun w h r => by
    split
    · exact ((Moves.rfl'.modCall _ _).tellOrigin _ _ _ _).frame
    · split <;> [exact ((Moves.rfl'.modCall _ _).tellOrigin _ _ _ _).frame; rfl]

theorem execAlertingFromBelow_completes (key : Key) (lane : Byte) : Completes s (execAlertingFromBelow key lane s) :=
  onProgress_completes fun w h r => by
    split
    · split
      · exact ((Moves.rfl'.modCall _ _).statusTo _ _ _ _ _).frame
      · exact ((Moves.rfl'.modCall _ _).progressUp _ _ _).frame
    · split
      · split <;> [rfl; exact (Moves.rfl'.progressUp _ _ _).frame]
      · rfl

theorem execConnectFromBelow_completes (key : Key) : Completes s (execConnectFromBelow key s) :=
  onRiser_frame_completes fun w => Work.named_frame fun h r => by
    split
    · split
      · exact ((((Moves.rfl'.modCall _ _).crossConnect _).statusTo _ _ _ _ _).setActivity _ _).frame
      · exact (((Moves.rfl'.modCall _ _).crossConnect _).connectToward _ _).frame
    · rfl

theorem execHeldFromBelow_completes (key : Key) (lane : Byte) : Completes s (execHeldFromBelow key lane s) :=
  onProgress_completes fun w h r => by
    split
    · dsimp only
      split
      · exact (((Moves.rfl'.emptyMirror _).modCall _ _).tellOrigin _ _ _ _).frame
      · exact ((Moves.rfl'.emptyMirror _).modCall _ _).frame
    · rfl

theorem execResumedFromBelow_completes (key : Key) (lane : Byte) : Completes s (execResumedFromBelow key lane s) :=
  onRiser_frame_completes fun w => by
    split
    · rfl
    · refine Work.named_frame fun h r => ?_
      split
      · dsimp only
        split
        · split
          · exact ((((Moves.rfl'.fillMirror _ _).modCall _ _).crossConnect _).statusTo _ _ _ _ _).frame
          · exact ((((Moves.rfl'.fillMirror _ _).modCall _ _).crossConnect _).progressUp _ _ _).frame
        · rfl
      · rfl

theorem execRelease_completes (p : Riser) (key : Key) (code : Byte) : Completes s (execRelease p key code s) :=
  onRiser_frame_completes fun w => by
    split
    · exact (Moves.rfl'.sendRiser _ _).frame
    · refine Work.withCall_frame fun r => ?_
      split
      · exact (Moves.rfl'.closeCleared _ _).frame
      · exact (((Moves.rfl'.sendRiser _ _).modCall _ _).release _ _).frame

theorem execReleaseDone_completes (p : Riser) (key : Key) : Completes s (execReleaseDone p key s) :=
  onRiser_frame_completes fun w => by
    split
    · rfl
    · exact Work.withCall_frame fun r => by split <;> [exact (Moves.rfl'.closeCleared _ _).frame; rfl]

theorem execUnlatchFromAbove_completes (p : Riser) (key : Key) (okind : BitVec 2) (origin : Word) :
    Completes s (execUnlatchFromAbove p key okind origin s) :=
  onRiser_frame_completes fun w => by
    split
    · rfl
    · split
      · refine Work.named_frame fun h r => ?_
        split
        · rfl
        · split
          · rfl
          · split
            · split <;> [rfl; exact (Moves.rfl'.sendL _).frame]
            · rfl
            · rfl
      · rfl

theorem execRestartFromBelow_completes : Completes s (execRestartFromBelow s) :=
  onRiser_frame_completes fun w =>
    (Moves.rfl'.emptyWholeMirror.eachCall _ fun w h r hm _ => by split <;> [exact hm.cutCall _ _ _ _; exact hm]).frame

theorem execRestartFromAbove_completes : Completes s (execRestartFromAbove s) :=
  onRiser_frame_completes fun w =>
    (Moves.rfl'.eachCall _ fun w h r hm _ => by split <;> [exact hm.cutCall _ _ _ _; exact hm]).announceFire.frame

/-! ## Fire -/

theorem execFireEdge_completes (high : Bool) : Completes s (execFireEdge high s) := by
  refine event_completes ?_
  split
  · exact .start s
  · exact .changeSources ((Work.Keeps.start s).modState rfl rfl)

theorem relayFire_keeps (c : RiserCell) {w : Work} (h : w.Keeps s) : (w.relayFire c).Keeps s := by
  unfold Work.relayFire
  split
  · exact h
  · exact h.moves (Moves.rfl'.sendH _)

theorem execFireOn_completes (p : Riser) : Completes s (execFireOn p s) := by
  refine onlyFromBelow_completes ?_
  have h := relayFire_keeps fireOnCell (.start s)
  dsimp only
  split
  · exact h
  · exact .changeSources ((h.moves (Moves.rfl'.raise _)).modState rfl rfl)

theorem execFireOff_completes (p : Riser) : Completes s (execFireOff p s) :=
  onlyFromBelow_completes (relayFire_keeps _ (.changeSources ((Work.Keeps.start s).modState rfl rfl)))

/-! ## Handsets -/

theorem execAlert_completes (k : Floor) (a : Addr) (b : Byte) : Completes s (execAlert k a b s) :=
  onResponse_completes fun w h i e => by
    refine Moves.withCall (fun r _ => ?_) (Moves.rfl'.modEntry _ _ _)
    split
    · exact ((Moves.rfl'.modEntry _ _ _).modCall _ _).progressDown _ _
    · exact Moves.rfl'.modEntry _ _ _

theorem execRepeatOffer_completes (k : Floor) (a : Addr) (b : Byte) : Completes s (execRepeatOffer k a b s) :=
  onResponse_completes fun w h i e => by
    split <;> [exact Moves.rfl'.windowEnds _ _ _; exact Moves.rfl'.offerAlone _ _]

theorem execResponseWindowExpiry_completes (h : Handle) (i : Fin 2) : Completes s (execResponseWindowExpiry h i s) :=
  event_frame_completes fun w => (Moves.rfl'.withCall fun r _ => by
    split
    · split
      · split <;> [exact Moves.rfl'.windowEnds _ _ _; exact .refl]
      · exact .refl
    · exact .refl).frame

theorem execDial_completes (k : Floor) (a : Addr) : Completes s (execDial k a s) :=
  onFloor_frame_completes fun w => by
    split
    · exact (Moves.rfl'.sendF _ _).frame
    · split
      · exact Work.callDown_frame ..
      · exact (Moves.rfl'.connectFlat _ _).frame
      · exact (Moves.rfl'.preAnswer _ _ _).frame
      · exact (Moves.rfl'.sendF _ _).frame
      · exact (Moves.rfl'.sendF _ _).frame

theorem execHook_completes (k : Floor) (a : Addr) : Completes s (execHook k a s) :=
  onFloor_frame_completes fun w => by split <;> [exact (Moves.rfl'.release _ _).frame; rfl]

theorem execUnlatch_completes (k : Floor) (a : Addr) : Completes s (execUnlatch k a s) :=
  onFloor_frame_completes fun w => by
    split
    · exact (Moves.rfl'.sendF _ _).frame
    · refine Work.withCall_frame fun r => ?_
      split
      · exact (Moves.rfl'.sendF _ _).frame
      · split
        · exact ((Moves.rfl'.sendL _).sendF _ _).frame
        · exact (Moves.rfl'.sendF _ _).frame

/-- QUIET changes one quiet level (R123). -/
theorem execQuiet_completes (k : Floor) (a : Addr) (b : Byte) : Completes s (execQuiet k a b s) := by
  refine onFloor_completes ?_
  split
  · split
    · exact .start s
    · next v _ i _ _ =>
      refine Work.Keeps.moves ⟨rfl, fun _ => ⟨rfl, fun j => ?_⟩⟩ (Moves.rfl'.sendF _ _)
      simp only [Work.modState_st, Work.start_st, Fin.getElem_fin, Vector.getElem_set]
      split
      · next hij =>
        obtain rfl : i = j := Fin.ext hij
        unfold Slot.quieted
        split <;> rfl
      · rfl
  · exact (Work.Keeps.start s).moves (Moves.rfl'.raise _)

/-! ## Timers -/

theorem release_expiry_completes {h : Handle} {m : Purpose} {x : CallState} {c : Cause} :
    Completes s (onExpiry s h m fun w r => if r.state = x then w.release h c else w) :=
  onExpiry_completes fun w r => by split <;> [exact Moves.rfl'.release _ _; exact .refl]

theorem execLaneWaitExpiry_completes (h : Handle) : Completes s (execLaneWaitExpiry h s) :=
  onExpiry_completes fun w r => by split <;> [exact (Moves.rfl'.raise _).release _ _; exact .refl]

theorem execAgeingStep_completes (h : Handle) : Completes s (execAgeingStep h s) :=
  event_frame_completes fun w => Work.withCall_frame fun r => by split <;> rfl

theorem execLimitNear_completes (h : Handle) : Completes s (execLimitNear h s) :=
  onExpiry_completes fun w r => by
    split
    · split <;> [exact ((Moves.rfl'.modCall _ _).progressDown _ _).statusTo _ _ _ _ _; exact .refl]
    · exact .refl

theorem execGuardTimerExpiry_completes (h : Handle) : Completes s (execGuardTimerExpiry h s) :=
  onExpiry_completes fun w r => by split <;> [exact (Moves.rfl'.freeCall _).raise _; exact .refl]

/-! ## Requests -/

theorem execMgmtRequestForward_completes (p : Riser) (op : Byte) (q : Request) :
    Completes s (execMgmtRequestForward p op q s) := by
  unfold execMgmtRequestForward
  split
  · next t ht =>
    obtain ⟨hk, hoff⟩ : s.Keeps t ∧ (s.powered = false → t = s) := by
      refine Completes.keeps ht (onlyFromBelow_completes ?_)
      split
      · exact (Work.Keeps.start s).moves (Moves.rfl'.raise _)
      · split
        · exact (Work.Keeps.start s).moves (Moves.rfl'.raise _)
        · split
          · exact (Work.Keeps.start s).serve rfl _ _
          · unfold Work.forwardRequest
            split
            · exact .start s
            · exact (Work.Keeps.start s).moves (Moves.rfl'.sendH _)
    refine ⟨_, rfl, ?_, fun hp => ?_⟩
    · split
      · exact hk.resetAtOnce q
      · exact hk
    · split
      · exact (State.resetAtOnce_unpowered q t hp).trans (hoff hp)
      · exact hoff hp
  · next hne => exact absurd rfl (hne _)

theorem execReset_completes (q : Request) : Completes s (execReset q s) := by
  obtain ⟨t, ht, hk, hoff⟩ := onRequest_completes (op := .reset) (q := q) (f := fun w => w.resetOp q)
    ((Work.Keeps.start s).resetOp q)
  exact ⟨s.resetAtOnce q t, by unfold execReset; rw [ht], hk.resetAtOnce q,
    fun hp => (State.resetAtOnce_unpowered q t hp).trans (hoff hp)⟩

end

/-- Every command but a power-up reset and a low standby supply answers a next state that keeps the queue and what the lock
holds, and does nothing without the main supply. -/
theorem exec_completes (c : Instr) (s : State) (hc : ∀ pins, c ≠ .powerUpReset pins) (hc' : c ≠ .standbySupplyLow) :
    Completes s (exec c s) := by
  have start : (Work.start s).Keeps s := .start s
  cases c with
  | powerUpReset pins => exact absurd rfl (hc pins)
  | remoteReset pins =>
    refine ⟨_, rfl, ?_, fun hp => if_neg (by simp [hp])⟩
    split
    · exact (State.Keeps.rfl s).remoteReset pins
    · exact .rfl s
  | linkUp p => exact execLinkUp_completes p
  | linkDown p => exact execLinkDown_completes p
  | floorFault k => exact execFloorFault_completes k
  | floorLineGood k => exact execFloorLineGood_completes k
  | fireEdge b => exact execFireEdge_completes b
  | transmitCell p =>
    rw [exec_transmitCell, execTransmitCell]
    exact event_completes (start.modState (by cases p <;> rfl) (by cases p <;> rfl))
  | cellCheckFailed p bytes =>
    rw [exec_cellCheckFailed, execCellCheckFailed]
    exact event_frame_completes fun w => by
      split
      · split <;> rfl
      · rfl
  | setupFromBelow key lane dest cls okind origin => exact execSetupFromBelow_completes key lane dest cls okind origin
  | setupFromAbove key lane dest cls okind origin => exact execSetupFromAbove_completes key lane dest cls okind origin
  | laneGrant p key lane => exact execLaneGrant_completes p key lane
  | alertingFromAbove key lane => exact (alerting_queued_completes key lane).1
  | queuedFromAbove key lane => exact (alerting_queued_completes key lane).2
  | heldFromAbove key lane =>
    rw [exec_heldFromAbove, execHeldFromAbove]
    exact onProgress_completes fun w _ r => (Moves.rfl'.relayHold r _).frame
  | resumedFromAbove key lane =>
    rw [exec_resumedFromAbove, execResumedFromAbove]
    exact onProgress_completes fun w _ r => (Moves.rfl'.relayHold r _).frame
  | limitNearFromAbove p key lane => exact execLimitNearFromAbove_completes p key lane
  | connectFromAbove key => exact execConnectFromAbove_completes key
  | queuedFromBelow key lane => exact execQueuedFromBelow_completes key lane
  | alertingFromBelow key lane => exact execAlertingFromBelow_completes key lane
  | connectFromBelow key => exact execConnectFromBelow_completes key
  | heldFromBelow key lane => exact execHeldFromBelow_completes key lane
  | resumedFromBelow key lane => exact execResumedFromBelow_completes key lane
  | release p key code => exact execRelease_completes p key code
  | releaseDone p key => exact execReleaseDone_completes p key
  | unlatchFromAbove p key okind origin => exact execUnlatchFromAbove_completes p key okind origin
  | restartFromBelow => exact execRestartFromBelow_completes
  | restartFromAbove => exact execRestartFromAbove_completes
  | fireOn p => exact execFireOn_completes p
  | fireOff p => exact execFireOff_completes p
  | mgmtRequestForward p op q => exact execMgmtRequestForward_completes p op q
  | mgmtRelayDown p notice op q =>
    rw [exec_mgmtRelayDown, execMgmtRelayDown]
    exact onRiser_frame_completes fun w => by cases p <;> [rfl; exact (Moves.rfl'.sendL _).frame]
  | read q =>
    rw [exec_read, execRead]
    exact onRequest_completes (start.readOp q)
  | write q =>
    rw [exec_write, execWrite]
    exact onRequest_completes (start.writeOp rfl q)
  | update q =>
    rw [exec_update, execUpdate]
    exact onRequest_completes (start.updateOp rfl q)
  | clearEvents q =>
    rw [exec_clearEvents, execClearEvents]
    exact onRequest_completes (start.clearEventsOp q)
  | setMasks q =>
    rw [exec_setMasks, execSetMasks]
    exact onRequest_completes (start.setMasksOp q)
  | laneOut q =>
    rw [exec_laneOut, execLaneOut]
    exact onRequest_completes (start.laneOutOp rfl q)
  | laneIn q =>
    rw [exec_laneIn, execLaneIn]
    exact onRequest_completes (start.laneInOp rfl q)
  | portDisable q =>
    rw [exec_portDisable, execPortDisable]
    exact onRequest_completes (start.portDisableOp rfl q)
  | portEnable q =>
    rw [exec_portEnable, execPortEnable]
    exact onRequest_completes (start.portEnableOp rfl q)
  | setService q =>
    rw [exec_setService, execSetService]
    exact onRequest_completes (start.setServiceOp rfl q)
  | lock q =>
    rw [exec_lock, execLock]
    exact onRequest_completes (start.lockOp q)
  | reset q => exact execReset_completes q
  | alert k a b => exact execAlert_completes k a b
  | answer k a b =>
    rw [exec_answer, execAnswer]
    exact onResponse_completes fun w h _ _ => Moves.rfl'.connectFlat h a
  | refuse k a b =>
    rw [exec_refuse, execRefuse]
    exact onResponse_completes fun w h i _ => ((Moves.rfl'.modEntry h i _).followOn h).countEntries h
  | repeatOffer k a b => exact execRepeatOffer_completes k a b
  | responseWindowExpiry h i => exact execResponseWindowExpiry_completes h i
  | dial k a => exact execDial_completes k a
  | hook k a => exact execHook_completes k a
  | quiet k a b => exact execQuiet_completes k a b
  | unlatch k a => exact execUnlatch_completes k a
  | handsetRestart k a =>
    rw [exec_handsetRestart, execHandsetRestart]
    exact event_completes start
  | laneWaitExpiry h => exact execLaneWaitExpiry_completes h
  | ageingStep h => exact execAgeingStep_completes h
  | progressWaitExpiry h =>
    rw [exec_progressWaitExpiry, execProgressWaitExpiry]
    exact release_expiry_completes
  | grantWaitExpiry h =>
    rw [exec_grantWaitExpiry, execGrantWaitExpiry]
    exact release_expiry_completes
  | ringTimerExpiry h =>
    rw [exec_ringTimerExpiry, execRingTimerExpiry]
    exact release_expiry_completes
  | limitNear h => exact execLimitNear_completes h
  | talkLimitExpiry h =>
    rw [exec_talkLimitExpiry, execTalkLimitExpiry]
    exact release_expiry_completes
  | guardTimerExpiry h => exact execGuardTimerExpiry_completes h
  | frameAlignmentLoss p =>
    rw [exec_frameAlignmentLoss, execFrameAlignmentLoss]
    exact framer_completes p _
  | frameAlignmentReturn p =>
    rw [exec_frameAlignmentReturn, execFrameAlignmentReturn]
    exact framer_completes p _
  | lineMonitorReportChange k good =>
    rw [exec_lineMonitorReportChange, execLineMonitorReportChange]
    exact event_completes (modFloorPort_keeps k _)
  | mainSupplyLoss b =>
    refine ⟨_, rfl, ?_, fun hp => if_neg (by simp [hp])⟩
    split
    · exact ⟨rfl, fun _ => .rfl _⟩
    · exact .rfl s
  | standbySupplyLow => exact absurd rfl hc'

/-- Settles O1: by what a step is. -/
theorem stepRunsFront : Obligations.StepRunsFront := by
  intro s c rest h
  rw [step, h]

theorem standbySupplyLow_keeps (s : State) : ∃ t, exec .standbySupplyLow s = .next t ∧ s.Keeps t := by
  refine ⟨_, rfl, ?_⟩
  split
  · exact .rfl s
  · exact ⟨rfl, fun _ => .rfl _⟩

/-- Every command but a power-up reset keeps the queue and what the lock holds. -/
theorem exec_keeps (c : Instr) (s : State) (hc : ∀ pins, c ≠ .powerUpReset pins) : ∃ t, exec c s = .next t ∧ s.Keeps t := by
  by_cases hc' : c = .standbySupplyLow
  · subst hc'
    exact standbySupplyLow_keeps s
  · obtain ⟨t, ht, hk, -⟩ := exec_completes c s hc hc'
    exact ⟨t, ht, hk⟩

/-- Settles O2: every command but a power-up reset by `exec_keeps`; the reset leaves the queue as it was. -/
theorem everyCommandCompletes : Obligations.EveryCommandCompletes := by
  intro c s
  by_cases hc : ∀ pins, c ≠ .powerUpReset pins
  · obtain ⟨t, ht, hk⟩ := exec_keeps c s hc
    exact ⟨t, ht, hk.pending⟩
  · push Not at hc
    obtain ⟨pins, rfl⟩ := hc
    refine ⟨_, rfl, ?_⟩
    unfold State.evaluateFire
    split <;> split <;> rfl

/-- Settles O59: what every command but a power-up reset keeps under the lock. -/
theorem lockKeepsRetained : Obligations.LockKeepsRetained := by
  intro c s t hl hc ht
  obtain ⟨u, hu, hk⟩ := exec_keeps c s hc
  rw [ht] at hu
  cases hu
  exact hk.retained hl

end Sys2Proof.Machine
end

