-- ==== Sys2Proof/Proofs/Resets.lean ====
section
/-! PROOFS. The resets and the supplies (R13, R184, R185), one timer unit (assumption 6), the line reports (R8, R11, R12),
the cells put on the line (R9) and the cells that spell no command (R5 to R7). -/

namespace Sys2Proof.Machine

variable {s : State}

/-- An event that sets no bit, begins no run and has no cell for port L ends in the state it has made. -/
theorem Work.finish_quiet {w : Work} (hr : w.raised = EventSets.empty) (ho : w.outL = []) (hn : w.runs = []) :
    w.finish = w.st := by
  rw [Work.finish, Work.runArbiter_noRuns hn, Work.flush_quiet hr ho]

theorem event_modState (hp : s.powered = true) (f : State → State) :
    event s (fun w => w.modState f) = .next (f s) := by
  rw [event_powered hp, Work.finish_quiet rfl rfl rfl]
  rfl

theorem event_nothing {f : Work → Work} (hf : f (Work.start s) = Work.start s) : event s f = .next s := by
  simp [event, hf]

/-! ## One timer unit (assumption 6) -/

@[simp] theorem RiserPort.tick_queue (p : RiserPort) : p.tick.queue = p.queue := by
  unfold RiserPort.tick; split <;> rfl

@[simp] theorem FloorPort.tick_queue (p : FloorPort) : p.tick.queue = p.queue := by
  unfold FloorPort.tick; split <;> rfl

@[simp] theorem FloorPort.tick_line (p : FloorPort) : p.tick.line = p.line := by
  unfold FloorPort.tick; split <;> rfl

/-- Settles O3: the step is one tick, which touches the counts of the ports and the timers. -/
theorem idleIsOneUnit : Obligations.IdleIsOneUnit := by
  intro s hpend
  have hstep : step s = .next s.idle := by rw [step, hpend]
  refine ⟨fun hp => by rw [hstep, State.idle]; simp [hp], fun hp => ⟨s.tick, by rw [hstep, State.idle, if_pos hp], ?_⟩⟩
  have hH : (if s.top then s.portH else s.portH.tick).queue = s.portH.queue ∧
      (if s.top then s.portH else s.portH.tick).link = s.portH.link := by
    split <;> simp [RiserPort.tick_link]
  refine ⟨rfl, rfl, rfl, rfl, rfl, rfl, rfl, RiserPort.tick_queue _, RiserPort.tick_link _, hH.1, hH.2, fun k => ?_, rfl,
    fun h => ?_⟩
  · simp [State.tick]
  · simp only [State.call?, State.tick, Fin.getElem_fin, Vector.getElem_ofFn]
    rfl

/-! ## Resets (R13, R184, R185) -/

/-- The volatile state after a reset takes its reset values. -/
theorem State.restarted_atReset (d : Retained) (pins : Pins) (a b : Bool) (g : Floor → Bool) :
    (s.restarted d pins a b g).AtReset pins where
  pins := ⟨rfl, rfl, rfl, rfl⟩
  portL := ⟨rfl, rfl, rfl, rfl⟩
  portH := ⟨rfl, rfl, rfl, rfl⟩
  floors k := by
    simp only [State.restarted, FloorPort.afterReset, Fin.getElem_fin, Vector.getElem_ofFn]
    exact ⟨rfl, trivial, trivial, trivial⟩
  lanes p := perOwned_idx _ p
  mirror l := by simp [State.restarted]
  crosses := rfl
  waiting := rfl
  calls h := by simp [State.restarted]
  handles := rfl
  activity i := by simp [State.restarted]
  sources := ⟨rfl, rfl⟩
  lock := rfl
  reset := rfl
  status := ⟨rfl, rfl⟩

/-- A reset state with a status set of its own. -/
theorem State.AtReset.withStatus {t : State} {pins : Pins} (h : t.AtReset pins) {e : EventSets} (hc : e.call = 0)
    (hl : e.line = 0) : ({ t with status := e } : State).AtReset pins :=
  { h with status := ⟨hc, hl⟩ }

theorem State.AtReset.evaluateFire {t : State} {pins : Pins} (h : t.AtReset pins) : t.evaluateFire.AtReset pins := by
  unfold State.evaluateFire
  split
  · exact h.withStatus h.status.1 h.status.2
  · exact h

/-- What the end of a reset leaves of the status set of the system (R165). -/
theorem State.evaluateFire_status {t : State} (h : t.status = EventSets.empty) :
    t.evaluateFire.status.system = if t.evaluateFire.localSource then Event.mask .fireLocal else 0 := by
  have hl : t.evaluateFire.localSource = t.localSource := by unfold State.evaluateFire; split <;> rfl
  rw [hl]
  unfold State.evaluateFire
  split <;> simp [h, EventSets.add, EventSets.set, EventSets.get, Event.group, EventSets.empty]

/-- Settles O4: the reset state, and what its end makes of the status, with retention held and lost. -/
theorem powerUpReset : Obligations.PowerUpReset := by
  refine ⟨fun s pins hok => ?held, fun s pins hok => ?lost⟩
  case held =>
    refine ⟨(s.restarted s.retained pins false false fun _ => false).evaluateFire, ?_,
      (State.restarted_atReset ..).evaluateFire, ?_, ?_, State.evaluateFire_status rfl⟩
    · rw [exec_powerUpReset, execPowerUpReset]
      simp only [hok, if_true]
    · unfold State.evaluateFire; split <;> rfl
    · unfold State.evaluateFire; split <;> rfl
  case lost =>
    have hq : ∀ t : State, t.retained.sense = .ignore → t.evaluateFire = t := fun t ht => by
      simp [State.evaluateFire, State.localSource, ht]
    refine ⟨{ s.restarted Retained.default pins false false fun _ => false with
      status := EventSets.empty.add .retentionLost }, ?_, (State.restarted_atReset ..).withStatus rfl rfl, rfl, rfl, rfl⟩
    rw [exec_powerUpReset, execPowerUpReset]
    simp only [hok, Bool.false_eq_true, if_false]
    rw [hq _ rfl]
    rfl

/-- A request that this switch takes is served in one event (R176). -/
theorem onRequest_takes {op : MgmtOp} {q : Request} {f : Work → Work} (ht : s.takes q) :
    onRequest s op q f = .next (f (Work.start s)).finish := by
  obtain ⟨hp, hu, hnode, hn0⟩ := ht
  have h15 : ¬ 15 < q.node.toNat := by have := s.node.isLt; omega
  have hmine : (Work.start s).st.isMine q.node = true := by
    simp [State.isMine, hnode, hn0]
  rw [onRequest, onRiser_receives hp hu, if_neg h15, if_pos hmine]

theorem Work.Makes.reply {R : Prop} {w : Work} {u : State} (h : w.Makes R u) (op : MgmtOp) (q : Request) (r : Result)
    (v : Nat) (hroom : R → u.roomL 1) : (w.reply op q r v).Makes R (u.replied op q r v) := by
  have hn : w.st.node = u.node := (congrArg State.node h.bare :)
  unfold Work.reply State.replied
  rw [hn]
  exact h.sendL hroom

@[simp] theorem Work.reply_runs (w : Work) (op : MgmtOp) (q : Request) (r : Result) (v : Nat) :
    (w.reply op q r v).runs = w.runs := Work.sendL_runs ..

theorem State.remoteReset_atReset (t : State) (pins : Pins) : (t.remoteReset pins).AtReset pins :=
  (State.restarted_atReset ..).evaluateFire

/-- A change of the state that touches neither port L nor what its notices speak of. -/
theorem Work.Makes.modState {R : Prop} {w : Work} {u : State} (h : w.Makes R u) {f : State → State}
    (hb : (f w.st).bare = (f u).bare)
    (hf : ∀ (s : State) (a : RiserPort) (b : EventSets),
      f { s with portL := a, status := b } = { f s with portL := a, status := b })
    (hn : (f w.st).node = w.st.node) (hm : (f w.st).retained.masks = w.st.retained.masks) :
    (w.modState f).Makes R (f u) := by
  have h0 : f w.st = { f w.st with portL := w.st.portL, status := w.st.status } := hf w.st w.st.portL w.st.status
  refine h.mod f hb (fun _ => w.shows_of f hf hn hm) (fun _ => ?_) ?_
  · have hS : (f w.st).status = w.st.status := by rw [h0]
    simp only [Work.toL, Work.modState_st, Work.modState_raised, Work.modState_outL, State.notices, hn, hm, hS]
  · show (f w.st).portL = w.st.portL
    rw [h0]

/-- Settles O5: the reply's place in port L's queue decides when the reset takes effect. -/
theorem remoteReset : Obligations.RemoteReset := by
  refine ⟨fun s q ht => ⟨fun hroom => ?reply, fun hfull => ?atOnce⟩, fun s pins hp => ⟨fun hdue => ?due, fun hnot => ?not⟩⟩
  case reply =>
    have hu : s.receives .L = true := ht.2.1
    have hq : s.portL.queue.length + 1 ≤ 16 := by
      have := hroom (State.receives_up hu)
      omega
    have hlate : ∀ t, s.resetAtOnce q t = t := fun t => if_neg (by
      rintro ⟨-, -, -, h⟩
      have hd : Config.queueDepth = 16 := rfl
      omega)
    have hm := ((Work.Makes.start True s).mod (w' := (Work.start s).modState fun s => { s with
      resetReq := if s.resetReq = .none then .replyAt s.portL.queue.length else s.resetReq })
      (fun _ => { s with resetReq := if s.resetReq = .none then .replyAt s.portL.queue.length else s.resetReq })
      rfl (fun _ => Work.shows_start _) (fun _ => by simp [Work.toL]) rfl).reply .reset q .done 0 fun _ => hroom
    rw [exec_reset, execReset, onRequest_takes ht]
    show Host.Outcome.next (s.resetAtOnce q _) = _
    rw [hlate]
    exact congrArg _ (hm.finish (by simp))
  case atOnce =>
    obtain ⟨hp, hu, hnode, hn0⟩ := ht
    have hnow : ∀ t, s.resetAtOnce q t = t.remoteReset t.pins := fun t => if_pos
      ⟨hp, hu, by simp [State.isMine, hnode, hn0], hfull⟩
    have hframe : ((Work.start s).resetOp q).finish.frame =
        ({ s with resetReq := if s.resetReq = .none then .replyAt s.portL.queue.length else s.resetReq } : State).frame :=
      (Work.finish_frame _).trans (Moves.rfl'.sendL _).frame
    refine ⟨_, ?_, State.remoteReset_atReset ((Work.start s).resetOp q).finish s.pins, ?_⟩
    · rw [exec_reset, execReset, onRequest_takes ⟨hp, hu, hnode, hn0⟩]
      show Host.Outcome.next (s.resetAtOnce q _) = _
      rw [hnow, State.frame_pins hframe]
    · rw [State.remoteReset_retained, State.frame_retained hframe]
  case due =>
    refine ⟨s.remoteReset pins, ?_, s.remoteReset_atReset pins, s.remoteReset_retained pins, ?_, ?_,
      State.evaluateFire_status rfl⟩
    · rw [exec_remoteReset, execRemoteReset, if_pos ⟨hp, hdue⟩]
    · unfold State.remoteReset State.evaluateFire; split <;> rfl
    · unfold State.remoteReset State.evaluateFire; split <;> rfl
  case not => rw [exec_remoteReset, execRemoteReset, if_neg fun h => hnot h.2]

/-! ## Supplies (R184) -/

/-- Settles O6: the supplies' own commands by their definitions, and every other by `exec_completes`. -/
theorem supplies : Obligations.Supplies := by
  refine ⟨fun s b hp => ⟨{ s.restarted s.retained s.pins false false fun _ => false with
    powered := false, retentionOk := s.retentionOk && !b }, ?loss, rfl, rfl, rfl, ?reset, rfl⟩, fun s hp => ?low, fun s hp => ?on,
    fun s c hp h1 h2 => ?off⟩
  case loss => rw [exec_mainSupplyLoss, execMainSupplyLoss, if_pos hp]
  case reset => exact { State.restarted_atReset (s := s) s.retained s.pins false false fun _ => false with }
  case off =>
    obtain ⟨t, ht, -, hoff⟩ := exec_completes c s h1 h2
    rw [ht, hoff hp]
  case low => rw [exec_standbySupplyLow, execStandbySupplyLow, if_neg (by simp [hp])]
  case on => rw [exec_standbySupplyLow, execStandbySupplyLow, if_pos hp]

end Sys2Proof.Machine
end

