-- ==== Sys2Proof/Proofs/ResetState.lean ====
section
/-! PROOFS. The state after reset keeps both invariants; the line reports (R8, R11, R12); the cells put on the line (R9) and
the cells that spell no command (R5 to R7). -/

namespace Sys2Proof.Machine

variable {s : State}

/-! ## The state after reset -/

/-- The tables of a part with no call agree. -/
theorem State.linked_of_noCalls (hmap : ∀ p, s.map p = LaneMap.empty p) (hmir : ∀ l : LLane, s.mirror[l] = none)
    (hx : s.crosses = []) (hw : s.waiting = []) (hc : ∀ h, s.call? h = none) (ha : ∀ i : SlotNo, s.activity[i] = .idle) :
    s.Linked :=
  have hh (p : Owned) (i : Nat) : s.holder p i = none := by
    simp only [State.holder, hmap, LaneMap.empty, List.getElem?_replicate]
    split <;> rfl
  { held p i h := by rw [hh]; simp [hc]
    order p := by
      rw [hmap]
      exact ⟨List.nodup_nil, fun i => by simp [hh, LaneMap.empty]⟩
    mirror l h := by
      rw [hmir]
      simp [hc]
    queued := by simp [hw, hc]
    waits := by simp [hw]
    sorted := by simp [hw]
    settled := by simp [hw]
    activity i h := by rw [ha]; simp [Activity.handle?]
    named := by simp [hc]
    crosses := by simp [hx, hc]
    clearing := by simp [hc]
    keys := by simp [hc]
    below := by simp [hc] }

/-- Settles O7: after reset the retained contents are the defaults and there is no call. -/
theorem resetInv : Obligations.ResetInv := by
  have hr := State.restarted_inv (s := State.reset) Retained.default_legal Retained.default_unique defaultPins false false
    fun _ => false
  refine ⟨{ hr with status := EventSets.NamedOnly.empty.add .retentionLost, queues := fun k => ?_ },
    State.linked_of_noCalls (perOwned_idx _) (fun l => ?_) rfl rfl (fun h => ?_) fun i => ?_⟩
  · simp [State.reset, FloorPort.afterReset, FloorPort.QueueOk]
  · simp [State.reset]
  · simp [State.call?, State.reset]
  · simp [State.reset]

/-! ## Line reports (R11, R12) -/

theorem RiserPort.framed_eq (p : RiserPort) (a : Bool) :
    p.framed a = if p.aligned = a then p else { p with aligned := a, count := 0 } := rfl

theorem exec_framer (p : Riser) (aligned : Bool) :
    exec (if aligned then .frameAlignmentReturn p else .frameAlignmentLoss p) s = event s fun w => w.framer p aligned := by
  cases aligned <;> rfl

/-- A command that carries a cell is one event, and does nothing on a port that hears nothing (R8, R11). -/
theorem exec_deaf {c : Instr} {p : Port} (ha : arrivesOn c = some p) (hd : s.hears p = false) : exec c s = .next s := by
  have hr (r : Riser) (h : (match r with | .L => Port.L | .H => .H) = p) : s.receives r = false := by
    cases r <;> subst h <;> exact hd
  cases c with
  | cellCheckFailed q bytes =>
    cases ha
    rw [exec_cellCheckFailed, execCellCheckFailed]
    exact event_nothing (by simp [hd])
  | mgmtRequestForward r op q =>
    have hu := hr r (Option.some.inj ha)
    rw [exec_mgmtRequestForward, execMgmtRequestForward, onlyFromBelow, onRiser_deaf hu]
    have : s.receives .L = false ∨ r ≠ .L := by
      cases r with
      | L => exact .inl hu
      | H => exact .inr (by simp)
    rcases this with h | h <;> simp [State.resetAtOnce, h]
  | reset q =>
    cases ha
    have hu : s.receives .L = false := hd
    rw [exec_reset, execReset, onRequest, onRiser_deaf hu]
    simp [State.resetAtOnce, hu]
  | handsetRestart k a =>
    rw [exec_handsetRestart, execHandsetRestart]
    exact event_nothing rfl
  | setupFromBelow | queuedFromBelow | alertingFromBelow | connectFromBelow | heldFromBelow | resumedFromBelow
  | restartFromBelow =>
    cases ha
    have hu : s.receives .L = false := hd
    simp only [exec_setupFromBelow, exec_queuedFromBelow, exec_alertingFromBelow, exec_connectFromBelow,
      exec_heldFromBelow, exec_resumedFromBelow, exec_restartFromBelow, execSetupFromBelow, execQueuedFromBelow,
      execAlertingFromBelow, execConnectFromBelow, execHeldFromBelow, execResumedFromBelow, execRestartFromBelow,
      onProgress, onRiser_deaf hu]
  | read | write | update | clearEvents | setMasks | laneOut | laneIn | portDisable | portEnable | setService
  | lock =>
    cases ha
    have hu : s.receives .L = false := hd
    simp only [exec_read, exec_write, exec_update, exec_clearEvents, exec_setMasks, exec_laneOut, exec_laneIn,
      exec_portDisable, exec_portEnable, exec_setService, exec_lock, execRead, execWrite, execUpdate,
      execClearEvents, execSetMasks, execLaneOut, execLaneIn, execPortDisable, execPortEnable, execSetService,
      execLock, onRequest, onRiser_deaf hu]
  | setupFromAbove | alertingFromAbove | queuedFromAbove | heldFromAbove | resumedFromAbove | connectFromAbove
  | restartFromAbove =>
    cases ha
    have hu : s.receives .H = false := hd
    simp only [exec_setupFromAbove, exec_alertingFromAbove, exec_queuedFromAbove, exec_heldFromAbove,
      exec_resumedFromAbove, exec_connectFromAbove, exec_restartFromAbove, execSetupFromAbove, execAlertingFromAbove,
      execQueuedFromAbove, execHeldFromAbove, execResumedFromAbove, execConnectFromAbove, execRestartFromAbove,
      onProgress, onRiser_deaf hu]
  | laneGrant r | limitNearFromAbove r | release r | releaseDone r | unlatchFromAbove r | fireOn r | fireOff r
  | mgmtRelayDown r =>
    have hu := hr r (Option.some.inj ha)
    simp only [exec_laneGrant, exec_limitNearFromAbove, exec_release, exec_releaseDone, exec_unlatchFromAbove,
      exec_fireOn, exec_fireOff, exec_mgmtRelayDown, execLaneGrant, execLimitNearFromAbove, execRelease,
      execReleaseDone, execUnlatchFromAbove, execFireOn, execFireOff, execMgmtRelayDown, onProgress, onlyFromBelow,
      onRiser_deaf hu]
  | alert | answer | refuse | repeatOffer | dial | hook | quiet | unlatch =>
    cases ha
    have hu : s.floorUp _ = false := hd
    simp only [exec_alert, exec_answer, exec_refuse, exec_repeatOffer, exec_dial, exec_hook, exec_quiet,
      exec_unlatch, execAlert, execAnswer, execRefuse, execRepeatOffer, execDial, execHook, execQuiet, execUnlatch,
      onResponse, onFloor_down hu]
  | _ => cases ha

/-- Settles O12: the reports are one event of no cell, and a cell that arrives on a deaf port is none. -/
theorem lineReports : Obligations.LineReports := by
  refine ⟨fun s aligned hp => ⟨?portL, ?portH⟩, fun s k good hp hne => ?monitor, fun s c p ha hd => exec_deaf ha ?deaf⟩
  case portL =>
    refine (exec_framer .L aligned).trans ((event_modState hp fun s => { s with portL := s.portL.framed aligned }).trans ?_)
    rw [RiserPort.framed_eq]
    split <;> rfl
  case portH =>
    refine (exec_framer .H aligned).trans ?_
    by_cases ht : s.top = true
    · rw [if_pos (.inr ht)]
      exact event_nothing (by simp [Work.framer, ht])
    · have hf : event s (fun w => w.framer .H aligned) =
          event s fun w => w.modState fun s => { s with portH := s.portH.framed aligned } := by
        simp [event, Work.framer, ht, Work.modPortH]
      rw [hf, event_modState hp, RiserPort.framed_eq]
      split
      · next h => rw [if_pos (.inl h)]
      · next h => rw [if_neg (by simp [h, ht])]
  case monitor =>
    rw [exec_lineMonitorReportChange, execLineMonitorReportChange]
    refine (event_modState hp _).trans ?_
    have hr : s.floors[k].reported good = { s.floors[k] with good := good, count := 0 } := if_neg hne
    exact congrArg (fun q => Host.Outcome.next ({ s with floors := s.floors.set k q } : State)) hr
  case deaf =>
    cases p with
    | L | H => rcases hd with h | h <;> simp [State.hears, State.receives, h]
    | F k => simpa [State.hears, State.floorUp] using hd

/-! ## Cells on the line (R9) -/

theorem RiserPort.sent_up {p : RiserPort} {c : RiserCell} {rest : List RiserCell} (hu : p.link = .up)
    (hq : p.queue = c :: rest) : p.sent = { p with queue := rest, wire := c.bytes } := by
  simp [RiserPort.sent, hu, hq]

theorem RiserPort.sent_none {p : RiserPort} (h : p.queue = [] ∨ p.link = .down) : p.sent = p := by
  rcases h with h | h <;> cases hl : p.link <;> simp_all [RiserPort.sent]

theorem FloorPort.sent_up {p : FloorPort} {c : FloorCell} {rest : List FloorCell} (hu : p.line = .up)
    (hq : p.queue = c :: rest) : p.sent = { p with queue := rest, wire := c.bytes } := by
  simp [FloorPort.sent, hu, hq]

theorem FloorPort.sent_none {p : FloorPort} (h : p.queue = [] ∨ p.line ≠ .up) : p.sent = p := by
  rcases h with h | h <;> cases hl : p.line <;> simp_all [FloorPort.sent]

/-- Settles O14: the interface that sends is changed, and with port L the count to the RESET reply. -/
theorem transmitCell : Obligations.TransmitCell := by
  refine fun s hp => ⟨fun c rest hu hq => ?L, fun c rest hu hq => ?H, fun k c rest hu hq => ?F, fun h => ?noneL,
    fun h => ?noneH, fun k h => ?noneF⟩ <;> rw [exec_transmitCell, execTransmitCell] <;>
    refine (event_modState hp _).trans (congrArg _ ?_)
  case L =>
    rw [RiserPort.sent_up hu hq, if_pos ⟨by simp [State.riserUp, hu], by simp [hq]⟩]
    rfl
  case H => rw [RiserPort.sent_up hu hq]
  case F => exact congrArg (fun q => ({ s with floors := s.floors.set k q } : State)) (FloorPort.sent_up hu hq)
  case noneL =>
    rw [RiserPort.sent_none h, if_neg]
    rintro ⟨hu, hq⟩
    rcases h with h | h <;> simp_all [State.riserUp]
  case noneH => rw [RiserPort.sent_none h]
  case noneF =>
    dsimp only
    rw [FloorPort.sent_none h]
    simp

/-! ## Cells that spell no command (R5 to R7) -/

/-- A progress code outside 1 to 5 spells no command (R6). -/
theorem progressCommand_unknown {p : Riser} {key : Key} {lane : Byte} {code : Nat} (h : code = 0 ∨ 5 < code) :
    progressCommand p key lane code = .wrongKind := by
  unfold progressCommand
  split
  case h_10 => rfl
  all_goals omega

/-- A riser kind outside 1 to 13, or a PROGRESS of no known code, spells no command (R6). -/
theorem riserCommand_wrongKind {p : Riser} {kind b1 b2 b3 b4 b5 b6 b7 b8 b9 b10 b11 b12 b13 : Byte}
    (h : kind.toNat = 0 ∨ 13 < kind.toNat ∨ (kind.toNat = 3 ∧ (b8.toNat = 0 ∨ 5 < b8.toNat))) :
    riserCommand p kind b1 b2 b3 b4 b5 b6 b7 b8 b9 b10 b11 b12 b13 = .wrongKind := by
  unfold riserCommand
  dsimp only
  split
  case h_4 hk => exact progressCommand_unknown (by omega)
  case h_18 => rfl
  all_goals omega

/-- A floor kind that no handset sends spells no command (R7). -/
theorem floorCommand_wrongKind {k : Floor} {kind b1 handle code : Byte}
    (h : kind.toNat ∉ [4, 8, 9, 10, 11, 12, 13, 14, 15]) : floorCommand k kind b1 handle code = .wrongKind := by
  simp only [List.mem_cons, List.not_mem_nil, or_false, not_or] at h
  unfold floorCommand
  dsimp only
  split
  case h_10 => rfl
  all_goals omega

theorem receiveRiser_wrongKind {p : Riser} {bytes : List Byte} (hc : checkPasses bytes = true) (hl : bytes.length = 16)
    (h : (bytes[0]?.getD 0).toNat = 0 ∨ 13 < (bytes[0]?.getD 0).toNat ∨
      ((bytes[0]?.getD 0).toNat = 3 ∧ ((bytes[8]?.getD 0).toNat = 0 ∨ 5 < (bytes[8]?.getD 0).toNat))) :
    receiveRiser p bytes = .wrongKind := by
  unfold receiveRiser
  rw [if_pos hc]
  split
  · exact riserCommand_wrongKind h
  · next hn =>
    refine absurd (List.ext_getElem (by simp [hl]) fun i hi hi' => ?_)
      (hn bytes[0] bytes[1] bytes[2] bytes[3] bytes[4] bytes[5] bytes[6] bytes[7] bytes[8] bytes[9] bytes[10] bytes[11] bytes[12] bytes[13] bytes[14] bytes[15])
    have hi16 : i < 16 := hl ▸ hi
    interval_cases i <;> rfl

theorem receiveFloor_wrongKind {k : Floor} {bytes : List Byte} (hc : checkPasses bytes = true) (hl : bytes.length = 8)
    (h : (bytes[0]?.getD 0).toNat ∉ [4, 8, 9, 10, 11, 12, 13, 14, 15]) : receiveFloor k bytes = .wrongKind := by
  unfold receiveFloor
  rw [if_pos hc]
  split
  · exact floorCommand_wrongKind h
  · next hn =>
    refine absurd (List.ext_getElem (by simp [hl]) fun i hi hi' => ?_)
      (hn bytes[0] bytes[1] bytes[2] bytes[3] bytes[4] bytes[5] bytes[6] bytes[7])
    have hi16 : i < 8 := hl ▸ hi
    interval_cases i <;> rfl

/-- Bytes whose check fails spell no command on any port (R5). -/
theorem receive_checkFailed {p : Port} {bytes : List Byte} (hc : checkPasses bytes = false) :
    receive p bytes = .checkFailed := by
  cases p <;> simp [receive, receiveRiser, receiveFloor, hc]

/-- An event that sets one bit and does nothing else. -/
theorem event_raise {f : Work → Work} {e : Event} (hp : s.powered = true) (hroom : s.roomL 1)
    (hf : f (Work.start s) = (Work.start s).raise e) : event s f = .next (s.withEvent e) :=
  event_makes hp (by rw [hf]; exact (Work.Makes.start True s).raise (fun _ => ⟨rfl, rfl⟩) fun _ => hroom)
    (by rw [hf]; rfl)

/-- Settles O15: what the interface makes of the bytes decides the event. -/
theorem cellCheckFailed : Obligations.CellCheckFailed := by
  intro s p bytes hp
  have hwrong (hh : s.hears p = true) (hr : s.roomL 1) (h : receive p bytes = .wrongKind) :
      exec (.cellCheckFailed p bytes) s = .next (s.withEvent .protocol) := by
    rw [exec_cellCheckFailed, execCellCheckFailed]
    exact event_raise hp hr (by simp [hh, h])
  refine ⟨fun hc hh hr => ?_, fun hc hh hr => ?_, fun hh => exec_deaf rfl hh⟩
  · rw [exec_cellCheckFailed, execCellCheckFailed]
    exact event_raise hp hr (by simp [hh, receive_checkFailed hc])
  · cases p with
    | L | H => exact fun hl h => hwrong hh hr (receiveRiser_wrongKind hc hl h)
    | F k => exact fun hl h => hwrong hh hr (receiveFloor_wrongKind hc hl h)

end Sys2Proof.Machine
end

