-- ==== Sys2Proof/Proofs/CellCodec.lean ====
section
/-! PROOFS. The bytes of a cell and what an interface reads from them (sections 1.4 and 1.10, R5 to R7, R18 to R20). -/

namespace Sys2Proof

/-! ## The check word (R5) -/

theorem onesAdd_le {a b : Nat} (ha : a ≤ 65535) (hb : b ≤ 65535) : onesAdd a b ≤ 65535 := by
  unfold onesAdd; split <;> omega

theorem onesAdd_assoc {a b c : Nat} (ha : a ≤ 65535) (hb : b ≤ 65535) (hc : c ≤ 65535) :
    onesAdd (onesAdd a b) c = onesAdd a (onesAdd b c) := by
  simp only [onesAdd]
  split <;> split <;> split <;> split <;> omega

theorem onesAdd_zero {a : Nat} (ha : a ≤ 65535) : onesAdd a 0 = a := by
  rw [onesAdd, if_pos (by omega)]; rfl

theorem zero_onesAdd {a : Nat} (ha : a ≤ 65535) : onesAdd 0 a = a := by
  rw [onesAdd, if_pos (by omega), Nat.zero_add]

theorem onesSum_le (bytes : List Byte) : onesSum bytes ≤ 65535 := by
  fun_induction onesSum bytes with
  | case1 hi lo rest ih => exact onesAdd_le (by have := (wordOf hi lo).isLt; omega) ih
  | case2 hi => have := (wordOf hi 0).isLt; omega
  | case3 => omega

/-- The sum of whole words before other bytes adds to theirs. -/
theorem onesSum_append (bytes more : List Byte) (heven : bytes.length % 2 = 0) :
    onesSum (bytes ++ more) = onesAdd (onesSum bytes) (onesSum more) := by
  fun_induction onesSum bytes with
  | case1 hi lo rest ih =>
    have hw : (wordOf hi lo).toNat ≤ 65535 := by have := (wordOf hi lo).isLt; omega
    simp only [List.cons_append, onesSum]
    rw [ih (by simp only [List.length_cons] at heven; omega), onesAdd_assoc hw (onesSum_le _) (onesSum_le _)]
  | case2 hi => simp at heven
  | case3 => exact (zero_onesAdd (onesSum_le more)).symm

/-- The two bytes of a word form it again (section 1.10). -/
theorem wordOf_bytes (w : Word) : wordOf (hiByte w) (loByte w) = w := by
  apply BitVec.eq_of_toNat_eq
  have := w.isLt
  simp only [wordOf, hiByte, loByte, BitVec.toNat_ofNat]
  omega

/-- Whole words followed by their check word pass the check (R5). -/
theorem checkPasses_withCheck (bytes : List Byte) (heven : bytes.length % 2 = 0) :
    checkPasses (withCheck bytes) = true := by
  have hS := onesSum_le bytes
  have hc : (checkWord bytes).toNat = 65535 - onesSum bytes := by
    rw [checkWord, BitVec.toNat_ofNat]; omega
  rw [checkPasses, withCheck, onesSum_append _ _ heven, onesSum, wordOf_bytes, hc, onesSum, onesAdd_zero (by omega),
    onesAdd, if_pos (by omega)]
  simp
  omega

/-! ## The fields of a riser cell (R18, R19) -/

theorem Key.ofByte_toByte (k : Key) : Key.ofByte k.toByte = k := by
  obtain ⟨side, ref⟩ := k
  have := ref.isLt
  cases side <;> simp only [Key.ofByte, Key.toByte, BitVec.toNat_ofNat]
  · rw [if_pos (by omega)]
    exact congrArg _ (Fin.ext (by simp only []; omega))
  · rw [if_neg (by omega)]
    exact congrArg _ (Fin.ext (by simp only []; omega))

theorem OriginKind.toNat_lt (o : OriginKind) : o.toNat < 3 := by cases o <;> decide

/-- The byte of origin kind and class. -/
theorem kindClass_byte (o : OriginKind) (c : Class) :
    (BitVec.ofNat 8 (o.toNat * 16 + c.val)).toNat = o.toNat * 16 + c.val := by
  have := o.toNat_lt
  have := c.isLt
  rw [BitVec.toNat_ofNat]
  omega

/-- The three bytes of a request's spare field form it again (R19). -/
theorem spare_bytes (w : BitVec 24) :
    BitVec.ofNat 24 ((BitVec.ofNat 8 (w.toNat / 65536)).toNat * 65536 + (BitVec.ofNat 8 (w.toNat / 256)).toNat * 256 +
      (BitVec.ofNat 8 w.toNat).toNat) = w := by
  apply BitVec.eq_of_toNat_eq
  have := w.isLt
  simp only [BitVec.toNat_ofNat]
  omega

theorem RiserCell.bytes_check (c : RiserCell) : checkPasses c.bytes = true := by
  cases c with
  | call c => exact checkPasses_withCheck _ (by simp [CallCell.body])
  | mgmt kind op q => exact checkPasses_withCheck _ (by simp [mgmtBody])

theorem FloorCell.bytes_check (c : FloorCell) : checkPasses c.bytes = true := checkPasses_withCheck _ (by simp)

/-- An interface reads fourteen bytes and their check word by their kind. -/
theorem receiveRiser_withCheck (p : Riser) (k b1 b2 b3 b4 b5 b6 b7 b8 b9 b10 b11 b12 b13 : Byte) :
    receiveRiser p (withCheck [k, b1, b2, b3, b4, b5, b6, b7, b8, b9, b10, b11, b12, b13]) =
      riserCommand p k b1 b2 b3 b4 b5 b6 b7 b8 b9 b10 b11 b12 b13 := by
  unfold receiveRiser
  rw [if_pos (checkPasses_withCheck _ (by simp))]
  rfl

theorem receiveFloor_withCheck (k : Floor) (kind b1 b2 handle code value : Byte) :
    receiveFloor k (withCheck [kind, b1, b2, handle, code, value]) = floorCommand k kind b1 handle code := by
  unfold receiveFloor
  rw [if_pos (checkPasses_withCheck _ (by simp))]
  rfl

/-- A cell of the management layout is read with the request that it carries (R19). -/
theorem receiveRiser_mgmt (p : Riser) (kind : MgmtKind) (op : Byte) (q : Request) :
    receiveRiser p (RiserCell.mgmt kind op q).bytes =
      match kind, p with
      | .request, .L => .command (requestCommand op q)
      | .request, .H => .command (.mgmtRequestForward .H op q)
      | .reply, p => .command (.mgmtRelayDown p false op q)
      | .notice, p => .command (.mgmtRelayDown p true op q) := by
  show receiveRiser p (withCheck (mgmtBody kind op q)) = _
  rw [mgmtBody, receiveRiser_withCheck]
  cases kind <;> cases p <;> simp [-BitVec.toNat_ofNat, -BitVec.ofNat_toNat, riserCommand, MgmtKind.toByte, wordOf_bytes, spare_bytes]

/-- A cell of the call layout is read with the fields of its kind (R18). -/
theorem receiveRiser_call (p : Riser) (c : CallCell) :
    receiveRiser p (RiserCell.call c).bytes =
      riserCommand p c.kind.toByte c.key.toByte (laneByte c.lane) (BitVec.ofNat 8 (c.okind.toNat * 16 + c.cls.val))
        (hiByte c.dest) (loByte c.dest) (hiByte c.origin) (loByte c.origin) c.code 0 0 0 0 0 :=
  receiveRiser_withCheck ..

theorem okind_read (o : OriginKind) (c : Class) :
    BitVec.ofNat 2 ((BitVec.ofNat 8 (o.toNat * 16 + c.val)).toNat / 16) = BitVec.ofNat 2 o.toNat := by
  have := c.isLt
  rw [kindClass_byte, show (o.toNat * 16 + c.val) / 16 = o.toNat by omega]

theorem cls_read (o : OriginKind) (c : Class) (h : (BitVec.ofNat 8 (o.toNat * 16 + c.val)).toNat % 8 < 8) :
    (⟨(BitVec.ofNat 8 (o.toNat * 16 + c.val)).toNat % 8, h⟩ : Class) = c := by
  have := c.isLt
  have := kindClass_byte o c
  exact Fin.ext (by simp only []; omega)

theorem addr_read (lane : Option Nat) (a : Addr) (h : (floorLaneByte lane a).toNat % 32 < 32) :
    (⟨(floorLaneByte lane a).toNat % 32, h⟩ : Addr) = a := by
  have := a.isLt
  exact Fin.ext (by simp only [floorLaneByte, BitVec.toNat_ofNat]; omega)

/-- Settles O60: the check by the arithmetic of its sum, each field by the bytes that carry it. -/
theorem Machine.cellsDecodeBack : Obligations.CellsDecodeBack := by
  refine ⟨RiserCell.bytes_check, FloorCell.bytes_check, fun c p => ?call, fun op q => ?mgmt, fun c k => ?floor⟩
  case call =>
    cases p <;> refine (receiveRiser_call _ c).trans ?_ <;> cases c.kind <;>
      simp [-BitVec.toNat_ofNat, riserCommand, CallKind.toByte, Key.ofByte_toByte, okind_read, cls_read, wordOf_bytes]
  case mgmt =>
    exact ⟨receiveRiser_mgmt .L .request op q, receiveRiser_mgmt .H .request op q, receiveRiser_mgmt .H .reply op q,
      receiveRiser_mgmt .H .notice op q⟩
  case floor =>
    refine (receiveFloor_withCheck ..).trans ?_
    cases c.kind <;> simp [-BitVec.toNat_ofNat, floorCommand, FloorKind.toByte, addr_read]

end Sys2Proof
end

