-- ==== Sys2Proof/Proofs/LookupAndVictim.lean ====
section
/-! PROOFS. The handset lookup (R26) and QUIET (R123); the admission test and the choice of a victim (R54 to R57). -/

namespace Sys2Proof.Machine

variable {s : State}

/-! ## The handset lookup (R26) -/

theorem Slot.occupied_iff {x : Slot} : x.occupied = true ↔ x.number ≠ 0 := by simp [Slot.occupied]

theorem Slot.answers_iff {x : Slot} {k : Floor} {a : Addr} :
    x.answers k a = true ↔ x.number ≠ 0 ∧ x.port = k ∧ (x.main = a ∨ x.ext = some a) := by
  simp [Slot.answers, Slot.occupied, and_assoc]

/-- Of the slots of a legal directory at most one answers a lookup (R35, R36). -/
theorem Slot.answers_unique {d : Retained} (hu : d.Unique) {k : Floor} {a : Addr} {i j : SlotNo}
    (hi : d.slots[i].answers k a = true) (hj : d.slots[j].answers k a = true) : i = j := by
  by_contra hne
  rw [Slot.answers_iff] at hi hj
  obtain ⟨hni, hpi, hai⟩ := hi
  obtain ⟨hnj, hpj, haj⟩ := hj
  obtain ⟨-, hport⟩ := hu i j hne (Slot.occupied_iff.2 hni) (Slot.occupied_iff.2 hnj)
  obtain ⟨hmm, hem, hee⟩ := hport (hpi.trans hpj.symm)
  obtain ⟨-, hport'⟩ := hu j i (Ne.symm hne) (Slot.occupied_iff.2 hnj) (Slot.occupied_iff.2 hni)
  obtain ⟨-, hem', -⟩ := hport' (hpj.trans hpi.symm)
  rcases hai with hai | hai <;> rcases haj with haj | haj
  · exact hmm (hai.trans haj.symm)
  · exact hem' (by rw [haj, hai])
  · exact hem (by rw [hai, haj])
  · exact hee (by rw [hai]; rfl) (hai.trans haj.symm)

theorem Retained.handset_iff {d : Retained} (hu : d.Unique) {k : Floor} {a : Addr} {n : SlotNo} {role : Role} :
    d.handset k a = some (n, role) ↔ d.slots[n].answers k a = true ∧ d.slots[n].role a = role := by
  unfold Retained.handset
  rw [Option.map_eq_some_iff]
  constructor
  · rintro ⟨i, hi, he⟩
    cases he
    exact ⟨List.find?_some (p := fun i : SlotNo => d.slots[i].answers k a) hi, rfl⟩
  · rintro ⟨hn, hr⟩
    have hsome : (allSlots.find? fun i => d.slots[i].answers k a).isSome = true :=
      List.find?_isSome.2 ⟨n, List.mem_finRange n, hn⟩
    obtain ⟨i, hi⟩ := Option.isSome_iff_exists.1 hsome
    have hin : i = n := Slot.answers_unique hu (List.find?_some (p := fun i : SlotNo => d.slots[i].answers k a) hi) hn
    subst hin
    exact ⟨i, hi, by rw [hr]⟩

theorem Slot.role_main_iff {x : Slot} {a : Addr} :
    ((x.main = a ∨ x.ext = some a) ∧ x.role a = .main) ↔ x.main = a := by
  by_cases hm : x.main = a <;> simp [Slot.role, hm]

theorem Slot.role_extension_iff {x : Slot} (hx : x.ext ≠ some x.main) {a : Addr} :
    ((x.main = a ∨ x.ext = some a) ∧ x.role a = .extension) ↔ x.ext = some a := by
  by_cases hm : x.main = a
  · subst hm
    simp [Slot.role, hx]
  · simp [Slot.role, hm]

theorem execQuiet_high {k : Floor} {a : Addr} {level : Byte} (hp : s.powered = true) (hu : s.floorUp k = true)
    (hl : 7 < level.toNat) (hroom : s.roomL 1) : execQuiet k a level s = .next (s.withEvent .protocol) :=
  onFloor_raise hp hu hroom (dif_neg (by omega))

theorem Slot.quieted_eq (x : Slot) (v : Class) :
    x.quieted v = { x with quiet := if x.residentQuiet then min v x.quietCeiling else x.quiet } := by
  unfold Slot.quieted
  split <;> rfl

/-- Settles O40: the lookup by the uniqueness of the addresses; QUIET by its two tests. -/
theorem quietStores : Obligations.QuietStores := by
  refine ⟨fun d k a n role hl hu => ?lookup, fun s k a level hp hup => ⟨fun hv hroom => ?high, fun hv hnone => ?noFlat,
    fun n role v hv hn hroom => ?stored⟩⟩
  case lookup =>
    obtain ⟨-, -, -, hext⟩ := hl.slots n
    rw [Retained.handset_iff hu, Slot.answers_iff, and_assoc, and_assoc]
    cases role with
    | main => rw [Slot.role_main_iff]
    | extension => rw [Slot.role_extension_iff hext]
  case high => exact execQuiet_high hp hup hv hroom
  case noFlat =>
    rw [exec_quiet, execQuiet]
    exact onFloor_nothing (by rw [dif_pos (by omega)]; simp [hnone])
  case stored =>
    have hlt : level.toNat < 8 := by have := v.isLt; omega
    have hfin : (⟨level.toNat, hlt⟩ : Class) = v := Fin.ext hv
    rw [exec_quiet, execQuiet]
    have hm := ((Work.Makes.start True s).modState (f := fun t => { t with retained := { t.retained with
      slots := t.retained.slots.set n (s.retained.slots[n].quieted v) } }) rfl (fun _ _ _ => rfl) rfl rfl).sendF
      (k := k) (c := statusCell 0 a .quietSet (BitVec.ofNat 8 (s.retained.slots[n].quieted v).quiet.val)) fun _ => hroom
    have hnext := onFloor_makes (f := fun w => (w.modState fun t => { t with retained := { t.retained with
      slots := t.retained.slots.set n (s.retained.slots[n].quieted v) } }).sendF k
        (statusCell 0 a .quietSet (BitVec.ofNat 8 (s.retained.slots[n].quieted v).quiet.val))) hp hup hm (by simp)
    rw [onFloor_receives hp hup] at hnext ⊢
    rw [dif_pos hlt]
    simp only [Work.start_st, hn, hfin]
    refine hnext.trans ?_
    rw [Slot.quieted_eq]

/-! ## Admission (R54, R55) -/

theorem State.mem_freeLanes {p : Owned} {i : Nat} : i ∈ s.freeLanes p ↔ i < laneCount p ∧ s.laneState p i = .free := by
  simp [State.freeLanes, laneNumbers]

/-- The lowest FREE lane stands at the head of the FREE lanes. -/
theorem State.head_freeLanes {p : Owned} {i : Nat} (h : (s.freeLanes p).head? = some i) :
    i < laneCount p ∧ s.laneState p i = .free ∧ ∀ j < i, s.laneState p j ≠ .free := by
  obtain ⟨hi, hf⟩ := State.mem_freeLanes.1 (List.mem_of_mem_head? h)
  refine ⟨hi, hf, fun j hj hfree => ?_⟩
  have hs : (s.freeLanes p).Pairwise (· < ·) := (List.pairwise_lt_range).filter _
  have hmem : j ∈ s.freeLanes p := State.mem_freeLanes.2 ⟨hj.trans hi, hfree⟩
  cases hl : s.freeLanes p with
  | nil => rw [hl] at hmem; cases hmem
  | cons x l =>
    rw [hl] at h hs hmem
    cases h
    rcases List.mem_cons.1 hmem with rfl | hm
    · exact absurd hj (lt_irrefl _)
    · exact absurd (List.rel_of_pairwise_cons hs hm) (by omega)

theorem State.admitLane_some {p : Owned} {e i : Nat} (h : s.admitLane p e = some i) :
    s.usable p = true ∧ s.needed p e < s.freeCount p ∧ (s.freeLanes p).head? = some i := by
  unfold State.admitLane at h
  split at h
  · next hc =>
    simp only [State.admits, Bool.and_eq_true, decide_eq_true_eq] at hc
    exact ⟨hc.1, hc.2, h⟩
  · cases h

theorem State.admitLane_unusable {p : Owned} (h : s.usable p = false) (e : Nat) : s.admitLane p e = none := by
  simp [State.admitLane, h]

theorem State.admitLane_isSome {p : Owned} {e : Nat} (hu : s.usable p = true) (hn : s.needed p e < s.freeCount p) :
    (s.admitLane p e).isSome = true := by
  rw [State.admitLane, if_pos (by simp [hu, State.admits, hn]), List.isSome_head?]
  intro hnil
  rw [State.freeCount_eq_length_freeLanes, hnil] at hn
  simp at hn

/-! ## The victim (R57) -/

/-- A candidate lane, with its holder and that holder's base class (R56). -/
theorem State.candidate_iff {p : Owned} {c : Class} {i : Nat} {h : Handle} {k : Class} :
    s.candidate p c i = some (h, k) ↔
      ∃ r, s.laneState p i = .held h ∧ s.call? h = some r ∧ r.state ≠ .clearing ∧ r.cls < c ∧ r.cls = k := by
  unfold State.candidate
  constructor
  · intro hc
    split at hc
    · next u hu =>
      split at hc
      · next r hr =>
        split at hc
        · next hq =>
          cases hc
          exact ⟨r, hu, hr, hq.1, hq.2, rfl⟩
        · cases hc
      · cases hc
    · cases hc
  · rintro ⟨r, hl, hr, hc, hlt, rfl⟩
    simp [hl, hr, hc, hlt]

/-- One lane of the search for a victim, told the best candidate so far. -/
def State.better (s : State) (p : Owned) (c : Class) (best : Option ((Nat × Handle) × Class)) (i : Nat) :
    Option ((Nat × Handle) × Class) :=
  match s.candidate p c i with
  | none => best
  | some (h, k) => match best with
    | none => some ((i, h), k)
    | some (b, kb) => if k ≤ kb then some ((i, h), k) else some (b, kb)

theorem State.victim_eq (p : Owned) (c : Class) :
    s.victim p c = ((s.map p).order.foldl (s.better p c) none).map Prod.fst := rfl

/-- What the search has found among the lanes gone through: the lowest class, and the latest lane of that class. -/
structure State.BestOf (s : State) (p : Owned) (c : Class) (l : List Nat) (i : Nat) (h : Handle) (k : Class) : Prop where
  mem : i ∈ l
  cand : s.candidate p c i = some (h, k)
  best : ∀ j ∈ l, ∀ u ku, s.candidate p c j = some (u, ku) → k ≤ ku ∧ (ku = k → l.idxOf j ≤ l.idxOf i)

/-- The outcome of the search among the lanes gone through. -/
def State.BestFound (s : State) (p : Owned) (c : Class) (l : List Nat) : Option ((Nat × Handle) × Class) → Prop
  | some ((i, h), k) => s.BestOf p c l i h k
  | none => ∀ j ∈ l, s.candidate p c j = none

/-- A lane later in the order that beats the best so far is the best. -/
theorem State.BestFound.append_better {p : Owned} {c : Class} {l : List Nat} {best : Option ((Nat × Handle) × Class)}
    (hb : s.BestFound p c l best) {i : Nat} (hi : i ∉ l) : s.BestFound p c (l ++ [i]) (s.better p c best i) := by
  have hidx : ∀ j ∈ l, (l ++ [i]).idxOf j = l.idxOf j := fun j hj => List.idxOf_append_of_mem hj
  have hidx' : (l ++ [i]).idxOf i = l.length := by rw [List.idxOf_append_of_notMem hi]; simp
  have hlt : ∀ j ∈ l, (l ++ [i]).idxOf j ≤ (l ++ [i]).idxOf i := fun j hj => by
    rw [hidx j hj, hidx']; exact (List.idxOf_lt_length_iff.2 hj).le
  have hold {b : Nat} {u : Handle} {kb : Class} (hbest : s.BestOf p c l b u kb)
      (hnew : ∀ u ku, s.candidate p c i = some (u, ku) → kb < ku) : s.BestOf p c (l ++ [i]) b u kb := by
    refine ⟨List.mem_append_left _ hbest.mem, hbest.cand, fun j hj u ku hu => ?_⟩
    rcases List.mem_append.1 hj with hj | hj
    · obtain ⟨hle, hlast⟩ := hbest.best j hj u ku hu
      exact ⟨hle, fun he => by rw [hidx j hj, hidx b hbest.mem]; exact hlast he⟩
    · obtain rfl := List.mem_singleton.1 hj
      exact ⟨(hnew u ku hu).le, fun he => absurd he.le (not_le.2 (hnew u ku hu))⟩
  have hnew {h : Handle} {k : Class} (hc : s.candidate p c i = some (h, k))
      (hle : ∀ j ∈ l, ∀ u ku, s.candidate p c j = some (u, ku) → k ≤ ku) : s.BestOf p c (l ++ [i]) i h k := by
    refine ⟨by simp, hc, fun j hj u ku hu => ?_⟩
    rcases List.mem_append.1 hj with hj | hj
    · exact ⟨hle j hj u ku hu, fun _ => hlt j hj⟩
    · obtain rfl := List.mem_singleton.1 hj
      cases hc.symm.trans hu
      exact ⟨le_rfl, fun _ => le_rfl⟩
  unfold State.better
  split
  · next hc =>
    match best, hb with
    | some ((b, u), kb), hb => exact hold hb fun u ku hu => by rw [hc] at hu; cases hu
    | none, hb =>
      intro j hj
      rcases List.mem_append.1 hj with hj | hj
      · exact hb j hj
      · rw [List.mem_singleton.1 hj, hc]
  · next h k hc =>
    match best, hb with
    | none, hb => exact hnew hc fun j hj u ku hu => by rw [hb j hj] at hu; cases hu
    | some ((b, u), kb), hb =>
      dsimp only
      split
      · next hle => exact hnew hc fun j hj u ku hu => hle.trans (hb.best j hj u ku hu).1
      · next hgt => exact hold hb fun u ku hu => by rw [hc] at hu; cases hu; exact not_le.1 hgt

/-- The search through the lanes finds the best candidate of them, if there is one. -/
theorem State.foldl_better (p : Owned) (c : Class) (l : List Nat) (hl : l.Nodup) :
    s.BestFound p c l (l.foldl (s.better p c) none) := by
  induction l using List.reverseRecOn with
  | nil => exact fun j hj => nomatch hj
  | append_singleton l i ih =>
    obtain ⟨hnd, -, hdis⟩ := List.nodup_append.1 hl
    rw [List.foldl_append]
    exact (ih hnd).append_better fun hm => hdis i hm i (by simp) rfl

/-- The victim is the best candidate of the port's HELD lanes (R57). -/
theorem State.victim_best {p : Owned} {c : Class} {i : Nat} {v : Handle} (hn : (s.map p).order.Nodup)
    (hv : s.victim p c = some (i, v)) : ∃ k, s.BestOf p c (s.map p).order i v k := by
  rw [State.victim_eq, Option.map_eq_some_iff] at hv
  obtain ⟨⟨x, k⟩, hx, rfl⟩ := hv
  have := s.foldl_better p c _ hn
  rw [hx] at this
  exact ⟨k, this⟩

/-- A search that has found a candidate keeps one. -/
theorem State.foldl_better_isSome (p : Owned) (c : Class) (l : List Nat) {b : Option ((Nat × Handle) × Class)}
    (hb : b.isSome = true) : (l.foldl (s.better p c) b).isSome = true := by
  induction l generalizing b with
  | nil => exact hb
  | cons i l ih =>
    refine ih ?_
    obtain ⟨⟨x, k⟩, rfl⟩ := Option.isSome_iff_exists.1 hb
    unfold State.better
    split
    · rfl
    · dsimp only
      split <;> rfl

theorem State.victim_isSome {p : Owned} {c : Class} {j : Nat} (hj : j ∈ (s.map p).order) {x : Handle × Class}
    (hc : s.candidate p c j = some x) : (s.victim p c).isSome = true := by
  rw [State.victim_eq, Option.isSome_map]
  obtain ⟨l, l', hl⟩ := List.append_of_mem hj
  rw [hl, List.foldl_append, List.foldl_cons]
  refine State.foldl_better_isSome p c l' ?_
  unfold State.better
  rw [hc]
  dsimp only
  split
  · rfl
  · split <;> rfl

/-- The preemption test of R56 with its victim. -/
theorem State.preemption_iff {p : Owned} {c : Class} {x : Nat × Handle} : s.preemption p c = some x ↔
    (s.settings p).threshold ≤ c.val ∧ s.needed p (effPriority c 0) < s.freeCount p + 1 ∧ s.victim p c = some x := by
  unfold State.preemption
  split
  · next h => exact ⟨fun hv => ⟨h.1, h.2, hv⟩, fun hv => hv.2.2⟩
  · next h => exact ⟨fun hv => absurd hv (by simp), fun ⟨ht, hn, _⟩ => absurd ⟨ht, hn⟩ h⟩

/-- Settles O46: the admission test as written, and the search for the victim lane by lane. -/
theorem admissionAndVictim : Obligations.AdmissionAndVictim := by
  refine ⟨fun s p e => ⟨fun i hi => ?taken, State.admitLane_isSome, fun hu => State.admitLane_unusable hu e⟩,
    fun s p c i v hn hv => ?victim, fun s p c j u ru hj hl hr hc hlt => ?some, fun s p c x => State.preemption_iff⟩
  case taken =>
    obtain ⟨hu, hn, hh⟩ := State.admitLane_some hi
    obtain ⟨hlt, hf, hlow⟩ := State.head_freeLanes hh
    exact ⟨hu, hn, hf, hlt, hlow⟩
  case victim =>
    obtain ⟨k, hb⟩ := State.victim_best hn hv
    obtain ⟨rv, hl, hr, hc, hlt, rfl⟩ := State.candidate_iff.1 hb.cand
    refine ⟨rv, hl, hr, hc, hlt, fun j hj u ru hju hru hcu hltu => ?_⟩
    exact hb.best j hj u ru.cls (State.candidate_iff.2 ⟨ru, hju, hru, hcu, hltu, rfl⟩)
  case some =>
    exact State.victim_isSome hj (State.candidate_iff.2 ⟨ru, hl, hr, hc, hlt, rfl⟩)

end Sys2Proof.Machine
end

