-- ==== Sys2Proof/Proofs/Requests.lean ====
section
/-! PROOFS. Requests: which switch takes one (R176), the lock (R180), the service state (R181), READ (R178). -/

namespace Sys2Proof.Machine

variable {s : State}

/-! ## A request that this switch takes -/

/-- A request of an operation that begins no run of the arbiter. -/
theorem onRequest_makes {op : MgmtOp} {q : Request} {f : Work → Work} {u : State} (ht : s.takes q)
    (h : (f (Work.start s)).Makes True u) (hn : (f (Work.start s)).runs = []) : onRequest s op q f = .next u := by
  rw [onRequest_takes ht, h.finish hn]

/-- A request that is answered without a change. -/
theorem onRequest_reply {op : MgmtOp} {q : Request} {f : Work → Work} {r : Result} {v : Nat} (ht : s.takes q)
    (hroom : s.roomL 1) (hf : f (Work.start s) = (Work.start s).reply op q r v) :
    onRequest s op q f = .next (s.replied op q r v) :=
  onRequest_makes ht (by rw [hf]; exact (Work.Makes.start True s).reply op q r v fun _ => hroom) (by simp [hf])

theorem Work.ifUnlocked_unlocked {w : Work} {op : MgmtOp} {q : Request} {k : Work → Work} (h : w.st.locked = false) :
    w.ifUnlocked op q k = k w := by simp [Work.ifUnlocked, h]

/-- While the table lock is set, an operation that it refuses is answered LOCKED (R177, R180). -/
theorem onRequest_locked {op : MgmtOp} {q : Request} {f k : Work → Work} (ht : s.takes q) (hroom : s.roomL 2)
    (hop : lockable op = true) (hl : s.locked = true) (hf : f (Work.start s) = (Work.start s).ifUnlocked op q k) :
    onRequest s op q f = .next ((s.withEvent .writeRefusedLocked).replied op q .locked 0) := by
  have hif : (Work.start s).ifUnlocked op q k = ((Work.start s).raise .writeRefusedLocked).reply op q .locked 0 := by
    simp [Work.ifUnlocked, hop, hl]
  have hm := ((Work.Makes.start True s).raise (e := .writeRefusedLocked) (fun _ => ⟨rfl, rfl⟩)
    fun _ => hroom.mono (by omega)).reply op q .locked 0 fun _ => State.roomL_withEvent hroom
  exact onRequest_makes ht (by rw [hf, hif]; exact hm) (by simp [hf, hif])

/-! ## The service state and the lock (R180, R181) -/

theorem Work.Makes.modRetained {R : Prop} {w : Work} {u : State} (h : w.Makes R u) {f : Retained → Retained}
    (hm : (f w.st.retained).masks = w.st.retained.masks) :
    (w.modRetained f).Makes R (u.storing (f u.retained)) :=
  h.modState (f := fun s => { s with retained := f s.retained })
    (by have := State.bare_retained h.bare
        exact congrArg (fun x : State => ({ x with retained := f x.retained } : State)) h.bare)
    (fun _ _ _ => rfl) rfl hm

@[simp] theorem Work.modRetained_runs (w : Work) (f : Retained → Retained) : (w.modRetained f).runs = w.runs := rfl

/-- An operation on a port that the index names. -/
theorem Port.ofNumber_isSome {n : Nat} (h : n ≤ 9) : ∃ p, Port.ofNumber n = some p := by
  interval_cases n <;> exact ⟨_, rfl⟩

theorem Port.ofNumber_none {n : Nat} (h : 9 < n) : Port.ofNumber n = none := by
  match n, h with
  | n + 2, h => exact dif_neg (by omega)

theorem Work.portOp_port {w : Work} {op : MgmtOp} {q : Request} {k : Work → Port → Work} {p : Port}
    (hp : Port.ofNumber q.index.toNat = some p) : w.portOp op q k = w.ifUnlocked op q fun w => k w p := by
  simp [Work.portOp, hp]

theorem Work.portOp_none {w : Work} {op : MgmtOp} {q : Request} {k : Work → Port → Work}
    (hp : 9 < q.index.toNat) : w.portOp op q k = w.reply op q .noItem 0 := by
  simp [Work.portOp, Port.ofNumber_none hp]

/-- A WRITE, and an UPDATE, of a field (R177). -/
theorem Work.writeOp_field {w : Work} {q : Request} {f : FieldRef}
    (hf : fieldRef q.item.toNat q.field.toNat q.index.toNat = some f) :
    w.writeOp q = w.ifUnlocked .write q fun w =>
      ((w.writeField f q.value.toNat).1.reply .write q (w.writeField f q.value.toNat).2
        ((w.writeField f q.value.toNat).1.st.presentValue f)).drawFree := by
  rw [Work.writeOp, hf]

theorem Work.updateOp_field {w : Work} {q : Request} {f : FieldRef}
    (hf : fieldRef q.item.toNat q.field.toNat q.index.toNat = some f) :
    w.updateOp q = w.ifUnlocked .update q fun w =>
      if !f.readOnly && w.st.presentValue f ≠ q.expected.toNat then
        w.reply .update q .compareFailed (w.st.presentValue f)
      else ((w.writeField f q.value.toNat).1.reply .update q (w.writeField f q.value.toNat).2
        (w.st.presentValue f)).drawFree := by
  rw [Work.updateOp, hf]

/-- Settles O58: SET_SERVICE by its value, LOCK as it stands, and each operation of the lock by its test. -/
theorem serviceAndLock : Obligations.ServiceAndLock := by
  intro s q ht hroom
  have hroom1 : s.roomL 1 := hroom.mono (by omega)
  refine ⟨fun hl => ⟨fun hv => ?inService, fun hv => ?outOfService, fun hv => ?bad⟩, ?lock,
    fun hl => ⟨?service, fun hf => ?items, fun hi => ?ports⟩⟩
  case inService =>
    rw [exec_setService, execSetService]
    refine onRequest_makes ht ?_ ?_ <;> rw [Work.setServiceOp, Work.ifUnlocked_unlocked hl, hv]
    · exact ((Work.Makes.start True s).modRetained rfl).reply _ _ _ _ fun _ => hroom1
    · simp
  case outOfService =>
    rw [exec_setService, execSetService]
    refine onRequest_makes ht ?_ ?_ <;> rw [Work.setServiceOp, Work.ifUnlocked_unlocked hl, hv]
    · exact ((Work.Makes.start True s).modRetained rfl).reply _ _ _ _ fun _ => hroom1
    · simp
  case bad =>
    rw [exec_setService, execSetService]
    refine onRequest_reply ht hroom1 ?_
    rw [Work.setServiceOp, Work.ifUnlocked_unlocked hl]
    split
    · omega
    · omega
    · rfl
  case lock =>
    rw [exec_lock, execLock]
    exact onRequest_makes ht (((Work.Makes.start True s).modState (f := fun s => { s with locked := true }) rfl
      (fun _ _ _ => rfl) rfl rfl).reply _ _ _ _ fun _ => hroom1) (by simp [Work.lockOp])
  case service =>
    rw [exec_setService, execSetService]
    exact onRequest_locked ht hroom rfl hl rfl
  case items =>
    obtain ⟨f, hf⟩ := Option.isSome_iff_exists.1 hf
    rw [exec_write, execWrite, exec_update, execUpdate]
    refine ⟨onRequest_locked ht hroom rfl hl (Work.writeOp_field hf),
      onRequest_locked ht hroom rfl hl (Work.updateOp_field hf)⟩
  case ports =>
    obtain ⟨p, hp⟩ := Port.ofNumber_isSome hi
    rw [exec_laneOut, execLaneOut, exec_laneIn, execLaneIn, exec_portDisable, execPortDisable, exec_portEnable,
      execPortEnable]
    exact ⟨onRequest_locked ht hroom rfl hl (Work.portOp_port hp), onRequest_locked ht hroom rfl hl (Work.portOp_port hp),
      onRequest_locked ht hroom rfl hl (Work.portOp_port hp), onRequest_locked ht hroom rfl hl (Work.portOp_port hp)⟩

/-! ## Reaching a node (R176) -/

/-- An operation byte that names an operation is that operation's code (R19). -/
theorem MgmtOp.toByte_of_ofByte {b : Byte} {o : MgmtOp} (h : MgmtOp.ofByte b = some o) : o.toByte = b := by
  have hlt : b.toNat - 1 < 12 := by
    unfold MgmtOp.ofByte at h
    split at h
    · cases h
    · exact (List.getElem?_eq_some_iff.1 h).1
  have hb : b = BitVec.ofNat 8 b.toNat := by simp
  have hle : b.toNat ≤ 12 := by omega
  rw [hb] at h ⊢
  generalize b.toNat = n at h hle
  interval_cases n <;> cases h <;> rfl

/-- The command of a request's operation byte, on port L, is the request's one event (R176). -/
theorem exec_requestCommand (op : Byte) (q : Request) (s : State) :
    exec (requestCommand op q) s = exec (.mgmtRequestForward .L op q) s := by
  rw [exec_mgmtRequestForward, execMgmtRequestForward, onlyFromBelow, requestCommand]
  cases ho : MgmtOp.ofByte op with
  | none =>
    rw [exec_mgmtRequestForward, execMgmtRequestForward, onlyFromBelow, ho]
  | some o =>
    have hb := MgmtOp.toByte_of_ofByte ho
    have hreq (f : Work → Work) : onRequest s o q f = onRiser s .L fun w =>
        if 15 < q.node.toNat then w.raise .mgmtError
        else if w.st.isMine q.node then f w else w.forwardRequest op q := by rw [onRequest, hb]
    cases o <;>
      simp only [exec_read, exec_write, exec_update, exec_clearEvents, exec_setMasks, exec_laneOut, exec_laneIn,
        exec_portDisable, exec_portEnable, exec_setService, exec_lock, exec_reset, execRead, execWrite, execUpdate,
        execClearEvents, execSetMasks, execLaneOut, execLaneIn, execPortDisable, execPortEnable, execSetService,
        execLock, execReset, hreq, Work.serve, onRiser, event, Option.some.injEq, reduceCtorEq, and_false, and_true,
        if_false, if_true]

/-- A request on port L is not the RESET of a switch whose queue is full, unless this switch takes it (R185). -/
theorem State.resetAtOnce_notMine {q : Request} (hn : s.isMine q.node = false) (t : State) : s.resetAtOnce q t = t :=
  if_neg (by simp [hn])

theorem State.isMine_iff {b : Byte} : s.isMine b = true ↔ b.toNat = s.node.val ∧ s.node.val ≠ 0 := by
  simp [State.isMine]

/-- A request of a named operation for another node is forwarded up port H (R176). -/
theorem exec_forwarded {op : Byte} {q : Request} {u : State} (hp : s.powered = true) (hu : s.receives .L = true)
    (hnode : q.node.toNat ≤ 15) (hop : (MgmtOp.ofByte op).isSome = true)
    (hother : q.node.toNat ≠ s.node.val ∨ s.node.val = 0)
    (hm : ((Work.start s).forwardRequest op q).finish = u) :
    exec (.mgmtRequestForward .L op q) s = .next u := by
  obtain ⟨o, ho⟩ := Option.isSome_iff_exists.1 hop
  have hmine : s.isMine q.node = false := by
    rw [← Bool.not_eq_true, State.isMine_iff]
    omega
  rw [exec_mgmtRequestForward, execMgmtRequestForward, onlyFromBelow, onRiser_receives hp hu]
  simp [ho, if_neg (show ¬ 15 < q.node.toNat by omega), hmine, hm, State.resetAtOnce_notMine hmine]

/-- Settles O50: the forwarding by its tests, the relay as it stands, and each on its wrong port. -/
theorem mgmtReaches : Obligations.MgmtReaches := by
  refine ⟨fun s op q => exec_requestCommand op q s, fun s op q hp hu => ⟨fun hbad hroom => ?malformed,
    fun hn hop ho hroom => ?forward, fun hn hop ho htop hup hfull hroom => ?overflow⟩,
    fun s op q notice hp hu hup hfull => ?relayFull, fun s op q notice hp hroom => ⟨fun hu => ⟨?requestH, ?relay⟩,
    fun hu => ?relayL⟩⟩
  case malformed =>
    have hfin : ((Work.start s).raise .mgmtError).finish = s.withEvent .mgmtError :=
      ((Work.Makes.start True s).raise (fun _ => ⟨rfl, rfl⟩) fun _ => hroom).finish rfl
    rw [exec_mgmtRequestForward, execMgmtRequestForward, onlyFromBelow, onRiser_receives hp hu]
    cases ho : MgmtOp.ofByte op with
    | none => simp [hfin]
    | some o =>
      have hn : 15 < q.node.toNat := hbad.resolve_right (by simp [ho])
      have hmine : s.isMine q.node = false := by
        rw [← Bool.not_eq_true, State.isMine_iff]
        have := s.node.isLt
        omega
      simp [hn, hfin, State.resetAtOnce_notMine hmine]
  case forward =>
    refine exec_forwarded hp hu hn hop ho ?_
    rw [Work.forwardRequest, Work.start_st]
    by_cases htop : s.top = true
    · rw [if_pos htop, if_pos htop]
      exact Work.finish_start s
    · rw [if_neg htop, if_neg htop]
      exact ((Work.Makes.start True s).sendH fun _ => hroom).finish (by simp)
  case overflow =>
    refine exec_forwarded hp hu hn hop ho ?_
    have hd : Config.queueDepth = 16 := rfl
    have hf : (Work.start s).forwardRequest op q = (Work.start s).raise .txOverflow := by
      rw [Work.forwardRequest, if_neg (by simp [htop]), Work.sendH, Work.start_st, if_pos hup, if_neg (by omega)]
    rw [hf]
    exact ((Work.Makes.start True s).raise (fun _ => ⟨rfl, rfl⟩) fun _ => hroom).finish rfl
  case relayFull =>
    have hd : Config.queueDepth - s.portL.queue.length = 0 := by
      have : Config.queueDepth = 16 := rfl
      omega
    rw [exec_mgmtRelayDown, execMgmtRelayDown, onRiser_receives hp hu]
    have hr (c : RiserCell) : (Work.start s).sendL c = { Work.start s with outL := [c] } := by
      simp [Work.sendL, hup]
    dsimp only
    rw [hr, Work.finish, Work.runArbiter_noRuns rfl, Work.flush]
    simp [hup, State.raisedAtEnd, State.placeL, hd, EventSets.union_add_empty]
  case requestH =>
    rw [exec_mgmtRequestForward, execMgmtRequestForward]
    have hf := onRiser_raise (f := fun w => w.raise .mgmtError) hp hu hroom rfl
    rw [onlyFromBelow, hf]
    simp
  case relay =>
    rw [exec_mgmtRelayDown, execMgmtRelayDown]
    exact onRiser_makes hp hu ((Work.Makes.start True s).sendL fun _ => hroom) (by simp)
  case relayL =>
    rw [exec_mgmtRelayDown, execMgmtRelayDown]
    exact onRiser_raise hp hu hroom rfl

end Sys2Proof.Machine
end

