-- ==== Sys2Proof/Proofs/ReadReplies.lean ====
section
/-! PROOFS. READ and the codes of what it reads (R177, R178). -/

namespace Sys2Proof.Machine

variable {s : State}

/-! ## READ -/

theorem Work.Makes.drawFree {R : Prop} {w : Work} {u : State} (h : w.Makes R u) :
    w.drawFree.Makes R { u with freeIndex := u.freeIndex + 1 } :=
  h.modState (f := fun s => { s with freeIndex := s.freeIndex + 1 })
    (congrArg (fun s : State => ({ s with freeIndex := s.freeIndex + 1 } : State)) h.bare) (fun _ _ _ => rfl) rfl rfl

@[simp] theorem Work.drawFree_runs (w : Work) : w.drawFree.runs = w.runs := rfl

@[simp] theorem State.replied_freeIndex (op : MgmtOp) (q : Request) (r : Result) (v : Nat) :
    (s.replied op q r v).freeIndex = s.freeIndex := by simp [State.replied]

/-- A reply at which the model counts on its free values. -/
theorem Work.Makes.replyFree {R : Prop} {w : Work} {u : State} (h : w.Makes R u) (op : MgmtOp) (q : Request) (r : Result)
    (v : Nat) (hroom : R → u.roomL 1) : (w.reply op q r v).drawFree.Makes R (u.repliedFree op q r v) := by
  have := (h.reply op q r v hroom).drawFree
  rwa [State.replied_freeIndex] at this

theorem exec_read_noItem {q : Request} (ht : s.takes q) (hroom : s.roomL 1)
    (h : (fieldRef q.item.toNat q.field.toNat q.index.toNat).bind s.readField = none) :
    exec (.read q) s = .next (s.replied .read q .noItem 0) := by
  rw [exec_read, execRead]
  refine onRequest_reply ht hroom ?_
  rw [Work.readOp]
  split
  · rfl
  · next f hf =>
    rw [hf, Option.bind_some] at h
    rw [Work.start_st, h]

theorem exec_read_value {q : Request} {f : FieldRef} {v : Nat} (ht : s.takes q) (hroom : s.roomL 1)
    (hf : fieldRef q.item.toNat q.field.toNat q.index.toNat = some f) (hv : s.readField f = some v) :
    exec (.read q) s = .next (s.repliedFree .read q .done v) := by
  rw [exec_read, execRead]
  refine onRequest_makes ht ?_ ?_ <;> rw [Work.readOp, hf] <;> simp only [Work.start_st, hv]
  · exact (Work.Makes.start True s).replyFree _ _ _ _ fun _ => hroom
  · simp

/-! ## Values (R178) -/

theorem Bool.toNat_eq_ite (b : Bool) : b.toNat = if b then 1 else 0 := by cases b <;> rfl

theorem entryValue_some (e : OfferEntry) : entryValue (some e) = e.addr.val * 256 + (match e.state with
    | .sent => 0 | .alerting => 4 | .refused => 8 | .absent => 12 | .answered => 16) + e.retries := by
  cases he : e.state <;> simp [entryValue, he]

/-- A field of a live record. -/
theorem State.readField_call {h : Handle} {r : CallRecord} (hr : s.call? h = some r) (f : Fin 21) :
    s.readField (.call h f) = some (r.read f.val s.freeValue) := by
  simp [State.readField, hr]

/-- The codes of a live record's fields (R178). -/
theorem State.reads_call {h : Handle} {r : CallRecord} (hr : s.call? h = some r) {f : Fin 21} {v : Nat}
    (hv : r.read f.val s.freeValue = v) : s.readField (.call h f) = some v := by
  rw [State.readField_call hr, hv]

/-- An offer entry's field of a live record: the entry's code where it exists (R178). -/
theorem CallRecord.read_entry {r : CallRecord} {f : FloorSide} {e : OfferEntry} {i free : Nat} (hi : i < 2)
    (hf : r.far.floor? = some f) (he : f.entries[i]? = some e) : r.read (14 + i) free = entryValue (some e) := by
  interval_cases i <;> simp [CallRecord.read, hf, he]

theorem CallRecord.read_noEntry {r : CallRecord} {i free : Nat} (hi : i < 2)
    (h : ∀ f, r.far.floor? = some f → f.entries[i]? = none) : r.read (14 + i) free = 65535 := by
  have hn : (r.far.floor?.bind fun f => f.entries[i]?) = none := by
    cases hf : r.far.floor? with
    | none => rfl
    | some f => exact h f hf
  interval_cases i <;> simp only [CallRecord.read, hn] <;> rfl

/-- Settles O51: a READ by the field it names, and each coded field by its own table. -/
theorem readReplies : Obligations.ReadReplies := by
  refine ⟨fun s q ht hroom => ⟨fun hf => ?noField, fun f hf => ⟨fun hv => ?noEntry, fun v hv => ?value⟩⟩,
    fun s h r hr => ?record, fun s p i => ⟨?lane, rfl, rfl⟩, fun s l => ?mirror, fun s n => ?activity,
    fun s n x r m hx hr hm => ?wait, fun s k => ?interface⟩
  case noField => exact exec_read_noItem ht hroom (by rw [hf]; rfl)
  case noEntry => exact exec_read_noItem ht hroom (by rw [hf]; exact hv)
  case value => exact exec_read_value ht hroom hf hv
  case record =>
    refine ⟨State.reads_call hr ?state, State.reads_call hr ?dir, State.reads_call hr rfl, State.reads_call hr ?kind,
      State.reads_call hr rfl, State.reads_call hr ?low, State.reads_call hr ?lLane, State.reads_call hr ?heldBelow,
      State.reads_call hr ?far, State.reads_call hr ?high, State.reads_call hr rfl, State.reads_call hr ?answering,
      fun f hf => ⟨State.reads_call hr ?pre, fun e _ => ⟨fun he => State.reads_call hr ?first,
        fun he => State.reads_call hr ?second⟩⟩, fun hn => State.reads_call hr ?noFirst,
      fun hn => State.reads_call hr ?noSecond, fun hn => State.reads_call hr ?noTimer,
      fun m hm => ⟨State.reads_call hr ?left, State.reads_call hr ?purpose⟩, State.reads_call hr ?talk,
      State.reads_call hr ?cause, fun hc => State.reads_call hr ?awaiting, fun hc => State.reads_call hr ?notAwaiting⟩
    case state => show r.state.code = _; cases r.state <;> rfl
    case dir =>
      show (match r.dir with | .up => 0 | .down => 1) = _
      cases r.dir <;> rfl
    case kind => show r.origin.kind.toNat = _; cases r.origin <;> rfl
    case low | high =>
      show keyValue _ = _
      beta_reduce
      split
      · next k hk => rw [hk]; cases hs : k.side <;> simp [keyValue, hs]
      · next hk => rw [hk]; rfl
    case lLane => show (r.lLane.map Fin.val).getD 255 = _; cases r.lLane <;> rfl
    case heldBelow => exact Bool.toNat_eq_ite _
    case far =>
      show (match r.far with | .none => 0 | .floor _ => 1 | .high _ => 2) = _
      cases r.far <;> rfl
    case answering => show addrCode r.answering = _; cases r.answering <;> rfl
    case pre =>
      show ((r.far.floor?.map FloorSide.preAnswered).getD false).toNat = _
      rw [hf]
      exact Bool.toNat_eq_ite _
    case first => exact (CallRecord.read_entry (i := 0) (by omega) hf he).trans (entryValue_some e)
    case second => exact (CallRecord.read_entry (i := 1) (by omega) hf he).trans (entryValue_some e)
    case noFirst => exact CallRecord.read_noEntry (i := 0) (by omega) hn
    case noSecond => exact CallRecord.read_noEntry (i := 1) (by omega) hn
    case noTimer => show purposeCode r.timer = 0; rw [hn]; rfl
    case left => show (r.timer.map Timer.left).getD _ = _; rw [hm]; rfl
    case purpose =>
      show purposeCode r.timer = _
      rw [hm]
      obtain ⟨purpose, left, near⟩ := m
      cases purpose <;> rfl
    case talk => exact Bool.toNat_eq_ite _
    case cause =>
      show (r.pendingCause.map fun c => c.toByte.toNat).getD 255 = _
      cases r.pendingCause <;> rfl
    case awaiting =>
      show r.awaiting = _
      rw [CallRecord.awaiting, if_pos hc]
      cases (r.openKey .L).isSome <;> cases (r.openKey .H).isSome <;> rfl
    case notAwaiting => exact if_neg hc
  case lane => show some (s.laneState p i).value = _; cases s.laneState p i <;> rfl
  case mirror => show some ((s.mirror[l].map Fin.val).getD 255) = _; cases s.mirror[l] <;> rfl
  case activity => show some s.activity[n].value = _; cases s.activity[n] <;> rfl
  case wait =>
    have hread (f : Fin 7) : s.readField (.wait n f) = some (s.readWait x f.val) := by simp [State.readField, hx]
    simp only [hread]
    refine ⟨rfl, ?_, ?_, ?_, rfl, ?_, ?_⟩
    · cases hst : r.state <;> simp [State.readWait, hr, hst]
    · cases hp : x.port <;> simp [State.readWait, hp, Owned.port, Port.number]
    · simp [State.readWait, hr]
    · simp [State.readWait, State.entryPriority, hr]
    · simp [State.readWait, hr, hm]
  case interface =>
    refine ⟨?_, ?_, congrArg some (Bool.toNat_eq_ite _), congrArg some (Bool.toNat_eq_ite _), rfl, rfl, rfl, rfl, ?_,
      congrArg some (Bool.toNat_eq_ite _), rfl, congrArg some (Bool.toNat_eq_ite _)⟩
    · cases hl : s.portL.link <;> simp [State.readField, State.readInterface, hl]
    · cases hl : s.portH.link <;> simp [State.readField, State.readInterface, hl]
    · cases hl : s.floors[k].line <;> simp only [State.readField, State.readInterface, hl] <;> rfl

end Sys2Proof.Machine
end

