-- ==== Sys2Proof/Proofs/EventSets.lean ====
section
/-! PROOFS. CLEAR_EVENTS and SET_MASKS (R182, R183). -/

namespace Sys2Proof.Machine

variable {s : State}

/-! ## The causes that can be present (R183) -/

theorem State.causePresent_iff (e : Event) : s.causePresent e = true ↔
    (e = .fireLocal ∧ s.localSource = true) ∨ (e = .fireLine ∧ s.lineSource = true) ∨
    (e = .linkLDown ∧ s.portL.link = .down ∧ s.portL.downMark = true) ∨
    (e = .linkHDown ∧ s.portH.link = .down ∧ s.portH.downMark = true) ∨
    (e = .floorFault ∧ ∃ k : Floor, s.floors[k].line = .fault ∧ s.floors[k].faultMark = true) := by
  cases e with
  | floorFault =>
    simp only [State.causePresent, List.any_eq_true, Bool.and_eq_true, beq_iff_eq, reduceCtorEq, false_and, true_and,
      false_or, Vector.mem_toList_iff]
    constructor
    · rintro ⟨p, hp, h⟩
      obtain ⟨i, hi, rfl⟩ := Vector.getElem_of_mem hp
      exact ⟨⟨i, hi⟩, h⟩
    · rintro ⟨k, h⟩
      exact ⟨s.floors[k], Vector.getElem_mem _, h⟩
  | _ => simp [State.causePresent]

/-! ## Words of one group -/

@[simp] theorem EventSets.get_set_self (e : EventSets) (g : Group) (v : Word) : (e.set g v).get g = v := by cases g <;> rfl

theorem EventSets.get_set_ne (e : EventSets) {g g' : Group} (v : Word) (h : g' ≠ g) : (e.set g v).get g' = e.get g' := by
  cases g <;> cases g' <;> simp_all [EventSets.set, EventSets.get]

theorem EventSets.set_set (e : EventSets) (g : Group) (v w : Word) : (e.set g v).set g w = e.set g w := by cases g <;> rfl

theorem EventSets.ext_get {e f : EventSets} (h : ∀ g, e.get g = f.get g) : e = f := by
  cases e; cases f
  have hs := h .system
  have hc := h .call
  have hl := h .line
  simp only [EventSets.get] at hs hc hl
  rw [hs, hc, hl]

/-- An event of the group adds its mask to the group's word alone. -/
theorem EventSets.set_add (e : EventSets) {g : Group} {x : Event} (hx : x.group = g) (v : Word) :
    (e.set g v).add x = e.set g (v ||| x.mask) := by
  subst hx
  rw [EventSets.add, EventSets.get_set_self, EventSets.set_set]

theorem allGroups_filter {P : Group → Bool} {g : Group} (h : ∀ g', g' ≠ g → P g' = false) :
    allGroups.filter P = if P g then [g] else [] := by
  cases g <;> simp [allGroups, List.filter_cons, h]

/-- The notices of bits of one group: one, where a bit that was clear is not masked (R182). -/
theorem State.notices_group (g : Group) (v : Word) (f : EventSets) :
    s.notices (EventSets.empty.set g v) f =
      if v &&& ~~~(s.status.get g) &&& ~~~(s.retained.masks.get g) = 0 then []
      else [noticeCell s.node g ((s.status.union f).get g)] := by
  rw [State.notices, allGroups_filter (g := g) fun g' hg => by simp [EventSets.get_set_ne _ _ hg],
    EventSets.get_set_self]
  by_cases h : v &&& ~~~(s.status.get g) &&& ~~~(s.retained.masks.get g) = 0
  · rw [if_pos h, if_neg (by simp [h])]
    rfl
  · rw [if_neg h, if_pos (by simpa using h)]
    rfl

/-! ## CLEAR_EVENTS -/

/-- The bits of a group that are set again: those named whose cause is present (R183). -/
def State.lasting (s : State) (g : Group) (named : Word) (l : List Event) : Word :=
  (l.filter fun e => e.group = g ∧ named &&& e.mask ≠ 0 ∧ s.causePresent e = true).foldl (fun w e => w ||| e.mask) 0

theorem or_and_ne_zero (a b m : Word) : (a ||| b) &&& m ≠ 0 ↔ a &&& m ≠ 0 ∨ b &&& m ≠ 0 := by
  rw [BitVec.and_or_distrib_right, ne_eq, ne_eq, ne_eq, ← not_and_or]
  exact not_congr BitVec.or_eq_zero_iff

/-- Events of one group have bits of their own (R19). -/
theorem Event.mask_and_mask {e x : Event} (h : e.group = x.group) : e.mask &&& x.mask ≠ 0 ↔ e = x := by
  revert h
  cases e <;> cases x <;> decide

theorem foldl_mask (l : List Event) (v : Word) :
    l.foldl (fun w e => w ||| e.mask) v = v ||| l.foldl (fun w e => w ||| e.mask) 0 := by
  induction l generalizing v with
  | nil => simp
  | cons e l ih => simp only [List.foldl_cons]; rw [ih, ih (0 ||| e.mask)]; simp [BitVec.or_assoc]

theorem State.lasting_nil (g : Group) (named : Word) : s.lasting g named [] = 0 := rfl

theorem State.lasting_cons (g : Group) (named : Word) (e : Event) (l : List Event) :
    s.lasting g named (e :: l) =
      (if e.group = g ∧ named &&& e.mask ≠ 0 ∧ s.causePresent e = true then e.mask else 0) ||| s.lasting g named l := by
  unfold State.lasting
  rw [List.filter_cons]
  by_cases h : e.group = g ∧ named &&& e.mask ≠ 0 ∧ s.causePresent e = true
  · rw [if_pos (by simpa using h), if_pos h, List.foldl_cons, foldl_mask]
    simp
  · rw [if_neg (by simpa using h), if_neg h]
    simp

/-- A bit of a group is set again where it is named and its cause is present (R183). -/
theorem State.lasting_mask {g : Group} {named : Word} {e : Event} (he : e.group = g) (l : List Event) :
    s.lasting g named l &&& e.mask ≠ 0 ↔ e ∈ l ∧ named &&& e.mask ≠ 0 ∧ s.causePresent e = true := by
  induction l with
  | nil => simp [State.lasting_nil]
  | cons x l ih =>
    rw [State.lasting_cons, or_and_ne_zero, ih, List.mem_cons]
    by_cases h : x.group = g ∧ named &&& x.mask ≠ 0 ∧ s.causePresent x = true
    · rw [if_pos h, Event.mask_and_mask (h.1.trans he.symm)]
      constructor
      · rintro (rfl | ⟨hm, hc⟩)
        · exact ⟨.inl rfl, h.2⟩
        · exact ⟨.inr hm, hc⟩
      · rintro ⟨rfl | hm, hc⟩
        · exact .inl rfl
        · exact .inr ⟨hm, hc⟩
    · rw [if_neg h]
      constructor
      · rintro (h0 | ⟨hm, hc⟩)
        · simp at h0
        · exact ⟨.inr hm, hc⟩
      · rintro ⟨rfl | hm, hc⟩
        · exact absurd ⟨he, hc⟩ h
        · exact .inr ⟨hm, hc⟩

/-- An event's bit that a word names is all of it in the word. -/
theorem Event.mask_and_of_ne {e : Event} {named : Word} (h : named &&& e.mask ≠ 0) : e.mask &&& named = e.mask := by
  obtain ⟨i, hi⟩ := e.mask_twoPow
  rw [hi, BitVec.and_twoPow] at h
  rw [hi, BitVec.and_comm, BitVec.and_twoPow]
  split at h
  · next hb => rw [if_pos hb]
  · exact absurd rfl h

/-- The bits set again are among those named. -/
theorem State.lasting_named (g : Group) (named : Word) (l : List Event) :
    s.lasting g named l &&& named = s.lasting g named l := by
  induction l with
  | nil => simp [State.lasting_nil]
  | cons x l ih =>
    rw [State.lasting_cons, BitVec.and_or_distrib_right, ih]
    split
    · next h => rw [Event.mask_and_of_ne h.2.1]
    · simp

theorem Work.setAgain_list (w : Work) (g : Group) (named v : Word) (l : List Event)
    (hr : w.raised = EventSets.empty.set g v) :
    (l.foldl (fun w e => if e.group = g ∧ named &&& e.mask ≠ 0 ∧ w.st.causePresent e then w.raise e else w) w) =
      { w with raised := EventSets.empty.set g (v ||| w.st.lasting g named l) } := by
  induction l generalizing w v with
  | nil => simp [State.lasting, ← hr]
  | cons e l ih =>
    rw [List.foldl_cons, State.lasting_cons]
    by_cases h : e.group = g ∧ named &&& e.mask ≠ 0 ∧ w.st.causePresent e = true
    · rw [if_pos h, if_pos h, ih (w.raise e) (v ||| e.mask) (by rw [Work.raise_raised, hr, EventSets.set_add _ h.1]),
        BitVec.or_assoc]
      rfl
    · rw [if_neg h, if_neg h, ih w v hr]
      simp

theorem Work.setAgain_eq (w : Work) (g : Group) (named : Word) (hr : w.raised = EventSets.empty) :
    w.setAgain g named = { w with raised := EventSets.empty.set g (w.st.lasting g named lastingEvents) } := by
  have h0 : EventSets.empty = EventSets.empty.set g 0 := by cases g <;> rfl
  have := w.setAgain_list g named 0 lastingEvents (hr.trans h0)
  rwa [show (0 : Word) ||| w.st.lasting g named lastingEvents = w.st.lasting g named lastingEvents by simp] at this

/-- Bits set again were clear, so those of them that are not masked call for the notice. -/
theorem lasting_clear {again x named : Word} (h : again &&& named = again) : again &&& ~~~(x &&& ~~~named) = again := by
  rw [← h]
  ext i hi
  simp
  exact fun _ hn => .inr hn

/-- The state after the bits that are set again have been (R183). -/
def State.eventsCleared (s : State) (g : Group) (named : Word) : State :=
  let again := s.lasting g named lastingEvents
  let x := s.status.get g &&& ~~~named
  let t : State := { s with status := s.status.set g (x ||| again) }
  if again &&& ~~~(s.retained.masks.get g) = 0 then t else t.sentL [noticeCell s.node g (x ||| again)]

/-- The end of an event that sets bits of one group that were clear, and then sends one cell down port L. -/
theorem finish_group {t : State} {g : Group} {again : Word} {c : RiserCell} (hu : t.riserUp .L = true) (hroom : t.roomL 2)
    (hclear : again &&& ~~~(t.status.get g) = again) :
    (Work.sendL { st := t, outL := [], raised := EventSets.empty.set g again, runs := [] } c).finish =
      (if again &&& ~~~(t.retained.masks.get g) = 0 then
        { t with status := t.status.set g (t.status.get g ||| again) }
      else ({ t with status := t.status.set g (t.status.get g ||| again) } : State).sentL
        [noticeCell t.node g (t.status.get g ||| again)]).sentL [c] := by
  have hnotes : t.notices (EventSets.empty.set g again) (EventSets.empty.set g again) =
      if again &&& ~~~(t.retained.masks.get g) = 0 then []
      else [noticeCell t.node g (t.status.get g ||| again)] := by
    rw [State.notices_group, hclear, EventSets.get_union, EventSets.get_set_self]
  have hstat : t.status.union (EventSets.empty.set g again) = t.status.set g (t.status.get g ||| again) := by
    cases g <;> simp [EventSets.set, EventSets.get, EventSets.union, EventSets.empty]
  have hq : t.portL.queue.length + 2 ≤ 16 := by
    have := hroom hu
    omega
  have hlen : (t.notices (EventSets.empty.set g again) (EventSets.empty.set g again)).length ≤ 1 := by
    rw [hnotes]; split <;> simp
  have hup : t.portL.link = .up := by simpa [State.riserUp] using hu
  rw [Work.sendL, if_pos hu, List.nil_append, Work.finish, Work.runArbiter_noRuns rfl,
    Work.flush_room hu (by simp only [List.length_singleton]; omega)]
  dsimp only
  rw [hstat, hnotes]
  split <;> simp [State.sentL, State.riserUp, hup]

theorem exec_clearEvents_group {q : Request} {g : Group} (ht : s.takes q) (hroom : s.roomL 2)
    (hg : Group.ofCode q.index.toNat = some g) :
    exec (.clearEvents q) s = .next ((s.eventsCleared g q.value).replied .clearEvents q .done
      ((s.status.get g &&& ~~~q.value) ||| s.lasting g q.value lastingEvents).toNat) := by
  obtain ⟨-, hrec, -⟩ := id ht
  have hu : s.riserUp .L = true := State.receives_up hrec
  let t : State := { s with status := s.status.set g (s.status.get g &&& ~~~q.value) }
  let again := s.lasting g q.value lastingEvents
  have hget : t.status.get g = s.status.get g &&& ~~~q.value := EventSets.get_set_self ..
  have hset : t.status.set g (t.status.get g ||| again) = s.status.set g ((s.status.get g &&& ~~~q.value) ||| again) := by
    rw [hget]; exact EventSets.set_set ..
  have hw : ((Work.start s).modState fun s => { s with status := s.status.set g (s.status.get g &&& ~~~q.value) }).setAgain g
      q.value = { st := t, outL := [], raised := EventSets.empty.set g again, runs := [] } := Work.setAgain_eq _ _ _ rfl
  have hval : ((t.status.union (EventSets.empty.set g again)).get g).toNat =
      ((s.status.get g &&& ~~~q.value) ||| again).toNat := by
    rw [EventSets.get_union, hget, EventSets.get_set_self]
  rw [exec_clearEvents, execClearEvents, onRequest_takes ht, Work.clearEventsOp, hg]
  dsimp only
  rw [hw, Work.reply]
  dsimp only
  rw [hval, finish_group (t := t) hu hroom (by rw [hget]; exact lasting_clear (State.lasting_named ..)), hset, hget]
  refine congrArg _ ?_
  unfold State.eventsCleared
  dsimp only
  split
  · rfl
  · rw [State.replied, State.sentL_node]

/-- What the events are after a CLEAR_EVENTS: cleared where named, set again where the cause is present (R183). -/
theorem State.eventsCleared_status (g : Group) (named : Word) :
    (s.eventsCleared g named).status =
      s.status.set g ((s.status.get g &&& ~~~named) ||| s.lasting g named lastingEvents) := by
  unfold State.eventsCleared
  dsimp only
  split
  · rfl
  · exact State.sentL_status ..

theorem Event.mem_lasting {e : Event} (h : s.causePresent e = true) : e ∈ lastingEvents := by
  rcases (State.causePresent_iff e).1 h with ⟨rfl, -⟩ | ⟨rfl, -⟩ | ⟨rfl, -⟩ | ⟨rfl, -⟩ | ⟨rfl, -⟩ <;> decide

theorem and_not_and_mask {e : Event} (a named : Word) :
    (a &&& ~~~named) &&& e.mask ≠ 0 ↔ named &&& e.mask = 0 ∧ a &&& e.mask ≠ 0 := by
  obtain ⟨i, hi⟩ := e.mask_twoPow
  have hz : ¬ BitVec.twoPow 16 i.val = 0#16 := (by decide : ∀ j : Fin 16, ¬ BitVec.twoPow 16 j.val = 0#16) i
  rw [hi, BitVec.and_twoPow, BitVec.and_twoPow, BitVec.and_twoPow, BitVec.getLsbD_and, BitVec.getLsbD_not]
  cases a.getLsbD i.val <;> cases named.getLsbD i.val <;> simp [hz]

theorem Group.ofCode_none {n : Nat} (h : 2 < n) : Group.ofCode n = none := by
  match n, h with
  | n + 3, _ => rfl

/-- Settles O55: the bits cleared, the bits set again, and the one notice and reply of the event. -/
theorem eventSetsCommanded : Obligations.EventSetsCommanded := by
  refine ⟨fun s e => State.causePresent_iff e, fun s q ht hroom => ⟨fun hi => ⟨?noClear, ?noMask⟩,
    fun g hg => ⟨?clear, ⟨_, exec_clearEvents_group ht hroom hg, fun g' hg' => ?others, fun e he => ?bits⟩, ?masks⟩⟩⟩
  case noClear =>
    rw [exec_clearEvents, execClearEvents]
    exact onRequest_reply ht (hroom.mono (by omega)) (by rw [Work.clearEventsOp, Group.ofCode_none hi])
  case noMask =>
    rw [exec_setMasks, execSetMasks]
    exact onRequest_reply ht (hroom.mono (by omega)) (by rw [Work.setMasksOp, Group.ofCode_none hi])
  case clear => exact exec_clearEvents_group ht hroom hg
  case others =>
    rw [State.replied, State.sentL_status, State.eventsCleared_status, EventSets.get_set_ne _ _ hg']
  case bits =>
    rw [State.replied, State.sentL_status, State.eventsCleared_status, EventSets.get_set_self, or_and_ne_zero,
      and_not_and_mask, State.lasting_mask he]
    exact or_congr_right ⟨fun h => h.2, fun h => ⟨Event.mem_lasting h.2, h⟩⟩
  case masks =>
    rw [exec_setMasks, execSetMasks]
    refine onRequest_makes (u := (s.storing { s.retained with
      masks := s.retained.masks.set g (q.value &&& g.named) }).replied .setMasks q .done (q.value &&& g.named).toNat)
      ht ?_ ?_ <;> rw [Work.setMasksOp, hg]
    · exact (Work.Makes.start True (s.storing { s.retained with
        masks := s.retained.masks.set g (q.value &&& g.named) })).reply _ _ _ _ fun _ => hroom.mono (by omega)
    · simp

end Sys2Proof.Machine
end

