-- ==== Sys2Proof/Proofs/WriteDirectory.lean ====
section
/-! PROOFS. WRITE of the directory (R33 to R39): the windows, the slots and the ceilings. -/

namespace Sys2Proof.Machine

variable {s : State}

/-! ## A WRITE of a field -/

/-- A WRITE that changes the retained contents alone. -/
theorem exec_write_stored {q : Request} {f : FieldRef} {d : Retained} {r : Result} (ht : s.takes q) (hl : s.locked = false)
    (hroom : s.roomL 1) (hf : fieldRef q.item.toNat q.field.toNat q.index.toNat = some f)
    (hw : (Work.start s).writeField f q.value.toNat = (Work.start (s.storing d), r)) :
    exec (.write q) s = .next ((s.storing d).repliedFree .write q r ((s.storing d).presentValue f)) := by
  rw [exec_write, execWrite]
  refine onRequest_makes ht ?_ ?_ <;> rw [Work.writeOp_field hf, Work.ifUnlocked_unlocked hl, hw]
  · exact (Work.Makes.start True (s.storing d)).replyFree _ _ _ _ fun _ => hroom
  · simp

/-- A WRITE that changes nothing. -/
theorem exec_write_refused {q : Request} {f : FieldRef} {r : Result} (ht : s.takes q) (hl : s.locked = false)
    (hroom : s.roomL 1) (hf : fieldRef q.item.toNat q.field.toNat q.index.toNat = some f)
    (hw : (Work.start s).writeField f q.value.toNat = (Work.start s, r)) :
    exec (.write q) s = .next (s.repliedFree .write q r (s.presentValue f)) :=
  exec_write_stored (d := s.retained) ht hl hroom hf hw

/-- A field that management may only read is refused BAD_VALUE (R178). -/
theorem Work.writeField_readOnly {w : Work} {f : FieldRef} (h : f.readOnly = true) (v : Nat) :
    w.writeField f v = (w, .badValue) := by
  cases f <;> simp [FieldRef.readOnly] at h <;> rfl

/-! ## Windows (R34) -/

theorem Retained.setWindow_window (d : Retained) (x : WindowRef) : d.setWindow x (d.window x) = d := by
  cases x <;> simp [Retained.setWindow, Retained.window]

theorem Retained.window_setWindow (d : Retained) (x : WindowRef) (y : Window) : (d.setWindow x y).window x = y := by
  cases x <;> simp [Retained.setWindow, Retained.window]

theorem exec_write_window {q : Request} {x : WindowRef} {f : WindowField} {y : Window} (ht : s.takes q)
    (hl : s.locked = false) (hroom : s.roomL 1)
    (hf : fieldRef q.item.toNat q.field.toNat q.index.toNat = some (.window x f))
    (hw : (s.retained.window x).write f q.value.toNat = (.done, y)) (hv : y.read f = q.value.toNat) :
    exec (.write q) s = .next ((s.storing (s.retained.setWindow x y)).repliedFree .write q
      (if q.value.toNat = q.value.toNat then .done else .clamped) q.value.toNat) := by
  have h := exec_write_stored (d := s.retained.setWindow x y) (r := .done) ht hl hroom hf (by
    show (((Work.start s).modRetained fun d => d.setWindow x ((s.retained.window x).write f q.value.toNat).2),
      ((s.retained.window x).write f q.value.toNat).1) = _
    rw [hw]
    rfl)
  rw [h]
  show Host.Outcome.next (State.repliedFree _ _ _ _ (((s.retained.setWindow x y).window x).read f)) = _
  rw [Retained.window_setWindow, hv, if_pos rfl]

theorem exec_write_window_refused {q : Request} {x : WindowRef} {f : WindowField} (ht : s.takes q)
    (hl : s.locked = false) (hroom : s.roomL 1)
    (hf : fieldRef q.item.toNat q.field.toNat q.index.toNat = some (.window x f))
    (hw : (s.retained.window x).write f q.value.toNat = (.badValue, s.retained.window x)) :
    exec (.write q) s = .next (s.repliedFree .write q .badValue (s.presentValue (.window x f))) := by
  refine exec_write_refused ht hl hroom hf ?_
  show (((Work.start s).modRetained fun d => d.setWindow x ((s.retained.window x).write f q.value.toNat).2),
    ((s.retained.window x).write f q.value.toNat).1) = _
  rw [hw]
  show (Work.start (s.storing (s.retained.setWindow x (s.retained.window x))), _) = _
  rw [Retained.setWindow_window]
  rfl

/-! ## Slots (R33, R35 to R38) -/

theorem exec_write_slot {q : Request} {i : SlotNo} {f : SlotField} {y : Slot} {r : Result} (ht : s.takes q)
    (hl : s.locked = false) (hroom : s.roomL 1)
    (hf : fieldRef q.item.toNat q.field.toNat q.index.toNat = some (.slot i f))
    (hw : s.writeSlot i f q.value.toNat = (r, y)) :
    exec (.write q) s = .next ((s.storing { s.retained with slots := s.retained.slots.set i y }).repliedFree .write q r
      (y.read f)) := by
  have h := exec_write_stored (d := { s.retained with slots := s.retained.slots.set i y }) (r := r) ht hl hroom hf (by
    show (((Work.start s).modRetained fun d => { d with slots := d.slots.set i (s.writeSlot i f q.value.toNat).2 }),
      (s.writeSlot i f q.value.toNat).1) = _
    rw [hw]
    rfl)
  rw [h]
  show Host.Outcome.next (State.repliedFree _ _ _ _ ((s.retained.slots.set i y)[i].read f)) = _
  rw [Fin.getElem_fin, Vector.getElem_set_self]

theorem exec_write_slot_refused {q : Request} {i : SlotNo} {f : SlotField} {r : Result} (ht : s.takes q)
    (hl : s.locked = false) (hroom : s.roomL 1)
    (hf : fieldRef q.item.toNat q.field.toNat q.index.toNat = some (.slot i f))
    (hw : s.writeSlot i f q.value.toNat = (r, s.retained.slots[i])) :
    exec (.write q) s = .next (s.repliedFree .write q r (s.presentValue (.slot i f))) := by
  have h := exec_write_slot ht hl hroom hf hw
  have hset : s.retained.slots.set i s.retained.slots[i] = s.retained.slots := Vector.set_getElem_self i.isLt
  rw [hset] at h
  exact h

theorem State.writeSlot_bad {i : SlotNo} {f : SlotField} {v : Nat} (h : f.badValue v = true) :
    s.writeSlot i f v = (.badValue, s.retained.slots[i]) := by simp [State.writeSlot, h]

theorem State.writeSlot_same {i : SlotNo} {f : SlotField} {v : Nat} (hb : f.badValue v = false)
    (h : v = s.retained.slots[i].read f) : s.writeSlot i f v = (.done, s.retained.slots[i]) := by
  unfold State.writeSlot
  rw [if_neg (by simp [hb]), if_pos h]

theorem State.writeSlot_conflict {i : SlotNo} {f : SlotField} {v : Nat} {r : Result} (hb : f.badValue v = false)
    (h : v ≠ s.retained.slots[i].read f) (hc : s.slotConflict i f v = some r) :
    s.writeSlot i f v = (r, s.retained.slots[i]) := by
  unfold State.writeSlot
  dsimp only
  rw [if_neg (by simp [hb]), if_neg h, hc]

/-- Storing the value that a field has changes nothing, in a legal slot (R33, R37, R38). -/
theorem Slot.store_read {x : Slot} (hx : x.Legal) (f : SlotField) : x.store f (x.read f) = x := by
  obtain ⟨-, hq, hc, -⟩ := hx
  have hclamp (c : Class) : clampClass c.val = c := Fin.ext (by have := c.isLt; simp only [clampClass]; omega)
  obtain ⟨number, port, main, ext, mode, quiet, quietCeiling, residentQuiet, callDown, unlatch⟩ := x
  cases f with
  | number => rfl
  | port => simp [Slot.store, Slot.read]
  | main => simp [Slot.store, Slot.read]
  | ext => cases ext <;> simp [Slot.store, Slot.read, addrCode]
  | mode => cases mode <;> rfl
  | quiet => simpa [Slot.store, Slot.read, hclamp] using hq
  | quietCeiling => simpa [Slot.store, Slot.read, hclamp] using hq
  | residentQuiet => cases residentQuiet <;> rfl
  | callDown => simpa [Slot.store, Slot.read, hclamp] using hc
  | unlatch => cases unlatch <;> rfl

/-- A value that passes the tests is stored (R33). -/
theorem State.writeSlot_stores {i : SlotNo} {f : SlotField} {v : Nat} (hx : s.retained.slots[i].Legal)
    (hb : f.badValue v = false) (hc : v ≠ s.retained.slots[i].read f → s.slotConflict i f v = none) :
    s.writeSlot i f v = (storedResult v ((s.retained.slots[i].store f v).read f), s.retained.slots[i].store f v) := by
  by_cases hv : v = s.retained.slots[i].read f
  · rw [State.writeSlot_same hb hv, hv, Slot.store_read hx, storedResult, if_pos rfl]
  · unfold State.writeSlot
    dsimp only
    rw [if_neg (by simp [hb]), if_neg hv, hc hv]

/-- A handset address that meets another occupied slot on a port (R35, R36). -/
def Retained.Meets (d : Retained) (i : SlotNo) (k : Floor) (a : Addr) : Prop :=
  ∃ j, j ≠ i ∧ d.slots[j].number ≠ 0 ∧ d.slots[j].port = k ∧ (d.slots[j].main = a ∨ d.slots[j].ext = some a)

theorem Retained.addrTaken_iff {d : Retained} {i : SlotNo} {k : Floor} {a : Addr} :
    d.addrTaken i k a = true ↔ d.Meets i k a := by
  simp only [Retained.addrTaken, List.any_eq_true, Bool.and_eq_true, decide_eq_true_eq, Slot.answers_iff, Retained.Meets,
    allSlots, List.mem_finRange, true_and]

theorem Retained.slotClashes_iff {d : Retained} {i : SlotNo} {k : Floor} :
    d.slotClashes i k = true ↔
      d.Meets i k d.slots[i].main ∨ ∃ a, d.slots[i].ext = some a ∧ d.Meets i k a := by
  rw [Retained.slotClashes, Bool.or_eq_true, Retained.addrTaken_iff]
  refine or_congr_right ?_
  cases d.slots[i].ext with
  | some x => simp [Retained.addrTaken_iff]
  | none => simp

theorem Retained.numberTaken_iff {d : Retained} {i : SlotNo} {n : Nat} (hn : n ≠ 0) :
    d.numberTaken i n = true ↔ ∃ j, j ≠ i ∧ d.slots[j].number = n := by
  simp only [Retained.numberTaken, List.any_eq_true, Bool.and_eq_true, decide_eq_true_eq, Slot.occupied_iff, allSlots,
    List.mem_finRange, true_and, beq_iff_eq]
  refine exists_congr fun j => ⟨fun ⟨⟨hj, _⟩, he⟩ => ⟨hj, he⟩, fun ⟨hj, he⟩ => ⟨⟨hj, he ▸ hn⟩, he⟩⟩

/-! ## The conflict tests of a slot write (R35, R36) -/

section
variable {i : SlotNo} {v : Nat}

/-- A number or port of a flat with a call of its own (R36). -/
theorem State.slotConflict_busy {f : SlotField} (hf : f = .number ∨ f = .port) (ha : s.activity[i] ≠ .idle) :
    s.slotConflict i f v = some .inUse := by
  rcases hf with rfl | rfl <;> simp only [State.slotConflict] <;> exact if_pos ha

theorem State.slotConflict_number (ha : s.activity[i] = .idle) :
    s.slotConflict i .number v = if v ≠ 0 ∧ (s.retained.numberTaken i v = true ∨
        (¬ s.retained.slots[i].occupied = true ∧ s.retained.slotClashes i s.retained.slots[i].port = true))
      then some .duplicate else none := by
  simp only [State.slotConflict]
  exact if_neg (not_not.2 ha)

theorem State.slotConflict_port {k : Floor} (ha : s.activity[i] = .idle) :
    s.slotConflict i .port k.val = if s.retained.slots[i].occupied = true ∧ s.retained.slotClashes i k = true
      then some .duplicate else none := by
  simp only [State.slotConflict]
  rw [if_neg (not_not.2 ha), dif_pos k.isLt]

theorem State.slotConflict_main {a : Addr} :
    s.slotConflict i .main a.val = if s.retained.slots[i].ext = some a ∨
        (s.retained.slots[i].occupied = true ∧ s.retained.addrTaken i s.retained.slots[i].port a = true)
      then some .duplicate else none := by
  simp only [State.slotConflict]
  rw [dif_pos a.isLt]

theorem State.slotConflict_ext {a : Addr} :
    s.slotConflict i .ext a.val = if s.retained.slots[i].main = a ∨
        (s.retained.slots[i].occupied = true ∧ s.retained.addrTaken i s.retained.slots[i].port a = true)
      then some .duplicate else none := by
  simp only [State.slotConflict]
  rw [dif_pos a.isLt]

end

/-- A WRITE of a slot field that passes its tests: the field as stored, and the value that it then has (R33). -/
theorem exec_write_slot_put {q : Request} {i : SlotNo} {f : SlotField} {y : Slot} {x : Nat} (ht : s.takes q)
    (hl : s.locked = false) (hroom : s.roomL 1) (hlegal : s.retained.Legal)
    (hf : fieldRef q.item.toNat q.field.toNat q.index.toNat = some (.slot i f)) (hb : f.badValue q.value.toNat = false)
    (hc : q.value.toNat ≠ s.retained.slots[i].read f → s.slotConflict i f q.value.toNat = none)
    (hy : s.retained.slots[i].store f q.value.toNat = y) (hx : y.read f = x) :
    exec (.write q) s = .next ((s.storing { s.retained with slots := s.retained.slots.set i y }).repliedFree .write q
      (if q.value.toNat = x then .done else .clamped) x) := by
  have h := exec_write_slot ht hl hroom hf (State.writeSlot_stores (hlegal.slots i) hb hc)
  rw [hy, hx] at h
  exact h

theorem exec_write_slot_bad {q : Request} {i : SlotNo} {f : SlotField} (ht : s.takes q) (hl : s.locked = false)
    (hroom : s.roomL 1) (hf : fieldRef q.item.toNat q.field.toNat q.index.toNat = some (.slot i f))
    (hb : f.badValue q.value.toNat = true) :
    exec (.write q) s = .next (s.repliedFree .write q .badValue (s.presentValue (.slot i f))) :=
  exec_write_slot_refused ht hl hroom hf (State.writeSlot_bad hb)

theorem exec_write_slot_same {q : Request} {i : SlotNo} {f : SlotField} (ht : s.takes q) (hl : s.locked = false)
    (hroom : s.roomL 1) (hf : fieldRef q.item.toNat q.field.toNat q.index.toNat = some (.slot i f))
    (hb : f.badValue q.value.toNat = false) (hv : q.value.toNat = s.retained.slots[i].read f) :
    exec (.write q) s = .next (s.repliedFree .write q .done (s.presentValue (.slot i f))) :=
  exec_write_slot_refused ht hl hroom hf (State.writeSlot_same hb hv)

theorem exec_write_slot_conflict {q : Request} {i : SlotNo} {f : SlotField} {r : Result} (ht : s.takes q)
    (hl : s.locked = false) (hroom : s.roomL 1)
    (hf : fieldRef q.item.toNat q.field.toNat q.index.toNat = some (.slot i f)) (hb : f.badValue q.value.toNat = false)
    (hv : q.value.toNat ≠ s.retained.slots[i].read f) (hc : s.slotConflict i f q.value.toNat = some r) :
    exec (.write q) s = .next (s.repliedFree .write q r (s.presentValue (.slot i f))) :=
  exec_write_slot_refused ht hl hroom hf (State.writeSlot_conflict hb hv hc)

theorem clampClass_val (v : Nat) : (clampClass v).val = min v 7 := rfl

theorem min_class_val (a b : Class) : (min a b).val = min a.val b.val := Fin.coe_min a b

/-- Settles O52: each field by its encoding, its conflict test and its clamp. -/
theorem writeDirectory : Obligations.WriteDirectory := by
  intro s q f ht hl hroom hlegal hf
  refine ⟨fun hro => exec_write_refused ht hl hroom hf (Work.writeField_readOnly hro _), fun n hn => ?ceiling,
    fun x => ⟨fun hx => ?base, fun hx => ?limit, fun hx => ?target⟩, fun i => ⟨fun hx => ?number, fun hx => ?port,
    fun hx => ?main, fun hx => ?ext, fun hx => ?mode, fun hx => ?quiet, fun hx => ?quietCeiling,
    fun hx => ?residentQuiet, fun hx => ?unlatch, fun hx => ?callDown⟩⟩
  case ceiling =>
    subst hn
    refine (exec_write_stored (d := { s.retained with ceilings := s.retained.ceilings.set n (clampClass q.value.toNat) })
      (r := storedResult q.value.toNat (min q.value.toNat 7)) ht hl hroom hf rfl).trans ?_
    have : ({ s.retained with ceilings := s.retained.ceilings.set n (clampClass q.value.toNat) } : Retained).ceilings[n] =
        clampClass q.value.toNat := Vector.getElem_set_self ..
    show Host.Outcome.next (State.repliedFree _ _ _ _ ((s.retained.ceilings.set n _)[n]).val) = _
    rw [this]
    rfl
  case base =>
    subst hx
    refine ⟨fun h1 h2 => ?_, fun h => ?_⟩
    · have := exec_write_window (y := { s.retained.window x with base := q.value.toNat }) ht hl hroom hf
        (if_pos ⟨h1, h2⟩) rfl
      cases x <;> exact this
    · exact exec_write_window_refused ht hl hroom hf (if_neg (by omega))
  case limit =>
    subst hx
    refine ⟨fun h => ?_, fun h => ?_⟩
    · have := exec_write_window (y := { s.retained.window x with limit := q.value.toNat }) ht hl hroom hf (if_pos h) rfl
      cases x <;> exact this
    · exact exec_write_window_refused ht hl hroom hf (if_neg (by omega))
  case target =>
    subst hx
    have put {t : Target} (hv : Target.ofCode q.value.toNat = some t) (hc : t.code = q.value.toNat) :=
      exec_write_window (f := .target) (y := { s.retained.window x with target := t }) ht hl hroom hf
        (by simp [Window.write, hv]) hc
    refine ⟨fun k hv => ?_, fun hv => ?_, fun hv => ?_, fun hv => ?_⟩
    · have := put (t := .floor k) (by rw [hv]; simp [Target.ofCode]) hv.symm
      cases x <;> exact this
    · have := put (t := .high) (by rw [hv]; rfl) hv.symm
      cases x <;> exact this
    · have := put (t := .bar) (by rw [hv]; rfl) hv.symm
      cases x <;> exact this
    · refine exec_write_window_refused ht hl hroom hf ?_
      have : Target.ofCode q.value.toNat = none := by
        rw [Target.ofCode, dif_neg (by omega), if_neg (by omega), if_neg (by omega)]
      simp [Window.write, this]
  all_goals subst hx
  case number =>
    refine ⟨fun h => exec_write_slot_bad ht hl hroom hf (decide_eq_true h), fun h => ?same, fun hle hne => ?other⟩
    case same =>
      have := (hlegal.slots i).1
      exact exec_write_slot_same ht hl hroom hf (decide_eq_false (by omega)) h
    case other =>
      have hb : SlotField.badValue .number q.value.toNat = false := decide_eq_false (by omega)
      refine ⟨fun ha => exec_write_slot_conflict ht hl hroom hf hb hne (State.slotConflict_busy (.inl rfl) ha),
        fun ha => ⟨fun h0 => ?zero, fun h0 => ?nonzero⟩⟩
      case zero =>
        refine exec_write_slot_put ht hl hroom hlegal hf hb (fun _ => ?_) (by rw [h0]; rfl) rfl
        rw [State.slotConflict_number ha, if_neg fun h => h.1 h0]
      case nonzero =>
        have htaken : ((∃ j, j ≠ i ∧ s.retained.slots[j].number = q.value.toNat) ∨
            (s.retained.slots[i].number = 0 ∧ (s.retained.Meets i s.retained.slots[i].port s.retained.slots[i].main ∨
              ∃ a, s.retained.slots[i].ext = some a ∧ s.retained.Meets i s.retained.slots[i].port a))) ↔
            (s.retained.numberTaken i q.value.toNat = true ∨
              (¬ s.retained.slots[i].occupied = true ∧ s.retained.slotClashes i s.retained.slots[i].port = true)) := by
          rw [Retained.numberTaken_iff h0, Slot.occupied_iff, not_not, Retained.slotClashes_iff]
        refine ⟨fun h => exec_write_slot_conflict ht hl hroom hf hb hne ?_, fun h =>
          exec_write_slot_put ht hl hroom hlegal hf hb (fun _ => ?_) rfl rfl⟩
        · rw [State.slotConflict_number ha, if_pos ⟨h0, htaken.1 h⟩]
        · rw [State.slotConflict_number ha, if_neg fun h' => h (htaken.2 h'.2)]
  case port =>
    refine ⟨fun h => exec_write_slot_bad ht hl hroom hf (decide_eq_true h), fun h => ?same, fun k hv hk => ?other⟩
    case same =>
      have := s.retained.slots[i].port.isLt
      exact exec_write_slot_same ht hl hroom hf (decide_eq_false (by omega)) h
    case other =>
      have hlt := k.isLt
      have hb : SlotField.badValue .port q.value.toNat = false := decide_eq_false (by omega)
      have hne : q.value.toNat ≠ s.retained.slots[i].read .port := fun h => hk (Fin.ext (hv.symm.trans h))
      have htaken : (s.retained.slots[i].number ≠ 0 ∧ (s.retained.Meets i k s.retained.slots[i].main ∨
          ∃ a, s.retained.slots[i].ext = some a ∧ s.retained.Meets i k a)) ↔
          (s.retained.slots[i].occupied = true ∧ s.retained.slotClashes i k = true) := by
        rw [Slot.occupied_iff, Retained.slotClashes_iff]
      refine ⟨fun ha => exec_write_slot_conflict ht hl hroom hf hb hne (State.slotConflict_busy (.inr rfl) ha),
        fun ha => ⟨fun h => exec_write_slot_conflict ht hl hroom hf hb hne ?_, fun h =>
          exec_write_slot_put ht hl hroom hlegal hf hb (fun _ => ?_) ?_ hv.symm⟩⟩
      · rw [hv, State.slotConflict_port ha, if_pos (htaken.1 h)]
      · rw [hv, State.slotConflict_port ha, if_neg fun h' => h (htaken.2 h')]
      · simp [Slot.store, hv]
  case main =>
    refine ⟨fun h => exec_write_slot_bad ht hl hroom hf (decide_eq_true h), fun h => ?same, fun a hv ha => ?other⟩
    case same =>
      have := s.retained.slots[i].main.isLt
      exact exec_write_slot_same ht hl hroom hf (decide_eq_false (by omega)) h
    case other =>
      have hlt := a.isLt
      have hb : SlotField.badValue .main q.value.toNat = false := decide_eq_false (by omega)
      have hne : q.value.toNat ≠ s.retained.slots[i].read .main := fun h => ha (Fin.ext (hv.symm.trans h))
      have htaken : (s.retained.slots[i].ext = some a ∨ (s.retained.slots[i].number ≠ 0 ∧
          s.retained.Meets i s.retained.slots[i].port a)) ↔ (s.retained.slots[i].ext = some a ∨
          (s.retained.slots[i].occupied = true ∧ s.retained.addrTaken i s.retained.slots[i].port a = true)) := by
        rw [Slot.occupied_iff, Retained.addrTaken_iff]
      refine ⟨fun h => exec_write_slot_conflict ht hl hroom hf hb hne ?_, fun h =>
          exec_write_slot_put ht hl hroom hlegal hf hb (fun _ => ?_) ?_ hv.symm⟩
      · rw [hv, State.slotConflict_main, if_pos (htaken.1 h)]
      · rw [hv, State.slotConflict_main, if_neg fun h' => h (htaken.2 h')]
      · simp [Slot.store, hv]
  case ext =>
    refine ⟨fun h1 h2 => exec_write_slot_bad ht hl hroom hf (decide_eq_true ⟨h1, h2⟩), fun hv => ?clear,
      fun a hv => ⟨fun ha => ?same, fun ha => ?other⟩⟩
    case clear =>
      refine exec_write_slot_put ht hl hroom hlegal hf (decide_eq_false (by omega)) (fun _ => ?_) (by rw [hv]; rfl) rfl
      rw [hv]
      rfl
    case same =>
      have hlt := a.isLt
      refine exec_write_slot_same ht hl hroom hf (decide_eq_false (by omega)) ?_
      rw [hv, Slot.read, ha]
      rfl
    case other =>
      have hlt := a.isLt
      have hb : SlotField.badValue .ext q.value.toNat = false := decide_eq_false (by omega)
      have hne : q.value.toNat ≠ s.retained.slots[i].read .ext := fun h => by
        rw [hv, Slot.read] at h
        cases he : s.retained.slots[i].ext with
        | none => rw [he, addrCode] at h; omega
        | some b => rw [he] at h ha; exact ha (congrArg some (Fin.ext h.symm))
      have htaken : (s.retained.slots[i].main = a ∨ (s.retained.slots[i].number ≠ 0 ∧
          s.retained.Meets i s.retained.slots[i].port a)) ↔ (s.retained.slots[i].main = a ∨
          (s.retained.slots[i].occupied = true ∧ s.retained.addrTaken i s.retained.slots[i].port a = true)) := by
        rw [Slot.occupied_iff, Retained.addrTaken_iff]
      refine ⟨fun h => exec_write_slot_conflict ht hl hroom hf hb hne ?_, fun h =>
          exec_write_slot_put ht hl hroom hlegal hf hb (fun _ => ?_) ?_ hv.symm⟩
      · rw [hv, State.slotConflict_ext, if_pos (htaken.1 h)]
      · rw [hv, State.slotConflict_ext, if_neg fun h' => h (htaken.2 h')]
      · simp [Slot.store, hv]
  case mode =>
    refine ⟨fun hv => ?_, fun hv => ?_, fun hv => ?_, fun h => exec_write_slot_bad ht hl hroom hf (decide_eq_true h)⟩ <;>
      exact exec_write_slot_put ht hl hroom hlegal hf (decide_eq_false (by omega)) (fun _ => rfl) (by rw [hv]; rfl) rfl
  case quiet =>
    exact exec_write_slot_put ht hl hroom hlegal hf rfl (fun _ => rfl) rfl (min_class_val _ _)
  case quietCeiling => exact exec_write_slot_put ht hl hroom hlegal hf rfl (fun _ => rfl) rfl rfl
  case residentQuiet =>
    refine ⟨fun h => ?_, fun h => exec_write_slot_bad ht hl hroom hf (decide_eq_true h)⟩
    refine exec_write_slot_put ht hl hroom hlegal hf (decide_eq_false (by omega)) (fun _ => rfl) rfl ?_
    have : q.value.toNat = 0 ∨ q.value.toNat = 1 := by omega
    rcases this with h | h <;> simp [Slot.read, h]
  case unlatch =>
    refine ⟨fun h => ?_, fun h => exec_write_slot_bad ht hl hroom hf (decide_eq_true h)⟩
    refine exec_write_slot_put ht hl hroom hlegal hf (decide_eq_false (by omega)) (fun _ => rfl) rfl ?_
    have : q.value.toNat = 0 ∨ q.value.toNat = 1 := by omega
    rcases this with h | h <;> simp [Slot.read, h]
  case callDown =>
    refine exec_write_slot_put ht hl hroom hlegal hf rfl (fun _ => rfl) rfl ?_
    show (min (clampClass q.value.toNat) 6 : Class).val = min q.value.toNat 6
    rw [min_class_val, clampClass_val]
    show min (min q.value.toNat 7) 6 = _
    omega

end Sys2Proof.Machine
end

