-- ==== Sys2Proof/Proofs/Releases.lean ====
section
/-! PROOFS. The end of a call (R104, R145): what each part of a release makes of the state that the event will leave, and
the whole of it (`State.ended`). -/

namespace Sys2Proof.Machine

/-! ## Changes of the tables and the cells sent -/

/-- A change that neither reads nor writes the line interfaces and the status sets. -/
def TableChange (f : State → State) : Prop :=
  ∀ (s : State) (a b : RiserPort) (c : Vector FloorPort 8) (d : EventSets),
    f { s with portL := a, portH := b, floors := c, status := d } =
      { f s with portL := a, portH := b, floors := c, status := d }

section
variable {f : State → State} (hf : TableChange f) (s : State)
include hf

theorem TableChange.ports :
    (f s).portL = s.portL ∧ (f s).portH = s.portH ∧ (f s).floors = s.floors ∧ (f s).status = s.status := by
  have h : f s = { f s with portL := s.portL, portH := s.portH, floors := s.floors, status := s.status } :=
    hf s s.portL s.portH s.floors s.status
  refine ⟨?_, ?_, ?_, ?_⟩ <;> rw [h]

theorem TableChange.withL (a : RiserPort) : f { s with portL := a } = { f s with portL := a } := by
  obtain ⟨-, hH, hF, hS⟩ := hf.ports s
  have := hf s a s.portH s.floors s.status
  rw [← hH, ← hF, ← hS] at this
  simpa only [hH, hF, hS] using this

theorem TableChange.withH (a : RiserPort) : f { s with portH := a } = { f s with portH := a } := by
  obtain ⟨hL, -, hF, hS⟩ := hf.ports s
  have := hf s s.portL a s.floors s.status
  rw [← hL, ← hF, ← hS] at this
  simpa only [hL, hF, hS] using this

theorem TableChange.withF (a : Vector FloorPort 8) : f { s with floors := a } = { f s with floors := a } := by
  obtain ⟨hL, hH, -, hS⟩ := hf.ports s
  have := hf s s.portL s.portH a s.status
  rw [← hL, ← hH, ← hS] at this
  simpa only [hL, hH, hS] using this

theorem TableChange.riserUp (p : Riser) : (f s).riserUp p = s.riserUp p := by
  obtain ⟨hL, hH, -, -⟩ := hf.ports s
  cases p <;> simp only [State.riserUp, hL, hH]

theorem TableChange.sentL (l : List RiserCell) : f (s.sentL l) = (f s).sentL l := by
  obtain ⟨hL, -, -, -⟩ := hf.ports s
  unfold State.sentL
  rw [hf.riserUp]
  split
  · rw [hf.withL, hL]
  · rfl

theorem TableChange.sentH (l : List RiserCell) : f (s.sentH l) = (f s).sentH l := by
  obtain ⟨-, hH, -, -⟩ := hf.ports s
  unfold State.sentH
  rw [hf.riserUp]
  split
  · rw [hf.withH, hH]
  · rfl

theorem TableChange.sentF (k : Floor) (l : List FloorCell) : f (s.sentF k l) = (f s).sentF k l := by
  obtain ⟨-, -, hF, -⟩ := hf.ports s
  unfold State.sentF State.floorUp
  rw [hF]
  split
  · rw [hf.withF]
  · rfl

theorem TableChange.roomL_iff (n : Nat) : (f s).roomL n ↔ s.roomL n := by
  obtain ⟨hL, -, -, -⟩ := hf.ports s
  simp only [State.roomL, State.riserUp, hL]

theorem TableChange.roomH_iff (n : Nat) : (f s).roomH n ↔ s.roomH n := by
  obtain ⟨-, hH, -, -⟩ := hf.ports s
  simp only [State.roomH, State.riserUp, hH]

theorem TableChange.roomF_iff (k : Floor) (n : Nat) : (f s).roomF k n ↔ s.roomF k n := by
  obtain ⟨-, -, hF, -⟩ := hf.ports s
  simp only [State.roomF, State.floorUp, hF]

end

theorem TableChange.putCall (h : Handle) (r : CallRecord) : TableChange (·.putCall h r) := fun _ _ _ _ _ => rfl
theorem TableChange.freed (h : Handle) : TableChange (·.freed h) := fun _ _ _ _ _ => rfl
theorem TableChange.putActivity (i : SlotNo) (a : Activity) : TableChange (·.putActivity i a) := fun _ _ _ _ _ => rfl
theorem TableChange.callOver (h : Handle) (r : CallRecord) (c : Cause) : TableChange (·.callOver h r c) :=
  fun _ _ _ _ _ => rfl
theorem TableChange.laneTaken (p : Owned) (i : Nat) (h : Handle) : TableChange (·.laneTaken p i h) := fun _ _ _ _ _ => rfl
theorem TableChange.joined (h : Handle) (r : CallRecord) (p : Owned) (st : CallState) :
    TableChange (·.joined h r p st) := fun _ _ _ _ _ => rfl

section
variable (s : State)

theorem State.sentL_sentH (a b : List RiserCell) : (s.sentL a).sentH b = (s.sentH b).sentL a := by
  unfold State.sentL State.sentH
  by_cases hL : s.portL.link = .up <;> by_cases hH : s.portH.link = .up <;> simp [State.riserUp, hL, hH]

theorem State.sentL_sentF (a : List RiserCell) (k : Floor) (b : List FloorCell) :
    (s.sentL a).sentF k b = (s.sentF k b).sentL a := by
  unfold State.sentL
  rw [State.sentF_riserUp, State.sentF_portL]
  split
  · unfold State.sentF State.floorUp
    split <;> rfl
  · rfl

end

/-! ## The parts of a release -/

/-- The state after a record has freed its owned lane (R60). -/
def State.laneFreed (s : State) (v : Handle) (r : CallRecord) : State :=
  match r.ownedPort, r.ownedLane with
  | some p, some i =>
    ({ s with
      maps := s.maps.set p.idx { holders := (s.map p).holders.set i none, order := (s.map p).order.filter (· ≠ i) }
      crosses := s.crosses.filter fun x => !(x.port == p && x.lane == i) } : State).putCall v { r with ownedLane := none }
  | _, _ => s

theorem Work.Makes.freeLane {R : Prop} {w : Work} {u : State} (h : w.Makes R u) {v : Handle} {r : CallRecord}
    (hr : u.call? v = some r) : (w.freeLane v).Makes R (u.laneFreed v r) := by
  refine h.withCall hr ?_
  unfold State.laneFreed
  cases hp : r.ownedPort with
  | none => exact h
  | some p =>
    cases hi : r.ownedLane with
    | none => exact h
    | some i =>
      have hmap : w.st.map p = u.map p := State.bare_map h.bare p
      have hx : w.st.crosses = u.crosses := State.bare_crosses h.bare
      have h1 := h.setMap p { holders := (u.map p).holders.set i none, order := (u.map p).order.filter (· ≠ i) }
      have h2 := h1.setCrosses (u.crosses.filter fun x => !(x.port == p && x.lane == i))
      have h3 := (h2.modCall (v := v) (r := r) (f := fun r => { r with ownedLane := none }) hr).run p
      simp only [Work.dropOwnedCross, Work.setMap_crosses, hmap, hx]
      exact h3

@[simp] theorem Work.leaveWaiting_runs (w : Work) (h : Handle) : (w.leaveWaiting h).runs = w.runs := rfl

theorem Work.freeLane_runs {w : Work} {v : Handle} {r : CallRecord} (hr : w.call? v = some r) :
    (w.freeLane v).runs = r.freedPort.toList ++ w.runs := by
  have hr' : w.st.call? v = some r := hr
  rw [Work.freeLane, Work.withCall_live hr', CallRecord.freedPort]
  cases hp : r.ownedPort <;> cases hi : r.ownedLane <;> rfl

@[simp] theorem Work.cancelOffers_runs (w : Work) (h : Handle) (k : Floor) (l : List OfferEntry) :
    (w.cancelOffers h k l).runs = w.runs := by
  induction l generalizing w with
  | nil => rfl
  | cons e es ih =>
    unfold Work.cancelOffers
    split
    · exact ih w
    · rw [ih, Work.sendF_runs]

@[simp] theorem Work.releaseSides_runs (w : Work) (r : CallRecord) (c : Cause) : (w.releaseSides r c).runs = w.runs := by
  unfold Work.releaseSides
  cases r.openKey .L <;> cases r.openKey .H <;> simp

@[simp] theorem Work.idleActivity_runs (w : Work) (h : Handle) (i : SlotNo) : (w.idleActivity h i).runs = w.runs := by
  unfold Work.idleActivity
  split <;> simp

@[simp] theorem Work.tellFloor_runs (w : Work) (h : Handle) (r : CallRecord) (c : Cause) :
    (w.tellFloor h r c).runs = w.runs := by
  unfold Work.tellFloor
  split
  · dsimp only
    split <;> simp
  · rfl

@[simp] theorem Work.clearOrFree_runs (w : Work) (h : Handle) : (w.clearOrFree h).runs = w.runs := by
  refine (Work.withCall_runs fun r => ?_).trans (Work.modCall_runs _ _ _)
  split <;> simp

/-- A release asks for the arbiter's run for the port of the lane that it frees (R60, R72). -/
theorem Work.release_runs {w : Work} {v : Handle} {r : CallRecord} (hr : w.call? v = some r) (c : Cause) :
    (w.release v c).runs = r.freedPort.toList ++ w.runs := by
  have hr' : w.st.call? v = some r := hr
  have h1 : ((w.modCall v fun r => { r with pendingCause := some c }).leaveWaiting v).call? v =
      some { r with pendingCause := some c } := by
    rw [Work.modCall_live hr']
    exact State.call?_putCall_self ..
  rw [Work.release, Work.withCall_live hr']
  simp only [Work.clearOrFree_runs, Work.tellFloor_runs, Work.releaseSides_runs, Work.emptyMirror_runs]
  rw [Work.freeLane_runs h1]
  rfl

/-- The CANCELs of the entries that are not ANSWERED (R104, R114). -/
def cancelCells (v : Handle) (l : List OfferEntry) : List FloorCell :=
  (l.filter fun e => e.state ≠ .answered).map fun e => cancelCell v.val e.addr

theorem Work.Makes.cancelOffers {R : Prop} {w : Work} {u : State} (h : w.Makes R u) (v : Handle) (k : Floor)
    (l : List OfferEntry) (hroom : R → u.roomF k (cancelCells v l).length) :
    (w.cancelOffers v k l).Makes R (u.sentF k (cancelCells v l)) := by
  induction l generalizing w u with
  | nil => simpa [Work.cancelOffers, cancelCells] using h
  | cons e es ih =>
    unfold Work.cancelOffers
    split
    · next he =>
      have hc : cancelCells v (e :: es) = cancelCells v es := by simp [cancelCells, he]
      rw [hc] at hroom ⊢
      exact ih h hroom
    · next he =>
      have hc : cancelCells v (e :: es) = [cancelCell v.val e.addr] ++ cancelCells v es := by simp [cancelCells, he]
      rw [hc] at hroom ⊢
      rw [List.length_append] at hroom
      rw [← State.sentF_sentF]
      exact ih (h.sendF fun hR => (hroom hR).mono (by simp)) fun hR => State.roomF_sentF (hroom hR)

theorem Work.Makes.releaseSides {R : Prop} {w : Work} {u : State} (h : w.Makes R u) (r : CallRecord) (c : Cause)
    (hL : R → u.roomL (r.releaseCells .L c).length) (hH : R → u.roomH (r.releaseCells .H c).length) :
    (w.releaseSides r c).Makes R ((u.sentL (r.releaseCells .L c)).sentH (r.releaseCells .H c)) :=
  (h.sendLOption (r.openKey .L) (releaseCell · c) hL).sendHOption (r.openKey .H) (releaseCell · c) fun hR =>
    (State.roomH_sentL _ _).2 (hH hR)

/-- The activity of a flat becomes IDLE where it names the record (R104). -/
def State.idled (s : State) (v : Handle) (i : SlotNo) : State :=
  { s with activity := if s.activity[i].handle? = some v then s.activity.set i .idle else s.activity }

theorem Work.Makes.idleActivity {R : Prop} {w : Work} {u : State} (h : w.Makes R u) (v : Handle) (i : SlotNo) :
    (w.idleActivity v i).Makes R (u.idled v i) := by
  have ha : w.st.activity = u.activity := State.bare_activity h.bare
  unfold Work.idleActivity State.idled
  rw [ha]
  split
  · exact h.setActivity i .idle
  · exact h

/-- What the offer controller makes of the tables when a record leaves its call (R104). -/
def State.flatIdled (s : State) (v : Handle) (r : CallRecord) : State :=
  match r.far with
  | .floor f => s.idled v f.slot
  | _ => s

theorem Work.Makes.tellFloor {R : Prop} {w : Work} {u : State} (h : w.Makes R u) (v : Handle) (r : CallRecord) (c : Cause)
    (hF : R → ∀ f, r.far = .floor f → u.roomF f.port (r.lastFloorCells v c).length) :
    (w.tellFloor v r c).Makes R ((u.floorTold v r c).flatIdled v r) := by
  unfold Work.tellFloor State.floorTold State.flatIdled
  cases hf : r.far with
  | floor f =>
    have hcells : r.lastFloorCells v c = (if r.state = .offering ∨ r.state = .ringing then cancelCells v f.entries else []) ++
        f.answering.toList.map fun a => clearedCell v.val a c := by
      simp only [CallRecord.lastFloorCells, hf, cancelCells]
    have hlen := congrArg List.length hcells
    rw [List.length_append, List.length_map] at hlen
    dsimp only
    rw [hcells, ← State.sentF_sentF]
    have hroom : R → u.roomF f.port ((if r.state = .offering ∨ r.state = .ringing then cancelCells v f.entries else []).length +
        f.answering.toList.length) := fun hR => hlen ▸ hF hR f hf
    refine Work.Makes.idleActivity ?_ v f.slot
    split
    · next hst =>
      rw [if_pos hst] at hroom
      exact (h.cancelOffers v f.port f.entries fun hR => (hroom hR).mono (by omega)).statusToFloor v hf _ _ _ fun hR =>
        State.roomF_sentF (hroom hR)
    · next hst =>
      rw [if_neg hst] at hroom
      rw [State.sentF_nil]
      exact h.statusToFloor v hf _ _ _ fun hR => (hroom hR).mono (by simp)
  | none => exact h
  | high side => exact h

theorem TableChange.laneFreed (v : Handle) (r : CallRecord) : TableChange (·.laneFreed v r) := by
  intro s a b c d
  dsimp only
  unfold State.laneFreed
  cases r.ownedPort <;> cases r.ownedLane <;> rfl

theorem TableChange.mirrorEmptied (v : Handle) (r : CallRecord) : TableChange (·.mirrorEmptied v r) := by
  intro s a b c d
  dsimp only
  unfold State.mirrorEmptied
  cases r.lLane <;> rfl

theorem TableChange.flatIdled (v : Handle) (r : CallRecord) : TableChange (·.flatIdled v r) := by
  intro s a b c d
  dsimp only
  unfold State.flatIdled
  cases r.far <;> rfl

/-- A change of the tables may come before or after the cells that end a call at its flat. -/
theorem TableChange.floorTold {f : State → State} (hf : TableChange f) (s : State) (v : Handle) (r : CallRecord)
    (c : Cause) : f (s.floorTold v r c) = (f s).floorTold v r c := by
  unfold State.floorTold
  cases r.far with
  | floor x => exact hf.sentF s x.port _
  | none => rfl
  | high side => rfl

/-- The record with its owned lane freed (R60). -/
def CallRecord.unlaned (r : CallRecord) : CallRecord :=
  { r with ownedLane := if r.ownedPort.isSome then none else r.ownedLane }

theorem State.call?_laneFreed {s : State} {v : Handle} {r : CallRecord} (hr : s.call? v = some r) :
    (s.laneFreed v r).call? v = some r.unlaned := by
  unfold State.laneFreed CallRecord.unlaned
  cases hp : r.ownedPort with
  | none => simpa using hr
  | some p =>
    cases hi : r.ownedLane with
    | none =>
      have : { r with ownedLane := none } = r := by rw [← hi]
      simpa [this] using hr
    | some i => simp

theorem State.call?_mirrorEmptied {s : State} {v : Handle} {r : CallRecord} (hr : s.call? v = some r) :
    (s.mirrorEmptied v r).call? v = some { r with lLane := none } := by
  unfold State.mirrorEmptied
  cases hl : r.lLane with
  | none =>
    have : { r with lLane := none } = r := by rw [← hl]
    simpa [this] using hr
  | some l => simp

@[simp] theorem State.call?_flatIdled (s : State) (v v' : Handle) (r : CallRecord) :
    (s.flatIdled v r).call? v' = s.call? v' := by
  unfold State.flatIdled
  cases r.far <;> rfl

@[simp] theorem State.call?_floorTold (s : State) (v v' : Handle) (r : CallRecord) (c : Cause) :
    (s.floorTold v r c).call? v' = s.call? v' := by
  unfold State.floorTold
  cases r.far <;> simp

/-- The record in CLEARING, its pending cause as it stands (R145 step 7). -/
def CallRecord.guarded (r : CallRecord) : CallRecord :=
  { r.modFloor FloorSide.stopWindows with
    state := .clearing, timer := startTimer .guard Config.guardTime, lLane := none, ownedLane := none }

theorem CallRecord.openKey_guarded (r : CallRecord) (p : Riser) : r.guarded.openKey p = r.openKey p := by
  unfold CallRecord.guarded CallRecord.modFloor
  cases hf : r.far <;> cases p <;> simp [CallRecord.openKey, hf, Far.riser?]

/-- The state after a record has gone to CLEARING, or is freed where no side is open. -/
def State.clearedOrFreed (s : State) (v : Handle) (r : CallRecord) : State :=
  if r.anyOpen then s.putCall v r.guarded else s.freed v

theorem Work.Makes.clearOrFree {R : Prop} {w : Work} {u : State} (h : w.Makes R u) {v : Handle} {r : CallRecord}
    (hr : u.call? v = some r) : (w.clearOrFree v).Makes R (u.clearedOrFreed v r) := by
  have hopen : r.guarded.anyOpen = r.anyOpen := by simp only [CallRecord.anyOpen, CallRecord.openKey_guarded]
  have h1 := h.modCall (v := v) (r := r) (f := CallRecord.guarded) hr
  have hr1 : (u.putCall v r.guarded).call? v = some r.guarded := State.call?_putCall_self ..
  refine h1.withCall hr1 ?_
  unfold State.clearedOrFreed
  rw [hopen]
  split
  · exact h1
  · have hf : (u.putCall v r.guarded).freed v = u.freed v := by simp [State.freed, State.putCall, Vector.set_set]
    exact hf ▸ h1.freeCall hr1

theorem TableChange.clearedOrFreed (v : Handle) (r : CallRecord) : TableChange (·.clearedOrFreed v r) := by
  intro s a b c d
  dsimp only
  unfold State.clearedOrFreed
  split <;> rfl

theorem State.putCall_set {s : State} {v : Handle} {r : CallRecord} (hr : s.call? v = some r) :
    s.calls.set v (some r) = s.calls :=
  congrArg State.calls (s.putCall_self hr)

theorem State.laneFreed_eq {s : State} {v : Handle} {r : CallRecord} (hr : s.call? v = some r) :
    s.laneFreed v r = { s with
      maps := match r.ownedPort, r.ownedLane with
        | some p, some i =>
          s.maps.set p.idx { holders := (s.map p).holders.set i none, order := (s.map p).order.filter (· ≠ i) }
        | _, _ => s.maps
      crosses := s.crosses.filter fun x => !(r.ownedPort == some x.port && r.ownedLane == some x.lane)
      calls := s.calls.set v (some r.unlaned) } := by
  unfold State.laneFreed CallRecord.unlaned
  cases hp : r.ownedPort with
  | none =>
    simp [s.putCall_set hr]
  | some p =>
    cases hi : r.ownedLane with
    | none =>
      have he : { r with ownedLane := none } = r := by rw [← hi]
      simp [he, s.putCall_set hr]
    | some i =>
      have hx : (fun x : Cross => !(x.port == p && x.lane == i)) =
          fun x => !((some p : Option Owned) == some x.port && (some i : Option Nat) == some x.lane) := by
        funext x
        simp [Bool.beq_eq_decide_eq, eq_comm]
      simp only [hx]
      rfl

theorem State.mirrorEmptied_eq {s : State} {v : Handle} {r : CallRecord} (hr : s.call? v = some r) :
    s.mirrorEmptied v r = { s with
      mirror := match r.lLane with
        | some l => s.mirror.set l none
        | none => s.mirror
      crosses := s.crosses.filter fun x => !(r.lLane == some x.lLane)
      calls := s.calls.set v (some { r with lLane := none }) } := by
  unfold State.mirrorEmptied
  cases hl : r.lLane with
  | none =>
    have he : { r with lLane := none } = r := by rw [← hl]
    simp [he, s.putCall_set hr]
  | some l =>
    have hx : (fun x : Cross => !(x.lLane == l)) = fun x => !((some l : Option LLane) == some x.lLane) := by
      funext x
      simp [Bool.beq_eq_decide_eq, eq_comm]
    simp only [hx]
    rfl

theorem State.flatIdled_eq (s : State) (v : Handle) (r : CallRecord) :
    s.flatIdled v r = { s with
      activity := match r.far with
        | .floor f => if s.activity[f.slot].handle? = some v then s.activity.set f.slot .idle else s.activity
        | _ => s.activity } := by
  unfold State.flatIdled
  cases r.far <;> rfl

theorem State.clearedOrFreed_eq (s : State) (v : Handle) (r : CallRecord) :
    s.clearedOrFreed v r = { s with
      calls := s.calls.set v (if r.anyOpen then some r.guarded else none)
      freeHandles := if r.anyOpen then s.freeHandles else s.freeHandles ++ [v] } := by
  unfold State.clearedOrFreed
  cases r.anyOpen <;> rfl

/-- The tables of the lanes, the mirror and the activities when a record leaves its call, step by step (R145). -/
theorem State.leftCall_eq {s : State} {v : Handle} {r : CallRecord} (hr : s.call? v = some r) (r' r'' : CallRecord) :
    (((s.laneFreed v r).mirrorEmptied v r.unlaned).flatIdled v r').clearedOrFreed v r'' = { s with
      maps := match r.ownedPort, r.ownedLane with
        | some p, some i =>
          s.maps.set p.idx { holders := (s.map p).holders.set i none, order := (s.map p).order.filter (· ≠ i) }
        | _, _ => s.maps
      mirror := match r.lLane with
        | some l => s.mirror.set l none
        | none => s.mirror
      crosses := s.crosses.filter fun x =>
        !(r.lLane == some x.lLane) && !(r.ownedPort == some x.port && r.ownedLane == some x.lane)
      activity := match r'.far with
        | .floor f => if s.activity[f.slot].handle? = some v then s.activity.set f.slot .idle else s.activity
        | _ => s.activity
      calls := s.calls.set v (if r''.anyOpen then some r''.guarded else none)
      freeHandles := if r''.anyOpen then s.freeHandles else s.freeHandles ++ [v] } := by
  rw [State.mirrorEmptied_eq (State.call?_laneFreed hr), State.laneFreed_eq hr, State.flatIdled_eq,
    State.clearedOrFreed_eq]
  simp only [Vector.set_set, List.filter_filter]
  rfl

theorem State.callOver_eq (s : State) (v : Handle) (r : CallRecord) (c : Cause) (r' r'' : CallRecord)
    (h' : r' = { r with pendingCause := some c }) (h'' : r'' = { r'.unlaned with lLane := none }) :
    (((({ s.putCall v r' with waiting := s.waiting.filter fun x => !(x.handle == v) } : State).laneFreed v r').mirrorEmptied
      v r'.unlaned).flatIdled v r).clearedOrFreed v r'' = s.callOver v r c := by
  have hr : ({ s.putCall v r' with waiting := s.waiting.filter fun x => !(x.handle == v) } : State).call? v = some r' :=
    State.call?_putCall_self ..
  have hopen : r''.anyOpen = r.anyOpen := by subst h'' h'; rfl
  have hg : r''.guarded = r.cleared c := by
    subst h'' h'
    unfold CallRecord.guarded CallRecord.cleared CallRecord.modFloor CallRecord.unlaned
    cases hf : r.far <;> simp only [hf] <;> rfl
  rw [State.leftCall_eq hr, hopen, hg, State.callOver]
  simp only [Bool.and_comm (!(_ == some (Cross.lLane _)))]
  subst h'
  simp only [State.putCall, Vector.set_set]
  rfl

theorem Work.Makes.leaveWaiting {R : Prop} {w : Work} {u : State} (h : w.Makes R u) (v : Handle) :
    (w.leaveWaiting v).Makes R { u with waiting := u.waiting.filter fun x => !(x.handle == v) } := by
  have hw : w.st.waiting = u.waiting := State.bare_waiting h.bare
  unfold Work.leaveWaiting
  rw [hw]
  exact h.setWaiting _

/-- A release begun by this switch, all its steps (R145). -/
theorem Work.Makes.release {R : Prop} {w : Work} {u : State} (h : w.Makes R u) {v : Handle} {r : CallRecord}
    (hr : u.call? v = some r) (c : Cause) (hL : R → u.roomL (r.releaseCells .L c).length)
    (hH : R → u.roomH (r.releaseCells .H c).length)
    (hF : R → ∀ f, r.far = .floor f → u.roomF f.port (r.lastFloorCells v c).length) :
    (w.release v c).Makes R (u.ended v r c) := by
  obtain ⟨r', h'⟩ : ∃ r' : CallRecord, r' = { r with pendingCause := some c } := ⟨_, rfl⟩
  obtain ⟨r'', h''⟩ : ∃ r'' : CallRecord, r'' = { r'.unlaned with lLane := none } := ⟨_, rfl⟩
  obtain ⟨t, ht⟩ : ∃ t : State, t = { u.putCall v r' with waiting := u.waiting.filter fun x => !(x.handle == v) } :=
    ⟨_, rfl⟩
  have htr : t.call? v = some r' := by subst ht; exact State.call?_putCall_self ..
  have hports : ∀ a : State, a = (t.laneFreed v r').mirrorEmptied v r'.unlaned →
      (∀ n, a.roomL n ↔ u.roomL n) ∧ (∀ n, a.roomH n ↔ u.roomH n) ∧ ∀ k n, a.roomF k n ↔ u.roomF k n := by
    intro a ha
    have hm := TableChange.mirrorEmptied v r'.unlaned
    have hl := TableChange.laneFreed v r'
    subst ha
    refine ⟨fun n => ?_, fun n => ?_, fun k n => ?_⟩
    · rw [hm.roomL_iff, hl.roomL_iff, ht]; rfl
    · rw [hm.roomH_iff, hl.roomH_iff, ht]; rfl
    · rw [hm.roomF_iff, hl.roomF_iff, ht]; rfl
  obtain ⟨hpL, hpH, hpF⟩ := hports _ rfl
  have h1 := (h.modCall (f := fun r => { r with pendingCause := some c }) hr).leaveWaiting v
  rw [← h', State.putCall_waiting, ← ht] at h1
  have h2 := (h1.freeLane htr).emptyMirror (State.call?_laneFreed htr)
  have h3 := h2.releaseSides r c (fun hR => (hpL _).2 (hL hR)) (fun hR => (hpH _).2 (hH hR))
  have h4 := h3.tellFloor v r c fun hR f hf => by
    rw [State.roomF_sentH, State.roomF_sentL]
    exact (hpF _ _).2 (hF hR f hf)
  have hr4 : (((((t.laneFreed v r').mirrorEmptied v r'.unlaned).sentL (r.releaseCells .L c)).sentH
      (r.releaseCells .H c)).floorTold v r c |>.flatIdled v r).call? v = some r'' := by
    rw [State.call?_flatIdled, State.call?_floorTold, State.call?_sentH, State.call?_sentL, h'']
    exact State.call?_mirrorEmptied (State.call?_laneFreed htr)
  have h5 := h4.clearOrFree hr4
  have hi := TableChange.flatIdled v r
  have hc := TableChange.clearedOrFreed v r''
  rw [hi.floorTold, hi.sentH, hi.sentL, hc.floorTold, hc.sentH, hc.sentL, ht, State.callOver_eq u v r c r' r'' h' h''] at h5
  rw [Work.release, Work.withCall_live ((State.bare_call? h.bare v).trans hr)]
  exact h5

end Sys2Proof.Machine
end

