-- ==== Sys2Proof/Proofs/GoingOn.lean ====
section
/-! PROOFS. How a call goes on once it has a lane (R75, R76, R94, R111, R114, R129, R132): what each of these steps makes of
the state that the event will leave. -/

namespace Sys2Proof.Machine

/-! ## How a call goes on, case by case -/

/-- The record on its new lane. -/
abbrev CallRecord.onLane (r : CallRecord) (i : Nat) : CallRecord := { r with ownedLane := some i }

/-- The record forwarded up port H (R94). -/
abbrev CallRecord.forwardedOn (r : CallRecord) (h : Handle) (i units : Nat) : CallRecord :=
  { r with
    state := .forwarded, ownedLane := some i, far := .high (.opened (ownKey .H h))
    timer := startTimer .progressWait units }

/-- The record whose SETUP has gone down port L (R129, R132). -/
abbrev CallRecord.setUpOn (r : CallRecord) (h : Handle) (i units : Nat) : CallRecord :=
  { r with
    state := .awaitingGrant, ownedLane := some i, low := .opened (ownKey .L h)
    timer := startTimer .grantWait units }

/-- The record offered to its flat's handsets (R111). -/
abbrev CallRecord.offeredOn (r : CallRecord) (f : FloorSide) (i : Nat) (entries : List OfferEntry) : CallRecord :=
  { r with state := .offering, ownedLane := some i, timer := none, far := .floor { f with entries := entries } }

section
variable (s : State) (h : Handle) {r : CallRecord} (i : Nat)

theorem State.goneOn_forwarded (hd : r.dir = .up) (hf : ∀ f, r.far ≠ .floor f) :
    s.goneOn h r i = (s.putCall h (r.forwardedOn h i s.retained.timers.progressWait)).sentH
      [setupCell s r (ownKey .H h) (some i)] := by
  unfold State.goneOn
  split
  · next f _ hfar => exact absurd hfar (hf f)
  · rfl
  · next h' => rw [hd] at h'; cases h'

theorem State.goneOn_down (hd : r.dir = .down) :
    s.goneOn h r i = ((s.putCall h (r.setUpOn h i s.retained.timers.grantWait)).sentH
      ((r.openKey .H).toList.map fun key => laneGrantCell key (some i))).sentL [setupCell s r (ownKey .L h) none] := by
  unfold State.goneOn
  split
  · next h' _ => rw [hd] at h'; cases h'
  · next h' _ => rw [hd] at h'; cases h'
  · rfl

theorem FloorSide.firstSecond_eq (f : FloorSide) : f.firstSecond = if f.mode = .paired then f.ext else none := by
  unfold FloorSide.firstSecond
  cases f.mode <;> rfl

theorem State.firstEntries_eq (f : FloorSide) :
    s.firstEntries f = s.sentEntry f.main :: f.firstSecond.toList.map s.sentEntry := by
  unfold State.firstEntries FloorSide.firstSecond
  cases f.mode <;> cases f.ext <;> rfl

theorem State.goneOn_offered {f : FloorSide} (hd : r.dir = .up) (hf : r.far = .floor f) :
    s.goneOn h r i = ((s.putCall h (r.offeredOn f i (s.firstEntries f))).sentF f.port
      [offerCell h (some i) f.main f.firstSecond]).putActivity f.slot (.offered h) := by
  rw [State.firstEntries_eq, FloorSide.firstSecond_eq]
  unfold State.goneOn
  split
  · next f' _ hf' =>
    cases hf.symm.trans hf'
    rfl
  · next hf' =>
    exact absurd hf (hf' f)
  · next h' => rw [hd] at h'; cases h'

end

/-! ## Taking a lane and going on -/

section
variable {R : Prop} {w : Work} {u t : State} {h : Handle} {r : CallRecord} {i : Nat}

theorem Work.Makes.takeLane (hm : w.Makes R u) (hr : u.call? h = some r) (p : Owned) (i : Nat) :
    (w.takeLane h p i).Makes R ((u.laneTaken p i h).putCall h (r.onLane i)) := by
  have hmap : w.st.map p = u.map p := State.bare_map hm.bare p
  unfold Work.takeLane
  rw [hmap]
  exact (hm.setMap p { holders := (u.map p).holders.set i (some h), order := (u.map p).order.filter (· ≠ i) ++ [i] }).modCall
    (f := fun r => { r with ownedLane := some i }) hr

/-- An upward call is forwarded (R94). -/
theorem Work.Makes.forwardSetup (hm : w.Makes R (t.putCall h (r.onLane i))) (hd : r.dir = .up)
    (hf : ∀ f, r.far ≠ .floor f) (hH : R → t.roomH 1) : (w.forwardSetup h).Makes R (t.goneOn h r i) := by
  refine hm.withCall (State.call?_putCall_self ..) ?_
  have ht : w.st.progressTime = t.retained.timers.progressWait :=
    congrArg (fun d : Retained => d.timers.progressWait) (State.bare_retained hm.bare :)
  have hc := State.bare_setupCell hm.bare (r.onLane i) (ownKey .H h) (some i)
  rw [State.goneOn_forwarded t h i hd hf, ht, hc]
  have h1 := (hm.modCall (f := fun r => { r with
    far := .high (.opened (ownKey .H h)), state := .forwarded,
    timer := startTimer .progressWait t.retained.timers.progressWait }) (State.call?_putCall_self ..)).sendH
    (c := setupCell (t.putCall h (r.onLane i)) (r.onLane i) (ownKey .H h) (some i)) hH
  rw [State.putCall_putCall] at h1
  exact h1

/-- A downward call's SETUP goes down port L (R129, R132). -/
theorem Work.Makes.setupDown (hm : w.Makes R (t.putCall h (r.onLane i))) (hL : R → t.roomL 1) :
    (w.setupDown h).Makes R ((t.putCall h (r.setUpOn h i t.retained.timers.grantWait)).sentL
      [setupCell t r (ownKey .L h) none]) := by
  refine hm.withCall (State.call?_putCall_self ..) ?_
  have ht : w.st.grantTime = t.retained.timers.grantWait :=
    congrArg (fun d : Retained => d.timers.grantWait) (State.bare_retained hm.bare :)
  have hc := State.bare_setupCell hm.bare (r.onLane i) (ownKey .L h) none
  rw [ht, hc]
  have h1 := (hm.modCall (f := fun r => { r with
    low := .opened (ownKey .L h), state := .awaitingGrant,
    timer := startTimer .grantWait t.retained.timers.grantWait }) (State.call?_putCall_self ..)).sendL
    (c := setupCell (t.putCall h (r.onLane i)) (r.onLane i) (ownKey .L h) none) hL
  rw [State.putCall_putCall] at h1
  exact h1

/-- A downward call of a handset goes on (R129). -/
theorem Work.Makes.setupDown_goneOn (hm : w.Makes R (t.putCall h (r.onLane i))) (hd : r.dir = .down)
    (hk : r.openKey .H = none) (hL : R → t.roomL 1) : (w.setupDown h).Makes R (t.goneOn h r i) := by
  rw [State.goneOn_down t h i hd, hk]
  simpa using hm.setupDown hL

/-- A relayed downward call goes on, its lane told to the node above (R132). -/
theorem Work.Makes.grantUpper (hm : w.Makes R (t.putCall h (r.onLane i))) (hd : r.dir = .down) (hL : R → t.roomL 1)
    (hH : R → t.roomH 1) : (w.grantUpper h).Makes R (t.goneOn h r i) := by
  refine hm.withCall (State.call?_putCall_self ..) ?_
  have hk : (r.onLane i).openKey .H = r.openKey .H := rfl
  have h1 := hm.sendHOption (r.openKey .H) (laneGrantCell · (some i)) fun hR =>
    (State.roomH.mono (s := t.putCall h (r.onLane i)) (hH hR) (by cases r.openKey .H <;> simp))
  rw [← (TableChange.putCall h (r.onLane i)).sentH] at h1
  rw [State.goneOn_down t h i hd, hk]
  have h2 := h1.setupDown (i := i) fun hR => (State.roomL_sentH _ _).2 (hL hR)
  rw [(TableChange.putCall h _).sentH, State.sentH_retained] at h2
  have hc : setupCell (t.sentH ((r.openKey .H).toList.map fun key => laneGrantCell key (some i))) r (ownKey .L h) none =
      setupCell t r (ownKey .L h) none := State.bare_setupCell (State.bare_sentH ..) ..
  rw [hc] at h2
  exact h2

/-- An upward call is offered at its flat (R111). -/
theorem Work.Makes.startOffers (hm : w.Makes R (t.putCall h (r.onLane i))) {f : FloorSide} (hd : r.dir = .up)
    (hf : r.far = .floor f) (hF : R → t.roomF f.port 1) : (w.startOffers h).Makes R (t.goneOn h r i) := by
  refine hm.withCall (State.call?_putCall_self ..) ?_
  have he : w.st.firstEntries f = t.firstEntries f :=
    congrArg (fun d : Retained => State.firstEntries { t with retained := d } f) (State.bare_retained hm.bare :)
  have h1 := ((hm.modCall (f := fun r => { r with
    state := .offering, timer := none, far := .floor { f with entries := t.firstEntries f } })
    (State.call?_putCall_self ..)).setActivity f.slot (.offered h)).sendF
    (c := offerCell h (some i) f.main f.firstSecond) hF
  rw [State.putCall_putCall, ← (TableChange.putActivity f.slot _).sentF] at h1
  rw [State.goneOn_offered t h i hd hf]
  have hfar : (r.onLane i).far = .floor f := hf
  split
  · next f' hf' =>
    cases hfar.symm.trans hf'
    rw [he]
    exact h1
  · next hf' => exact absurd hfar (hf' f)

/-! ## A call connected at its flat -/

theorem FloorSide.answeredBy_eq (f : FloorSide) (a : Addr) : f.answeredBy a = f.withAnswer a := by
  unfold FloorSide.answeredBy FloorSide.withAnswer
  congr 1
  refine List.map_congr_left fun e _ => ?_
  split <;> rfl

theorem FloorSide.answerCells_eq (f : FloorSide) (h : Handle) (a : Addr) (i : Nat) :
    f.answerCells h a i = [statusCell h.val a .connected 0 (some i)] ++ cancelCells h (f.withAnswer a).entries := rfl

theorem TableChange.joinedLanes (x : List Cross) : TableChange fun s => { s with crosses := s.crosses ++ x } :=
  fun _ _ _ _ _ => rfl

/-- The call connects at its flat with handset `a` (R114, R120, R75). -/
theorem Work.Makes.connectFlat (hm : w.Makes R u) (hr : u.call? h = some r) {f : FloorSide} {a : Addr} {l : LLane}
    {key : Key} (hf : r.far = .floor f) (hl : r.lLane = some l) (hi : r.ownedLane = some i) (hk : r.openKey .L = some key)
    (hL : R → u.roomL 1) (hF : R → u.roomF f.port (f.answerCells h a i).length) :
    (w.connectFlat h a).Makes R (u.answered h r f a l i key) := by
  refine hm.withCall hr ?_
  have ht : w.st.talkTimer = u.talkTimer := funext (State.bare_talkTimer hm.bare)
  obtain ⟨r', hr'⟩ : ∃ r' : CallRecord, r' =
      { r with state := .connected, far := .floor (f.withAnswer a), talkOwner := true, timer := u.talkTimer r.cls } :=
    ⟨_, rfl⟩
  have h1 := hm.modCall (f := fun r => { r with
    far := .floor (f.withAnswer a), state := .connected, talkOwner := true, timer := u.talkTimer r.cls }) hr
  rw [← hr'] at h1
  rw [FloorSide.answerCells_eq] at hF
  have h2 := (h1.sendF (k := f.port) (c := statusCell h.val a .connected 0 (some i)) fun hR => (hF hR).mono (by
    simp)).cancelOffers h f.port (f.withAnswer a).entries fun hR => State.roomF_sentF (by
      have := hF hR
      rwa [List.length_append] at this)
  rw [State.sentF_sentF, ← FloorSide.answerCells_eq] at h2
  have hcall : ((u.putCall h r').sentF f.port (f.answerCells h a i)).call? h = some r' := by simp
  have h3 := h2.crossConnectOf (l := l) (p := .F f.port) (i := i) hcall (hr' ▸ hl) (by rw [hr']; rfl) (hr' ▸ hi)
  rw [(TableChange.joinedLanes _).sentF] at h3
  have h4 := (h3.connectToward (r := r) (p := .L) hk (fun hR _ => (State.roomL_sentF ..).2 (hL hR))
    (by simp)).setActivity f.slot (.engaged h)
  unfold State.answered
  rw [← hr']
  split
  · next f' hf' =>
    cases hf.symm.trans hf'
    rw [FloorSide.answeredBy_eq, hi, ht]
    exact h4
  · next hf' => exact absurd hf (hf' f)

/-! ## A parked call resumes -/

/-- The state after a record has got its lane back, before either side is told (R76). -/
def State.joinedAgain (s : State) (h : Handle) (r : CallRecord) (p : Owned) (i : Nat) : State :=
  let t := s.putCall h { r with
    state := .connected, ownedLane := some i, timer := if r.talkOwner then s.talkTimer r.cls else none }
  { t with
    crosses := match r.heldBelow, r.lLane with
      | false, some l => t.crosses ++ [{ handle := h, lLane := l, port := p, lane := i }]
      | _, _ => t.crosses }

/-- What the owned side of a parked call is told on a port (R58, R77). -/
def State.ownedTold (s : State) (h : Handle) (r : CallRecord) (p : Owned) (up : Progress) (floor : Status)
    (lane : Option Nat) : State :=
  match p with
  | .H => s.sentH (r.cellsUp up lane)
  | .F _ => s.statusSent h r floor lane

theorem State.resumed_eq (s : State) (h : Handle) (r : CallRecord) (p : Owned) (i : Nat) :
    s.resumed h r p i = ((s.joinedAgain h r p i).ownedTold h r p .resumed .resumed (some i)).sentL
      (if r.heldBelow then [] else r.cellsDown .resumed) := by
  unfold State.resumed
  cases hb : r.heldBelow
  · simp only [Bool.false_eq_true, if_false, State.ownedTold, State.joinedAgain, hb] <;> cases p <;> rfl
  · simp only [if_true, State.sentL_nil, State.ownedTold, State.joinedAgain, hb] <;> cases p <;> rfl

theorem State.roomL_ownedTold (s : State) (h : Handle) (r : CallRecord) (p : Owned) (c : Progress) (d : Status)
    (l : Option Nat) (n : Nat) : (s.ownedTold h r p c d l).roomL n ↔ s.roomL n := by
  unfold State.ownedTold State.statusSent
  cases p <;> cases r.far <;> simp

theorem CallRecord.cellsDown_length (r : CallRecord) (c : Progress) : (r.cellsDown c).length ≤ 1 := by
  unfold CallRecord.cellsDown; cases r.openKey .L <;> simp

theorem CallRecord.cellsUp_length (r : CallRecord) (c : Progress) (l : Option Nat) : (r.cellsUp c l).length ≤ 1 := by
  unfold CallRecord.cellsUp; cases r.openKey .H <;> simp

theorem FloorSide.answering_length (f : FloorSide) : f.answering.toList.length ≤ 1 := by cases f.answering <;> simp

/-- The floor side of a record whose owned port is a floor port. -/
theorem CallRecord.floor_of_ownedPort {r : CallRecord} {k : Floor} (hp : r.ownedPort = some (.F k)) :
    ∃ f, r.far = .floor f ∧ f.port = k := by
  unfold CallRecord.ownedPort at hp
  split at hp
  · cases hp
  · next f hf => exact ⟨f, hf, by simpa using hp⟩
  · cases hp

theorem CallRecord.far_of_ownedPort_H {r : CallRecord} (hp : r.ownedPort = some .H) : ∃ side, r.far = .high side := by
  unfold CallRecord.ownedPort at hp
  split at hp
  · cases hp
  · cases hp
  · next side hs => exact ⟨side, hs⟩

/-- The cell that tells the owned side of a call (R58, R77). -/
theorem Work.Makes.tellOwned (hm : w.Makes R u) (h : Handle) {p : Owned} (hp : r.ownedPort = some p)
    (c : Progress) (d : Status) (l : Option Nat) (hH : R → p = .H → u.roomH 1)
    (hF : R → ∀ k, p = .F k → u.roomF k 1) {w' : Work} (hwH : p = .H → w' = w.progressUp r c l)
    (hwF : ∀ k, p = .F k → w' = w.statusTo h r d 0 l) : w'.Makes R (u.ownedTold h r p c d l) := by
  cases p with
  | H =>
    rw [hwH rfl]
    exact hm.progressUp r c l fun hR => (hH hR rfl).mono (r.cellsUp_length c l)
  | F k =>
    rw [hwF k rfl]
    refine hm.statusTo h r d l fun hR f hf => ?_
    obtain ⟨f', hf', hk⟩ := CallRecord.floor_of_ownedPort hp
    cases hf.symm.trans hf'
    exact (hk ▸ hF hR k rfl).mono f.answering_length

theorem Work.Makes.resume (hm : w.Makes R (t.putCall h (r.onLane i))) {p : Owned} (hp : r.ownedPort = some p)
    (hL : R → t.roomL 1) (hH : R → p = .H → t.roomH 1) (hF : R → ∀ k, p = .F k → t.roomF k 1) :
    (w.resume h r p i).Makes R (t.resumed h r p i) := by
  obtain ⟨r', hr'⟩ : ∃ r' : CallRecord, r' = { r with
    state := .connected, ownedLane := some i, timer := if r.talkOwner then t.talkTimer r.cls else none } := ⟨_, rfl⟩
  have ht : w.st.talkTimer = t.talkTimer := funext (State.bare_talkTimer hm.bare :)
  have h1 := hm.modCall (f := fun r => { r with
    state := .connected, timer := if r.talkOwner then t.talkTimer r.cls else none }) (State.call?_putCall_self ..)
  rw [State.putCall_putCall, ← hr'] at h1
  have hjoin : (if r.heldBelow then (w.modCall h fun r => { r with
      state := .connected, timer := if r.talkOwner then t.talkTimer r.cls else none })
      else (w.modCall h fun r => { r with
      state := .connected, timer := if r.talkOwner then t.talkTimer r.cls else none }).crossConnect h).Makes R
      (t.joinedAgain h r p i) := by
    unfold State.joinedAgain
    rw [← hr']
    cases hb : r.heldBelow with
    | true => exact h1
    | false =>
      have h2 := h1.crossConnect (State.call?_putCall_self ..)
      have hj : r'.joins h = match r.lLane with
          | some l => [{ handle := h, lLane := l, port := p, lane := i }]
          | none => [] := by
        have hp' : r'.ownedPort = some p := by rw [hr']; exact hp
        unfold CallRecord.joins
        rw [hp', hr']
        cases r.lLane <;> rfl
      rw [hj] at h2
      cases hl : r.lLane with
      | none => rw [hl] at h2; simpa using h2
      | some l => rw [hl] at h2; exact h2
  rw [State.resumed_eq]
  unfold Work.resume
  rw [ht]
  dsimp only
  have h3 := fun w' => hjoin.tellOwned h hp .resumed .resumed (some i) hH hF (w' := w')
  cases hb : r.heldBelow with
  | true =>
    simp only [hb, if_true, State.sentL_nil] at h3 ⊢
    exact h3 _ (by rintro rfl; rfl) (by rintro k rfl; rfl)
  | false =>
    simp only [hb, Bool.false_eq_true, if_false] at h3 ⊢
    exact (h3 _ (by rintro rfl; rfl) (by rintro k rfl; rfl)).progressDown r .resumed fun hR =>
      (State.roomL_ownedTold ..).2 ((hL hR).mono (r.cellsDown_length _))

end

end Sys2Proof.Machine
end

