-- ==== Sys2Proof/Proofs/Grants.lean ====
section
/-! PROOFS. The arbiter (R72 to R77): a grant, the walk for a port, and the runs at the end of an event, each in the state
that the event will leave. -/

namespace Sys2Proof.Machine

/-! ## A grant -/

/-- The state in which a granted record goes on: its lane is HELD, its entry has left the list (R74). -/
abbrev State.gained (s : State) (h : Handle) (p : Owned) (i : Nat) : State :=
  { s.laneTaken p i h with waiting := s.waiting.filter fun x => !(x.handle == h) }

/-- A WAITING_LANE record going up is as it was queued: it has its L lane and its open low side (R65, R90). -/
abbrev CallRecord.KeepsLow (r : CallRecord) : Prop :=
  r.state = .waitingLane → r.dir = .up → r.lLane.isSome = true ∧ (r.openKey .L).isSome = true

theorem CallRecord.preAnswer?_down {r : CallRecord} (hd : r.dir = .down) : r.preAnswer? = none := by
  unfold CallRecord.preAnswer?
  rw [hd]

theorem CallRecord.preAnswer?_notFloor {r : CallRecord} (hf : ∀ f, r.far ≠ .floor f) : r.preAnswer? = none := by
  unfold CallRecord.preAnswer?
  split
  · next f _ _ _ h _ _ => exact absurd h (hf f)
  · rfl

theorem CallRecord.preAnswer?_floor {r : CallRecord} {f : FloorSide} {l : LLane} {key : Key} (hd : r.dir = .up)
    (hf : r.far = .floor f) (hl : r.lLane = some l) (hk : r.openKey .L = some key) :
    r.preAnswer? = if f.preAnswered then f.answering.map fun a => (f, a, l, key) else none := by
  unfold CallRecord.preAnswer?
  rw [hd, hf, hl, hk]

theorem State.answered_putCall (s : State) (h : Handle) (r₀ r : CallRecord) (f : FloorSide) (a : Addr) (l : LLane) (i : Nat)
    (key : Key) : (s.putCall h r₀).answered h r f a l i key = s.answered h r f a l i key := by
  unfold State.answered
  dsimp only
  rw [State.putCall_putCall]
  rfl

/-- The number of offer entries of a record. -/
def CallRecord.offers (r : CallRecord) : Nat := (r.far.floor?.map fun f => f.entries.length).getD 0

theorem CallRecord.offers_floor {r : CallRecord} {f : FloorSide} (hf : r.far = .floor f) : r.offers = f.entries.length := by
  simp [CallRecord.offers, hf, Far.floor?]

/-- How many handsets a grant may have to tell besides the one on the call: those offered a call that was not parked. -/
def CallRecord.grantOffers (r : CallRecord) : Nat := if r.state = .parked then 0 else r.offers

section
variable {R : Prop} {w : Work} {u : State} {h : Handle} {r : CallRecord} {p : Owned} {i : Nat}

theorem State.granted_parked (s : State) (h : Handle) (p : Owned) (i : Nat) (hst : r.state = .parked) :
    s.granted h r p i = (s.gained h p i).resumed h r p i := if_pos hst

theorem State.granted_preAnswered (s : State) (h : Handle) (p : Owned) (i : Nat) (hst : r.state ≠ .parked) {f : FloorSide}
    {a : Addr} {l : LLane} {key : Key} (hpre : r.preAnswer? = some (f, a, l, key)) :
    s.granted h r p i = (s.gained h p i).answered h (r.onLane i) f a l i key := by
  unfold State.granted
  rw [if_neg hst, hpre]

theorem State.granted_goesOn (s : State) (h : Handle) (p : Owned) (i : Nat) (hst : r.state ≠ .parked)
    (hpre : r.preAnswer? = none) : s.granted h r p i = (s.gained h p i).goneOn h r i := by
  unfold State.granted
  rw [if_neg hst, hpre]

theorem FloorSide.answerCells_length (f : FloorSide) (h : Handle) (a : Addr) (i : Nat) :
    (f.answerCells h a i).length ≤ f.entries.length + 1 := by
  have := List.length_filter_le (fun e : OfferEntry => decide (e.state ≠ .answered)) (f.withAnswer a).entries
  simp only [FloorSide.answerCells, List.length_cons, List.length_map]
  simp only [FloorSide.withAnswer, List.length_map] at this ⊢
  omega

/-- A WAITING_LANE record goes on from where it was queued (R75). -/
theorem Work.Makes.goOn (hm : w.Makes R ((u.gained h p i).putCall h (r.onLane i))) (hst : r.state = .waitingLane)
    (hp : r.ownedPort = some p) (hlow : r.KeepsLow) (hL : R → u.roomL 1) (hH : R → p = .H → u.roomH 1)
    (hF : R → ∀ f, r.far = .floor f → u.roomF f.port (f.entries.length + 1)) :
    (w.goOn h r).Makes R (u.granted h r p i) := by
  have hnp : r.state ≠ .parked := by rw [hst]; decide
  have hpH : ∀ side, r.far = .high side → p = .H := by
    intro side hs
    simpa [CallRecord.ownedPort, hs] using hp.symm
  unfold Work.goOn
  split
  · next f hd hf =>
    obtain ⟨hl, hk⟩ := hlow hst hd
    obtain ⟨l, hl⟩ := Option.isSome_iff_exists.1 hl
    obtain ⟨key, hk⟩ := Option.isSome_iff_exists.1 hk
    have hpre := CallRecord.preAnswer?_floor hd hf hl hk
    have hroom : R → (u.gained h p i).roomF f.port 1 := fun hR => State.roomF.mono (hF hR f hf) (by omega)
    split
    · next hpa =>
      rw [if_pos hpa] at hpre
      split
      · next a ha =>
        rw [ha] at hpre
        rw [State.granted_preAnswered u h p i hnp hpre]
        have hfar : (r.onLane i).far = .floor f := hf
        have h1 := hm.connectFlat (State.call?_putCall_self ..) (a := a) hfar hl rfl hk hL fun hR =>
          State.roomF.mono (hF hR f hf) (f.answerCells_length h a i)
        exact State.answered_putCall .. ▸ h1
      · next ha =>
        rw [ha] at hpre
        rw [State.granted_goesOn u h p i hnp hpre]
        exact hm.startOffers hd hf hroom
    · next hpa =>
      rw [if_neg hpa] at hpre
      rw [State.granted_goesOn u h p i hnp hpre]
      exact hm.startOffers hd hf hroom
  · next hd hf =>
    rw [State.granted_goesOn u h p i hnp (CallRecord.preAnswer?_notFloor hf)]
    refine hm.forwardSetup hd hf fun hR => ?_
    cases hfar : r.far with
    | floor f => exact absurd hfar (hf f)
    | none => simp [CallRecord.ownedPort, hfar] at hp
    | high side => exact hH hR (hpH side hfar)
  · next side hd hs =>
    rw [State.granted_goesOn u h p i hnp (CallRecord.preAnswer?_down hd)]
    exact hm.grantUpper hd hL fun hR => hH hR (hpH side hs)
  · next hd hs =>
    rw [State.granted_goesOn u h p i hnp (CallRecord.preAnswer?_down hd)]
    refine hm.setupDown_goneOn hd ?_ hL
    cases hfar : r.far with
    | high side => exact absurd hfar (hs side)
    | none => simp [CallRecord.openKey, hfar, Far.riser?]
    | floor f => simp [CallRecord.openKey, hfar, Far.riser?]

/-- An entry is granted a lane (R74). -/
theorem Work.Makes.grant (hm : w.Makes R u) (hr : u.call? h = some r) (hW : r.Waits) (hp : r.ownedPort = some p)
    (hlow : r.KeepsLow) (hL : R → u.roomL 1) (hH : R → p = .H → u.roomH 1)
    (hF : R → ∀ k, p = .F k → u.roomF k (r.grantOffers + 1)) (i : Nat) :
    (w.grant h p i).Makes R (u.granted h r p i) := by
  refine hm.withCall hr ?_
  have h1 : ((w.takeLane h p i).leaveWaiting h).Makes R ((u.gained h p i).putCall h (r.onLane i)) :=
    (hm.takeLane hr p i).leaveWaiting h
  dsimp only
  split
  · next hst =>
    rw [State.granted_parked u h p i hst]
    refine h1.resume hp hL hH fun hR k e => ?_
    exact State.roomF.mono (hF hR k e) (by omega)
  · next hst =>
    refine h1.goOn (hW.resolve_right hst) hp hlow hL hH fun hR f hf => ?_
    have h2 := hF hR f.port (by simpa [CallRecord.ownedPort, hf] using hp.symm)
    rwa [CallRecord.grantOffers, if_neg hst, CallRecord.offers_floor hf] at h2

end

/-! ## What a grant leaves -/

/-- The cells of a grant on port p: at most one on port L, at most one on port H and then p is port H, and the rest on the
floor port k that p is. -/
structure GrantCells (p : Owned) (n : Nat) (a b : List RiserCell) (k : Floor) (c : List FloorCell) : Prop where
  low   : a.length ≤ 1
  high  : b.length ≤ 1
  onH   : b ≠ [] → p = .H
  floor : c.length ≤ n + 1
  onF   : c ≠ [] → p = .F k

/-- The record of a call that has just got a lane. -/
structure CallRecord.GotLane (r r' : CallRecord) (p : Owned) (i : Nat) : Prop where
  port   : r'.ownedPort = some p
  lane   : r'.ownedLane = some i
  waits  : ¬ r'.Waits
  live   : r'.state ≠ .clearing
  cls    : r'.cls = r.cls
  dir    : r'.dir = r.dir
  lLane  : r'.lLane = r.lLane

/-- A record, the cross-connects and the activities have changed. -/
abbrev State.withCallTables (s : State) (h : Handle) (r' : CallRecord) (x : List Cross) (act : Vector Activity 96) :
    State :=
  { s.putCall h r' with crosses := x, activity := act }

/-- The second state is the first with a record on its new lane, its cross-connects and activities, and the cells of a
grant. -/
def State.GoesOn (t u : State) (h : Handle) (r : CallRecord) (p : Owned) (i n : Nat) : Prop :=
  ∃ r' x act a b k c, u = (((t.withCallTables h r' x act).sentL a).sentH b).sentF k c ∧
    GrantCells p n a b k c ∧ r.GotLane r' p i

theorem State.GoesOn.mono {t u : State} {h : Handle} {r : CallRecord} {p : Owned} {i n m : Nat} (hu : t.GoesOn u h r p i n) (hm : n ≤ m) : t.GoesOn u h r p i m := by
  obtain ⟨r', x, act, a, b, k, c, he, hc, hg⟩ := hu
  exact ⟨r', x, act, a, b, k, c, he, ⟨hc.low, hc.high, hc.onH, hc.floor.trans (by omega), hc.onF⟩, hg⟩

section
variable (t : State) (h : Handle) {r : CallRecord} {p : Owned} (i : Nat)

theorem State.resumed_goesOn (hp : r.ownedPort = some p) : t.GoesOn (t.resumed h r p i) h r p i 0 := by
  obtain ⟨r', hr'⟩ : ∃ r' : CallRecord, r' = { r with
    state := .connected, ownedLane := some i, timer := if r.talkOwner then t.talkTimer r.cls else none } := ⟨_, rfl⟩
  have hgot : r.GotLane r' p i := by
    subst hr'
    exact ⟨hp, rfl, by simp [CallRecord.Waits], by simp, rfl, rfl, rfl⟩
  have hlow : (if r.heldBelow then [] else r.cellsDown .resumed).length ≤ 1 := by
    have := r.cellsDown_length .resumed
    split
    · simp
    · exact this
  cases p with
  | H =>
    refine ⟨r', (t.joinedAgain h r .H i).crosses, t.activity, if r.heldBelow then [] else r.cellsDown .resumed, r.cellsUp .resumed (some i), 0, [], ?_,
      ⟨hlow, r.cellsUp_length .., fun _ => rfl, by simp, by simp⟩, hgot⟩
    rw [State.sentF_nil, State.resumed_eq, hr', State.sentL_sentH]
    rfl
  | F k =>
    obtain ⟨f, hf, hk⟩ := CallRecord.floor_of_ownedPort hp
    have hlen := f.answering_length
    refine ⟨r', (t.joinedAgain h r (.F k) i).crosses, t.activity, if r.heldBelow then [] else r.cellsDown .resumed, [], k,
      f.answering.toList.map fun a => statusCell h.val a .resumed 0 (some i), ?_,
      ⟨hlow, by simp, by simp, by simp, fun _ => rfl⟩, hgot⟩
    have htold : ∀ u : State, u.ownedTold h r (.F k) .resumed .resumed (some i) =
        u.sentF k (f.answering.toList.map fun a => statusCell h.val a .resumed 0 (some i)) := fun u => by
      simp only [State.ownedTold, State.statusSent, hf, hk]
    rw [State.sentH_nil, State.resumed_eq, hr', State.sentL_sentF, htold]
    rfl

theorem State.answered_goesOn {f : FloorSide} (a : Addr) (l : LLane) (key : Key) (hf : r.far = .floor f)
    (hp : r.ownedPort = some p) : t.GoesOn (t.answered h (r.onLane i) f a l i key) h r p i r.offers := by
  have hpk : p = .F f.port := by simpa [CallRecord.ownedPort, hf] using hp.symm
  subst hpk
  refine ⟨{ r with
      state := .connected, ownedLane := some i, far := .floor (f.withAnswer a), talkOwner := true
      timer := t.talkTimer r.cls }, t.crosses ++ [{ handle := h, lLane := l, port := .F f.port, lane := i }],
    t.activity.set f.slot (.engaged h), [connectCell key], [], f.port, f.answerCells h a i, ?_,
    ⟨by simp, by simp, by simp, ?_, fun _ => rfl⟩, ⟨rfl, rfl, by simp [CallRecord.Waits], by simp, rfl, rfl, rfl⟩⟩
  · rw [State.sentH_nil]
    unfold State.answered
    dsimp only
    rw [(TableChange.putActivity f.slot _).sentL, (TableChange.putActivity f.slot _).sentF, State.sentL_sentF]
    rfl
  · rw [CallRecord.offers_floor hf]; exact f.answerCells_length h a i

theorem State.goneOn_goesOn (hp : r.ownedPort = some p) : t.GoesOn (t.goneOn h r i) h r p i 0 := by
  cases hd : r.dir with
  | up =>
    cases hf : r.far with
    | floor f =>
      have hpk : p = .F f.port := by simpa [CallRecord.ownedPort, hf] using hp.symm
      subst hpk
      refine ⟨r.offeredOn f i (t.firstEntries f), t.crosses, t.activity.set f.slot (.offered h), [], [], f.port,
        [offerCell h (some i) f.main f.firstSecond], ?_, ⟨by simp, by simp, by simp, by simp, fun _ => rfl⟩,
        ⟨rfl, rfl, by simp [CallRecord.Waits], by simp, rfl, rfl, rfl⟩⟩
      rw [State.sentL_nil, State.sentH_nil, State.goneOn_offered t h i hd hf, (TableChange.putActivity f.slot _).sentF]
      rfl
    | none => simp [CallRecord.ownedPort, hf] at hp
    | high side =>
      have hpH : p = .H := by simpa [CallRecord.ownedPort, hf] using hp.symm
      subst hpH
      refine ⟨r.forwardedOn h i t.retained.timers.progressWait, t.crosses, t.activity, [],
        [setupCell t r (ownKey .H h) (some i)], 0, [], ?_, ⟨by simp, by simp, fun _ => rfl, by simp, by simp⟩,
        ⟨rfl, rfl, by simp [CallRecord.Waits], by simp, rfl, rfl, rfl⟩⟩
      rw [State.sentL_nil, State.sentF_nil, State.goneOn_forwarded t h i hd (by simp [hf])]
      rfl
  | down =>
    refine ⟨r.setUpOn h i t.retained.timers.grantWait, t.crosses, t.activity, [setupCell t r (ownKey .L h) none],
      (r.openKey .H).toList.map fun key => laneGrantCell key (some i), 0, [], ?_,
      ⟨by simp, by cases r.openKey .H <;> simp, fun hb => ?_, by simp, by simp⟩,
      ⟨hp, rfl, by simp [CallRecord.Waits], by simp, rfl, rfl, rfl⟩⟩
    · rw [State.sentF_nil, State.goneOn_down t h i hd, ← State.sentL_sentH]
      rfl
    · cases hf : r.far with
      | high side => simpa [CallRecord.ownedPort, hf] using hp.symm
      | none => simp [CallRecord.openKey, hf, Far.riser?] at hb
      | floor f => simp [CallRecord.openKey, hf, Far.riser?] at hb

theorem CallRecord.preAnswer?_some {f : FloorSide} {a : Addr} {l : LLane} {key : Key}
    (h : r.preAnswer? = some (f, a, l, key)) : r.far = .floor f := by
  unfold CallRecord.preAnswer? at h
  split at h
  · next f' l' key' _ hf _ _ =>
    split at h
    · rw [Option.map_eq_some_iff] at h
      obtain ⟨a', -, he⟩ := h
      cases he
      exact hf
    · cases h
  · cases h

/-- However a granted record goes on, it has its lane, and sends at most one cell on each riser port. -/
theorem State.granted_goesOn_all (s : State) (hp : r.ownedPort = some p) :
    (s.gained h p i).GoesOn (s.granted h r p i) h r p i r.grantOffers := by
  unfold CallRecord.grantOffers
  by_cases hst : r.state = .parked
  · rw [if_pos hst]
    rw [State.granted_parked s h p i hst]
    exact (s.gained h p i).resumed_goesOn h i hp
  · rw [if_neg hst]
    cases hpre : r.preAnswer? with
    | none =>
      rw [State.granted_goesOn s h p i hst hpre]
      exact ((s.gained h p i).goneOn_goesOn h i hp).mono (Nat.zero_le _)
    | some x =>
      obtain ⟨f, a, l, key⟩ := x
      rw [State.granted_preAnswered s h p i hst hpre]
      exact (s.gained h p i).answered_goesOn h i a l key (CallRecord.preAnswer?_some hpre) hp

end

section
variable {t u : State} {h : Handle} {r : CallRecord} {p : Owned} {i m : Nat}

theorem State.GoesOn.waiting (hu : t.GoesOn u h r p i m) : u.waiting = t.waiting := by
  obtain ⟨r', x, act, a, b, k, c, rfl, -⟩ := hu
  simp

theorem State.GoesOn.retained (hu : t.GoesOn u h r p i m) : u.retained = t.retained := by
  obtain ⟨r', x, act, a, b, k, c, rfl, -⟩ := hu
  simp

theorem State.GoesOn.maps (hu : t.GoesOn u h r p i m) : u.maps = t.maps := by
  obtain ⟨r', x, act, a, b, k, c, rfl, -⟩ := hu
  simp

theorem State.GoesOn.call?_ne (hu : t.GoesOn u h r p i m) {v : Handle} (hv : h ≠ v) : u.call? v = t.call? v := by
  obtain ⟨r', x, act, a, b, k, c, rfl, -⟩ := hu
  rw [State.call?_sentF, State.call?_sentH, State.call?_sentL]
  exact State.call?_putCall_ne t r' hv

theorem State.GoesOn.roomL (hu : t.GoesOn u h r p i m) {n : Nat} (hn : t.roomL (n + 1)) : u.roomL n := by
  obtain ⟨r', x, act, a, b, k, c, rfl, hc, -⟩ := hu
  rw [State.roomL_sentF, State.roomL_sentH]
  exact State.roomL_sentL (State.roomL.mono (s := t) hn (by have := hc.low; omega))

theorem State.GoesOn.roomH (hu : t.GoesOn u h r p i m) {n : Nat} (hn : p = .H → t.roomH (n + 1)) (hn' : p ≠ .H → t.roomH n) :
    u.roomH n := by
  obtain ⟨r', x, act, a, b, k, c, rfl, hc, -⟩ := hu
  rw [State.roomH_sentF]
  refine State.roomH_sentH ?_
  rw [State.roomH_sentL]
  by_cases hp : p = .H
  · exact State.roomH.mono (s := t) (hn hp) (by have := hc.high; omega)
  · have hb : b = [] := by
      by_contra hb
      exact hp (hc.onH hb)
    subst hb
    rw [List.length_nil, Nat.zero_add]
    exact hn' hp

theorem State.GoesOn.roomF (hu : t.GoesOn u h r p i 0) {j : Floor} {n : Nat}
    (hn : p = .F j → t.roomF j (n + 1)) (hn' : p ≠ .F j → t.roomF j n) : u.roomF j n := by
  obtain ⟨r', x, act, a, b, k, c, rfl, hc, -⟩ := hu
  by_cases hj : p = .F j
  · by_cases hkj : k = j
    · subst hkj
      refine State.roomF_sentF ?_
      rw [State.roomF_sentH, State.roomF_sentL]
      exact State.roomF.mono (s := t) (hn hj) (by have := hc.floor; omega)
    · refine State.roomF_sentF_ne hkj ?_
      rw [State.roomF_sentH, State.roomF_sentL]
      exact State.roomF.mono (s := t) (hn hj) (by omega)
  · have hc' : c = [] ∨ k ≠ j := by
      by_contra hx
      push Not at hx
      exact hj (hx.2 ▸ hc.onF hx.1)
    rcases hc' with rfl | hkj
    · rw [State.sentF_nil, State.roomF_sentH, State.roomF_sentL]
      exact hn' hj
    · refine State.roomF_sentF_ne hkj ?_
      rw [State.roomF_sentH, State.roomF_sentL]
      exact hn' hj

end

/-! ## The walk -/

/-- The entries for a port among a list. -/
abbrev entriesAt (p : Owned) (l : List WaitEntry) : List WaitEntry := l.filter fun x => x.port = p

/-- A record that waits as it was queued keeps its low side, and no offer has been made. -/
theorem CallRecord.WaitsFor.keepsLow {r : CallRecord} {p : Owned} (h : r.WaitsFor p) : r.KeepsLow :=
  fun hst hd => (h.2.2 hst).1 hd

theorem CallRecord.WaitsFor.grantOffers {r : CallRecord} {p : Owned} (h : r.WaitsFor p) : r.grantOffers = 0 := by
  unfold CallRecord.grantOffers
  split
  · rfl
  · next hst =>
    have hnone := (h.2.2 (h.1.resolve_right hst)).2
    unfold CallRecord.offers
    cases hf : r.far.floor? with
    | none => rfl
    | some f => simp [hnone f hf]

/-- One grant of a walk: the record of the entry, and what is left of the line and of the room. -/
theorem State.InLine.grant {s : State} {p : Owned} {x : WaitEntry} {l : List WaitEntry} (hl : s.InLine (x :: l))
    (hx : x.port = p) : ∃ r, s.call? x.handle = some r ∧ r.WaitsFor p ∧
      ∀ i, (s.granted x.handle r p i).InLine l ∧ ∀ n, s.roomToGrant p (n + 1) → (s.granted x.handle r p i).roomToGrant p n := by
  obtain ⟨hnd, hall⟩ := hl
  obtain ⟨r, hr, hW⟩ := hall x (by simp)
  rw [hx] at hW
  refine ⟨r, hr, hW, fun i => ?_⟩
  have hg := State.granted_goesOn_all x.handle i s hW.2.1
  rw [hW.grantOffers] at hg
  rw [List.map_cons, List.nodup_cons] at hnd
  refine ⟨⟨hnd.2, fun y hy => ?_⟩, fun n ⟨hL, hH, hF⟩ => ⟨hg.roomL hL, fun e => hg.roomH hH (absurd e), fun k e => hg.roomF (hF k) (absurd e)⟩⟩
  obtain ⟨r', hr', hW'⟩ := hall y (by simp [hy])
  have hne : x.handle ≠ y.handle := fun e => hnd.1 (e ▸ List.mem_map_of_mem hy)
  refine ⟨r', ?_, hW'⟩
  rw [hg.call?_ne hne]
  exact hr'

/-- The walk for a port grants the entries in order, as far as the admission test passes (R73, R74). -/
theorem Work.Makes.walk {R : Prop} (p : Owned) (l : List WaitEntry) {w : Work} {u : State} (hm : w.Makes R u)
    (hl : u.InLine (entriesAt p l)) (hroom : R → u.roomToGrant p (entriesAt p l).length) :
    (w.walk p l).Makes R (u.walked p l) := by
  induction l generalizing w u with
  | nil => exact hm
  | cons x rest ih =>
    unfold Work.walk State.walked
    split
    · next hx =>
      have he : entriesAt p (x :: rest) = x :: entriesAt p rest := List.filter_cons_of_pos (by simpa using hx)
      rw [he] at hl hroom
      obtain ⟨r, hr, hW, hnext⟩ := hl.grant hx
      rw [State.bare_entryPriority hm.bare, State.bare_admitLane hm.bare, hr]
      cases hi : u.admitLane p (u.entryPriority x) with
      | none => exact hm
      | some i =>
        obtain ⟨hline, hleft⟩ := hnext i
        refine ih (hm.grant hr hW.1 hW.2.1 hW.keepsLow (fun hR => ?_) (fun hR e => ?_) (fun hR k e => ?_) i) hline
          fun hR => hleft _ (hroom hR)
        · exact State.roomL.mono (hroom hR).1 (by simp)
        · exact State.roomH.mono ((hroom hR).2.1 e) (by simp)
        · rw [hW.grantOffers]
          exact State.roomF.mono ((hroom hR).2.2 k e) (by simp)
    · next hx =>
      have he : entriesAt p (x :: rest) = entriesAt p rest := List.filter_cons_of_neg (by simpa using hx)
      rw [he] at hl hroom
      exact ih hm hl hroom

/-! ## The runs at the end of an event -/

section
variable (w : Work) (h : Handle) (p : Owned)

@[simp] theorem Work.takeLane_runs (i : Nat) : (w.takeLane h p i).runs = w.runs := rfl

@[simp] theorem Work.forwardSetup_runs : (w.forwardSetup h).runs = w.runs :=
  Work.withCall_runs fun r => by simp

@[simp] theorem Work.setupDown_runs : (w.setupDown h).runs = w.runs :=
  Work.withCall_runs fun r => by simp

@[simp] theorem Work.grantUpper_runs : (w.grantUpper h).runs = w.runs :=
  Work.withCall_runs fun r => by split <;> simp

@[simp] theorem Work.startOffers_runs : (w.startOffers h).runs = w.runs :=
  Work.withCall_runs fun r => by split <;> simp

@[simp] theorem Work.connectFlat_runs (a : Addr) : (w.connectFlat h a).runs = w.runs :=
  Work.withCall_runs fun r => by split <;> simp

@[simp] theorem Work.goOn_runs (r : CallRecord) : (w.goOn h r).runs = w.runs := by
  unfold Work.goOn
  split
  · split
    · split <;> simp
    · simp
  all_goals simp

@[simp] theorem Work.resume_runs (r : CallRecord) (i : Nat) : (w.resume h r p i).runs = w.runs := by
  unfold Work.resume
  dsimp only
  split <;> split <;> simp

@[simp] theorem Work.grant_runs (i : Nat) : (w.grant h p i).runs = w.runs :=
  Work.withCall_runs fun r => by dsimp only; split <;> simp

@[simp] theorem Work.walk_runs (l : List WaitEntry) : (w.walk p l).runs = w.runs := by
  induction l generalizing w with
  | nil => rfl
  | cons x rest ih =>
    unfold Work.walk
    split
    · split
      · rw [ih, Work.grant_runs]
      · rfl
    · exact ih w

@[simp] theorem Work.runFor_runs : (w.runFor p).runs = w.runs := by
  unfold Work.runFor
  split <;> simp

end

end Sys2Proof.Machine
end

