-- ==== Sys2Proof/Proofs/ArbiterRuns.lean ====
section
/-! PROOFS. The arbiter's runs at the end of an event (R72, R73), in the state that the event leaves; the end of a call and the
run for the lane that it frees. -/

namespace Sys2Proof.Machine

/-! ## What a walk leaves -/

/-- What a walk for port p over n entries of the state `s` leaves as it was in `u`. -/
structure State.WalkLeaves (s u : State) (p : Owned) (l : List WaitEntry) : Prop where
  waiting : u.waiting.Sublist s.waiting
  calls   : ∀ v, v ∉ l.map WaitEntry.handle → u.call? v = s.call? v
  roomL   : ∀ n, s.roomL (n + l.length) → u.roomL n
  roomH   : ∀ n, (p = .H → s.roomH (n + l.length)) → (p ≠ .H → s.roomH n) → u.roomH n
  roomF   : ∀ k n, (p = .F k → s.roomF k (n + l.length)) → (p ≠ .F k → s.roomF k n) → u.roomF k n

theorem State.WalkLeaves.refl (s : State) (p : Owned) (l : List WaitEntry) : s.WalkLeaves s p l where
  waiting := .refl _
  calls _ _ := rfl
  roomL n h := h.mono (by omega)
  roomH n h h' := by
    by_cases hp : p = .H
    · exact (h hp).mono (by omega)
    · exact h' hp
  roomF k n h h' := by
    by_cases hp : p = .F k
    · exact (h hp).mono (by omega)
    · exact h' hp

theorem State.walked_leaves (p : Owned) (l : List WaitEntry) (s : State) (hl : s.InLine (entriesAt p l)) :
    s.WalkLeaves (s.walked p l) p (entriesAt p l) := by
  induction l generalizing s with
  | nil => exact State.WalkLeaves.refl s p _
  | cons x rest ih =>
    unfold State.walked
    split
    · next hx =>
      have he : entriesAt p (x :: rest) = x :: entriesAt p rest := List.filter_cons_of_pos (by simpa using hx)
      rw [he] at hl ⊢
      obtain ⟨r, hr, hW, hnext⟩ := hl.grant hx
      rw [hr]
      cases hi : s.admitLane p (s.entryPriority x) with
      | none => exact State.WalkLeaves.refl s p _
      | some i =>
        obtain ⟨hline, -⟩ := hnext i
        obtain ⟨hw, hc, hL, hH, hF⟩ := ih _ hline
        have hg := State.granted_goesOn_all x.handle i s hW.2.1
        rw [hW.grantOffers] at hg
        refine ⟨hw.trans ?_, fun v hv => ?_, fun n hn => ?_, fun n hn hn' => ?_, fun k n hn hn' => ?_⟩
        · rw [hg.waiting]; exact List.filter_sublist
        · rw [List.map_cons, List.mem_cons, not_or] at hv
          rw [hc v hv.2, hg.call?_ne (Ne.symm hv.1)]
          rfl
        · exact hL n (hg.roomL (by rw [List.length_cons] at hn; exact hn))
        · refine hH n (fun e => hg.roomH (fun e' => ?_) (absurd e)) fun e => hg.roomH (fun e' => absurd e' e) hn'
          have := hn e
          rwa [List.length_cons, ← Nat.add_assoc] at this
        · refine hF k n (fun e => hg.roomF (fun e' => ?_) (absurd e)) fun e => hg.roomF (fun e' => absurd e' e) hn'
          have := hn e
          rwa [List.length_cons, ← Nat.add_assoc] at this
    · next hx =>
      have he : entriesAt p (x :: rest) = entriesAt p rest := List.filter_cons_of_neg (by simpa using hx)
      rw [he] at hl ⊢
      exact ih s hl

/-! ## The runs of an event -/

theorem State.InLine.sublist {s : State} {l l' : List WaitEntry} (h : s.InLine l) (hs : l'.Sublist l) : s.InLine l' :=
  ⟨h.1.sublist (hs.map _), fun x hx => h.2 x (hs.subset hx)⟩

theorem State.InLine.congr {s u : State} {l : List WaitEntry} (h : s.InLine l)
    (hc : ∀ x ∈ l, u.call? x.handle = s.call? x.handle) : u.InLine l :=
  ⟨h.1, fun x hx => by rw [hc x hx]; exact h.2 x hx⟩

/-- The entries for the ports of a list that the event runs the arbiter for. -/
abbrev runEntries (ports : Owned → Bool) (qs : List Owned) (l : List WaitEntry) : List WaitEntry :=
  l.filter fun x => qs.contains x.port && ports x.port

/-- Room for as many grants as there are entries for the ports of a list that the event runs the arbiter for. -/
structure State.RoomForRuns (s : State) (ports : Owned → Bool) (qs : List Owned) : Prop where
  roomL : s.roomL (runEntries ports qs s.waiting).length
  roomH : Owned.H ∈ qs → ports .H = true → s.roomH (entriesAt .H s.waiting).length
  roomF : ∀ k, Owned.F k ∈ qs → ports (.F k) = true → s.roomF k (entriesAt (.F k) s.waiting).length

section
variable {ports : Owned → Bool} {p : Owned} {qs : List Owned}

theorem runEntries_skip (hp : ports p = false) (l : List WaitEntry) : runEntries ports (p :: qs) l = runEntries ports qs l := by
  refine List.filter_congr fun x _ => ?_
  by_cases hx : x.port = p
  · rw [hx, hp, Bool.and_false, Bool.and_false]
  · rw [List.contains_cons, beq_false_of_ne hx, Bool.false_or]

theorem entriesAt_sublist (hp : ports p = true) (l : List WaitEntry) :
    (entriesAt p l).Sublist (runEntries ports (p :: qs) l) := by
  refine List.monotone_filter_right l fun x hx => ?_
  have hx' : x.port = p := by simpa using hx
  simp [hx', hp]

theorem runEntries_tail_sublist (l : List WaitEntry) :
    (runEntries ports qs l).Sublist (runEntries ports (p :: qs) l) := by
  refine List.monotone_filter_right l fun x hx => ?_
  simp only [Bool.and_eq_true, List.contains_cons, Bool.or_eq_true] at hx ⊢
  exact ⟨.inr hx.1, hx.2⟩

theorem runEntries_length (hp : ports p = true) (hq : p ∉ qs) (l : List WaitEntry) :
    (runEntries ports (p :: qs) l).length = (runEntries ports qs l).length + (entriesAt p l).length := by
  induction l with
  | nil => rfl
  | cons x l ih =>
    unfold runEntries entriesAt at ih ⊢
    rw [List.filter_cons, List.filter_cons, List.filter_cons]
    by_cases hx : x.port = p
    · have hc : qs.contains x.port = false := by simpa [hx] using hq
      simp [hx, hp] at ih ⊢
      rw [if_neg hq]
      omega
    · have : (p :: qs).contains x.port = qs.contains x.port := by
        rw [List.contains_cons, beq_false_of_ne hx, Bool.false_or]
      simp only [this, hx, decide_false, Bool.false_eq_true, if_false]
      split
      · rw [List.length_cons, List.length_cons, ih]
        omega
      · exact ih

theorem runEntries_mono {l l' : List WaitEntry} (h : l'.Sublist l) :
    (runEntries ports qs l').Sublist (runEntries ports qs l) := h.filter _

/-- The records of the entries for the other ports are not those of port p. -/
theorem State.InLine.others {s : State} {l : List WaitEntry} (h : s.InLine (runEntries ports (p :: qs) l))
    (hp : ports p = true) (hq : p ∉ qs) {x : WaitEntry} (hx : x ∈ runEntries ports qs l) :
    x.handle ∉ (entriesAt p l).map WaitEntry.handle := by
  intro hmem
  obtain ⟨y, hy, he⟩ := List.mem_map.1 hmem
  have hxy : x = y := (List.inj_on_of_nodup_map h.1) ((runEntries_tail_sublist l).subset hx)
    ((entriesAt_sublist hp l).subset hy) he.symm
  subst hxy
  have h1 : x.port = p := by simpa using (List.mem_filter.1 hy).2
  have h2 := (List.mem_filter.1 hx).2
  simp only [Bool.and_eq_true, List.contains_iff_mem] at h2
  exact hq (h1 ▸ h2.1)

/-- The runs for a list of ports, in their order. -/
theorem Work.Makes.runPorts {R : Prop} (hnd : qs.Nodup) {w : Work} {u : State}
    (hm : w.Makes R u) (hruns : ∀ p, w.runs.contains p = ports p) (hl : u.InLine (runEntries ports qs u.waiting))
    (hroom : R → u.RoomForRuns ports qs) :
    (qs.foldl Work.runFor w).Makes R (qs.foldl (fun t p => if ports p then t.arbitrated p else t) u) := by
  induction qs generalizing w u with
  | nil => exact hm
  | cons p qs ih =>
    rw [List.nodup_cons] at hnd
    rw [List.foldl_cons, List.foldl_cons, Work.runFor, hruns]
    cases hp : ports p with
    | false =>
      rw [runEntries_skip hp] at hl
      simp only [Bool.false_eq_true, if_false]
      refine ih hnd.2 hm hruns hl fun hR => ?_
      obtain ⟨hL, hH, hF⟩ := hroom hR
      exact ⟨runEntries_skip hp _ ▸ hL, fun hm => hH (List.mem_cons_of_mem _ hm), fun k hm => hF k (List.mem_cons_of_mem _ hm)⟩
    | true =>
      simp only [if_true]
      have hat : u.InLine (entriesAt p u.waiting) := hl.sublist (entriesAt_sublist hp _)
      obtain ⟨hw, hc, hkL, hkH, hkF⟩ := State.walked_leaves p u.waiting u hat
      have hwait : w.st.waiting = u.waiting := State.bare_waiting hm.bare
      have hlen := runEntries_length hp hnd.1 u.waiting
      rw [hwait]
      refine ih hnd.2 (hm.walk p u.waiting hat fun hR => ?_) (fun q => by rw [Work.walk_runs]; exact hruns q) ?_ fun hR => ?_
      · obtain ⟨hL, hH, hF⟩ := hroom hR
        exact ⟨hL.mono (by omega), fun e => by subst e; exact hH (by simp) hp, fun k e => by subst e; exact hF k (by simp) hp⟩
      · refine ((hl.sublist (runEntries_tail_sublist _)).congr fun x hx => hc _ (hl.others hp hnd.1 hx)).sublist ?_
        exact runEntries_mono hw
      · obtain ⟨hL, hH, hF⟩ := hroom hR
        refine ⟨(hkL _ (hlen ▸ hL)).mono (runEntries_mono hw).length_le, fun hmem hpo => ?_, fun k hmem hpo => ?_⟩
        · refine State.roomH.mono (hkH _ (fun e => absurd (e ▸ hmem) hnd.1) fun _ => hH (List.mem_cons_of_mem _ hmem) hpo) ?_
          exact (hw.filter _).length_le
        · refine State.roomF.mono (hkF k _ (fun e => absurd (e ▸ hmem) hnd.1) fun _ => hF k (List.mem_cons_of_mem _ hmem) hpo) ?_
          exact (hw.filter _).length_le

end

theorem mem_allOwned (p : Owned) : p ∈ allOwned := by
  cases p with
  | H => decide
  | F k => revert k; decide

theorem runEntries_all (ports : Owned → Bool) (l : List WaitEntry) :
    runEntries ports allOwned l = l.filter fun x => ports x.port :=
  List.filter_congr fun x _ => by simp [mem_allOwned]

/-- The end of an event that asks for the arbiter's runs (R72): the first entries for each of its ports are granted, as far as
their tests pass. -/
theorem Work.Makes.runArbiter {R : Prop} {ports : Owned → Bool} {w : Work} {u : State} (hm : w.Makes R u)
    (hruns : ∀ p, w.runs.contains p = ports p) (hl : u.InLine (u.waiting.filter fun x => ports x.port))
    (hL : R → u.roomL (u.waiting.filter fun x => ports x.port).length)
    (hH : R → ports .H = true → u.roomH (u.entriesFor .H).length)
    (hF : R → ∀ k, ports (.F k) = true → u.roomF k (u.entriesFor (.F k)).length) :
    w.runArbiter.Makes R (u.arbitratedAt ports) := by
  rw [← runEntries_all] at hl hL
  exact hm.runPorts (by decide) hruns hl fun hR => ⟨hL hR, fun _ => hH hR, fun k _ => hF hR k⟩

/-- The run for one port alone. -/
theorem State.arbitratedAt_one (s : State) (p : Owned) : s.arbitratedAt (fun q => q == p) = s.arbitrated p := by
  unfold State.arbitratedAt allOwned
  cases p with
  | H => rfl
  | F k => revert k; intro k; fin_cases k <;> rfl

theorem Work.Makes.runArbiter_one {R : Prop} {p : Owned} {w : Work} {u : State} (hm : w.Makes R u)
    (hruns : ∀ q, w.runs.contains q = (q == p)) (hl : u.InLine (u.entriesFor p))
    (hroom : R → u.roomToGrant p (u.entriesFor p).length) : w.runArbiter.Makes R (u.arbitrated p) := by
  have he : (u.waiting.filter fun x => x.port == p) = u.entriesFor p := List.filter_congr fun x _ => by
    simp [Bool.beq_eq_decide_eq]
  rw [← State.arbitratedAt_one]
  refine hm.runArbiter hruns (he ▸ hl) (fun hR => he ▸ (hroom hR).1) (fun hR h => ?_) fun hR k h => ?_
  · cases eq_of_beq h
    exact (hroom hR).2.1 rfl
  · cases eq_of_beq h
    exact (hroom hR).2.2 k rfl

end Sys2Proof.Machine
end

