-- ==== Sys2Proof/Proofs/CallEnds.lean ====
section
/-! PROOFS. The end of a call in the words of the statements (`State.ended`): what it leaves as it was, the room it leaves, and
the arbiter's run for the lane it frees (R60, R72, R145). -/

namespace Sys2Proof.Machine

section
variable (s : State) (v : Handle) (r : CallRecord) (c : Cause)

theorem State.floorTold_eq : s.floorTold v r c = s ∨ ∃ f, r.far = .floor f ∧
    s.floorTold v r c = s.sentF f.port (r.lastFloorCells v c) := by
  unfold State.floorTold
  cases hf : r.far with
  | floor f => exact .inr ⟨f, rfl, rfl⟩
  | none => exact .inl rfl
  | high side => exact .inl rfl

@[simp] theorem State.bare_floorTold : (s.floorTold v r c).bare = s.bare := by
  rcases s.floorTold_eq v r c with h | ⟨f, -, h⟩ <;> rw [h]
  exact s.bare_sentF _ _

@[simp] theorem State.bare_ended : (s.ended v r c).bare = (s.callOver v r c).bare := by
  rw [State.ended, State.bare_floorTold, State.bare_sentH, State.bare_sentL]

@[simp] theorem State.ended_waiting : (s.ended v r c).waiting = s.waiting.filter fun x => !(x.handle == v) :=
  (State.bare_waiting (s.bare_ended v r c) :)

theorem State.ended_call?_ne {v' : Handle} (hv : v ≠ v') : (s.ended v r c).call? v' = s.call? v' := by
  rw [State.bare_call? (s.bare_ended v r c)]
  have : v.val ≠ v'.val := fun e => hv (Fin.ext e)
  simp [State.call?, State.callOver, this]

theorem State.ended_call?_self : (s.ended v r c).call? v = if r.anyOpen then some (r.cleared c) else none := by
  rw [State.bare_call? (s.bare_ended v r c)]
  simp [State.call?, State.callOver]

@[simp] theorem State.ended_retained : (s.ended v r c).retained = s.retained :=
  (State.bare_retained (s.bare_ended v r c) :)

theorem CallRecord.releaseCells_length (p : Riser) : (r.releaseCells p c).length ≤ 1 := by
  unfold CallRecord.releaseCells; cases r.openKey p <;> simp

theorem CallRecord.releaseCells_closed {r : CallRecord} {p : Riser} (h : r.openKey p = none) (c : Cause) :
    r.releaseCells p c = [] := by
  simp [CallRecord.releaseCells, h]

theorem State.roomL_floorTold (n : Nat) : (s.floorTold v r c).roomL n ↔ s.roomL n := by
  rcases s.floorTold_eq v r c with h | ⟨f, -, h⟩ <;> rw [h]
  exact State.roomL_sentF ..

theorem State.roomH_floorTold (n : Nat) : (s.floorTold v r c).roomH n ↔ s.roomH n := by
  rcases s.floorTold_eq v r c with h | ⟨f, -, h⟩ <;> rw [h]
  exact State.roomH_sentF ..

variable {s v r c}

theorem State.ended_roomL {n : Nat} (h : s.roomL ((r.releaseCells .L c).length + n)) : (s.ended v r c).roomL n := by
  rw [State.ended, State.roomL_floorTold, State.roomL_sentH]
  exact State.roomL_sentL (s := s.callOver v r c) h

theorem State.ended_roomH {n : Nat} (h : s.roomH ((r.releaseCells .H c).length + n)) : (s.ended v r c).roomH n := by
  rw [State.ended, State.roomH_floorTold]
  refine State.roomH_sentH ?_
  rw [State.roomH_sentL]
  exact h

theorem State.ended_roomF {k : Floor} {n : Nat}
    (h : ∀ f, r.far = .floor f → f.port = k → s.roomF k ((r.lastFloorCells v c).length + n)) (h' : s.roomF k n) :
    (s.ended v r c).roomF k n := by
  have hroom : ∀ m, s.roomF k m → ((((s.callOver v r c).sentL (r.releaseCells .L c)).sentH (r.releaseCells .H c)).roomF k m) :=
    fun m hm => by
      rw [State.roomF_sentH, State.roomF_sentL]
      exact hm
  rw [State.ended]
  rcases State.floorTold_eq (((s.callOver v r c).sentL (r.releaseCells .L c)).sentH (r.releaseCells .H c)) v r c with
    he | ⟨f, hf, he⟩ <;> rw [he]
  · exact hroom n h'
  · by_cases hk : f.port = k
    · subst hk
      exact State.roomF_sentF (hroom _ (h f hf rfl))
    · exact State.roomF_sentF_ne hk (hroom n h')

end

/-! ## The run for the lane that the end of a call frees -/

section
variable {s : State} {v : Handle} {r : CallRecord} {c : Cause}

theorem CallRecord.ownedPort_of_freed {r : CallRecord} {p : Owned} (h : r.freedPort = some p) : r.ownedPort = some p := by
  unfold CallRecord.freedPort at h
  obtain ⟨-, -, h⟩ := Option.bind_eq_some_iff.1 h
  exact h

theorem State.ended_entriesFor {p : Owned} (hp : r.freedPort = some p) (r' : CallRecord) :
    (s.ended v r' c).entriesFor p = s.waitersOn v r := by
  unfold State.entriesFor State.waitersOn
  rw [State.ended_waiting, List.filter_filter, hp]
  refine List.filter_congr fun x _ => ?_
  rw [bne, decide_eq_decide.2 (show some p = some x.port ↔ x.port = p by rw [Option.some.injEq, eq_comm])]

theorem State.ended_inLine (hl : s.InLine (s.waitersOn v r)) (r' : CallRecord) :
    (s.ended v r' c).InLine (s.waitersOn v r) := by
  refine hl.congr fun x hx => State.ended_call?_ne s v r' c fun e => ?_
  have := (List.mem_filter.1 hx).2
  simp [e] at this

/-- A call ends, and the arbiter runs for the lane it frees: `r` is the record as its lane is freed, `r'` as it is released. -/
theorem Work.Makes.release_regrants {R : Prop} {w : Work} (hm : w.Makes R s) {r' : CallRecord} (hr : s.call? v = some r')
    (hfree : r'.freedPort = r.freedPort) (hruns : w.runs = []) (hl : s.InLine (s.waitersOn v r))
    (hL : R → s.roomL ((r'.releaseCells .L c).length + (s.waitersOn v r).length))
    (hH : R → s.roomH ((r'.releaseCells .H c).length + (s.waitersOn v r).length))
    (hF : R → ∀ f, r'.far = .floor f → s.roomF f.port ((r'.lastFloorCells v c).length + (s.waitersOn v r).length)) :
    (w.release v c).runArbiter.Makes R ((s.ended v r' c).regranted r) := by
  have h1 := hm.release hr c (fun hR => (hL hR).mono (by omega)) (fun hR => (hH hR).mono (by omega))
    fun hR f hf => (hF hR f hf).mono (by omega)
  have hrun : (w.release v c).runs = r.freedPort.toList := by
    rw [Work.release_runs ((State.bare_call? hm.bare v).trans hr), hruns, hfree, List.append_nil]
  unfold State.regranted
  cases hp : r.freedPort with
  | none =>
    rw [hp] at hrun
    rw [Work.runArbiter_noRuns (by simpa using hrun)]
    exact h1
  | some p =>
    rw [hp] at hrun
    have he := State.ended_entriesFor (s := s) (v := v) (c := c) hp r'
    refine h1.runArbiter_one (fun q => ?_) (by rw [he]; exact State.ended_inLine hl r') fun hR => ?_
    · rw [hrun]
      simp [Bool.beq_eq_decide_eq]
    · rw [he]
      refine ⟨State.ended_roomL (hL hR), fun _ => State.ended_roomH (hH hR), fun k hk => ?_⟩
      obtain ⟨f, hf, hfk⟩ : ∃ f, r'.far = .floor f ∧ f.port = k := by
        exact CallRecord.floor_of_ownedPort (CallRecord.ownedPort_of_freed (hfree.trans (hp.trans (congrArg some hk))))
      have := hF hR f hf
      exact State.ended_roomF (fun f' hf' hk' => by cases hf.symm.trans hf'; exact hfk ▸ this) (hfk ▸ this.mono (by omega))

/-- The same with the room that the statements ask for. -/
theorem Work.Makes.release_roomToEnd {w : Work} (hm : w.Makes True s) (hr : s.call? v = some r) (hruns : w.runs = [])
    (hl : s.InLine (s.waitersOn v r)) (hroom : s.roomToEnd v r c) :
    (w.release v c).finish = (s.ended v r c).regranted r := by
  obtain ⟨hL, hH, hF⟩ := hroom
  exact (hm.release_regrants hr rfl hruns hl (fun _ => hL.mono (by have := r.releaseCells_length c .L; omega))
    (fun _ => hH.mono (by have := r.releaseCells_length c .H; omega)) fun _ f hf => hF f hf).flush

end

end Sys2Proof.Machine
end

