-- ==== Sys2Proof/Proofs/ReleaseAndExpiry.lean ====
section
/-! PROOFS. RELEASE and RELEASE-DONE (R145 to R147), and the expiries of the record timers (O23, O41). -/

namespace Sys2Proof.Machine

section
variable {s : State} {h : Handle} {r : CallRecord} {c : Cause}

theorem State.ended_putCall (s : State) (h : Handle) (r₀ r : CallRecord) (c : Cause) :
    (s.putCall h r₀).ended h r c = s.ended h r c := by
  have hc : (s.putCall h r₀).callOver h r c = s.callOver h r c := by
    simp only [State.callOver, State.putCall, Vector.set_set]
    rfl
  rw [State.ended, State.ended, hc]

theorem CallRecord.closeSide_freedPort (r : CallRecord) (p : Riser) : (r.closeSide p).freedPort = r.freedPort := by
  unfold CallRecord.closeSide CallRecord.freedPort CallRecord.ownedPort
  cases p
  · rfl
  · cases hf : r.far <;> simp only [hf]

theorem CallRecord.closeSide_lastFloorCells (r : CallRecord) (p : Riser) (v : Handle) (c : Cause) :
    (r.closeSide p).lastFloorCells v c = r.lastFloorCells v c := by
  unfold CallRecord.closeSide CallRecord.lastFloorCells
  cases p
  · rfl
  · cases hf : r.far <;> simp only [hf]

theorem CallRecord.closeSide_floor {r : CallRecord} {p : Riser} {f : FloorSide} : 
    (r.closeSide p).far = .floor f ↔ r.far = .floor f := by
  unfold CallRecord.closeSide
  cases p
  · rfl
  · cases hf : r.far <;> simp [hf]

theorem CallRecord.openKey_closeSide_self (r : CallRecord) (p : Riser) : (r.closeSide p).openKey p = none := by
  unfold CallRecord.closeSide
  cases p with
  | L =>
    simp only [CallRecord.openKey]
    cases r.low <;> rfl
  | H =>
    cases hf : r.far with
    | high side => cases side <;> rfl
    | none => simp [CallRecord.openKey, hf, Far.riser?]
    | floor f => simp [CallRecord.openKey, hf, Far.riser?]

/-- The waiters of a record's freed lane do not depend on the record of the handle. -/
theorem State.InLine.waitersOn_putCall (hl : s.InLine (s.waitersOn h r)) (r' : CallRecord) :
    (s.putCall h r').InLine ((s.putCall h r').waitersOn h r) := by
  have hw : (s.putCall h r').waitersOn h r = s.waitersOn h r := rfl
  rw [hw]
  refine hl.congr fun x hx => State.call?_putCall_ne s r' fun e => ?_
  have := (List.mem_filter.1 hx).2
  simp [e] at this

@[simp] theorem State.sentOn_call? (s : State) (p : Riser) (l : List RiserCell) (v : Handle) :
    (s.sentOn p l).call? v = s.call? v := by
  cases p
  · exact s.call?_sentL l v
  · exact s.call?_sentH l v

@[simp] theorem State.sentOn_waiting (s : State) (p : Riser) (l : List RiserCell) :
    (s.sentOn p l).waiting = s.waiting := by
  cases p
  · exact s.sentL_waiting l
  · exact s.sentH_waiting l

theorem State.sentOn_waitersOn (s : State) (p : Riser) (l : List RiserCell) (v : Handle) (r : CallRecord) :
    (s.sentOn p l).waitersOn v r = s.waitersOn v r := by
  simp only [State.waitersOn, State.sentOn_waiting]

/-- Where one cell has gone on a riser port, a side of it that is now closed takes no other. -/
theorem State.sentOn_roomL (p : Riser) (x : RiserCell) {n : Nat} (hL : s.roomL (n + 1)) :
    (s.sentOn p [x]).roomL (((r.closeSide p).releaseCells .L c).length + n) := by
  cases p with
  | L =>
    rw [CallRecord.releaseCells_closed (r.openKey_closeSide_self .L)]
    exact State.roomL_sentL (hL.mono (by simp; omega))
  | H =>
    refine (State.roomL_sentH _ _).2 (hL.mono ?_)
    have := (r.closeSide .H).releaseCells_length c .L
    omega

theorem State.sentOn_roomH (p : Riser) (x : RiserCell) {n : Nat} (hH : s.roomH (n + 1)) :
    (s.sentOn p [x]).roomH (((r.closeSide p).releaseCells .H c).length + n) := by
  cases p with
  | H =>
    rw [CallRecord.releaseCells_closed (r.openKey_closeSide_self .H)]
    exact State.roomH_sentH (hH.mono (by simp; omega))
  | L =>
    refine (State.roomH_sentL _ _).2 (hH.mono ?_)
    have := (r.closeSide .L).releaseCells_length c .H
    omega

theorem State.sentOn_roomF (p : Riser) (l : List RiserCell) (k : Floor) (n : Nat) : (s.sentOn p l).roomF k n ↔ s.roomF k n := by
  cases p
  · exact State.roomF_sentL ..
  · exact State.roomF_sentH ..

theorem exec_release_live {p : Riser} {key : Key} (code : Byte) (hp : s.powered = true) (hu : s.receives p = true)
    (hk : s.keyed p key = some h) (hr : s.call? h = some r) (hc : r.state ≠ .clearing) :
    exec (.release p key code) s = .next ((((Work.start s).sendRiser p (releaseDoneCell key)).modCall h
      fun r => r.closeSide p).release h (Cause.ofByte code)).finish := by
  rw [exec_release, execRelease, onRiser_receives hp hu, Work.start_st, hk]
  dsimp only
  rw [Work.withCall_live (w := Work.start s) hr, if_neg hc]

/-- Settles O23: the side answered closes, and the call ends toward its other sides; in CLEARING the side alone closes. -/
theorem releaseHandshake : Obligations.ReleaseHandshake := by
  refine ⟨fun s p key code h r hp hu hk hr hc hl hroom => ?_, fun s p key code h r hp hu hk hr hc => ?_⟩
  · obtain ⟨hL, hH, hF⟩ := hroom
    have hcall : (s.sentOn p [releaseDoneCell key]).call? h = some r := by rw [State.sentOn_call?]; exact hr
    have h1 := ((Work.Makes.start True s).sendRiser (p := p) (c := releaseDoneCell key)
      (fun _ _ => hL.mono (by omega)) fun _ _ => hH.mono (by omega)).modCall (f := fun r => r.closeSide p) hcall
    have hline : (s.sentOn p [releaseDoneCell key]).InLine ((s.sentOn p [releaseDoneCell key]).waitersOn h r) := by
      rw [State.sentOn_waitersOn]
      exact hl.congr fun x _ => State.sentOn_call? ..
    have hw : ((s.sentOn p [releaseDoneCell key]).putCall h (r.closeSide p)).waitersOn h r = s.waitersOn h r :=
      State.sentOn_waitersOn ..
    have h2 := h1.release_regrants (c := Cause.ofByte code) (r := r) (State.call?_putCall_self ..)
      (r.closeSide_freedPort p) (by simp) (hline.waitersOn_putCall _)
      (fun _ => by rw [hw]; exact State.sentOn_roomL p _ hL) (fun _ => by rw [hw]; exact State.sentOn_roomH p _ hH)
      fun _ f hf => by
        rw [hw, CallRecord.closeSide_lastFloorCells]
        exact (State.sentOn_roomF ..).2 (hF f (CallRecord.closeSide_floor.1 hf))
    rw [State.ended_putCall] at h2
    refine (exec_release_live code hp hu hk hr hc).trans (congrArg Host.Outcome.next (h2.flush.trans ?_))
    cases p <;> rfl
  · have h1 := (Work.Makes.start True s).closeCleared hr p
    refine ⟨?_, ?_⟩
    · rw [exec_release, execRelease]
      refine onRiser_makes hp hu ?_ ?_ <;> rw [Work.start_st, hk] <;> dsimp only <;>
        rw [Work.withCall_live (w := Work.start s) hr, if_pos hc]
      · exact h1
      · simp
    · rw [exec_releaseDone, execReleaseDone]
      refine onRiser_makes hp hu ?_ ?_ <;> rw [Work.start_st, hk] <;> dsimp only <;>
        rw [Work.withCall_live (w := Work.start s) hr, if_pos hc]
      · exact h1
      · simp

/-! ## Expiries -/

/-- The expiry of a timer that runs. -/
theorem onExpiry_runs {m : Timer} {purpose : Purpose} {k : Work → CallRecord → Work} (hp : s.powered = true)
    (hr : s.call? h = some r) (hm : r.timer = some m) (hpu : m.purpose = purpose) :
    onExpiry s h purpose k = .next (k (Work.start s) r).finish := by
  have ht : r.timing purpose = true := by simp [CallRecord.timing, hm, hpu]
  rw [onExpiry, event_powered hp, Work.withCall_live (w := Work.start s) hr, if_pos ht]

/-- An expiry that ends the call. -/
theorem onExpiry_releases {m : Timer} {purpose : Purpose} {k : Work → CallRecord → Work} (hp : s.powered = true)
    (hr : s.call? h = some r) (hm : r.timer = some m) (hpu : m.purpose = purpose) (hroom : s.roomToEnd h r c)
    (hl : s.InLine (s.waitersOn h r)) (hk : k (Work.start s) r = (Work.start s).release h c) :
    onExpiry s h purpose k = .next ((s.ended h r c).regranted r) := by
  rw [onExpiry_runs hp hr hm hpu, hk]
  exact congrArg _ ((Work.Makes.start True s).release_roomToEnd hr rfl hl hroom)

theorem State.roomL_of_withEvent {e : Event} {n : Nat} (hn : (s.withEvent e).roomL (n + 1)) : s.roomL (n + 1) := by
  intro hu
  have h1 := hn (by rw [State.withEvent_riserUp]; exact hu)
  have h2 : (s.withEvent e).portL.queue.length = s.portL.queue.length + (s.noticeOf e).length := by
    simp [State.withEvent, State.sentL, hu]
  omega

theorem State.withEvent_waitersOn (s : State) (e : Event) (v : Handle) (r : CallRecord) :
    (s.withEvent e).waitersOn v r = s.waitersOn v r := by
  simp only [State.waitersOn, State.withEvent_waiting]

/-- A call ends behind an event of its own. -/
theorem release_withEvent {e : Event} (hr : s.call? h = some r) (hroom : (s.withEvent e).roomToEnd h r c)
    (hl : s.InLine (s.waitersOn h r)) :
    (((Work.start s).raise e).release h c).finish = ((s.withEvent e).ended h r c).regranted r := by
  have h1 := (Work.Makes.start True s).raise (e := e) (fun _ => ⟨rfl, rfl⟩) fun _ =>
    State.roomL.mono (State.roomL_of_withEvent hroom.1) (by omega)
  refine h1.release_roomToEnd (by rw [State.call?_withEvent]; exact hr) rfl ?_ hroom
  rw [State.withEvent_waitersOn]
  exact hl.congr fun x _ => State.call?_withEvent ..

/-- Settles O41: each expiry in its state ends the call, or goes on with it; the guard frees the record. -/
theorem expiries : Obligations.Expiries := by
  refine ⟨fun s h r m c hp hr hm hroom hl => ⟨?progress, ?grant, ?ring, ?talk⟩, ?lane, ?near, ?guard⟩
  case progress =>
    rintro hpu hst rfl
    exact (exec_progressWaitExpiry ..).trans (onExpiry_releases hp hr hm hpu hroom hl (if_pos hst))
  case grant =>
    rintro hpu hst rfl
    exact (exec_grantWaitExpiry ..).trans (onExpiry_releases hp hr hm hpu hroom hl (if_pos hst))
  case ring =>
    rintro hpu hst rfl
    exact (exec_ringTimerExpiry ..).trans (onExpiry_releases hp hr hm hpu hroom hl (if_pos hst))
  case talk =>
    rintro hpu hst rfl
    exact (exec_talkLimitExpiry ..).trans (onExpiry_releases hp hr hm hpu hroom hl (if_pos hst))
  case lane =>
    intro s h r m hp hr hm hpu hst hroom hl
    rw [exec_laneWaitExpiry, execLaneWaitExpiry, onExpiry_runs hp hr hm hpu, if_pos hst]
    exact congrArg _ (release_withEvent hr hroom hl)
  case near =>
    intro s h r m f a hp hr hm hpu hnear hst hf ha hL hF
    have h1 := (((Work.Makes.start True s).modCall (f := fun r => { r with timer := some { m with near := none } })
      hr).progressDown r .limitNear fun _ => State.roomL.mono (s := s) hL (r.cellsDown_length _)).statusToFloor h hf
        .limitNear 0 none fun _ => by
      rw [State.roomF_sentL]
      exact State.roomF.mono (s := s) hF f.answering_length
    rw [ha] at h1
    rw [exec_limitNear, execLimitNear, onExpiry_runs hp hr hm hpu, hm]
    dsimp only
    rw [if_pos ⟨hst, hnear⟩]
    exact congrArg _ (h1.finish (by simp))
  case guard =>
    intro s h r m hp hr hm hpu hst hL
    have hfirst : ((Work.start s).freeCall h).raised = EventSets.empty ∧ ((Work.start s).freeCall h).outL = [] := by
      simp [Work.freeCall, Work.call?, hr, Work.start]
    have h1 := ((Work.Makes.start True s).freeCall hr).raise (e := .guardExpiry) (fun _ => hfirst) fun _ => hL
    rw [exec_guardTimerExpiry, execGuardTimerExpiry, onExpiry_runs hp hr hm hpu, if_pos hst]
    exact congrArg _ (h1.finish (by simp))

end

end Sys2Proof.Machine
end

