-- ==== Sys2Proof/Proofs/OfferResponses.lean ====
section
/-! PROOFS. The commands of the handsets: the responses to an offer (R112 to R118), HOOK and UNLATCH (R143, R144, R152). -/

namespace Sys2Proof.Machine

section
variable {s : State} {k : Floor} {a : Addr} {handle : Byte} {h : Handle} {r : CallRecord} {f : FloorSide}

/-! ## The response that an entry matches -/

theorem handleOf_eq (hh : handle.toNat = h.val) : handleOf handle = some h := by
  unfold handleOf
  rw [dif_pos (by rw [hh]; exact h.isLt)]
  exact congrArg some (Fin.ext hh)

theorem State.floorCall_eq (hr : s.call? h = some r) (hf : r.far = .floor f) (hk : f.port = k) :
    s.floorCall k h = some (r, f) := by
  simp [State.floorCall, hr, hf, hk]

theorem State.floorCall_some {x : CallRecord × FloorSide} (hx : s.floorCall k h = some x) :
    s.call? h = some x.1 ∧ x.1.far = .floor x.2 ∧ x.2.port = k := by
  unfold State.floorCall at hx
  split at hx
  · next r hr =>
    split at hx
    · next f hf =>
      split at hx
      · next hk => cases hx; exact ⟨hr, hf, hk⟩
      · cases hx
    · cases hx
  · cases hx

theorem State.matchedEntry_eq {j : Nat} {e : OfferEntry} (hr : s.call? h = some r) (hf : r.far = .floor f) (hk : f.port = k)
    (hst : r.state = .offering ∨ r.state = .ringing) (he : entryOf a f.entries = some (j, e))
    (hes : e.state = .sent ∨ e.state = .alerting) : s.matchedEntry k a h = some (j, e) := by
  simp [State.matchedEntry, State.floorCall_eq hr hf hk, hst, he, hes]

/-- The rule of a response is that of the entry it matches. -/
theorem onResponse_matched {cancel : Bool} {g : Work → Handle → Nat → OfferEntry → Work} {j : Nat} {e : OfferEntry}
    (hp : s.powered = true) (hu : s.floorUp k = true) (hh : handle.toNat = h.val) (hm : s.matchedEntry k a h = some (j, e)) :
    onResponse s k a handle cancel g = .next (g (Work.start s) h j e).finish := by
  rw [onResponse, onFloor_receives hp hu, handleOf_eq hh, Work.start_st]
  dsimp only
  rw [hm]

/-! ## Responses that match no entry -/

theorem onResponse_badHandle {cancel : Bool} {g : Work → Handle → Nat → OfferEntry → Work} (hp : s.powered = true)
    (hu : s.floorUp k = true) (hb : 47 < handle.toNat) (hroom : s.roomL 1) :
    onResponse s k a handle cancel g = .next (s.withEvent .protocol) := by
  have hnone : handleOf handle = none := dif_neg (by omega)
  unfold onResponse
  rw [hnone]
  exact onFloor_raise hp hu hroom rfl

theorem onResponse_silent {cancel : Bool} {g : Work → Handle → Nat → OfferEntry → Work} (hh : handle.toNat = h.val)
    (hm : s.matchedEntry k a h = none) (hc : (cancel && !s.fromAnswering k a h) = false) :
    onResponse s k a handle cancel g = .next s := by
  unfold onResponse
  rw [handleOf_eq hh]
  exact onFloor_nothing (by simp [hm, hc])

theorem onResponse_cancelled {g : Work → Handle → Nat → OfferEntry → Work} (hp : s.powered = true)
    (hu : s.floorUp k = true) (hh : handle.toNat = h.val) (hm : s.matchedEntry k a h = none)
    (hc : s.fromAnswering k a h = false) (hroom : s.roomF k 1) :
    onResponse s k a handle true g = .next (s.sentF k [cancelCell h.val a]) := by
  unfold onResponse
  rw [handleOf_eq hh]
  refine onFloor_makes hp hu ?_ ?_ <;> simp only [Work.start_st, hm, hc, Bool.not_false, Bool.and_self, if_true]
  · exact (Work.Makes.start True s).sendF fun _ => hroom
  · simp

theorem onResponse_down {cancel : Bool} {g : Work → Handle → Nat → OfferEntry → Work} (hl : s.floors[k].line ≠ .up) :
    onResponse s k a handle cancel g = .next s :=
  onFloor_down (by simpa [State.floorUp] using hl)

/-- Settles O38: by the tests of a response in their order. -/
theorem strayResponses : Obligations.StrayResponses := by
  refine ⟨fun s k a handle hp hu => ⟨fun hb hroom c hc => ?bad, fun h hh hm => ⟨?refuse, ?again, fun ha => ⟨?_, ?_⟩,
    fun ha hroom => ⟨?_, ?_⟩⟩⟩, fun s k a => ?restart, fun s k a b hl c hc => ?down⟩
  case bad =>
    simp only [List.mem_cons, List.not_mem_nil, or_false] at hc
    rcases hc with rfl | rfl | rfl | rfl
    · exact (exec_alert ..).trans (onResponse_badHandle hp hu hb hroom)
    · exact (exec_answer ..).trans (onResponse_badHandle hp hu hb hroom)
    · exact (exec_refuse ..).trans (onResponse_badHandle hp hu hb hroom)
    · exact (exec_repeatOffer ..).trans (onResponse_badHandle hp hu hb hroom)
  case refuse => exact (exec_refuse ..).trans (onResponse_silent hh hm rfl)
  case again => exact (exec_repeatOffer ..).trans (onResponse_silent hh hm rfl)
  · exact (exec_alert ..).trans (onResponse_silent hh hm (by simp [ha]))
  · exact (exec_answer ..).trans (onResponse_silent hh hm (by simp [ha]))
  · exact (exec_alert ..).trans (onResponse_cancelled hp hu hh hm ha hroom)
  · exact (exec_answer ..).trans (onResponse_cancelled hp hu hh hm ha hroom)
  case restart =>
    rw [exec_handsetRestart, execHandsetRestart]
    exact event_nothing rfl
  case down =>
    have hd : s.floorUp k = false := by simpa [State.floorUp] using hl
    simp only [List.mem_cons, List.not_mem_nil, or_false] at hc
    rcases hc with rfl | rfl | rfl | rfl | rfl | rfl | rfl | rfl | rfl
    · exact (exec_alert ..).trans (onResponse_down hl)
    · exact (exec_answer ..).trans (onResponse_down hl)
    · exact (exec_refuse ..).trans (onResponse_down hl)
    · exact (exec_repeatOffer ..).trans (onResponse_down hl)
    · exact (exec_dial ..).trans (onFloor_down hd)
    · exact (exec_hook ..).trans (onFloor_down hd)
    · exact (exec_quiet ..).trans (onFloor_down hd)
    · exact (exec_unlatch ..).trans (onFloor_down hd)
    · exact (exec_handsetRestart ..).trans (event_nothing rfl)

/-! ## The entries of an offered call -/

theorem CallRecord.modFloor_floor (hf : r.far = .floor f) (g : FloorSide → FloorSide) :
    r.modFloor g = { r with far := .floor (g f) } := by
  unfold CallRecord.modFloor
  split
  · next f' hf' => cases hf.symm.trans hf'; rfl
  · next hf' => exact absurd hf (hf' f)

/-- A record whose floor side has these entries. -/
abbrev CallRecord.withEntries (r : CallRecord) (f : FloorSide) (l : List OfferEntry) : CallRecord :=
  { r with far := .floor { f with entries := l } }

theorem OfferEntry.ended_iff (e : OfferEntry) : e.ended = true ↔ e.state = .refused ∨ e.state = .absent := by
  simp [OfferEntry.ended]

theorem entryOf_getElem? {a : Addr} {l : List OfferEntry} {j : Nat} {e : OfferEntry} (h : entryOf a l = some (j, e)) :
    l[j]? = some e := by
  induction l generalizing j with
  | nil => cases h
  | cons x l ih =>
    unfold entryOf at h
    split at h
    · cases h; rfl
    · obtain ⟨⟨j', e'⟩, hy, he⟩ := Option.map_eq_some_iff.1 h
      cases he
      exact ih hy

section
variable {R : Prop} {w : Work} {u : State}

theorem Work.Makes.modEntry (hm : w.Makes R u) (hr : u.call? h = some r) (hf : r.far = .floor f) (i : Nat)
    (g : OfferEntry → OfferEntry) : (w.modEntry h i g).Makes R (u.putCall h (r.withEntries f (f.entries.modify i g))) := by
  have h1 := hm.modCall (f := fun r => r.modFloor fun f => { f with entries := f.entries.modify i g }) hr
  rwa [CallRecord.modFloor_floor hf] at h1

theorem Work.Makes.offerAlone (hm : w.Makes R u) (hr : u.call? h = some r) (hf : r.far = .floor f)
    (hF : R → u.roomF f.port 1) (a : Addr) :
    (w.offerAlone h a).Makes R (u.sentF f.port [offerCell h r.ownedLane a]) := by
  refine hm.withCall hr ?_
  split
  · next f' hf' => cases hf.symm.trans hf'; exact hm.sendF hF
  · next hf' => exact absurd hf (hf' f)

/-- No follow-on offer is made while the entries are not one that has ended, or where there is no extension to offer. -/
theorem Work.followOn_nothing (hr : w.st.call? h = some r) (hf : r.far = .floor f)
    (hno : f.mode ≠ .followOn ∨ f.ext = none ∨ ∀ e, f.entries = [e] → e.ended = false) : w.followOn h = w := by
  rw [Work.followOn, Work.withCall_live hr]
  split
  · next f' hf' =>
    cases hf.symm.trans hf'
    split
    · next x e hmode hext hent =>
      have he : e.ended = false := (hno.resolve_left (· hmode)).resolve_left (by simp [hext]) e hent
      simp [he]
    · rfl
  · rfl

/-- The extension is offered once the main handset's entry has ended (R117). -/
theorem Work.Makes.followOn (hm : w.Makes R u) (hr : u.call? h = some r) (hf : r.far = .floor f) {x : Addr}
    {e : OfferEntry} (hmode : f.mode = .followOn) (hext : f.ext = some x) (hent : f.entries = [e]) (he : e.ended = true)
    (hF : R → u.roomF f.port 1) :
    (w.followOn h).Makes R ((u.putCall h (r.withEntries f [e, u.sentEntry x])).sentF f.port
      [offerCell h r.ownedLane x]) := by
  refine hm.withCall hr ?_
  split
  · next f' hf' =>
    cases hf.symm.trans hf'
    split
    · next x' e' _ hext' hent' =>
      cases hext.symm.trans hext'
      cases hent.symm.trans hent'
      rw [if_pos he]
      have hs : w.st.sentEntry x = u.sentEntry x :=
        congrArg (fun d : Retained => State.sentEntry { u with retained := d } x) (State.bare_retained hm.bare)
      have h1 := hm.modCall (f := fun r => r.modFloor fun f => { f with entries := f.entries ++ [u.sentEntry x] }) hr
      rw [CallRecord.modFloor_floor hf, hent] at h1
      rw [hs]
      exact h1.offerAlone (State.call?_putCall_self ..) rfl hF x
    · next hn => exact absurd hent (hn x e hmode hext)
  · next hf' => exact absurd hf (hf' f)

theorem Work.countEntries_nothing (hr : w.st.call? h = some r) (hf : r.far = .floor f)
    (hno : ∃ e ∈ f.entries, e.ended = false) : w.countEntries h = w := by
  rw [Work.countEntries, Work.withCall_live hr]
  split
  · next f' hf' =>
    cases hf.symm.trans hf'
    refine if_neg fun hall => ?_
    obtain ⟨e, he, hn⟩ := hno
    rw [List.all_eq_true.1 hall e he] at hn
    cases hn
  · rfl

/-- The cause with which a call ends when every entry has ended (R118). -/
def entriesCause (l : List OfferEntry) : Cause := if l.any fun e => e.state == .refused then .refused else .handsetAbsent

theorem Work.countEntries_release (hr : w.st.call? h = some r) (hf : r.far = .floor f)
    (hall : ∀ e ∈ f.entries, e.ended = true) : w.countEntries h = w.release h (entriesCause f.entries) := by
  rw [Work.countEntries, Work.withCall_live hr]
  split
  · next f' hf' =>
    cases hf.symm.trans hf'
    exact if_pos (List.all_eq_true.2 hall)
  · next hf' => exact absurd hf (hf' f)

end

end

end Sys2Proof.Machine
end

