-- ==== Sys2Proof/Proofs/OfferEntries.lean ====
section
/-! PROOFS. ALERT, ANSWER, REFUSE and the end of a response window (O34 to O37). -/

namespace Sys2Proof.Machine

section
variable {s : State} {k : Floor} {a : Addr} {handle : Byte} {h : Handle} {r : CallRecord} {f : FloorSide}

/-- Settles O35: the entry changes, and the first ALERT of a call makes it ring. -/
theorem alertRings : Obligations.AlertRings := by
  intro s k a handle h r f j e hp hu hh hr hf hk he hes far
  have h1 := (Work.Makes.start True s).modEntry hr hf j fun e => { e with state := .alerting, window := none }
  have hcall := (State.bare_call? h1.bare h).trans (State.call?_putCall_self ..)
  refine ⟨fun hst hroom => ?_, fun hst => ?_⟩
  · refine (exec_alert ..).trans ((onResponse_matched hp hu hh
      (State.matchedEntry_eq hr hf hk (.inl hst) he hes)).trans (congrArg Host.Outcome.next ?_))
    dsimp only
    rw [Work.withCall_live hcall, if_pos hst]
    have ht : ((Work.start s).modEntry h j fun e => { e with state := .alerting, window := none }).st.ringTime =
        s.retained.timers.ring := rfl
    rw [ht]
    have h2 := (h1.modCall (f := fun r => { r with
      state := .ringing, timer := startTimer .ringTime s.retained.timers.ring }) (State.call?_putCall_self ..)).progressDown
        r .alerting fun _ => State.roomL.mono (s := s) hroom (r.cellsDown_length _)
    rw [State.putCall_putCall] at h2
    exact h2.finish (by simp [Work.modEntry])
  · refine (exec_alert ..).trans ((onResponse_matched hp hu hh
      (State.matchedEntry_eq hr hf hk (.inr hst) he hes)).trans (congrArg Host.Outcome.next ?_))
    dsimp only
    rw [Work.withCall_live hcall, if_neg (by simp [hst])]
    exact h1.finish (by simp [Work.modEntry])

/-- The talk-limit timer of a class (R141). -/
theorem State.talkTimer_cases (s : State) (cls : Class) :
    (s.retained.talkLimits[cls] = 0 → s.talkTimer cls = none) ∧
    (0 < s.retained.talkLimits[cls] → s.retained.talkLimits[cls] ≤ 200 → s.talkTimer cls =
      some { purpose := .talkLimit, left := s.retained.talkLimits[cls], near := none }) ∧
    (200 < s.retained.talkLimits[cls] → s.talkTimer cls =
      some { purpose := .talkLimit, left := s.retained.talkLimits[cls], near := some (s.retained.talkLimits[cls] - 100) }) := by
  have hf : Config.nearFloor = 200 := rfl
  have hm : Config.nearMargin = 100 := rfl
  unfold State.talkTimer
  dsimp only
  generalize s.retained.talkLimits[cls] = limit
  refine ⟨fun h => if_pos h, fun h h' => ?_, fun h => ?_⟩
  · rw [if_neg (by omega), if_neg (by omega)]
  · rw [if_neg (by omega), if_pos (by omega), hm]

/-- Settles O34: an ANSWER and a DIAL of an offered flat both connect the call. -/
theorem answerConnects : Obligations.AnswerConnects := by
  refine ⟨State.talkTimer_cases, fun s k a h r f l i lowKey hp hu hr hf hk hst hl hi hlow hL hF => ?_⟩
  have h1 := (Work.Makes.start True s).connectFlat hr (a := a) hf hl hi (key := lowKey)
    (by rw [CallRecord.openKey_L, hlow]; rfl) (fun _ => hL) fun _ => hk ▸ hF
  refine ⟨fun j e he hes handle hh => ?_, fun n role hn hact => ?_⟩
  · exact (exec_answer ..).trans ((onResponse_matched hp hu hh
      (State.matchedEntry_eq hr hf hk hst he hes)).trans (congrArg Host.Outcome.next (h1.finish (by simp))))
  · rw [exec_dial, execDial, onFloor_receives hp hu, Work.start_st, hn]
    dsimp only
    rw [hact]
    exact congrArg Host.Outcome.next (h1.finish (by simp))

/-! ## The count of the entries -/

theorem List.modify_eq_map_self {l : List OfferEntry} {e : OfferEntry} (he : l = [e]) (g : OfferEntry → OfferEntry) {j : Nat}
    (hj : l[j]? = some e) : l.modify j g = [g e] := by
  subst he
  cases j with
  | zero => rfl
  | succ j => simp at hj

/-- The entry that has changed is in the list. -/
theorem mem_modify {l : List OfferEntry} {e : OfferEntry} {j : Nat} (hj : l[j]? = some e) (g : OfferEntry → OfferEntry) :
    g e ∈ l.modify j g := by
  refine List.mem_of_getElem? (i := j) ?_
  rw [List.getElem?_modify_eq, hj]
  rfl

theorem entry_not_ended {l : List OfferEntry} (h : ∃ x ∈ l, x.state ≠ .refused ∧ x.state ≠ .absent) :
    ∃ x ∈ l, x.ended = false := by
  obtain ⟨x, hx, h1, h2⟩ := h
  exact ⟨x, hx, by simp [OfferEntry.ended, h1, h2]⟩

/-- While an entry has not ended, nothing follows the change of another (R117, R118). -/
theorem Work.entries_stay {w : Work} (hr : w.st.call? h = some r) (hf : r.far = .floor f)
    (hno : ∃ x ∈ f.entries, x.ended = false) : (w.followOn h).countEntries h = w := by
  rw [Work.followOn_nothing hr hf, Work.countEntries_nothing hr hf hno]
  refine .inr (.inr fun e he => ?_)
  obtain ⟨x, hx, hn⟩ := hno
  rw [he, List.mem_singleton] at hx
  exact hx ▸ hn

/-- When every entry has ended, and none is to follow, the call ends (R118). -/
theorem Work.entries_end {w : Work} (hr : w.st.call? h = some r) (hf : r.far = .floor f)
    (hno : f.mode ≠ .followOn ∨ f.ext = none ∨ 2 ≤ f.entries.length) (hall : ∀ x ∈ f.entries, x.ended = true) :
    (w.followOn h).countEntries h = w.release h (entriesCause f.entries) := by
  rw [Work.followOn_nothing hr hf, Work.countEntries_release hr hf hall]
  refine hno.imp_right (Or.imp_right fun hlen e he => ?_)
  rw [he] at hlen
  simp at hlen

/-- The extension's offer goes out, and the count finds its entry in SENT (R117). -/
theorem Work.Makes.followOn_counts {R : Prop} {w : Work} {u : State} (hm : w.Makes R u) (hr : u.call? h = some r)
    (hf : r.far = .floor f) {x : Addr} {e : OfferEntry} (hmode : f.mode = .followOn) (hext : f.ext = some x)
    (hent : f.entries = [e]) (he : e.ended = true) (hF : R → u.roomF f.port 1) :
    (w.followOn h).countEntries h = w.followOn h ∧
      (w.followOn h).Makes R ((u.putCall h (r.withEntries f [e, u.sentEntry x])).sentF f.port
        [offerCell h r.ownedLane x]) := by
  have h1 := hm.followOn hr hf hmode hext hent he hF
  have hcall := (State.bare_call? h1.bare h).trans
    ((State.call?_sentF _ _ _ _).trans (State.call?_putCall_self u h (r.withEntries f [e, u.sentEntry x])))
  exact ⟨Work.countEntries_nothing hcall rfl ⟨u.sentEntry x, by simp, rfl⟩, h1⟩

theorem Work.modEntry_runs (w : Work) (h : Handle) (i : Nat) (g : OfferEntry → OfferEntry) :
    (w.modEntry h i g).runs = w.runs := rfl

@[simp] theorem Work.offerAlone_runs (w : Work) (h : Handle) (a : Addr) : (w.offerAlone h a).runs = w.runs :=
  Work.withCall_runs fun r => by split <;> simp

@[simp] theorem Work.followOn_runs (w : Work) (h : Handle) : (w.followOn h).runs = w.runs := by
  refine Work.withCall_runs fun r => ?_
  split
  · split
    · split <;> simp
    · rfl
  · rfl

theorem State.roomToEnd_putCall {c : Cause} {r' : CallRecord} (hroom : s.roomToEnd h r c) :
    (s.putCall h r').roomToEnd h r c := hroom

/-- Settles O36: while an entry stands nothing more, else a follow-on offer or the end of the call. -/
theorem refuseCounts : Obligations.RefuseCounts := by
  intro s k a handle h r f j e hp hu hh hr hf hk hst he hes f' r'
  have hj := entryOf_getElem? he
  have h1 : ((Work.start s).modEntry h j fun e => { e with state := .refused, window := none }).Makes True
      (s.putCall h r') := (Work.Makes.start True s).modEntry hr hf j _
  have hcall := (State.bare_call? h1.bare h).trans (State.call?_putCall_self ..)
  have hexec : ∀ u, ((((Work.start s).modEntry h j fun e => { e with state := .refused, window := none }).followOn
      h).countEntries h).finish = u → exec (.refuse k a handle) s = .next u := fun u hu' =>
    (exec_refuse ..).trans ((onResponse_matched hp hu hh (State.matchedEntry_eq hr hf hk hst he hes)).trans
      (congrArg Host.Outcome.next hu'))
  have hmem : ({ e with state := .refused, window := none } : OfferEntry) ∈ f'.entries := mem_modify hj _
  refine ⟨fun hno => ?stay, fun hno hall hroom hl => ?ends, fun x hmode hext hent hF => ?follows⟩
  case stay =>
    refine hexec _ ?_
    rw [Work.entries_stay hcall rfl (entry_not_ended hno)]
    exact h1.finish rfl
  case ends =>
    have hcause : entriesCause f'.entries = .refused := by
      refine if_pos (List.any_eq_true.2 ⟨_, hmem, rfl⟩)
    refine hexec _ ?_
    rw [Work.entries_end hcall rfl (hno.imp_right (Or.imp_right fun hlen => ?len))
      fun x hx => (OfferEntry.ended_iff x).2 (hall x hx), hcause]
    case len => simpa [f'] using hlen
    rw [h1.release_roomToEnd (State.call?_putCall_self ..) rfl (hl.waitersOn_putCall r') (State.roomToEnd_putCall hroom),
      State.ended_putCall]
  case follows =>
    have hf' : f'.entries = [{ e with state := .refused, window := none }] := List.modify_eq_map_self hent _ hj
    obtain ⟨hcount, h2⟩ := h1.followOn_counts (State.call?_putCall_self ..) rfl (f := f') hmode hext hf' rfl
      fun _ => hk ▸ hF
    rw [State.putCall_putCall] at h2
    refine hexec _ ?_
    rw [hcount, h2.finish (by simp [Work.modEntry_runs]), hf', ← hk]
    rfl

/-! ## The end of a response window -/

/-- What takes an entry in SENT or ALERTING to the rules of R116: its timer in SENT, or a matched REPEAT. -/
theorem exec_windowEnds {j : Fin 2} {e : OfferEntry} {c : Instr} (hp : s.powered = true) (hu : s.floorUp k = true)
    (hr : s.call? h = some r) (hf : r.far = .floor f) (hk : f.port = k) (hst : r.state = .offering ∨ r.state = .ringing)
    (hj : f.entries[j.val]? = some e)
    (hc : (c = .responseWindowExpiry h j ∧ e.window.isSome = true) ∨
      ∃ handle : Byte, handle.toNat = h.val ∧ entryOf e.addr f.entries = some (j.val, e) ∧
        c = .repeatOffer k e.addr handle) (hes : e.state = .sent) :
    exec c s = .next ((Work.start s).windowEnds h j.val e).finish := by
  rcases hc with ⟨rfl, hw⟩ | ⟨handle, hh, he, rfl⟩
  · rw [exec_responseWindowExpiry, execResponseWindowExpiry, event_powered hp,
      Work.withCall_live (w := Work.start s) hr]
    split
    · next f' hf' =>
      cases hf.symm.trans hf'
      rw [hj]
      dsimp only
      rw [if_pos ⟨hst, hes, hw⟩]
    · next hf' => exact absurd hf (hf' f)
  · refine (exec_repeatOffer ..).trans ((onResponse_matched hp hu hh
      (State.matchedEntry_eq hr hf hk hst he (.inl hes))).trans ?_)
    rw [if_pos hes]

/-- A REPEAT in ALERTING has the OFFER sent again alone. -/
theorem exec_repeatOffer_alerting {j : Fin 2} {e : OfferEntry} (hp : s.powered = true) (hu : s.floorUp k = true)
    (hr : s.call? h = some r) (hf : r.far = .floor f) (hk : f.port = k) (hst : r.state = .offering ∨ r.state = .ringing)
    (hh : handle.toNat = h.val) (he : entryOf e.addr f.entries = some (j.val, e)) (hes : e.state = .alerting)
    (hF : s.roomF k 1) :
    exec (.repeatOffer k e.addr handle) s = .next (s.sentF k [offerCell h r.ownedLane e.addr]) := by
  have h1 := (Work.Makes.start True s).offerAlone hr hf (fun _ => hk ▸ hF) e.addr
  refine (exec_repeatOffer ..).trans ((onResponse_matched hp hu hh
    (State.matchedEntry_eq hr hf hk hst he (.inr hes))).trans ?_)
  rw [if_neg (by simp [hes]), h1.finish (by simp), hk]

theorem State.withEvent_putCall (s : State) (h : Handle) (r : CallRecord) (e : Event) :
    (s.putCall h r).withEvent e = (s.withEvent e).putCall h r := by
  have hn : (s.putCall h r).noticeOf e = s.noticeOf e := rfl
  unfold State.withEvent
  rw [hn, ← (TableChange.putCall h r).sentL]
  rfl

theorem entriesCause_eq (l : List OfferEntry) :
    entriesCause l = if ∃ x ∈ l, x.state = .refused then .refused else .handsetAbsent := by
  have : (l.any fun e => e.state == .refused) = true ↔ ∃ x ∈ l, x.state = .refused := by simp
  simp only [entriesCause, this]

/-- Settles O37: below three retries the OFFER again, else the entry is ABSENT and the entries are counted. -/
theorem windowEnds : Obligations.WindowEnds := by
  intro s k h r f j e hp hu hr hf hk hst hj c hc
  have hmax : Config.maxRetries = 3 := rfl
  refine ⟨?retry, ?absent, ?alerting⟩
  case retry =>
    intro hes hret hF
    have h1 := (Work.Makes.start True s).modEntry hr hf j.val fun e =>
      { e with retries := e.retries + 1, window := some s.retained.timers.window }
    have h2 := h1.offerAlone (State.call?_putCall_self ..) rfl (fun _ => hk ▸ hF) e.addr
    rw [exec_windowEnds hp hu hr hf hk hst hj hc hes, Work.windowEnds, if_pos (by omega), Work.start_st,
      h2.finish (by simp [Work.modEntry_runs]), ← hk]
  case alerting =>
    intro hes hrep hF
    obtain ⟨handle', hrep⟩ := hrep
    rcases hc with ⟨rfl, -⟩ | ⟨handle, hh, he, rfl⟩
    · cases hrep
    · exact exec_repeatOffer_alerting hp hu hr hf hk hst hh he hes hF
  case absent =>
    intro hes hret hL f' r'
    have h1 := ((Work.Makes.start True s).modEntry hr hf j.val fun e =>
      { e with state := .absent, window := none }).raise (e := .handsetAbsent) (fun _ => ⟨rfl, rfl⟩)
        fun _ => State.roomL.mono (s := s) hL (by omega)
    have hcallS : ((s.putCall h r').withEvent .handsetAbsent).call? h = some r' :=
      (State.call?_withEvent ..).trans (State.call?_putCall_self ..)
    have hcall := (State.bare_call? h1.bare h).trans hcallS
    have hexec : ∀ u, (((((Work.start s).modEntry h j.val fun e => { e with state := .absent, window := none }).raise
        .handsetAbsent).followOn h).countEntries h).finish = u → exec c s = .next u := fun u hu' => by
      rw [exec_windowEnds hp hu hr hf hk hst hj hc hes, Work.windowEnds, if_neg (by omega), hu']
    refine ⟨fun hno => hexec _ ?_, ?_, fun x hmode hext hent hF => hexec _ ?_⟩
    · rw [Work.entries_stay hcall rfl (entry_not_ended hno)]
      exact h1.finish rfl
    · intro hno hall cause hroom hl
      refine hexec _ ?_
      have hlen : f.mode ≠ .followOn ∨ f.ext = none ∨ 2 ≤ f'.entries.length :=
        hno.imp_right (Or.imp_right fun hlen => by simpa [f'] using hlen)
      have hcause : entriesCause f'.entries = cause := entriesCause_eq _
      rw [State.withEvent_putCall] at h1 hcallS
      have hline : (s.withEvent .handsetAbsent).InLine ((s.withEvent .handsetAbsent).waitersOn h r') := by
        rw [State.withEvent_waitersOn]
        exact hl.congr fun x _ => State.call?_withEvent ..
      rw [Work.entries_end hcall rfl hlen fun x hx => (OfferEntry.ended_iff x).2 (hall x hx), hcause,
        h1.release_roomToEnd hcallS rfl (hline.waitersOn_putCall r') (State.roomToEnd_putCall hroom), State.ended_putCall]
    · have hf' : f'.entries = [{ e with state := .absent, window := none }] := List.modify_eq_map_self hent _ hj
      obtain ⟨hcount, h2⟩ := h1.followOn_counts hcallS rfl (f := f') hmode hext hf' rfl fun _ => by
        rw [State.roomF_withEvent]
        exact hk ▸ hF
      have hs : ((s.putCall h r').withEvent .handsetAbsent).sentEntry x = s.sentEntry x := by simp [State.sentEntry]
      rw [hcount, h2.finish (by simp [Work.modEntry_runs]), hs, State.withEvent_putCall, State.putCall_putCall,
        State.withEvent_putCall, hf', ← hk]
      rfl

end

end Sys2Proof.Machine
end

