-- ==== Sys2Proof/Proofs/HookAndUnlatch.lean ====
section
/-! PROOFS. The call of a HOOK or an UNLATCH (R143), and what these do (R144, R152) (O39). -/

namespace Sys2Proof.Machine

section
variable {s : State} {k : Floor} {a : Addr} {h : Handle} {r : CallRecord} {f : FloorSide}

/-- The sender's flat is engaged with the call, and the sender is on it. -/
abbrev State.CallByFlat (s : State) (k : Floor) (a : Addr) (h : Handle) : Prop :=
  ∃ n role r, s.retained.handset k a = some (n, role) ∧ s.activity[n].handle? = some h ∧ s.call? h = some r ∧
    r.answering = some a

/-- The record has a floor side on the port with the sender answering, and is not in CLEARING. -/
abbrev State.CallOnPort (s : State) (k : Floor) (a : Addr) (h : Handle) : Prop :=
  ∃ r f, s.call? h = some r ∧ r.state ≠ .clearing ∧ r.far = .floor f ∧ f.port = k ∧ f.answering = some a

/-- The call that the flat of a handset names (R143). -/
def State.flatCall (s : State) (k : Floor) (a : Addr) : Option Handle :=
  (s.retained.handset k a).bind fun x => s.activity[x.1].handle?.bind fun h =>
    (s.call? h).bind fun r => if r.answering = some a then some h else none

/-- The record of a handle has the sender on it, on the port (R143). -/
def State.answersOn (s : State) (k : Floor) (a : Addr) (h : Handle) : Bool :=
  (s.floorCall k h).any fun x => x.1.state ≠ .clearing && x.2.answering == some a

theorem State.callOf_eq (s : State) (k : Floor) (a : Addr) :
    s.callOf k a = ((s.flatCall k a).or (allHandles.find? (s.answersOn k a))) := by
  have hscan : (fun h => match s.floorCall k h with
      | some (r, f) => r.state ≠ .clearing && f.answering == some a
      | none => false) = s.answersOn k a := by
    funext h
    unfold State.answersOn
    cases s.floorCall k h <;> rfl
  rw [← hscan]
  unfold State.callOf State.flatCall
  rcases s.retained.handset k a with _ | ⟨i, role⟩
  · rfl
  · dsimp only [Option.bind]
    generalize s.activity[i].handle? = o
    rcases o with _ | h
    · rfl
    · dsimp only
      rcases s.call? h with _ | r
      · rfl
      · dsimp only
        by_cases ha : r.answering = some a
        · rw [if_pos ha]; rfl
        · rw [if_neg ha]; rfl

theorem State.flatCall_iff : s.flatCall k a = some h ↔ s.CallByFlat k a h := by
  unfold State.flatCall State.CallByFlat
  constructor
  · intro hx
    obtain ⟨⟨n, role⟩, hn, hx⟩ := Option.bind_eq_some_iff.1 hx
    obtain ⟨h', hact, hx⟩ := Option.bind_eq_some_iff.1 hx
    obtain ⟨r, hr, hx⟩ := Option.bind_eq_some_iff.1 hx
    split at hx
    · next ha => cases hx; exact ⟨n, role, r, hn, hact, hr, ha⟩
    · cases hx
  · rintro ⟨n, role, r, hn, hact, hr, ha⟩
    rw [hn, Option.bind_some, hact, Option.bind_some, hr, Option.bind_some, if_pos ha]

theorem State.answersOn_iff : s.answersOn k a h = true ↔ s.CallOnPort k a h := by
  unfold State.answersOn State.CallOnPort
  constructor
  · intro hx
    cases hfc : s.floorCall k h with
    | none => simp [hfc] at hx
    | some x =>
      obtain ⟨r, f⟩ := x
      obtain ⟨hr, hf, hk⟩ := State.floorCall_some hfc
      obtain ⟨hc, ha⟩ : r.state ≠ .clearing ∧ f.answering = some a := by simpa [hfc] using hx
      exact ⟨r, f, hr, hc, hf, hk, ha⟩
  · rintro ⟨r, f, hr, hc, hf, hk, ha⟩
    simp [State.floorCall_eq hr hf hk, hc, ha]

/-- The lowest handle that a test selects. -/
theorem find?_allHandles {p : Handle → Bool} (hp : p h = true) (hmin : ∀ j < h, p j = false) :
    allHandles.find? p = some h := by
  rw [List.find?_eq_some_iff_getElem]
  refine ⟨hp, h.val, by simp [allHandles], by simp [allHandles], fun j hj => ?_⟩
  simpa [allHandles] using hmin ⟨j, by omega⟩ hj

/-- The call of a handset has it answering. -/
theorem State.callOf_answering (hc : s.callOf k a = some h) : ∃ r, s.call? h = some r ∧ r.answering = some a := by
  rw [State.callOf_eq, Option.or_eq_some_iff] at hc
  rcases hc with hn | ⟨-, hscan⟩
  · obtain ⟨n, role, r, -, -, hr, ha⟩ := State.flatCall_iff.1 hn
    exact ⟨r, hr, ha⟩
  · obtain ⟨r, f, hr, -, hf, -, ha⟩ := State.answersOn_iff.1 (List.find?_some hscan)
    exact ⟨r, hr, by simp [CallRecord.answering, hf, Far.floor?, ha]⟩

theorem State.unlatchRefusal_notConnected (hst : r.state ≠ .connected) : s.unlatchRefusal r = some .notConnected := if_pos hst

theorem State.unlatchRefusal_fire (hst : r.state = .connected) (hf : s.fireMode = true) :
    s.unlatchRefusal r = some .fireMode := by
  rw [State.unlatchRefusal, if_neg (by simp [hst]), if_pos hf]

theorem State.unlatchRefusal_noPanel (hst : r.state = .connected) (hf : s.fireMode = false)
    (ho : ∀ n, r.origin ≠ .panel n) : s.unlatchRefusal r = some .notPermitted := by
  rw [State.unlatchRefusal, if_neg (by simp [hst]), if_neg (by simp [hf])]
  split
  · next n f ho' hf' => exact absurd ho' (ho n)
  · rfl

theorem State.unlatchRefusal_panel {n : Fin 16} (hst : r.state = .connected) (hfire : s.fireMode = false)
    (hf : r.far = .floor f) (ho : r.origin = .panel n) :
    s.unlatchRefusal r = if s.retained.slots[f.slot].unlatch then none else some .notPermitted := by
  rw [State.unlatchRefusal, if_neg (by simp [hst]), if_neg (by simp [hfire]), ho, hf]

/-- An UNLATCH that a test refuses. -/
theorem exec_unlatch_refused {c : Cause} (hp : s.powered = true) (hu : s.floorUp k = true) (hroom : s.roomF k 1)
    (hc : s.callOf k a = some h) (hr : s.call? h = some r) (href : s.unlatchRefusal r = some c) :
    exec (.unlatch k a) s = .next (s.sentF k [statusCell h.val a .unlatchRefused c.toByte]) := by
  have h1 := (Work.Makes.start True s).sendF (k := k) (c := statusCell h.val a .unlatchRefused c.toByte) fun _ => hroom
  rw [exec_unlatch, execUnlatch, onFloor_receives hp hu, Work.start_st, hc]
  dsimp only
  rw [Work.withCall_live (w := Work.start s) hr, href]
  exact congrArg Host.Outcome.next (h1.finish (by simp))

/-- An UNLATCH that is passed down the riser. -/
theorem exec_unlatch_sent {n : Fin 16} {lowKey : Key} (hp : s.powered = true) (hu : s.floorUp k = true) (hF : s.roomF k 1)
    (hL : s.roomL 1) (hc : s.callOf k a = some h) (hr : s.call? h = some r) (href : s.unlatchRefusal r = none)
    (ho : r.origin = .panel n) (hlow : r.low = .opened lowKey) :
    exec (.unlatch k a) s = .next ((s.sentL [unlatchCell lowKey n]).sentF k [statusCell h.val a .unlatchSent]) := by
  have h1 := ((Work.Makes.start True s).sendL (c := unlatchCell lowKey n) fun _ => hL).sendF (k := k)
    (c := statusCell h.val a .unlatchSent) fun _ => (State.roomF_sentL ..).2 hF
  have hk : r.openKey .L = some lowKey := by rw [CallRecord.openKey_L, hlow]; rfl
  rw [exec_unlatch, execUnlatch, onFloor_receives hp hu, Work.start_st, hc]
  dsimp only
  rw [Work.withCall_live (w := Work.start s) hr, href]
  dsimp only
  rw [ho, hk]
  exact congrArg Host.Outcome.next (h1.finish (by simp))

/-- Settles O39: the call of the sender, and what HOOK and UNLATCH do with it. -/
theorem hookAndUnlatch : Obligations.HookAndUnlatch := by
  refine ⟨fun s k a => ⟨fun h hb => ?byFlat, fun hno => ⟨fun h hon hmin => ?onPort, fun hnone => ?none⟩⟩,
    fun s k a hp hu => ⟨fun hc => ?noCall, fun h r hc hr hroom hl => ?hook⟩, fun s k a h hc => State.callOf_answering hc,
    fun s k a hp hu hF hL => ⟨fun hc => ?unmatched, fun h r hc hr => ⟨fun hst => ?_, fun hst hfire => ?_,
      fun hst hfire ho => ?_, fun f n hst hfire hf ho => ⟨fun hperm => ?_, fun lowKey hperm hlow => ?_⟩⟩⟩⟩
  case byFlat => rw [State.callOf_eq, State.flatCall_iff.2 hb, Option.some_or]
  case onPort =>
    have hfree : s.flatCall k a = none := Option.eq_none_iff_forall_ne_some.2 fun h' e => hno h' (State.flatCall_iff.1 e)
    rw [State.callOf_eq, hfree, Option.none_or]
    exact find?_allHandles (State.answersOn_iff.2 hon) fun j hj => by
      rw [← Bool.not_eq_true, State.answersOn_iff]
      exact hmin j hj
  case none =>
    have hfree : s.flatCall k a = none := Option.eq_none_iff_forall_ne_some.2 fun h' e => hno h' (State.flatCall_iff.1 e)
    rw [State.callOf_eq, hfree, Option.none_or, List.find?_eq_none]
    exact fun h _ e => hnone h (State.answersOn_iff.1 e)
  case noCall =>
    rw [exec_hook, execHook]
    exact onFloor_nothing (by simp [hc])
  case hook =>
    rw [exec_hook, execHook, onFloor_receives hp hu, Work.start_st, hc]
    exact congrArg Host.Outcome.next ((Work.Makes.start True s).release_roomToEnd hr rfl hl hroom)
  case unmatched =>
    have h1 := (Work.Makes.start True s).sendF (k := k)
      (c := statusCell 0 a .unlatchRefused Cause.notConnected.toByte) fun _ => hF
    rw [exec_unlatch, execUnlatch, onFloor_receives hp hu, Work.start_st, hc]
    exact congrArg Host.Outcome.next (h1.finish (by simp))
  · exact exec_unlatch_refused hp hu hF hc hr (State.unlatchRefusal_notConnected hst)
  · exact exec_unlatch_refused hp hu hF hc hr (State.unlatchRefusal_fire hst hfire)
  · exact exec_unlatch_refused hp hu hF hc hr (State.unlatchRefusal_noPanel hst hfire ho)
  · exact exec_unlatch_refused hp hu hF hc hr (by rw [State.unlatchRefusal_panel hst hfire hf ho, hperm]; rfl)
  · exact exec_unlatch_sent hp hu hF hL hc hr (by rw [State.unlatchRefusal_panel hst hfire hf ho, hperm]; rfl) ho hlow

end

end Sys2Proof.Machine
end

