-- ==== Sys2Proof/Proofs/AgeingSteps.lean ====
section
/-! PROOFS. The ageing step and the order that placing keeps (R64, R69) (O42). -/

namespace Sys2Proof.Machine

section
variable {s : State} {h : Handle} {r : CallRecord}

/-! ## A walk that grants nothing -/

/-- Where the first entry for a port fails the admission test, the walk for it grants nothing (R73). -/
theorem Work.walk_stops {w : Work} {p : Owned} {l : List WaitEntry}
    (hno : ∀ x, (l.find? fun y => y.port = p) = some x → w.st.admitLane p (w.st.entryPriority x) = none) :
    w.walk p l = w := by
  induction l with
  | nil => rfl
  | cons x rest ih =>
    unfold Work.walk
    split
    · next hx => rw [hno x (by simp [hx])]
    · next hx => exact ih fun y hy => hno y (by simpa [hx] using hy)

theorem Work.runFor_not {w : Work} {p : Owned} (hp : w.runs.contains p = false) : w.runFor p = w := by
  simp only [Work.runFor, hp, Bool.false_eq_true, if_false]

/-- An event that asks for the arbiter's run for one port. -/
theorem Work.runArbiter_singleton {w : Work} {p : Owned} (hruns : ∀ q, w.runs.contains q = (q == p)) :
    w.runArbiter = w.walk p w.st.waiting := by
  have hskip : ∀ qs : List Owned, p ∉ qs → ∀ w' : Work, w'.runs = w.runs → qs.foldl Work.runFor w' = w' := by
    intro qs
    induction qs with
    | nil => exact fun _ _ _ => rfl
    | cons q qs ih =>
      intro hq w' hw'
      rw [List.mem_cons, not_or] at hq
      rw [List.foldl_cons, Work.runFor_not (by rw [hw', hruns]; exact beq_false_of_ne (Ne.symm hq.1)), ih hq.2 w' hw']
  obtain ⟨pre, post, he⟩ := List.append_of_mem (mem_allOwned p)
  have hnd : (pre ++ p :: post).Nodup := he ▸ (by decide : allOwned.Nodup)
  obtain ⟨-, hpost, hdis⟩ := List.nodup_append.1 hnd
  have hpre : p ∉ pre := fun hm => hdis p hm p (by simp) rfl
  rw [Work.runArbiter, he, List.foldl_append, List.foldl_cons, hskip pre hpre w rfl]
  have h1 : w.runFor p = w.walk p w.st.waiting := by
    simp only [Work.runFor, hruns, beq_self_eq_true, if_true]
  rw [h1, hskip post (List.nodup_cons.1 hpost).1 _ (Work.walk_runs ..)]

theorem State.admitLane_full {p : Owned} (hf : s.freeLanes p = []) (e : Nat) : s.admitLane p e = none := by
  unfold State.admitLane
  rw [hf]
  split <;> rfl

/-! ## Placing an entry -/

section
variable {x : WaitEntry} {e : Nat} {l : List WaitEntry}

theorem State.placed_perm (s : State) (x : WaitEntry) (e : Nat) (l : List WaitEntry) : (s.placed x e l).Perm (x :: l) := by
  refine List.perm_middle.trans (.cons x ?_)
  rw [List.takeWhile_append_dropWhile]

theorem State.placed_sublist (s : State) (x : WaitEntry) (e : Nat) (l : List WaitEntry) : l.Sublist (s.placed x e l) := by
  conv_lhs => rw [← List.takeWhile_append_dropWhile (p := fun y => decide (e ≤ s.entryPriority y)) (l := l)]
  exact List.Sublist.append (List.Sublist.refl _) (List.sublist_cons_self _ _)

theorem takeWhile_ge (s : State) (e : Nat) (l : List WaitEntry) :
    ∀ y ∈ l.takeWhile (fun y => decide (e ≤ s.entryPriority y)), e ≤ s.entryPriority y :=
  fun y hy => by simpa using List.mem_takeWhile_imp hy

/-- Behind the place of an entry every other is strictly lower. -/
theorem dropWhile_lt (hs : l.Pairwise fun a b => s.entryPriority b ≤ s.entryPriority a) :
    ∀ y ∈ l.dropWhile (fun y => decide (e ≤ s.entryPriority y)), s.entryPriority y < e := by
  induction l with
  | nil => simp
  | cons a l ih =>
    obtain ⟨ha, hs⟩ := List.pairwise_cons.1 hs
    rw [List.dropWhile_cons]
    split
    · exact ih hs
    · next hlt =>
      intro y hy
      have hae : s.entryPriority a < e := by simpa using hlt
      rcases List.mem_cons.1 hy with rfl | hy
      · exact hae
      · exact (ha y hy).trans_lt hae

/-- Placing keeps the list ordered by effective priority (R64). -/
theorem State.placed_sorted (hx : s.entryPriority x = e)
    (hs : l.Pairwise fun a b => s.entryPriority b ≤ s.entryPriority a) :
    (s.placed x e l).Pairwise fun a b => s.entryPriority b ≤ s.entryPriority a := by
  have hge := takeWhile_ge s e l
  have hlt := dropWhile_lt (e := e) hs
  have hsplit := hs
  rw [← List.takeWhile_append_dropWhile (p := fun y => decide (e ≤ s.entryPriority y)) (l := l),
    List.pairwise_append] at hsplit
  obtain ⟨h1, h2, h3⟩ := hsplit
  rw [State.placed, List.pairwise_append, List.pairwise_cons]
  refine ⟨h1, ⟨fun y hy => ?_, h2⟩, fun a ha b hb => ?_⟩
  · exact hx ▸ (hlt y hy).le
  · rcases List.mem_cons.1 hb with rfl | hb
    · exact hx ▸ hge a ha
    · exact h3 a ha b hb

end

/-! ## The ageing step -/

/-- The state in which an entry has completed an ageing step and is placed again (R69). -/
abbrev State.aged (s : State) (h : Handle) (x' : WaitEntry) (e : Nat) : State :=
  { s with waiting := s.placed x' e (s.waiting.filter fun y => !(y.handle == h)) }

/-- The event of an ageing step asks for the arbiter's run for the entry's port. -/
theorem exec_ageingStep_runs {x : WaitEntry} (hp : s.powered = true) (hr : s.call? h = some r)
    (hx : (s.waiting.find? fun y => y.handle == h && y.ageing.isSome) = some x) :
    exec (.ageingStep h) s = .next ((Work.start (s.aged h
      { x with steps := x.steps + 1, ageing := s.ageingStart (effPriority r.cls (x.steps + 1)) }
      (effPriority r.cls (x.steps + 1)))).run x.port).finish := by
  rw [exec_ageingStep, execAgeingStep, event_powered hp, Work.withCall_live (w := Work.start s) hr, Work.start_st, hx]
  rfl

theorem Work.start_run_contains (s : State) (p q : Owned) : ((Work.start s).run p).runs.contains q = (q == p) := by
  simp [Work.start, Bool.beq_eq_decide_eq]

/-- A walk from the end of an event that has done no more than ask for it. -/
theorem Work.start_run_finish (s : State) (p : Owned) :
    (s.freeLanes p = [] → ((Work.start s).run p).finish = s) ∧
    (s.InLine (s.entriesFor p) → s.roomToGrant p (s.entriesFor p).length →
      ((Work.start s).run p).finish = s.arbitrated p) := by
  have hm := (Work.Makes.start True s).run p
  refine ⟨fun hfree => ?_, fun hl hroom => ?_⟩
  · rw [Work.finish, Work.runArbiter_singleton (Work.start_run_contains s p),
      Work.walk_stops fun x _ => State.admitLane_full hfree _]
    exact hm.flush
  · exact (hm.runArbiter_one (Work.start_run_contains s p) hl fun _ => hroom).flush

/-- Settles O42: the step places the entry again and has the arbiter run; placing keeps the order of the list. -/
theorem ageingAndPlacement : Obligations.AgeingAndPlacement := by
  refine ⟨fun s h r x hp hr hx => ?_, fun s x e l hx hs => ⟨State.placed_sorted hx hs, s.placed_sublist x e l,
    s.placed_perm x e l, fun pre post he hxl => ?_⟩⟩
  · obtain ⟨hfull, hgrants⟩ := Work.start_run_finish (s.aged h
      { x with steps := x.steps + 1, ageing := s.ageingStart (effPriority r.cls (x.steps + 1)) }
      (effPriority r.cls (x.steps + 1))) x.port
    refine ⟨fun hfree => ?_, fun hl hroom => ?_⟩
    · exact (exec_ageingStep_runs hp hr hx).trans (congrArg Host.Outcome.next (hfull hfree))
    · exact (exec_ageingStep_runs hp hr hx).trans (congrArg Host.Outcome.next (hgrants hl hroom))
  · have hx1 : x ∉ l.takeWhile fun y => decide (e ≤ s.entryPriority y) := fun hm => hxl ((List.takeWhile_prefix _).subset hm)
    have hx2 : x ∉ l.dropWhile fun y => decide (e ≤ s.entryPriority y) := fun hm => hxl ((List.dropWhile_suffix _).subset hm)
    obtain ⟨rfl, -, rfl⟩ := (List.append_cons_inj_of_notMem hx1 hx2).1 he
    exact ⟨takeWhile_ge s e l, dropWhile_lt hs⟩

end

end Sys2Proof.Machine
end

