-- ==== Sys2Proof/Proofs/LanesAndLinkUp.lean ====
section
/-! PROOFS. LANE_OUT and LANE_IN (R61, R62), a lane that comes in and the grants that follow, a riser link that comes UP
(O10, O43, O56). -/

namespace Sys2Proof.Machine

section
variable {s : State} {q : Request} {p : Owned}

/-! ## The mark of a lane -/

/-- The retained contents with the mark of a lane set or cleared (R43). -/
abbrev State.marked (s : State) (p : Owned) (i : Nat) (b : Bool) : State :=
  s.storing { s.retained with outMarks := s.retained.outMarks.set p.idx (s.retained.outMarks[p.idx].set i b) }

theorem laneNamed_port (hq : q.field.toNat < laneCount p) : laneNamed p.port q = some (p, q.field.toNat) := by
  cases p <;> exact if_pos hq

theorem laneNamed_beyond (hq : laneCount p ≤ q.field.toNat) : laneNamed p.port q = none := by
  cases p <;> exact if_neg (Nat.not_lt.2 hq)

theorem laneNamed_L : laneNamed .L q = none := rfl

theorem State.outMark_marked (hlegal : s.retained.Legal) {i : Nat} (hi : i < laneCount p) (b : Bool) :
    (s.marked p i b).outMark p i = b := by
  have hlen : s.retained.outMarks[p.idx.val].length = laneCount p := hlegal.marks p
  simp [State.outMark, State.storing, hlen, hi]

theorem State.holder_storing (s : State) (d : Retained) (p : Owned) (i : Nat) : (s.storing d).holder p i = s.holder p i := rfl

theorem State.laneState_marked (hlegal : s.retained.Legal) {i : Nat} (hi : i < laneCount p) (b : Bool) :
    (s.marked p i b).laneState p i = match s.holder p i, b with
      | some h, false => .held h
      | some h, true => .pendingOut h
      | none, false => .free
      | none, true => .out := by
  simp only [State.laneState, State.outMark_marked hlegal hi, State.holder_storing] <;>
    cases s.holder p i <;> cases b <;> rfl

/-! ## The two operations -/

theorem exec_laneOut_named (ht : s.takes q) (hl : s.locked = false) (hroom : s.roomL 1)
    (hp : Port.ofNumber q.index.toNat = some p.port) (hq : q.field.toNat < laneCount p) :
    exec (.laneOut q) s = .next ((s.marked p q.field.toNat true).replied .laneOut q .done 0) := by
  have h1 := (Work.Makes.start True (s.marked p q.field.toNat true)).reply .laneOut q .done 0 fun _ => hroom
  have hop : (Work.start s).laneOutOp q = (Work.start (s.marked p q.field.toNat true)).reply .laneOut q .done 0 := by
    rw [Work.laneOutOp, Work.portOp_port hp, Work.ifUnlocked_unlocked hl, laneNamed_port hq]
    rfl
  exact (exec_laneOut q s).trans (onRequest_makes ht (hop ▸ h1) (by rw [hop]; simp))

theorem exec_laneIn_named (ht : s.takes q) (hl : s.locked = false)
    (hp : Port.ofNumber q.index.toNat = some p.port) (hq : q.field.toNat < laneCount p) :
    exec (.laneIn q) s = .next (if s.laneState p q.field.toNat = .out then
      (((Work.start (s.marked p q.field.toNat false)).reply .laneIn q .done 0).run p).finish
      else ((Work.start (s.marked p q.field.toNat false)).reply .laneIn q .done 0).finish) := by
  rw [exec_laneIn, execLaneIn, onRequest_takes ht, Work.laneInOp, Work.portOp_port hp, Work.ifUnlocked_unlocked hl,
    laneNamed_port hq]
  dsimp only
  rw [Work.start_st]
  split <;> rfl

/-- A request of either operation that names no lane. -/
theorem exec_lane_refused (ht : s.takes q) (hl : s.locked = false) (hroom : s.roomL 1) {x : Port}
    (hp : Port.ofNumber q.index.toNat = some x) (hno : laneNamed x q = none) :
    exec (.laneOut q) s = .next (s.replied .laneOut q .badValue 0) ∧
    exec (.laneIn q) s = .next (s.replied .laneIn q .badValue 0) := by
  refine ⟨(exec_laneOut q s).trans (onRequest_reply ht hroom ?_), (exec_laneIn q s).trans (onRequest_reply ht hroom ?_)⟩
  · rw [Work.laneOutOp, Work.portOp_port hp, Work.ifUnlocked_unlocked hl, hno]
  · rw [Work.laneInOp, Work.portOp_port hp, Work.ifUnlocked_unlocked hl, hno]

/-! ## The grants that follow a LANE_IN -/

theorem Work.run_contains {w : Work} (hruns : w.runs = []) (p q : Owned) : (w.run p).runs.contains q = (q == p) := by
  simp [hruns, Bool.beq_eq_decide_eq]

@[simp] theorem State.replied_waiting (s : State) (op : MgmtOp) (q : Request) (r : Result) (v : Nat) :
    (s.replied op q r v).waiting = s.waiting := s.sentL_waiting _

@[simp] theorem State.call?_replied (s : State) (op : MgmtOp) (q : Request) (r : Result) (v : Nat) (h : Handle) :
    (s.replied op q r v).call? h = s.call? h := s.call?_sentL _ h

/-- The event of a LANE_IN that makes a lane FREE, before the arbiter runs. -/
abbrev laneInWork (s : State) (q : Request) (p : Owned) : Work :=
  ((Work.start (s.marked p q.field.toNat false)).reply .laneIn q .done 0).run p

/-- The state that LANE_IN leaves before any grant. -/
abbrev State.laneCameIn (s : State) (q : Request) (p : Owned) : State :=
  (s.marked p q.field.toNat false).replied .laneIn q .done 0

theorem laneInWork_contains (q : Request) (p x : Owned) : (laneInWork s q p).runs.contains x = (x == p) :=
  Work.run_contains (by simp) p x

theorem laneInWork_makes (R : Prop) (q : Request) (p : Owned) (hroom : R → s.roomL 1) :
    (laneInWork s q p).Makes R (s.laneCameIn q p) :=
  ((Work.Makes.start R (s.marked p q.field.toNat false)).reply .laneIn q .done 0 hroom).run p

theorem State.laneCameIn_entriesFor (s : State) (q : Request) (p p' : Owned) :
    (s.laneCameIn q p).entriesFor p' = s.entriesFor p' := by
  simp only [State.entriesFor, State.laneCameIn, State.replied_waiting]
  rfl

theorem State.laneCameIn_call? (s : State) (q : Request) (p : Owned) (h : Handle) :
    (s.laneCameIn q p).call? h = s.call? h := State.call?_replied ..

/-- The grants that follow a LANE_IN of an OUT lane. -/
theorem exec_laneIn_grants (ht : s.takes q) (hl : s.locked = false) (hroom : s.roomL 1)
    (hp : Port.ofNumber q.index.toNat = some p.port) (hq : q.field.toNat < laneCount p)
    (hst : s.laneState p q.field.toNat = .out) (hline : s.InLine (s.entriesFor p))
    (hgrant : (s.laneCameIn q p).roomToGrant p (s.entriesFor p).length) :
    exec (.laneIn q) s = .next ((s.laneCameIn q p).arbitrated p) := by
  rw [exec_laneIn_named ht hl hp hq, if_pos hst]
  refine congrArg Host.Outcome.next ((laneInWork_makes True q p fun _ => hroom).runArbiter_one (laneInWork_contains q p)
    ?_ fun _ => ?_).flush
  · rw [State.laneCameIn_entriesFor]
    exact hline.congr fun x _ => s.laneCameIn_call? q p x.handle
  · rw [State.laneCameIn_entriesFor]
    exact hgrant

/-- Settles O56: the mark, its reply, and the run where an OUT lane became FREE. -/
theorem lanesOutAndIn : Obligations.LanesOutAndIn := by
  refine ⟨fun s q ht hroom hq => ⟨?_, ?_⟩, fun s q ht hl hroom => ⟨fun p hp hq => ⟨?out, ⟨fun hst => ?notOut,
    fun hst hline hgrant => exec_laneIn_grants ht hl hroom hp hq hst hline hgrant⟩, fun hlegal => ⟨?_, ?_⟩⟩, ?refused⟩⟩
  · exact (exec_laneOut q s).trans (onRequest_reply ht hroom (Work.portOp_none hq))
  · exact (exec_laneIn q s).trans (onRequest_reply ht hroom (Work.portOp_none hq))
  case out => exact exec_laneOut_named ht hl hroom hp hq
  case notOut =>
    have h1 := (Work.Makes.start True (s.marked p q.field.toNat false)).reply .laneIn q .done 0 fun _ => hroom
    rw [exec_laneIn_named ht hl hp hq, if_neg hst]
    exact congrArg Host.Outcome.next (h1.finish (by simp))
  · rw [State.laneState_marked hlegal hq, State.laneState]
    cases s.holder p q.field.toNat <;> cases s.outMark p q.field.toNat <;> rfl
  · rw [State.laneState_marked hlegal hq, State.laneState]
    cases s.holder p q.field.toNat <;> cases s.outMark p q.field.toNat <;> rfl
  case refused =>
    rintro (h0 | ⟨p, hp, hq⟩)
    · exact exec_lane_refused ht hl hroom (x := .L) (by rw [h0]; rfl) laneNamed_L
    · exact exec_lane_refused ht hl hroom hp (laneNamed_beyond hq)

/-! ## No grant, and one grant -/

theorem exec_laneIn_runs (ht : s.takes q) (hl : s.locked = false)
    (hp : Port.ofNumber q.index.toNat = some p.port) (hq : q.field.toNat < laneCount p)
    (hst : s.laneState p q.field.toNat = .out) :
    exec (.laneIn q) s = .next ((laneInWork s q p).walk p s.waiting).flush := by
  rw [exec_laneIn_named ht hl hp hq, if_pos hst, Work.finish, Work.runArbiter_singleton (laneInWork_contains q p)]
  have hw : (laneInWork s q p).st.waiting = s.waiting := by
    rw [State.bare_waiting (laneInWork_makes False q p False.elim).bare]
    exact State.replied_waiting ..
  rw [hw]

/-- Where the first entry for the port fails, nothing is granted. -/
theorem exec_laneIn_none (ht : s.takes q) (hl : s.locked = false) (hroom : s.roomL 1)
    (hp : Port.ofNumber q.index.toNat = some p.port) (hq : q.field.toNat < laneCount p)
    (hst : s.laneState p q.field.toNat = .out)
    (hno : ∀ x, (s.waiting.find? fun y => y.port = p) = some x →
      (s.laneCameIn q p).admitLane p ((s.laneCameIn q p).entryPriority x) = none) :
    exec (.laneIn q) s = .next (s.laneCameIn q p) := by
  have h1 := laneInWork_makes True q p fun _ => hroom
  rw [exec_laneIn_runs ht hl hp hq hst, Work.walk_stops fun x hx => ?_, h1.flush]
  rw [State.bare_entryPriority h1.bare, State.bare_admitLane h1.bare]
  exact hno x hx

theorem Work.walk_skip {w : Work} {pre l : List WaitEntry} (hpre : ∀ y ∈ pre, y.port ≠ p) :
    w.walk p (pre ++ l) = w.walk p l := by
  induction pre with
  | nil => rfl
  | cons x pre ih =>
    rw [List.cons_append, Work.walk, if_neg (hpre x (by simp))]
    exact ih fun y hy => hpre y (by simp [hy])

/-- Where the first entry for the port passes and the next then fails, the first alone is granted. -/
theorem exec_laneIn_one (ht : s.takes q) (hl : s.locked = false)
    (hp : Port.ofNumber q.index.toNat = some p.port) (hq : q.field.toNat < laneCount p)
    (hst : s.laneState p q.field.toNat = .out) {pre post : List WaitEntry} {x : WaitEntry} {r : CallRecord} {i : Nat}
    (hsplit : s.waiting = pre ++ x :: post) (hpre : ∀ y ∈ pre, y.port ≠ p) (hx : x.port = p)
    (hr : s.call? x.handle = some r) (hW : r.Waits) (hpr : r.ownedPort = some p) (hlow : r.KeepsLow)
    (hi : (s.laneCameIn q p).admitLane p ((s.laneCameIn q p).entryPriority x) = some i)
    (hno : ∀ y, (post.find? fun y => y.port = p) = some y →
      ((s.laneCameIn q p).granted x.handle r p i).admitLane p
        (((s.laneCameIn q p).granted x.handle r p i).entryPriority y) = none)
    (hL : s.roomL 2) (hH : s.roomH 1) (hF : ∀ f, r.far = .floor f → s.roomF f.port (f.entries.length + 1)) :
    exec (.laneIn q) s = .next ((s.laneCameIn q p).granted x.handle r p i) := by
  have h1 := laneInWork_makes True q p fun _ => State.roomL.mono hL (by omega)
  have h2 := h1.grant ((State.laneCameIn_call? s q p x.handle).trans hr) hW hpr hlow
    (fun _ => State.roomL_sentL (s := s.marked p q.field.toNat false) hL)
    (fun _ _ => (State.roomH_sentL (s := s.marked p q.field.toNat false) ..).2 hH)
    (fun _ k hk => by
      obtain ⟨f, hf, hfk⟩ := CallRecord.floor_of_ownedPort (hpr.trans (congrArg some hk))
      have hroom := hF f hf
      rw [hfk] at hroom
      refine (State.roomF_sentL (s := s.marked p q.field.toNat false) ..).2 (State.roomF.mono (s := s) hroom ?_)
      unfold CallRecord.grantOffers
      rw [CallRecord.offers_floor hf]
      split <;> omega) i
  rw [exec_laneIn_runs ht hl hp hq hst, hsplit, Work.walk_skip hpre, Work.walk, if_pos hx,
    State.bare_entryPriority h1.bare, State.bare_admitLane h1.bare, hi]
  dsimp only
  rw [Work.walk_stops fun y hy => ?_, h2.flush]
  rw [State.bare_entryPriority h2.bare, State.bare_admitLane h2.bare]
  exact hno y hy

/-! ## A riser link comes UP -/

theorem Work.sendAllL_eq {w : Work} (hu : w.st.riserUp .L = true) (l : List RiserCell) :
    w.sendAllL l = { w with outL := w.outL ++ l } := by
  induction l generalizing w with
  | nil => simp [Work.sendAllL]
  | cons c l ih =>
    have hc : w.sendL c = { w with outL := w.outL ++ [c] } := if_pos hu
    have : w.sendAllL (c :: l) = (w.sendL c).sendAllL l := rfl
    rw [this, hc, ih (w := { w with outL := w.outL ++ [c] }) hu]
    simp

theorem State.pendingNotices_length (s : State) : s.pendingNotices.length ≤ 3 := by
  unfold State.pendingNotices
  rw [List.length_map]
  exact List.length_filter_le _ allGroups

/-- Port L comes UP: its RESTART, and the notices behind it. -/
theorem exec_linkUp_L (hp : s.powered = true) (hd : s.portL.link = .down) :
    exec (.linkUp .L) s = .next { s with portL := { s.portL with
      link := .up, downMark := false, aligned := true, count := 0, queue := riserRestart :: s.pendingNotices } } := by
  obtain ⟨t, ht⟩ : ∃ t : State, t = { s with portL := s.portL.raised } := ⟨_, rfl⟩
  have hup : t.riserUp .L = true := by rw [ht]; rfl
  have hsend : (Work.start t).sendL riserRestart = { Work.start t with outL := [riserRestart] } := if_pos hup
  have hwork : ((Work.start t).sendL riserRestart).sendAllL s.pendingNotices =
      { Work.start t with outL := riserRestart :: s.pendingNotices } := by
    rw [hsend]
    exact Work.sendAllL_eq hup _
  have hlen := s.pendingNotices_length
  have hfinish : ({ Work.start t with outL := riserRestart :: s.pendingNotices } : Work).finish =
      t.sentL (riserRestart :: s.pendingNotices) := by
    refine Work.finish_cells rfl (fun _ => .inr ?_) (by simp [Work.start])
    have hq : t.portL.queue = [] := by rw [ht]; rfl
    show t.portL.queue.length + (riserRestart :: s.pendingNotices).length ≤ 16
    rw [hq, List.length_nil, List.length_cons]
    omega
  have hnot : ¬ (Work.start s).st.riserUp .L = true := by simp [State.riserUp, Work.start, hd]
  rw [exec_linkUp, execLinkUp, event_powered hp, if_neg hnot]
  have hstart : (Work.start s).modPortL RiserPort.raised = Work.start t := by rw [ht]; rfl
  have hpend : ((Work.start t).sendL riserRestart).st.pendingNotices = s.pendingNotices := by
    rw [hsend, ht]; rfl
  dsimp only
  rw [hstart, hpend, hwork, hfinish, State.sentL, if_pos hup, ht]
  rfl

/-- Port H comes UP: its RESTART, FIRE-ON where the line source is set, and the grants. -/
theorem exec_linkUp_H (hp : s.powered = true) (hd : s.portH.link = .down) (htop : s.top = false)
    (hl : s.InLine (s.entriesFor .H)) {t : State} (ht : t = { s with portH := { s.portH with
      link := .up, downMark := false, aligned := true, count := 0,
      queue := riserRestart :: if s.lineSource then [fireOnCell] else [] } })
    (hroom : t.roomToGrant .H (s.entriesFor .H).length) : exec (.linkUp .H) s = .next (t.arbitrated .H) := by
  obtain ⟨s', hs'⟩ : ∃ s' : State, s' = { s with portH := s.portH.raised } := ⟨_, rfl⟩
  have hq : s'.portH.queue = [] := by rw [hs']; rfl
  have h1 := (Work.Makes.start True s').sendH (c := riserRestart) fun _ _ => .inr (by rw [hq]; decide)
  have h2 : (((Work.start s').sendH riserRestart).announceFire).Makes True t := by
    have hls : ((Work.start s').sendH riserRestart).st.lineSource = s.lineSource :=
      (State.bare_lineSource h1.bare).trans ((State.sentH_lineSource ..).trans (by rw [hs']))
    have htwo : t = if s.lineSource then (s'.sentH [riserRestart]).sentH [fireOnCell] else s'.sentH [riserRestart] := by
      rw [ht, hs']
      cases s.lineSource <;> rfl
    unfold Work.announceFire
    rw [hls, htwo]
    split
    · exact h1.sendH fun _ => State.roomH_sentH fun _ => .inr (by rw [hq]; decide)
    · exact h1
  have hent : t.entriesFor .H = s.entriesFor .H := by rw [ht]; rfl
  have hnot : ¬ (Work.start s).st.riserUp .H = true := by simp [State.riserUp, Work.start, hd]
  rw [exec_linkUp, execLinkUp, event_powered hp, if_neg hnot]
  dsimp only
  have hstart : (Work.start s).modPortH RiserPort.raised = Work.start s' := by rw [hs']; rfl
  rw [Work.start_st, htop, hstart]
  refine congrArg Host.Outcome.next ((h2.run .H).runArbiter_one (fun q => ?_) ?_ fun _ => ?_).flush
  · exact Work.run_contains (by simp [Work.announceFire, apply_ite Work.runs]) .H q
  · rw [hent]
    exact hl.congr fun x _ => by rw [ht]; rfl
  · rw [hent]
    exact hroom

/-- Settles O10: port L with its notices; port H, not at TOP, with FIRE-ON and the arbiter's run. -/
theorem linkUp : Obligations.LinkUp := by
  refine ⟨fun s hp hd => exec_linkUp_L hp hd, fun s hp hd => ⟨fun htop => ?top, fun htop hl => ?up⟩⟩
  case up =>
    intro t hroom
    exact exec_linkUp_H hp hd htop hl rfl hroom
  rw [exec_linkUp, execLinkUp]
  exact event_nothing (by simp [htop])

end

end Sys2Proof.Machine
end

