-- ==== Sys2Proof/Proofs/LineCuts.lean ====
section
/-! PROOFS. The calls that a line event or a neighbour's RESTART ends (chapter 10): one record, then every record that a test
selects in ascending order of handle. -/

namespace Sys2Proof.Machine

/-! ## One record -/

section
variable {R : Prop} {w : Work} {u s : State} {v : Handle} {r : CallRecord} {p : Riser} {c : Cause}

/-- The cells that a record's loss of a side on a riser port has for a riser port: none in CLEARING. -/
def CallRecord.cutCells (r : CallRecord) (p : Riser) (c : Cause) (q : Riser) : Nat :=
  if r.state = .clearing then 0 else ((r.closeSide p).releaseCells q c).length

/-- The cells that the end of a record's call has for a floor port. -/
def CallRecord.floorCells (r : CallRecord) (v : Handle) (c : Cause) (k : Floor) : Nat :=
  if r.state ≠ .clearing ∧ r.ownedPort = some (.F k) then (r.lastFloorCells v c).length else 0

theorem CallRecord.ownedPort_floor_iff {k : Floor} : r.ownedPort = some (.F k) ↔ ∃ f, r.far = .floor f ∧ f.port = k := by
  refine ⟨CallRecord.floor_of_ownedPort, ?_⟩
  rintro ⟨f, hf, rfl⟩
  simp [CallRecord.ownedPort, hf]

theorem Work.Makes.cutCall (hm : w.Makes R u) (hr : u.call? v = some r) (p : Riser) (c : Cause)
    (hL : R → u.roomL (r.cutCells p c .L)) (hH : R → u.roomH (r.cutCells p c .H))
    (hF : R → ∀ k, u.roomF k (r.floorCells v c k)) : (w.cutCall v r p c).Makes R (u.cut p c v r) := by
  unfold Work.cutCall State.cut
  split
  · exact hm.closeCleared hr p
  · next hst =>
    simp only [CallRecord.cutCells, if_neg hst] at hL hH
    have h1 := (hm.modCall (f := fun r => r.closeSide p) hr).release (State.call?_putCall_self ..) c hL hH fun hR f hf => by
      have hf' := CallRecord.closeSide_floor.1 hf
      have := hF hR f.port
      rw [CallRecord.floorCells, if_pos ⟨hst, CallRecord.ownedPort_floor_iff.2 ⟨f, hf', rfl⟩⟩] at this
      rw [CallRecord.closeSide_lastFloorCells]
      exact this
    rwa [State.ended_putCall] at h1

theorem Work.cutCall_runs (hr : w.st.call? v = some r) :
    (w.cutCall v r p c).runs = (if r.state = .clearing then [] else r.freedPort.toList) ++ w.runs := by
  unfold Work.cutCall
  split
  · exact Work.closeCleared_runs ..
  · have hr' : (w.modCall v fun r => r.closeSide p).call? v = some (r.closeSide p) := by
      rw [Work.modCall_live hr]
      exact State.call?_putCall_self ..
    rw [Work.release_runs hr', CallRecord.closeSide_freedPort, Work.modCall_runs]

theorem State.cut_call?_ne {v' : Handle} (hv : v ≠ v') : (s.cut p c v r).call? v' = s.call? v' := by
  unfold State.cut
  split
  · split
    · exact s.call?_putCall_ne _ hv
    · rw [State.call?_freed, if_neg hv]
  · exact s.ended_call?_ne _ _ _ hv

/-- What remains of the record is in CLEARING, with that side not open. -/
theorem State.cut_call?_self {r' : CallRecord} (hr : (s.cut p c v r).call? v = some r') :
    r'.state = .clearing ∧ r'.openKey p = none := by
  unfold State.cut at hr
  split at hr
  · next hst =>
    split at hr
    · rw [State.call?_putCall_self] at hr
      cases hr
      refine ⟨?_, r.openKey_closeSide_self p⟩
      unfold CallRecord.closeSide
      cases p with
      | L => exact hst
      | H => cases hf : r.far <;> exact hst
    · rw [State.call?_freed, if_pos rfl] at hr
      cases hr
  · rw [State.ended_call?_self] at hr
    split at hr
    · cases hr
      refine ⟨rfl, ?_⟩
      have hk := CallRecord.openKey_guarded (r.closeSide p) p
      rw [CallRecord.openKey_closeSide_self] at hk
      exact hk
    · cases hr

theorem State.cut_waiting : (s.cut p c v r).waiting =
    if r.state = .clearing then s.waiting else s.waiting.filter fun x => !(x.handle == v) := by
  unfold State.cut
  split
  · split <;> rfl
  · exact State.ended_waiting ..

theorem State.cut_roomL {n : Nat} (h : s.roomL (r.cutCells p c .L + n)) : (s.cut p c v r).roomL n := by
  unfold State.cut CallRecord.cutCells at *
  split
  · next hst =>
    rw [if_pos hst, Nat.zero_add] at h
    split <;> exact h
  · next hst =>
    rw [if_neg hst] at h
    exact State.ended_roomL h

theorem State.cut_roomH {n : Nat} (h : s.roomH (r.cutCells p c .H + n)) : (s.cut p c v r).roomH n := by
  unfold State.cut CallRecord.cutCells at *
  split
  · next hst =>
    rw [if_pos hst, Nat.zero_add] at h
    split <;> exact h
  · next hst =>
    rw [if_neg hst] at h
    exact State.ended_roomH h

theorem State.cut_roomF {k : Floor} {n : Nat} (h : s.roomF k (r.floorCells v c k + n)) : (s.cut p c v r).roomF k n := by
  unfold State.cut CallRecord.floorCells at *
  split
  · next hst =>
    rw [if_neg (by simp [hst]), Nat.zero_add] at h
    split <;> exact h
  · next hst =>
    refine State.ended_roomF (fun f hf hk => ?_) (h.mono (by omega))
    have hf' := CallRecord.closeSide_floor.1 hf
    rw [if_pos ⟨hst, CallRecord.ownedPort_floor_iff.2 ⟨f, hf', hk⟩⟩] at h
    rw [CallRecord.closeSide_lastFloorCells]
    exact h

end

/-! ## Every selected record -/

/-- One step of `State.forEach`. -/
def State.eachStep (sel : CallRecord → Bool) (G : State → Handle → CallRecord → State) (u : State) (v : Handle) : State :=
  ((u.call? v).filter sel).elim u (G u v)

theorem State.eachStep_live {sel : CallRecord → Bool} {G : State → Handle → CallRecord → State} {u : State} {v : Handle}
    {r : CallRecord} (hr : u.call? v = some r) (hs : sel r = true) : u.eachStep sel G v = G u v r := by
  rw [State.eachStep, hr, Option.filter_some_pos hs]
  rfl

theorem State.eachStep_skip {sel : CallRecord → Bool} {G : State → Handle → CallRecord → State} {u : State} {v : Handle}
    (hs : ∀ r, u.call? v = some r → sel r = false) : u.eachStep sel G v = u := by
  rw [State.eachStep]
  cases hr : u.call? v with
  | none => rfl
  | some r => rw [Option.filter_some_neg (by simp [hs r hr])]; rfl

theorem State.forEach_eq (s : State) (sel : CallRecord → Bool) (G : State → Handle → CallRecord → State) :
    s.forEach sel G = allHandles.foldl (State.eachStep sel G) s := by
  unfold State.forEach allHandles
  congr 1
  funext u v
  cases hr : u.call? v with
  | none => rw [State.eachStep, hr]; rfl
  | some r =>
    dsimp only
    split
    · next hs => rw [State.eachStep_live hr hs]
    · next hs => rw [State.eachStep_skip fun r' hr' => by cases hr.symm.trans hr'; simpa using hs]

/-- What the cells of a list of records ask of a queue. -/
def State.need (s : State) (cost : Handle → CallRecord → Nat) (l : List Handle) : Nat :=
  (l.map fun h => (s.call? h).elim 0 (cost h)).sum

theorem State.need_cons (s : State) (cost : Handle → CallRecord → Nat) (v : Handle) (l : List Handle) :
    s.need cost (v :: l) = (s.call? v).elim 0 (cost v) + s.need cost l := rfl

theorem State.need_congr {s u : State} {cost cost' : Handle → CallRecord → Nat} {l : List Handle}
    (hc : ∀ h ∈ l, (u.call? h).elim 0 (cost h) = (s.call? h).elim 0 (cost' h)) : u.need cost l = s.need cost' l :=
  congrArg List.sum (List.map_congr_left hc)

/-- What one record's step of an event does, in the event and in the state that it leaves, and what it asks for. -/
structure EachStep (R : Prop) (sel : CallRecord → Bool) (F : Work → Handle → CallRecord → Work)
    (G : State → Handle → CallRecord → State) (cL cH : Handle → CallRecord → Nat)
    (cF : Floor → Handle → CallRecord → Nat) (ports : CallRecord → List Owned) (ends : CallRecord → Bool) : Prop where
  skip    : ∀ w v r, sel r = false → F w v r = w
  makes   : ∀ w u v r, w.Makes R u → u.call? v = some r → sel r = true → (R → u.roomL (cL v r)) →
    (R → u.roomH (cH v r)) → (R → ∀ k, u.roomF k (cF k v r)) → (F w v r).Makes R (G u v r)
  runs    : ∀ w v r, w.st.call? v = some r → sel r = true → (F w v r).runs = ports r ++ w.runs
  others  : ∀ u v v' r, v ≠ v' → (G u v r).call? v' = u.call? v'
  waiting : ∀ u v r, (G u v r).waiting = u.waiting.filter fun x => !(x.handle == v && ends r)
  roomL   : ∀ u v r n, u.roomL (cL v r + n) → (G u v r).roomL n
  roomH   : ∀ u v r n, u.roomH (cH v r + n) → (G u v r).roomH n
  roomF   : ∀ u v r k n, u.roomF k (cF k v r + n) → (G u v r).roomF k n

section
variable {R : Prop} {sel : CallRecord → Bool} {F : Work → Handle → CallRecord → Work}
  {G : State → Handle → CallRecord → State} {cL cH : Handle → CallRecord → Nat} {cF : Floor → Handle → CallRecord → Nat}
  {ports : CallRecord → List Owned} {ends : CallRecord → Bool}

/-- A cost that counts for selected records alone. -/
abbrev costOf (sel : CallRecord → Bool) (cost : Handle → CallRecord → Nat) : Handle → CallRecord → Nat :=
  fun v r => if sel r then cost v r else 0

/-- The same list of records taken in the event and in the state that it leaves. -/
theorem EachStep.fold (hE : EachStep R sel F G cL cH cF ports ends) (l : List Handle) (hnd : l.Nodup) (a b : Nat)
    (d : Floor → Nat) {w : Work} {u : State} (hm : w.Makes R u) (hL : R → u.roomL (u.need (costOf sel cL) l + a))
    (hH : R → u.roomH (u.need (costOf sel cH) l + b)) (hF : R → ∀ k, u.roomF k (u.need (costOf sel (cF k)) l + d k)) :
    (l.foldl (fun w h => w.withCall h fun r => F w h r) w).Makes R (l.foldl (State.eachStep sel G) u) ∧
      (R → (l.foldl (State.eachStep sel G) u).roomL a) ∧ (R → (l.foldl (State.eachStep sel G) u).roomH b) ∧
      (R → ∀ k, (l.foldl (State.eachStep sel G) u).roomF k (d k)) := by
  induction l generalizing w u with
  | nil => exact ⟨hm, fun hR => (hL hR).mono (by simp [State.need]), fun hR => (hH hR).mono (by simp [State.need]),
      fun hR k => (hF hR k).mono (by simp [State.need])⟩
  | cons v l ih =>
    rw [List.nodup_cons] at hnd
    rw [List.foldl_cons, List.foldl_cons]
    cases hr : u.call? v with
    | none =>
      have hw : (w.withCall v fun r => F w v r) = w := by
        simp only [Work.withCall, Work.call?, (State.bare_call? hm.bare v).trans hr]
      simp only [State.need_cons, hr, Option.elim_none, Nat.zero_add] at hL hH hF
      rw [hw, State.eachStep_skip (by simp [hr])]
      exact ih hnd.2 hm hL hH hF
    | some r =>
      rw [Work.withCall_live ((State.bare_call? hm.bare v).trans hr)]
      simp only [State.need_cons, hr, Option.elim_some, costOf] at hL hH hF
      cases hs : sel r with
      | false =>
        simp only [hs, Bool.false_eq_true, if_false, Nat.zero_add] at hL hH hF
        rw [hE.skip w v r hs, State.eachStep_skip (fun r' hr' => by cases hr.symm.trans hr'; exact hs)]
        exact ih hnd.2 hm hL hH hF
      | true =>
        simp only [hs, if_true] at hL hH hF
        rw [State.eachStep_live hr hs]
        have hsame : ∀ cost, (G u v r).need cost l = u.need cost l := fun cost => State.need_congr fun h hh => by
          rw [hE.others u v h r fun e => hnd.1 (e ▸ hh)]
        refine ih hnd.2 (hE.makes w u v r hm hr hs (fun hR => (hL hR).mono (by omega)) (fun hR => (hH hR).mono (by omega))
          fun hR k => (hF hR k).mono (by omega)) (fun hR => ?_) (fun hR => ?_) fun hR k => ?_
        · rw [hsame]
          exact hE.roomL u v r _ ((hL hR).mono (by omega))
        · rw [hsame]
          exact hE.roomH u v r _ ((hH hR).mono (by omega))
        · rw [hsame]
          exact hE.roomF u v r k _ ((hF hR k).mono (by omega))

/-- The ports for which the records' steps ask for the arbiter's run. -/
theorem EachStep.fold_runs (hE : EachStep False sel F G cL cH cF ports ends) (l : List Handle) (hnd : l.Nodup) {w : Work}
    {u : State} (hm : w.Makes False u) (q : Owned) :
    q ∈ (l.foldl (fun w h => w.withCall h fun r => F w h r) w).runs ↔
      q ∈ w.runs ∨ ∃ h ∈ l, ∃ r, u.call? h = some r ∧ sel r = true ∧ q ∈ ports r := by
  induction l generalizing w u with
  | nil => simp
  | cons v l ih =>
    rw [List.nodup_cons] at hnd
    rw [List.foldl_cons]
    cases hr : u.call? v with
    | none =>
      have hw : (w.withCall v fun r => F w v r) = w := by
        simp only [Work.withCall, Work.call?, (State.bare_call? hm.bare v).trans hr]
      rw [hw, ih hnd.2 hm]
      simp [hr]
    | some r =>
      rw [Work.withCall_live ((State.bare_call? hm.bare v).trans hr)]
      cases hs : sel r with
      | false =>
        rw [hE.skip w v r hs, ih hnd.2 hm]
        simp [hr, hs]
      | true =>
        have hsame : ∀ h ∈ l, (G u v r).call? h = u.call? h := fun h hh => hE.others u v h r fun e => hnd.1 (e ▸ hh)
        rw [ih hnd.2 (hE.makes w u v r hm hr hs False.elim False.elim False.elim),
          hE.runs w v r ((State.bare_call? hm.bare v).trans hr) hs, List.mem_append]
        have hex : (∃ h ∈ l, ∃ r', (G u v r).call? h = some r' ∧ sel r' = true ∧ q ∈ ports r') ↔
            ∃ h ∈ l, ∃ r', u.call? h = some r' ∧ sel r' = true ∧ q ∈ ports r' := by
          refine exists_congr fun h => and_congr_right fun hh => ?_
          rw [hsame h hh]
        rw [hex]
        simp only [List.mem_cons, exists_eq_or_imp, hr, Option.some.injEq, exists_eq_left', hs, true_and]
        rw [or_comm (a := q ∈ ports r), or_assoc]

/-- The records that no step takes are as they were. -/
theorem EachStep.fold_call? (hE : EachStep False sel F G cL cH cF ports ends) (l : List Handle) (u : State) {h : Handle}
    (hh : h ∉ l ∨ ∀ r, u.call? h = some r → sel r = false) :
    (l.foldl (State.eachStep sel G) u).call? h = u.call? h := by
  induction l generalizing u with
  | nil => rfl
  | cons v l ih =>
    rw [List.foldl_cons]
    have hstep : (u.eachStep sel G v).call? h = u.call? h := by
      by_cases hv : v = h
      · subst hv
        rw [State.eachStep_skip (hh.resolve_left (by simp))]
      · cases hr : (u.call? v).filter sel with
        | none => rw [State.eachStep, hr]; rfl
        | some r =>
          rw [State.eachStep, hr]
          exact hE.others u v h r hv
    rw [ih, hstep]
    rw [hstep]
    exact hh.imp_left fun hm hmem => hm (List.mem_cons_of_mem _ hmem)

/-- A record that a step takes is as its step leaves it. -/
theorem EachStep.fold_taken (hE : EachStep False sel F G cL cH cF ports ends) (l : List Handle) (hnd : l.Nodup) (u : State)
    {h : Handle} (hh : h ∈ l) {r : CallRecord} (hr : u.call? h = some r) (hs : sel r = true) :
    ∃ u', u'.call? h = some r ∧ (l.foldl (State.eachStep sel G) u).call? h = (G u' h r).call? h := by
  induction l generalizing u with
  | nil => cases hh
  | cons v l ih =>
    rw [List.nodup_cons] at hnd
    rw [List.foldl_cons]
    by_cases hv : v = h
    · subst hv
      rw [State.eachStep_live hr hs]
      exact ⟨u, hr, hE.fold_call? l _ (.inl hnd.1)⟩
    · refine ih hnd.2 _ ((List.mem_cons.1 hh).resolve_left (Ne.symm hv)) ?_
      have := hE.fold_call? [v] u (h := h) (.inl (by simpa using Ne.symm hv))
      exact this.trans hr

/-- The entries of the records that a step takes out of the list. -/
theorem EachStep.fold_waiting (hE : EachStep False sel F G cL cH cF ports ends) (l : List Handle) (hnd : l.Nodup) (u : State) :
    (l.foldl (State.eachStep sel G) u).waiting = u.waiting.filter fun x =>
      !(l.contains x.handle && (u.call? x.handle).any fun r => sel r && ends r) := by
  induction l generalizing u with
  | nil => simp
  | cons v l ih =>
    rw [List.nodup_cons] at hnd
    rw [List.foldl_cons, ih hnd.2]
    have hne : ∀ h ∈ l, (u.eachStep sel G v).call? h = u.call? h := fun h hh =>
      hE.fold_call? [v] u (h := h) (.inl (by rintro hm; rw [List.mem_singleton] at hm; exact hnd.1 (hm ▸ hh)))
    have hw : (u.eachStep sel G v).waiting = u.waiting.filter fun x =>
        !(x.handle == v && (u.call? v).any fun r => sel r && ends r) := by
      cases hr : u.call? v with
      | none => rw [State.eachStep_skip (by simp [hr])]; simp
      | some r =>
        cases hs : sel r with
        | false =>
          rw [State.eachStep_skip fun r' hr' => by cases hr.symm.trans hr'; exact hs]
          simp [hs]
        | true =>
          rw [State.eachStep_live hr hs, hE.waiting]
          simp [hs]
    rw [hw, List.filter_filter]
    refine List.filter_congr fun x _ => ?_
    by_cases hx : x.handle = v
    · have hl : l.contains x.handle = false := by simpa [hx] using hnd.1
      rw [hl, hx]
      simp
    · by_cases hm : x.handle ∈ l
      · rw [hne _ hm]
        simp [hx, hm]
      · simp [hx, hm]

end

end Sys2Proof.Machine
end

