-- ==== Sys2Proof/Proofs/CallsCut.lean ====
section
/-! PROOFS. The two ways in which a line event takes the records: one that cuts a side of each (R169 to R172) and one that
ends each (R167), with what they ask of the queues in the words of the statements. -/

namespace Sys2Proof.Machine

/-! ## Cutting a side of every selected record -/

/-- The step of a record whose side on a riser port is lost, if it is selected. -/
def cutStep (sel : CallRecord → Bool) (p : Riser) (c : Cause) (w : Work) (v : Handle) (r : CallRecord) : Work :=
  if sel r then w.cutCall v r p c else w

theorem EachStep.cut (R : Prop) (sel : CallRecord → Bool) (p : Riser) (c : Cause) :
    EachStep R sel (cutStep sel p c) (fun t h r => t.cut p c h r) (fun _ r => r.cutCells p c .L)
      (fun _ r => r.cutCells p c .H) (fun k v r => r.floorCells v c k)
      (fun r => if r.state = .clearing then [] else r.freedPort.toList) (fun r => r.state != .clearing) where
  skip w v r hs := if_neg (by simp [hs])
  makes w u v r hm hr hs hL hH hF := by
    rw [cutStep, if_pos hs]
    exact hm.cutCall hr p c hL hH hF
  runs w v r hr hs := by
    rw [cutStep, if_pos hs]
    exact Work.cutCall_runs hr
  others u v v' r hv := State.cut_call?_ne hv
  waiting u v r := by
    rw [State.cut_waiting]
    split
    · next hst => simp [hst]
    · next hst =>
      have hne : (r.state != .clearing) = true := by simpa using hst
      simp [hne]
  roomL u v r n h := State.cut_roomL h
  roomH u v r n h := State.cut_roomH h
  roomF u v r k n h := State.cut_roomF h

/-! ## Ending every selected record -/

/-- The step of a record whose call ends, if it is selected. -/
def endStep (sel : CallRecord → Bool) (c : Cause) (w : Work) (v : Handle) (r : CallRecord) : Work :=
  if sel r then w.release v c else w

theorem EachStep.ending (R : Prop) (sel : CallRecord → Bool) (c : Cause) :
    EachStep R sel (endStep sel c) (fun t h r => t.ended h r c) (fun _ r => (r.releaseCells .L c).length)
      (fun _ r => (r.releaseCells .H c).length)
      (fun k v r => if r.ownedPort = some (.F k) then (r.lastFloorCells v c).length else 0)
      (fun r => r.freedPort.toList) (fun _ => true) where
  skip w v r hs := if_neg (by simp [hs])
  makes w u v r hm hr hs hL hH hF := by
    rw [endStep, if_pos hs]
    refine hm.release hr c hL hH fun hR f hf => ?_
    have := hF hR f.port
    rwa [if_pos (CallRecord.ownedPort_floor_iff.2 ⟨f, hf, rfl⟩)] at this
  runs w v r hr hs := by
    rw [endStep, if_pos hs]
    exact Work.release_runs hr c
  others u v v' r hv := State.ended_call?_ne u v r c hv
  waiting u v r := by simp
  roomL u v r n h := State.ended_roomL h
  roomH u v r n h := State.ended_roomH h
  roomF u v r k n h := by
    refine State.ended_roomF (fun f hf hk => ?_) (h.mono (by omega))
    rwa [if_pos (CallRecord.ownedPort_floor_iff.2 ⟨f, hf, hk⟩)] at h

/-! ## The cells in the words of the statements -/

section
variable {s : State} {sel : CallRecord → Bool} {c : Cause}

theorem List.length_filter_eq_need (s : State) (sel : CallRecord → Bool) (l : List Handle) :
    (l.filter fun h => (s.call? h).any sel).length = s.need (fun _ r => if sel r then 1 else 0) l := by
  induction l with
  | nil => rfl
  | cons v l ih =>
    rw [State.need_cons, ← ih, List.filter_cons]
    cases hr : s.call? v with
    | none => simp
    | some r => cases hs : sel r <;> simp [hs, Nat.add_comm]

/-- One cell for each selected record. -/
theorem State.selected_length (s : State) (sel : CallRecord → Bool) :
    (s.selected sel).length = s.need (fun _ r => if sel r then 1 else 0) allHandles :=
  List.length_filter_eq_need s sel allHandles

theorem floorCells_need (s : State) (sel : CallRecord → Bool) (c : Cause) (l : List Handle) :
    ((l.filter fun h => (s.call? h).any sel).map fun h =>
      ((s.call? h).map fun r => (r.lastFloorCells h c).length).getD 0).sum =
    s.need (fun h r => if sel r then (r.lastFloorCells h c).length else 0) l := by
  induction l with
  | nil => rfl
  | cons v l ih =>
    rw [State.need_cons, ← ih, List.filter_cons]
    cases hr : s.call? v with
    | none => simp
    | some r => cases hs : sel r <;> simp [hs, hr]

/-- The cells for the handsets of the selected records. -/
theorem State.floorCellsFor_eq (s : State) (sel : CallRecord → Bool) (c : Cause) :
    s.floorCellsFor sel c = s.need (fun h r => if sel r then (r.lastFloorCells h c).length else 0) allHandles :=
  floorCells_need s sel c allHandles

theorem CallRecord.releaseCells_eq (r : CallRecord) (p : Riser) (c : Cause) :
    (r.releaseCells p c).length = if (r.openKey p).isSome then 1 else 0 := by
  unfold CallRecord.releaseCells
  cases r.openKey p <;> rfl

theorem CallRecord.openKey_closeSide_ne (r : CallRecord) {p q : Riser} (h : p ≠ q) :
    (r.closeSide p).openKey q = r.openKey q := by
  unfold CallRecord.closeSide
  cases p <;> cases q
  · exact absurd rfl h
  · rfl
  · cases hf : r.far <;> rfl
  · exact absurd rfl h

theorem CallRecord.cutCells_self (r : CallRecord) (p : Riser) (c : Cause) : r.cutCells p c p = 0 := by
  unfold CallRecord.cutCells
  rw [CallRecord.releaseCells_closed (r.openKey_closeSide_self p)]
  split <;> rfl

theorem CallRecord.cutCells_ne (r : CallRecord) {p q : Riser} (h : p ≠ q) (c : Cause) :
    r.cutCells p c q = if r.state != .clearing && (r.openKey q).isSome then 1 else 0 := by
  unfold CallRecord.cutCells
  rw [CallRecord.releaseCells_eq, CallRecord.openKey_closeSide_ne r h]
  by_cases hst : r.state = .clearing <;> simp [hst]

/-- Without a supply of lanes nothing is granted. -/
theorem Work.runArbiter_stops {w : Work} (h : ∀ p ∈ w.runs, w.walk p w.st.waiting = w) : w.runArbiter = w := by
  have hstep : ∀ p, w.runFor p = w := fun p => by
    unfold Work.runFor
    split
    · next hp => exact h p (by simpa using hp)
    · rfl
  unfold Work.runArbiter
  generalize allOwned = l
  induction l with
  | nil => rfl
  | cons p l ih => rw [List.foldl_cons, hstep, ih]

/-- A walk over entries whose records no longer exist grants nothing. -/
theorem Work.walk_dead {w : Work} {p : Owned} {l : List WaitEntry} (hl : ∀ x ∈ l, w.st.call? x.handle = none) :
    w.walk p l = w := by
  induction l with
  | nil => rfl
  | cons x l ih =>
    have hx : ∀ i, w.grant x.handle p i = w := fun i => by
      simp [Work.grant, Work.withCall, Work.call?, hl x (by simp)]
    unfold Work.walk
    split
    · split
      · rw [hx, ih fun y hy => hl y (by simp [hy])]
      · rfl
    · exact ih fun y hy => hl y (by simp [hy])

end

end Sys2Proof.Machine
end

