-- ==== Sys2Proof/Proofs/PortsAndBits.lean ====
section
/-! PROOFS. What an event over calls leaves of the line interfaces, and the bits that it has set. -/

namespace Sys2Proof.Machine

/-! ## The line interfaces -/

/-- No operation over calls touches port L's interface: its cells wait for the end of the event. -/
theorem Prim.portL {w w' : Work} (h : Prim w w') : w'.st.portL = w.st.portL := by
  cases h with
  | freeCall h => unfold Work.freeCall; split <;> rfl
  | sendL c => exact Work.sendL_portL ..
  | sendH c => exact Work.sendH_portL ..
  | sendF k c => exact Work.sendF_portL ..
  | _ => rfl

theorem Moves.portL {a w : Work} (h : Moves a w) : w.st.portL = a.st.portL :=
  Moves.keeps (P := fun w => w.st.portL = a.st.portL) (fun _ _ hp hw => hp.portL.trans hw) h rfl

theorem Work.sendH_down {w : Work} (c : RiserCell) (hd : w.st.portH.link = .down) : w.sendH c = w := by
  simp [Work.sendH, State.riserUp, hd]

/-- While port H is DOWN no operation over calls touches its interface. -/
theorem Prim.portH {w w' : Work} (h : Prim w w') (hd : w.st.portH.link = .down) : w'.st.portH = w.st.portH := by
  cases h with
  | freeCall h => unfold Work.freeCall; split <;> rfl
  | sendL c => exact Work.sendL_portH ..
  | sendH c => rw [Work.sendH_down c hd]
  | sendF k c => exact Work.sendF_portH ..
  | _ => rfl

theorem Moves.portH {a w : Work} (h : Moves a w) (hd : a.st.portH.link = .down) : w.st.portH = a.st.portH :=
  Moves.keeps (P := fun w => w.st.portH = a.st.portH) (fun _ _ hp hw => (hp.portH (by rw [hw]; exact hd)).trans hw) h rfl

theorem Work.sendF_down {w : Work} {k : Floor} (c : FloorCell) (hd : w.st.floorUp k = false) : w.sendF k c = w := by
  simp [Work.sendF, hd]

theorem Work.cancelOffers_down {w : Work} {k : Floor} (v : Handle) (l : List OfferEntry) (hd : w.st.floorUp k = false) :
    w.cancelOffers v k l = w := by
  induction l with
  | nil => rfl
  | cons e l ih =>
    unfold Work.cancelOffers
    split
    · exact ih
    · rw [Work.sendF_down _ hd, ih]

/-! ## The floor interfaces while the calls of a port that is not UP end -/

section
variable (w : Work) (v : Handle)

theorem Work.withCall_floors {w : Work} {v : Handle} {k : CallRecord → Work} (hk : ∀ r, (k r).st.floors = w.st.floors) :
    (w.withCall v k).st.floors = w.st.floors := by
  unfold Work.withCall
  split
  · exact hk _
  · rfl

theorem Work.freeLane_floors : (w.freeLane v).st.floors = w.st.floors :=
  Work.withCall_floors fun r => by split <;> rfl

theorem Work.emptyMirror_floors : (w.emptyMirror v).st.floors = w.st.floors :=
  Work.withCall_floors fun r => by split <;> rfl

theorem Work.releaseSides_floors (r : CallRecord) (c : Cause) : (w.releaseSides r c).st.floors = w.st.floors := by
  unfold Work.releaseSides
  cases r.openKey .L <;> cases r.openKey .H <;> simp

theorem Work.clearOrFree_floors : (w.clearOrFree v).st.floors = w.st.floors :=
  (Work.withCall_floors fun r => by split <;> [rfl; exact Work.freeCall_floors ..]).trans rfl

variable {w v}

theorem Work.tellFloor_floors {r : CallRecord} (c : Cause) (hd : ∀ f, r.far = .floor f → w.st.floorUp f.port = false) :
    (w.tellFloor v r c).st.floors = w.st.floors := by
  unfold Work.tellFloor
  split
  · next f hf =>
    have hdf := hd f hf
    have hst : ∀ x : Work, x.st.floorUp f.port = false → x.statusTo v r .cleared c.toByte = x := fun x hx => by
      simp only [Work.statusTo, hf]
      split <;> [exact Work.sendF_down _ hx; rfl]
    have hid : ∀ x : Work, (x.idleActivity v f.slot).st.floors = x.st.floors := fun x => by
      unfold Work.idleActivity; split <;> rfl
    dsimp only
    rw [hid]
    split
    · rw [Work.cancelOffers_down v f.entries hdf, hst w hdf]
    · rw [hst w hdf]
  · rfl

/-- The end of a call of a floor port that is not UP leaves the floor interfaces as they are. -/
theorem Work.release_floors {r : CallRecord} (c : Cause) (hr : w.call? v = some r)
    (hd : ∀ f, r.far = .floor f → w.st.floorUp f.port = false) : (w.release v c).st.floors = w.st.floors := by
  have hbefore : (((((w.modCall v fun r => { r with pendingCause := some c }).leaveWaiting v).freeLane v).emptyMirror
      v).releaseSides r c).st.floors = w.st.floors := by
    rw [Work.releaseSides_floors, Work.emptyMirror_floors, Work.freeLane_floors]
    rfl
  rw [Work.release, Work.withCall_live hr, Work.clearOrFree_floors, Work.tellFloor_floors, hbefore]
  intro f hf
  rw [State.floorUp, hbefore]
  exact hd f hf

theorem Work.eachCall_keeps {P : Work → Prop} {f : Work → Handle → CallRecord → Work}
    (hf : ∀ w h r, P w → w.call? h = some r → P (f w h r)) {w : Work} (hw : P w) : P (w.eachCall f) := by
  unfold Work.eachCall
  generalize allHandles = l
  induction l generalizing w with
  | nil => exact hw
  | cons v l ih =>
    rw [List.foldl_cons]
    refine ih ?_
    unfold Work.withCall
    split
    · exact hf _ _ _ hw ‹_›
    · exact hw

end

/-! ## The bits that an event has set -/

/-- An event's bit is set. -/
abbrev EventSets.Has (x : EventSets) (e : Event) : Prop := x.get e.group &&& e.mask ≠ 0

theorem and_or_ne_zero {a b m : Word} (h : a &&& m ≠ 0 ∨ b &&& m ≠ 0) : (a ||| b) &&& m ≠ 0 := by
  rw [BitVec.and_comm, BitVec.and_or_distrib_left, BitVec.and_comm m a, BitVec.and_comm m b]
  intro hz
  obtain ⟨ha, hb⟩ := BitVec.or_eq_zero_iff.1 hz
  exact h.elim (· ha) (· hb)

theorem EventSets.Has.add {x : EventSets} {e : Event} (h : x.Has e) (e' : Event) : (x.add e').Has e := by
  unfold EventSets.Has
  rw [EventSets.get_add]
  split
  · exact and_or_ne_zero (.inl h)
  · exact h

theorem EventSets.has_add (x : EventSets) (e : Event) : (x.add e).Has e := by
  unfold EventSets.Has
  rw [EventSets.get_add, if_pos rfl]
  refine and_or_ne_zero (.inr ?_)
  cases e <;> decide

theorem Prim.has {w w' : Work} {e : Event} (h : Prim w w') (hw : w.raised.Has e) : w'.raised.Has e := by
  cases h with
  | raise e' => exact hw.add e'
  | freeCall h => unfold Work.freeCall; split <;> exact hw
  | sendL c => unfold Work.sendL; split <;> exact hw
  | sendH c =>
    unfold Work.sendH
    split
    · split
      · exact hw
      · exact hw.add _
    · exact hw
  | sendF k c =>
    unfold Work.sendF
    split
    · split
      · exact hw
      · exact hw.add _
    · exact hw
  | _ => exact hw

theorem Moves.has {a w : Work} {e : Event} (h : Moves a w) (ha : a.raised.Has e) : w.raised.Has e :=
  Moves.keeps (P := fun w => w.raised.Has e) (fun _ _ hp hw => hp.has hw) h ha

theorem EventSets.Has.union {x : EventSets} {e : Event} (h : x.Has e) (y : EventSets) : (y.union x).Has e := by
  have hg : (y.union x).get e.group = y.get e.group ||| x.get e.group := by
    cases e.group <;> rfl
  unfold EventSets.Has
  rw [hg]
  exact and_or_ne_zero (.inr h)

/-- The end of an event sets the bits that it has raised. -/
theorem Work.flush_has {w : Work} {e : Event} (h : w.raised.Has e) : w.flush.status.Has e := by
  unfold Work.flush
  split
  · have hf : (w.st.raisedAtEnd w.raised w.outL).Has e := by
      unfold State.raisedAtEnd
      split
      · exact h.add _
      · exact h
    exact hf.union _
  · exact h.union _

theorem Work.flush_portH (w : Work) : w.flush.portH = w.st.portH := by
  unfold Work.flush; split <;> rfl

theorem Work.flush_floors (w : Work) : w.flush.floors = w.st.floors := by
  unfold Work.flush; split <;> rfl

theorem Work.flush_portL_down {w : Work} (hd : w.st.portL.link = .down) : w.flush.portL = w.st.portL := by
  have hu : ¬ w.st.riserUp .L = true := by simp [State.riserUp, hd]
  rw [Work.flush, if_neg hu]

end Sys2Proof.Machine
end

