-- ==== Sys2Proof/Proofs/FloorLine.lean ====
section
/-! PROOFS. A floor port that leaves UP, and what the end of its calls leaves (O13, O57). -/

namespace Sys2Proof.Machine

/-! ## A port that is not UP grants nothing -/

section
variable {s t : State}

theorem State.frame_floorUp (h : s.frame = t.frame) (k : Floor) : s.floorUp k = t.floorUp k := by
  have := congrArg (fun x : State => x.floors[k].line) h
  have hl : s.floors[k].line = t.floors[k].line := by simpa [State.frame, State.bare] using this
  unfold State.floorUp
  rw [hl]

theorem State.frame_usable (h : s.frame = t.frame) (p : Owned) : s.usable p = t.usable p := by
  cases p with
  | H => exact (congrArg (fun x : RiserPort => decide (x.link = .up)) (State.frame_portH h) :)
  | F k => exact State.frame_floorUp h k

end

theorem Work.runArbiter_unusable {w : Work} (h : ∀ p ∈ w.runs, w.st.usable p = false) : w.runArbiter = w :=
  Work.runArbiter_stops fun p hp => Work.walk_stops fun _ _ => State.admitLane_unusable (h p hp) _

/-! ## The calls of a floor port -/

/-- The records that the end of a floor port's line ends. -/
abbrev callsOn (k : Floor) : CallRecord → Bool := fun r => r.ownedPort == some (.F k) && r.state != .clearing

theorem callsOn_iff {k : Floor} {r : CallRecord} : callsOn k r = true ↔ r.ownedPort = some (.F k) ∧ r.state ≠ .clearing := by
  simp [callsOn]

theorem Work.endFloorCalls_eq (w : Work) (k : Floor) (c : Cause) :
    w.endFloorCalls k c = (w.eachCall (endStep (callsOn k) c)).run (.F k) := by
  unfold Work.endFloorCalls
  congr 2
  funext w h r
  exact if_congr callsOn_iff.symm rfl rfl

section
variable {R : Prop} {w : Work} {u : State} {k : Floor} {c : Cause}

/-- The end of the calls of a floor port that is not UP: RELEASEs for the riser ports, and nothing on its branch. -/
theorem Work.Makes.endCallsOn (hm : w.Makes R u) (hdown : u.floorUp k = false) (a : Nat)
    (hL : R → u.roomL ((u.selected fun r => callsOn k r && (r.openKey .L).isSome).length + a))
    (hH : R → u.roomH (u.selected fun r => callsOn k r && (r.openKey .H).isSome).length) :
    (w.eachCall (endStep (callsOn k) c)).Makes R (u.forEach (callsOn k) fun t h r => t.ended h r c) ∧
      (R → (u.forEach (callsOn k) fun t h r => t.ended h r c).roomL a) := by
  have hneed : ∀ p : Riser, u.need (costOf (callsOn k) fun _ r => (r.releaseCells p c).length) allHandles =
      (u.selected fun r => callsOn k r && (r.openKey p).isSome).length := fun p => by
    rw [State.selected_length]
    refine State.need_congr fun h _ => congrArg _ (funext fun r => ?_)
    rw [costOf, CallRecord.releaseCells_eq]
    cases callsOn k r <;> simp
  have hfloor : ∀ j, u.roomF j (u.need (costOf (callsOn k) fun v r =>
      if r.ownedPort = some (.F j) then (r.lastFloorCells v c).length else 0) allHandles + 0) := fun j => by
    by_cases hj : j = k
    · subst hj
      exact fun hu => absurd hu (by simp [hdown])
    · refine fun _ => .inl ?_
      have : ∀ v r, costOf (callsOn k) (fun v r =>
          if r.ownedPort = some (.F j) then (r.lastFloorCells v c).length else 0) v r = 0 := fun v r => by
        unfold costOf
        split
        · next hs =>
          refine if_neg fun he => hj ?_
          have := (callsOn_iff.1 hs).1.symm.trans he
          simpa using this.symm
        · rfl
      rw [Nat.add_zero, State.need, List.sum_eq_zero_iff_forall_eq_nat]
      intro n hn
      obtain ⟨v, -, rfl⟩ := List.mem_map.1 hn
      cases u.call? v with
      | none => rfl
      | some r => exact this v r
  have h := (EachStep.ending R (callsOn k) c).fold allHandles (List.nodup_finRange 48) a 0 (fun _ => 0) hm
    (fun hR => by rw [hneed]; exact hL hR) (fun hR => by rw [hneed]; exact hH hR) fun _ j => hfloor j
  rw [State.forEach_eq]
  exact ⟨h.1, h.2.1⟩

/-- They ask for no run but the port's own. -/
theorem Work.endCallsOn_runs (hm : w.Makes False u) (hruns : w.runs = []) {q : Owned}
    (hq : q ∈ (w.eachCall (endStep (callsOn k) c)).runs) : q = .F k := by
  have hiff := (EachStep.ending False (callsOn k) c).fold_runs allHandles (List.nodup_finRange 48) hm q
  rcases hiff.1 hq with h | ⟨h, -, r, -, hs, hr⟩
  · simp [hruns] at h
  · have hp := CallRecord.ownedPort_of_freed (Option.mem_toList.1 hr)
    exact Option.some.inj (hp.symm.trans (callsOn_iff.1 hs).1)

/-- What remains of the port's records is in CLEARING. -/
theorem State.endCallsOn_cleared {h : Handle} {r : CallRecord}
    (hr : (u.forEach (callsOn k) fun t h r => t.ended h r c).call? h = some r) (hp : r.ownedPort = some (.F k)) :
    r.state = .clearing := by
  rw [State.forEach_eq] at hr
  have hE := EachStep.ending False (callsOn k) c
  cases hu : u.call? h with
  | none =>
    rw [hE.fold_call? allHandles u (.inr (by simp [hu])), hu] at hr
    cases hr
  | some r' =>
    cases hs : callsOn k r' with
    | false =>
      rw [hE.fold_call? allHandles u (.inr fun x hx => by cases hu.symm.trans hx; exact hs), hu] at hr
      cases hr
      by_contra hc
      rw [callsOn_iff.2 ⟨hp, hc⟩] at hs
      cases hs
    | true =>
      obtain ⟨u', hu', he⟩ := hE.fold_taken allHandles (List.nodup_finRange 48) u (List.mem_finRange h) hu hs
      rw [he, State.ended_call?_self] at hr
      split at hr
      · cases hr; rfl
      · cases hr

/-- The floor interfaces stand. -/
theorem Work.endCallsOn_floors (hdown : w.st.floorUp k = false) :
    (w.eachCall (endStep (callsOn k) c)).st.floors = w.st.floors := by
  refine Work.eachCall_keeps (P := fun w' => w'.st.floors = w.st.floors) (fun w' h r hw hr => ?_) rfl
  dsimp only [endStep]
  split
  · next hs =>
    refine (Work.release_floors c hr fun f hf => ?_).trans hw
    have hk : f.port = k := by
      have := (callsOn_iff.1 hs).1
      simpa [CallRecord.ownedPort, hf] using this
    rw [hk, State.floorUp, hw]
    exact hdown
  · exact hw

end

/-! ## FLOOR_FAULT and FLOOR_LINE_GOOD -/

theorem Work.run_flush (w : Work) (p : Owned) : (w.run p).flush = w.flush := rfl

section
variable {s : State} {k : Floor}

theorem Moves.endStep {a w : Work} (hm : Moves a w) (sel : CallRecord → Bool) (c : Cause) (h : Handle) (r : CallRecord) :
    Moves a (endStep sel c w h r) := by
  unfold Sys2Proof.Machine.endStep
  split
  · exact hm.release h c
  · exact hm

/-- The interface of a floor port in FAULT. -/
def State.faulted (s : State) (k : Floor) : State := { s with floors := s.floors.set k s.floors[k].faulted }

theorem State.faulted_down (s : State) (k : Floor) : (s.faulted k).floorUp k = false := by
  simp [State.floorUp, State.faulted, FloorPort.faulted]

/-- The event of FLOOR_FAULT before its end, begun in the state `u` whose port is in FAULT. -/
def floorFaultWork (u : State) (k : Floor) : Work :=
  ((Work.start u).raise .floorFault).eachCall (endStep (callsOn k) .lineFault)

theorem floorFaultWork_moves (u : State) (k : Floor) : Moves ((Work.start u).raise .floorFault) (floorFaultWork u k) :=
  Moves.rfl'.eachCall _ fun _ h r hw _ => hw.endStep _ _ h r

theorem floorFaultWork_stops {u : State} (hdown : u.floorUp k = false) :
    ((floorFaultWork u k).run (.F k)).runArbiter = (floorFaultWork u k).run (.F k) := by
  refine Work.runArbiter_unusable fun p hp => ?_
  have hpk : p = .F k := by
    rw [Work.run] at hp
    rcases List.mem_cons.1 hp with h | h
    · exact h
    · exact Work.endCallsOn_runs ((Work.Makes.start False u).raise_bare .floorFault) rfl h
  have husable := State.frame_usable (floorFaultWork_moves u k).frame (.F k)
  rw [hpk, Work.run_st, husable]
  exact hdown

theorem floorFaultWork_floors {u : State} (hdown : u.floorUp k = false) : (floorFaultWork u k).st.floors = u.floors := by
  have hd : ((Work.start u).raise .floorFault).st.floorUp k = false := hdown
  rw [floorFaultWork, Work.endCallsOn_floors hd]
  rfl

theorem exec_floorFault_up (hp : s.powered = true) (hu : s.floors[k].line = .up) :
    exec (.floorFault k) s = .next ((floorFaultWork (s.faulted k) k).run (.F k)).flush := by
  have hup : (Work.start s).st.floorUp k = true := by
    show s.floorUp k = true
    simpa [State.floorUp] using hu
  rw [exec_floorFault, execFloorFault, event_powered hp, if_pos hup, Work.endFloorCalls_eq, Work.finish]
  exact congrArg (fun x : Work => Host.Outcome.next x.flush) (floorFaultWork_stops (s.faulted_down k))

theorem Work.endCallsOn_call? {w : Work} {u : State} {c : Cause} (hm : w.Makes False u) (hdown : u.floorUp k = false)
    {h : Handle} {r : CallRecord} (hr : (w.eachCall (endStep (callsOn k) c)).flush.call? h = some r)
    (hp : r.ownedPort = some (.F k)) : r.state = .clearing := by
  have hm' := (hm.endCallsOn (c := c) hdown 0 False.elim False.elim).1
  rw [State.bare_call? ((Work.flush_bare _).trans hm'.bare)] at hr
  exact State.endCallsOn_cleared hr hp

/-- Settles O13. -/
theorem floorLine : Obligations.FloorLine := by
  refine ⟨?faults, ?always, ?good⟩
  case faults =>
    intro s k hp hu mine faulted hL hH
    have hm := (Work.Makes.start True (s.faulted k)).raise (e := .floorFault) (fun _ => ⟨rfl, rfl⟩)
      fun _ => State.roomL.mono (s := s) hL (Nat.le_add_right 1 _)
    have hcall : ∀ p : Riser, ((s.faulted k).withEvent .floorFault).selected (fun r => callsOn k r && (r.openKey p).isSome) =
        s.selected fun r => callsOn k r && (r.openKey p).isSome := fun p =>
      List.filter_congr fun h _ => by rw [State.call?_withEvent]; rfl
    have h1 := hm.endCallsOn (c := .lineFault)
      ((State.bare_floorUp (State.bare_withEvent _ _) k).trans (s.faulted_down k)) 0
      (fun _ => by
        rw [hcall]
        exact State.roomL_withEvent (s := s.faulted k) (State.roomL.mono (s := s) hL (Nat.le_of_eq (Nat.add_comm _ 1))))
      fun _ => by
        rw [hcall, State.roomH_withEvent]
        exact hH
    rw [exec_floorFault_up hp hu]
    exact congrArg Host.Outcome.next (h1.1.run (.F k)).flush
  case always =>
    intro s k hp hu
    refine ⟨_, exec_floorFault_up hp hu, ?_, ?_, ?_⟩
    · rw [Work.flush_floors, Work.run_st, floorFaultWork_floors (s.faulted_down k)]
      rfl
    · refine Work.flush_has (e := .floorFault) ?_
      rw [Work.run_raised]
      exact (floorFaultWork_moves (s.faulted k) k).has (EventSets.has_add EventSets.empty .floorFault)
    · intro h r hr hr'
      rw [Work.run_flush] at hr
      exact Work.endCallsOn_call? ((Work.Makes.start False (s.faulted k)).raise_bare .floorFault) (s.faulted_down k) hr hr'
  case good =>
    intro s k hp hf hl t hroom
    obtain ⟨s', hs'⟩ : ∃ s' : State, s' = { s with floors := s.floors.set k s.floors[k].raised } := ⟨_, rfl⟩
    have hq : s'.floors[k].queue = [] := by simp [hs', FloorPort.raised]
    have hup : s'.floorUp k = true := by simp [hs', FloorPort.raised, State.floorUp]
    have h1 := ((Work.Makes.start True s').sendF (k := k) (c := floorRestart)
      fun _ _ => .inr (by rw [hq]; decide)).run (.F k)
    have ht : s'.sentF k [floorRestart] = t := by
      rw [State.sentF, if_pos hup, hq]
      simp only [hs', t, FloorPort.raised, Fin.getElem_fin, Vector.getElem_set_self, Vector.set_set, List.nil_append]
    rw [ht] at h1
    have hwork : exec (.floorLineGood k) s = .next (((Work.start s').sendF k floorRestart).run (.F k)).finish := by
      rw [exec_floorLineGood, execFloorLineGood, event_powered hp, if_pos (by exact hf), hs']
      rfl
    rw [hwork]
    refine congrArg Host.Outcome.next (h1.runArbiter_one (fun q => ?_) ?_ fun _ => hroom).flush
    · exact Work.run_contains (by simp) (.F k) q
    · exact hl

end

end Sys2Proof.Machine
end

