-- ==== Sys2Proof/Proofs/PortsDisabled.lean ====
section
/-! PROOFS. PORT_DISABLE and PORT_ENABLE (O57). -/

namespace Sys2Proof.Machine

section
variable {s : State} {k : Floor} {q : Request}

/-- The part after a floor port has gone to DISABLED, its calls still there. -/
def State.shut (s : State) (k : Floor) : State :=
  { s.storing { s.retained with disabled := s.retained.disabled.set k true } with
    floors := s.floors.set k { s.floors[k] with line := .disabled, faultMark := false, count := 0, queue := [] } }

/-- The part after a floor port has left DISABLED. -/
def State.opened (s : State) (k : Floor) : State :=
  { s.storing { s.retained with disabled := s.retained.disabled.set k false } with
    floors := s.floors.set k { s.floors[k] with line := .fault, faultMark := false, count := 0 } }

theorem State.shut_down (s : State) (k : Floor) : (s.shut k).floorUp k = false := by
  simp [State.floorUp, State.shut]

theorem Port.ofNumber_floor (h : q.index.toNat = k.val + 2) : Port.ofNumber q.index.toNat = some (.F k) := by
  rw [h]
  exact dif_pos k.isLt

theorem disablePort_start (s : State) (k : Floor) : (Work.start s).disablePort k =
    if s.floorUp k then (Work.start (s.shut k)).endFloorCalls k .portDisabled else Work.start (s.shut k) := rfl

/-- The event of PORT_DISABLE while the table is unlocked. -/
theorem portDisableOp_floor (hl : s.locked = false) (hk : q.index.toNat = k.val + 2) :
    (Work.start s).portDisableOp q = (if s.floors[k].line = .disabled then Work.start s
      else (Work.start s).disablePort k).reply .portDisable q .done 0 := by
  rw [Work.portDisableOp, Work.portOp_port (Port.ofNumber_floor hk), Work.ifUnlocked_unlocked hl]
  rfl

/-- The event of PORT_ENABLE while the table is unlocked. -/
theorem portEnableOp_floor (hl : s.locked = false) (hk : q.index.toNat = k.val + 2) :
    (Work.start s).portEnableOp q = (if s.floors[k].line = .disabled then Work.start (s.opened k)
      else Work.start s).reply .portEnable q .done 0 := by
  rw [Work.portEnableOp, Work.portOp_port (Port.ofNumber_floor hk), Work.ifUnlocked_unlocked hl]
  rfl

/-- The answer of either operation to a port that is no floor port. -/
theorem exec_port_refused (ht : s.takes q) (hl : s.locked = false) (hroom : s.roomL 1) (hq : q.index.toNat ≤ 1) :
    exec (.portDisable q) s = .next (s.replied .portDisable q .badValue 0) ∧
    exec (.portEnable q) s = .next (s.replied .portEnable q .badValue 0) := by
  obtain ⟨p, hp, hno⟩ : ∃ p, Port.ofNumber q.index.toNat = some p ∧ ∀ k, p ≠ .F k := by
    obtain h | h : q.index.toNat = 0 ∨ q.index.toNat = 1 := by omega
    · exact ⟨.L, by rw [h]; rfl, nofun⟩
    · exact ⟨.H, by rw [h]; rfl, nofun⟩
  refine ⟨(exec_portDisable q s).trans (onRequest_reply ht hroom ?_), (exec_portEnable q s).trans (onRequest_reply ht hroom ?_)⟩
  · rw [Work.portDisableOp, Work.portOp_port hp, Work.ifUnlocked_unlocked hl]
    cases p <;> [rfl; rfl; exact absurd rfl (hno _)]
  · rw [Work.portEnableOp, Work.portOp_port hp, Work.ifUnlocked_unlocked hl]
    cases p <;> [rfl; rfl; exact absurd rfl (hno _)]

/-! ## A port that was UP -/

/-- The event of PORT_DISABLE at a port that was UP, before its reply. -/
def portDownWork (u : State) (k : Floor) : Work := (Work.start u).eachCall (endStep (callsOn k) .portDisabled)

theorem portDownWork_moves (u : State) (k : Floor) : Moves (Work.start u) (portDownWork u k) :=
  Moves.rfl'.eachCall _ fun _ h r hw _ => hw.endStep _ _ h r

theorem Moves.reply {a w : Work} (hm : Moves a w) (op : MgmtOp) (q : Request) (r : Result) (v : Nat) :
    Moves a (w.reply op q r v) := hm.sendL _

/-- The event of PORT_DISABLE at a port that was UP. -/
def portDownEvent (u : State) (k : Floor) (q : Request) : Work :=
  ((portDownWork u k).run (.F k)).reply .portDisable q .done 0

theorem portDownEvent_frame (u : State) (k : Floor) (q : Request) : (portDownEvent u k q).st.frame = u.frame :=
  (((portDownWork_moves u k).run (.F k)).reply .portDisable q .done 0).frame

theorem portDownEvent_makes {R : Prop} {u : State} (hdown : u.floorUp k = false)
    (hL : R → u.roomL ((u.selected fun r => callsOn k r && (r.openKey .L).isSome).length + 1))
    (hH : R → u.roomH (u.selected fun r => callsOn k r && (r.openKey .H).isSome).length) :
    (portDownEvent u k q).Makes R ((u.forEach (callsOn k) fun t h r =>
      t.ended h r .portDisabled).replied .portDisable q .done 0) := by
  have h1 := (Work.Makes.start R u).endCallsOn (c := .portDisabled) hdown 1 hL hH
  exact (h1.1.run (.F k)).reply .portDisable q .done 0 h1.2

theorem Work.reply_floors (w : Work) (op : MgmtOp) (q : Request) (r : Result) (v : Nat) :
    (w.reply op q r v).st.floors = w.st.floors := Work.sendL_floors ..

theorem portDownEvent_floors {u : State} (hdown : u.floorUp k = false) : (portDownEvent u k q).st.floors = u.floors := by
  have hd : (Work.start u).st.floorUp k = false := hdown
  rw [portDownEvent, Work.reply_floors, Work.run_st, portDownWork, Work.endCallsOn_floors hd]
  rfl

theorem exec_portDisable_up (ht : s.takes q) (hl : s.locked = false) (hk : q.index.toNat = k.val + 2)
    (hu : s.floors[k].line = .up) : exec (.portDisable q) s = .next (portDownEvent (s.shut k) k q).flush := by
  have hup : s.floorUp k = true := by simpa [State.floorUp] using hu
  have hwork : (Work.start s).portDisableOp q = portDownEvent (s.shut k) k q := by
    rw [portDisableOp_floor hl hk, if_neg (by rw [hu]; decide), disablePort_start, if_pos hup, Work.endFloorCalls_eq]
    rfl
  rw [exec_portDisable, execPortDisable, onRequest_takes ht, hwork, Work.finish, Work.runArbiter_unusable fun p hp => ?_]
  rw [portDownEvent, Work.reply_runs, Work.run] at hp
  have hpk : p = .F k := by
    rcases List.mem_cons.1 hp with h | h
    · exact h
    · exact Work.endCallsOn_runs (Work.Makes.start False (s.shut k)) rfl h
  rw [State.frame_usable (portDownEvent_frame ..), hpk]
  exact s.shut_down k

theorem exec_portDisable_ends (ht : s.takes q) (hl : s.locked = false) (hk : q.index.toNat = k.val + 2)
    (hu : s.floors[k].line = .up)
    (hL : s.roomL (1 + (s.selected fun r => callsOn k r && (r.openKey .L).isSome).length))
    (hH : s.roomH (s.selected fun r => callsOn k r && (r.openKey .H).isSome).length) :
    exec (.portDisable q) s = .next (((s.shut k).forEach (callsOn k) fun t h r =>
      t.ended h r .portDisabled).replied .portDisable q .done 0) := by
  rw [exec_portDisable_up ht hl hk hu]
  exact congrArg Host.Outcome.next (portDownEvent_makes (s.shut_down k)
    (fun _ => by rw [Nat.add_comm]; exact hL) fun _ => hH).flush

/-- Whatever room there is. -/
theorem exec_portDisable_leaves (ht : s.takes q) (hl : s.locked = false) (hk : q.index.toNat = k.val + 2)
    (hu : s.floors[k].line = .up) :
    ∃ t, exec (.portDisable q) s = .next t ∧ t.floors = (s.shut k).floors ∧ t.retained = (s.shut k).retained ∧
      ∀ (h : Handle) (r : CallRecord), t.call? h = some r → r.ownedPort = some (.F k) → r.state = .clearing := by
  have hm := (portDownEvent_makes (R := False) (q := q) (s.shut_down k) False.elim False.elim).bare
  refine ⟨_, exec_portDisable_up ht hl hk hu, ?_, ?_, fun h r hr hr' => ?_⟩
  · rw [Work.flush_floors, portDownEvent_floors (s.shut_down k)]
  · exact State.frame_retained ((Work.flush_frame _).trans (portDownEvent_frame ..))
  · rw [State.bare_call? ((Work.flush_bare _).trans hm), State.call?_replied] at hr
    exact State.endCallsOn_cleared hr hr'

/-! ## The statement -/

/-- Settles O57. -/
theorem portsDisabledAndEnabled : Obligations.PortsDisabledAndEnabled := by
  refine ⟨fun s q ht hroom hq => ⟨?_, ?_⟩, fun s q ht hl hroom => ⟨exec_port_refused ht hl hroom, fun k hk => ?floor⟩⟩
  · exact (exec_portDisable q s).trans (onRequest_reply ht hroom (Work.portOp_none hq))
  · exact (exec_portEnable q s).trans (onRequest_reply ht hroom (Work.portOp_none hq))
  case floor =>
    intro moved
    refine ⟨fun hu => ⟨fun hL hH => exec_portDisable_ends ht hl hk hu hL hH, exec_portDisable_leaves ht hl hk hu⟩,
      fun hf => ?fault, fun hd => ⟨?disabled, ?enabled⟩, fun hd => ?standing⟩
    case fault =>
      have hdown : ¬ s.floorUp k = true := by
        unfold State.floorUp
        rw [hf]
        decide
      have hwork : (Work.start s).portDisableOp q = (Work.start (s.shut k)).reply .portDisable q .done 0 := by
        rw [portDisableOp_floor hl hk, if_neg (by rw [hf]; decide), disablePort_start, if_neg hdown]
      have h1 := (Work.Makes.start True (s.shut k)).reply .portDisable q .done 0 fun _ => hroom
      exact (exec_portDisable q s).trans (onRequest_makes ht (hwork ▸ h1) (by rw [hwork]; simp))
    case disabled =>
      refine (exec_portDisable q s).trans (onRequest_reply ht hroom ?_)
      rw [portDisableOp_floor hl hk, if_pos hd]
    case enabled =>
      have hwork : (Work.start s).portEnableOp q = (Work.start (s.opened k)).reply .portEnable q .done 0 := by
        rw [portEnableOp_floor hl hk, if_pos hd]
      have h1 := (Work.Makes.start True (s.opened k)).reply .portEnable q .done 0 fun _ => hroom
      exact (exec_portEnable q s).trans (onRequest_makes ht (hwork ▸ h1) (by rw [hwork]; simp))
    case standing =>
      refine (exec_portEnable q s).trans (onRequest_reply ht hroom ?_)
      rw [portEnableOp_floor hl hk, if_neg hd]

end

end Sys2Proof.Machine
end

