-- ==== Sys2Proof/Proofs/SidesLost.lean ====
section
/-! PROOFS. Every selected record loses its side on a riser port: what the fold leaves, asks for and needs (R169 to R172). -/

namespace Sys2Proof.Machine

/-- The records that a test selects lose their side on a riser port, in an event. -/
def Work.cutCalls (w : Work) (sel : CallRecord → Bool) (p : Riser) (c : Cause) : Work := w.eachCall (cutStep sel p c)

/-- The same in the state. -/
def State.cutCalls (s : State) (sel : CallRecord → Bool) (p : Riser) (c : Cause) : State :=
  s.forEach sel fun t h r => t.cut p c h r

section
variable {R : Prop} {w : Work} {u s : State} {sel : CallRecord → Bool} {p : Riser} {c : Cause}

/-- What the lost sides ask of the queues: RELEASEs on the other riser port, and the cells of R104. -/
structure State.RoomToCut (u : State) (sel : CallRecord → Bool) (p : Riser) (c : Cause) (a b : Nat) (d : Floor → Nat) : Prop where
  roomL : u.roomL (u.need (costOf sel fun _ r => r.cutCells p c .L) allHandles + a)
  roomH : u.roomH (u.need (costOf sel fun _ r => r.cutCells p c .H) allHandles + b)
  roomF : ∀ k, u.roomF k (u.need (costOf sel fun v r => r.floorCells v c k) allHandles + d k)

theorem Work.Makes.cutCalls (hm : w.Makes R u) {a b : Nat} {d : Floor → Nat} (hroom : R → u.RoomToCut sel p c a b d) :
    (w.cutCalls sel p c).Makes R (u.cutCalls sel p c) ∧ (R → (u.cutCalls sel p c).roomL a) ∧
      (R → (u.cutCalls sel p c).roomH b) ∧ (R → ∀ k, (u.cutCalls sel p c).roomF k (d k)) := by
  have h := (EachStep.cut R sel p c).fold allHandles (List.nodup_finRange 48) a b d hm (fun hR => (hroom hR).roomL)
    (fun hR => (hroom hR).roomH) fun hR => (hroom hR).roomF
  rw [State.cutCalls, State.forEach_eq]
  exact h

theorem Work.cutCalls_moves {a : Work} (hm : Moves a w) : Moves a (w.cutCalls sel p c) := by
  refine hm.eachCall _ fun w h r hw _ => ?_
  unfold cutStep
  split
  · exact hw.cutCall h r p c
  · exact hw

/-- The runs that the lost sides ask for. -/
theorem Work.cutCalls_runs (hm : w.Makes False u) (q : Owned) :
    q ∈ (w.cutCalls sel p c).runs ↔ q ∈ w.runs ∨ u.frees sel q = true := by
  have h := (EachStep.cut False sel p c).fold_runs allHandles (List.nodup_finRange 48) hm q
  refine h.trans (or_congr_right ?_)
  rw [State.frees, List.any_eq_true]
  refine exists_congr fun v => and_congr_right fun _ => ?_
  rw [Option.any_eq_true]
  refine exists_congr fun r => and_congr_right fun _ => ?_
  by_cases hst : r.state = .clearing
  · simp [hst]
  · rw [if_neg hst, Option.mem_toList]
    simp [hst]

theorem State.cutCalls_waiting : (u.cutCalls sel p c).waiting = u.waitersLeft sel := by
  rw [State.cutCalls, State.forEach_eq,
    (EachStep.cut False sel p c).fold_waiting allHandles (List.nodup_finRange 48)]
  refine List.filter_congr fun x _ => ?_
  have : allHandles.contains x.handle = true := List.contains_iff_mem.2 (List.mem_finRange _)
  rw [this, Bool.true_and]

/-- A record that is not selected stands. -/
theorem State.cutCalls_call?_ne {h : Handle} (hh : ∀ r, u.call? h = some r → sel r = false) :
    (u.cutCalls sel p c).call? h = u.call? h := by
  rw [State.cutCalls, State.forEach_eq]
  exact (EachStep.cut False sel p c).fold_call? allHandles u (.inr hh)

/-- What remains of a selected record is in CLEARING with that side closed. -/
theorem State.cutCalls_call?_self {h : Handle} {r r' : CallRecord} (hr : u.call? h = some r) (hs : sel r = true)
    (hr' : (u.cutCalls sel p c).call? h = some r') : r'.state = .clearing ∧ r'.openKey p = none := by
  rw [State.cutCalls, State.forEach_eq] at hr'
  obtain ⟨u', hu', he⟩ :=
    (EachStep.cut False sel p c).fold_taken allHandles (List.nodup_finRange 48) u (List.mem_finRange h) hr hs
  exact State.cut_call?_self (he ▸ hr')

/-! ## What they need, in the words of the statements -/

theorem State.need_zero {cost : Handle → CallRecord → Nat} (h : ∀ v r, cost v r = 0) (l : List Handle) :
    u.need cost l = 0 := by
  rw [State.need, List.sum_eq_zero_iff_forall_eq_nat]
  intro n hn
  obtain ⟨v, -, rfl⟩ := List.mem_map.1 hn
  cases u.call? v with
  | none => rfl
  | some r => exact h v r

theorem State.need_selected {cost : Handle → CallRecord → Nat} {sel' : CallRecord → Bool}
    (h : ∀ v r, cost v r = if sel' r then 1 else 0) : u.need cost allHandles = (u.selected sel').length := by
  rw [State.selected_length]
  exact State.need_congr fun v _ => congrArg _ (funext (h v))

/-- The cells on the side that is lost are none. -/
theorem State.need_cut_self : u.need (costOf sel fun _ r => r.cutCells p c p) allHandles = 0 :=
  State.need_zero (fun v r => by simp [costOf, CallRecord.cutCells_self]) _

/-- On the other riser port each selected record not in CLEARING has one, where its side there is open. -/
theorem State.need_cut_other {q : Riser} (hq : p ≠ q) {sel' : CallRecord → Bool}
    (h : ∀ r, sel' r = (sel r && (r.state != .clearing && (r.openKey q).isSome))) :
    u.need (costOf sel fun _ r => r.cutCells p c q) allHandles = (u.selected sel').length :=
  State.need_selected fun v r => by
    rw [costOf, CallRecord.cutCells_ne r hq, h]
    cases sel r <;> simp

theorem State.need_cut_floor {k : Floor} {sel' : CallRecord → Bool}
    (h : ∀ r, sel' r = true ↔ sel r = true ∧ r.state ≠ .clearing ∧ r.ownedPort = some (.F k)) :
    u.need (costOf sel fun v r => r.floorCells v c k) allHandles = u.floorCellsFor sel' c := by
  rw [State.floorCellsFor_eq]
  refine State.need_congr fun v _ => congrArg _ (funext fun r => ?_)
  rw [costOf, CallRecord.floorCells, ← ite_and]
  exact if_congr (h r).symm rfl rfl

/-! ## The mirror emptied -/

theorem State.call?_mirrorless (s : State) (h : Handle) :
    s.mirrorless.call? h = (s.call? h).map fun r => { r with lLane := none } := by
  simp [State.call?, State.mirrorless]

theorem State.mirrorless_sentL (s : State) (l : List RiserCell) : s.mirrorless.sentL l = (s.sentL l).mirrorless := by
  have hu : s.mirrorless.riserUp .L = s.riserUp .L := rfl
  rw [State.sentL, State.sentL, hu]
  cases s.riserUp .L <;> rfl

theorem Work.Makes.emptyWholeMirror (hm : w.Makes R u) : w.emptyWholeMirror.Makes R u.mirrorless := by
  refine hm.mod State.mirrorless (congrArg State.mirrorless hm.bare) (fun _ => ?_) (fun _ => rfl) rfl
  have hn : w.emptyWholeMirror.st.notices w.raised w.raised = w.st.notices w.raised w.raised := rfl
  have he : w.emptyWholeMirror.shows = { w.st.mirrorless.sentL (w.st.notices w.raised w.raised ++ w.outL) with
      status := w.st.status.union w.raised } := rfl
  rw [he, State.mirrorless_sentL]
  rfl

theorem State.selected_mirrorless (h : ∀ r, sel { r with lLane := none } = sel r) :
    s.mirrorless.selected sel = s.selected sel := by
  refine List.filter_congr fun v _ => ?_
  rw [State.call?_mirrorless]
  cases s.call? v with
  | none => rfl
  | some r => exact h r

theorem State.floorCellsFor_mirrorless (h : ∀ r, sel { r with lLane := none } = sel r) :
    s.mirrorless.floorCellsFor sel c = s.floorCellsFor sel c := by
  rw [State.floorCellsFor_eq, State.floorCellsFor_eq]
  refine State.need_congr fun v _ => ?_
  rw [State.call?_mirrorless]
  cases s.call? v with
  | none => rfl
  | some r => exact if_congr (by rw [h]) rfl rfl

/-- No L lane is in use and nothing is cross-connected. -/
structure State.Mirrorless (s : State) : Prop where
  mirror  : ∀ l : LLane, s.mirror[l] = none
  crosses : s.crosses = []

theorem State.mirrorless_mirrorless (s : State) : s.mirrorless.Mirrorless :=
  ⟨fun l => by simp [State.mirrorless], rfl⟩

theorem State.Mirrorless.congr {s t : State} (h : s.Mirrorless) (ht : t.bare = s.bare) : t.Mirrorless :=
  ⟨fun l => by rw [State.bare_mirror ht]; exact h.mirror l, (State.bare_crosses ht).trans h.crosses⟩

theorem State.Mirrorless.ended (h : s.Mirrorless) (v : Handle) (r : CallRecord) (c : Cause) : (s.ended v r c).Mirrorless := by
  refine State.Mirrorless.congr (s := s.callOver v r c) ⟨fun l => ?_, ?_⟩ (s.bare_ended v r c)
  · cases hl : r.lLane with
    | none => simp only [State.callOver, hl]; exact h.mirror l
    | some l' =>
      simp only [State.callOver, hl]
      by_cases he : l' = l
      · subst he; simp
      · have hne : l'.val ≠ l.val := fun e => he (Fin.ext e)
        have := h.mirror l
        simpa [hne] using this
  · simp [State.callOver, h.crosses]

theorem State.Mirrorless.cut (h : s.Mirrorless) (p : Riser) (c : Cause) (v : Handle) (r : CallRecord) :
    (s.cut p c v r).Mirrorless := by
  unfold State.cut
  split
  · split
    · exact ⟨h.mirror, h.crosses⟩
    · exact ⟨h.mirror, h.crosses⟩
  · exact h.ended _ _ _

theorem State.Mirrorless.cutCalls (h : s.Mirrorless) (sel : CallRecord → Bool) (p : Riser) (c : Cause) :
    (s.cutCalls sel p c).Mirrorless := by
  rw [State.cutCalls, State.forEach_eq]
  generalize allHandles = l
  induction l generalizing s with
  | nil => exact h
  | cons v l ih =>
    rw [List.foldl_cons]
    refine ih ?_
    unfold State.eachStep
    cases (s.call? v).filter sel with
    | none => exact h
    | some r => exact h.cut p c v r

end

end Sys2Proof.Machine
end

