-- ==== Sys2Proof/Proofs/LinkDown.lean ====
section
/-! PROOFS. A riser link that goes DOWN (O11). -/

namespace Sys2Proof.Machine

section
variable {s : State}

/-- Every record. -/
abbrev everyCall : CallRecord → Bool := fun _ => true

/-- The records whose owned port is H. -/
abbrev callsOnH : CallRecord → Bool := fun r => r.ownedPort == some .H

theorem Work.endAllCalls_eq (w : Work) : w.endAllCalls = w.emptyWholeMirror.cutCalls everyCall .L .linkDown := by
  unfold Work.endAllCalls Work.cutCalls
  rfl

theorem Work.endUpperCalls_eq (w : Work) : w.endUpperCalls = (w.cutCalls callsOnH .H .linkDown).run .H := by
  unfold Work.endUpperCalls Work.cutCalls
  congr 2
  funext w h r
  exact if_congr (by simp) rfl rfl

/-! ## Port L -/

/-- Port L's interface in DOWN. -/
def State.loweredL (s : State) : State := { s with portL := s.portL.lowered }

theorem State.loweredL_down (s : State) : s.loweredL.riserUp .L = false := rfl

/-- The event of port L's loss before its end. -/
def linkLDownWork (s : State) : Work :=
  ((Work.start s.loweredL).raise .linkLDown).emptyWholeMirror.cutCalls everyCall .L .linkDown

theorem linkLDownWork_moves (s : State) : Moves ((Work.start s.loweredL).raise .linkLDown) (linkLDownWork s) :=
  Work.cutCalls_moves Moves.rfl'.emptyWholeMirror

theorem exec_linkDown_L (hp : s.powered = true) (hu : s.portL.link = .up) :
    exec (.linkDown .L) s = .next (linkLDownWork s).finish.resetIfEmptied := by
  have hup : s.riserUp .L = true := by simp [State.riserUp, hu]
  have hwork : s.lowerL = (linkLDownWork s).finish.resetIfEmptied := by
    rw [State.lowerL, Work.endAllCalls_eq]
    rfl
  rw [exec_linkDown, execLinkDown, hp, hup, Bool.and_self, if_pos rfl]
  rw [hwork]

/-- While port L is DOWN an event sends no notice. -/
theorem State.withEvent_down (hd : s.riserUp .L = false) (e : Event) :
    s.withEvent e = { s with status := s.status.add e } := by
  simp [State.withEvent, State.sentL, hd]

/-- Where no entry is that of a record in CLEARING, none is left whose record lives. -/
theorem State.cutAll_dead {u : State} (hw : ∀ x ∈ u.waiting, ∀ r, u.call? x.handle = some r → r.state ≠ .clearing)
    {x : WaitEntry} (hx : x ∈ (u.cutCalls everyCall .L .linkDown).waiting) :
    (u.cutCalls everyCall .L .linkDown).call? x.handle = none := by
  rw [State.cutCalls_waiting] at hx
  obtain ⟨hmem, hno⟩ := List.mem_filter.1 hx
  have hnone : u.call? x.handle = none := by
    cases hr : u.call? x.handle with
    | none => rfl
    | some r =>
      have := hw x hmem r hr
      simp [hr, this] at hno
  rw [State.cutCalls_call?_ne (fun r hr => by rw [hnone] at hr; cases hr), hnone]

theorem State.loweredL_notDead (hw : ∀ x ∈ s.waiting, ∀ r, s.call? x.handle = some r → r.state ≠ .clearing) :
    ∀ x ∈ s.loweredL.mirrorless.waiting, ∀ r, s.loweredL.mirrorless.call? x.handle = some r → r.state ≠ .clearing := by
  intro x hx r hr
  rw [State.call?_mirrorless, Option.map_eq_some_iff] at hr
  obtain ⟨r', hr', rfl⟩ := hr
  exact hw x hx r' hr'

theorem linkLDownWork_bare (s : State) :
    (linkLDownWork s).Makes False (s.loweredL.mirrorless.cutCalls everyCall .L .linkDown) :=
  (((Work.Makes.start False s.loweredL).raise_bare .linkLDown).emptyWholeMirror.cutCalls
    (a := 0) (b := 0) (d := fun _ => 0) False.elim).1

theorem linkLDownWork_stops (hw : ∀ x ∈ s.waiting, ∀ r, s.call? x.handle = some r → r.state ≠ .clearing) :
    (linkLDownWork s).finish = (linkLDownWork s).flush := by
  have hm := (linkLDownWork_bare s).bare
  rw [Work.finish, Work.runArbiter_stops fun p _ => Work.walk_dead fun x hx => ?_]
  rw [State.bare_waiting hm] at hx
  rw [State.bare_call? hm]
  exact State.cutAll_dead (State.loweredL_notDead hw) hx

theorem State.resetIfEmptied_none {t : State} (h : ∀ n, t.resetReq ≠ .replyAt n) : t.resetIfEmptied = t := by
  unfold State.resetIfEmptied
  split
  · next n hn => exact absurd hn (h n)
  · rfl

theorem State.resetIfEmptied_waits {t : State} {n : Nat} (h : t.resetReq = .replyAt n) :
    t.resetIfEmptied = t.remoteReset t.pins := by
  unfold State.resetIfEmptied
  rw [h]

theorem linkLDownWork_frame (s : State) : (linkLDownWork s).st.frame = s.loweredL.frame := (linkLDownWork_moves s).frame

theorem linkLDownWork_finish_frame (s : State) : (linkLDownWork s).finish.frame = s.loweredL.frame :=
  (Work.finish_frame _).trans (linkLDownWork_frame s)

theorem linkLDownWork_noReset (h : ∀ n, s.resetReq ≠ .replyAt n) :
    (linkLDownWork s).finish.resetIfEmptied = (linkLDownWork s).finish := by
  refine State.resetIfEmptied_none fun n => ?_
  rw [State.frame_resetReq (linkLDownWork_finish_frame s)]
  exact h n

/-- Where a RESET waits for its reply to leave, it takes effect. -/
theorem exec_linkDown_resets (hp : s.powered = true) (hu : s.portL.link = .up) {n : Nat} (hr : s.resetReq = .replyAt n) :
    ∃ t, exec (.linkDown .L) s = .next t ∧ t.AtReset s.pins ∧ t.retained = s.retained := by
  have hf := linkLDownWork_finish_frame s
  refine ⟨_, exec_linkDown_L hp hu, ?_⟩
  rw [State.resetIfEmptied_waits ((State.frame_resetReq hf).trans hr), State.remoteReset_retained, State.frame_pins hf,
    State.frame_retained hf]
  exact ⟨State.remoteReset_atReset _ _, rfl⟩

/-- Port L goes DOWN: every record loses its low side. -/
theorem exec_linkDown_L_ends (hp : s.powered = true) (hu : s.portL.link = .up) (hr : ∀ n, s.resetReq ≠ .replyAt n)
    (hw : ∀ x ∈ s.waiting, ∀ r, s.call? x.handle = some r → r.state ≠ .clearing)
    (hH : s.roomH (s.selected fun r => r.state != .clearing && (r.openKey .H).isSome).length)
    (hF : ∀ k : Floor, s.roomF k
      (s.floorCellsFor (fun r => r.state != .clearing && r.ownedPort == some (.F k)) .linkDown)) :
    exec (.linkDown .L) s =
      .next ((s.loweredL.withEvent .linkLDown).mirrorless.cutCalls everyCall .L .linkDown) := by
  rw [exec_linkDown_L hp hu, linkLDownWork_noReset hr, linkLDownWork_stops hw]
  have hlow : s.loweredL.withEvent .linkLDown = { s.loweredL with status := s.status.add .linkLDown } :=
    State.withEvent_down s.loweredL_down _
  have hm := ((Work.Makes.start True s.loweredL).raise (e := .linkLDown) (fun _ => ⟨rfl, rfl⟩)
    fun _ hup => absurd hup (by rw [s.loweredL_down]; decide)).emptyWholeMirror
  refine congrArg Host.Outcome.next (hm.cutCalls (a := 0) (b := 0) (d := fun _ => 0) fun _ => ⟨?_, ?_, fun k => ?_⟩).1.flush
  · rw [hlow]
    exact fun hup => absurd (a := s.loweredL.riserUp .L = true) hup (by rw [s.loweredL_down]; decide)
  · rw [State.need_cut_other (q := .H) (by decide) (sel' := fun r => r.state != .clearing && (r.openKey .H).isSome)
      (fun r => rfl), State.selected_mirrorless fun _ => rfl, hlow]
    exact hH
  · rw [State.need_cut_floor (sel' := fun r => r.state != .clearing && r.ownedPort == some (.F k)) (fun r => by simp),
      State.floorCellsFor_mirrorless fun _ => rfl, hlow]
    exact hF k

/-- Whatever room there is. -/
theorem exec_linkDown_L_leaves (hp : s.powered = true) (hu : s.portL.link = .up) (hr : s.resetReq = .none)
    (hw : ∀ x ∈ s.waiting, ∀ r, s.call? x.handle = some r → r.state ≠ .clearing) :
    ∃ t, exec (.linkDown .L) s = .next t ∧ t.portL.link = .down ∧ t.portL.downMark = true ∧ t.portL.queue = [] ∧
      t.status.line &&& Event.mask .linkLDown ≠ 0 ∧ (∀ l : LLane, t.mirror[l] = none) ∧ t.crosses = [] ∧
      ∀ (h : Handle) (r : CallRecord), t.call? h = some r → r.state = .clearing ∧ r.openKey .L = none := by
  have hbare : (linkLDownWork s).flush.bare = _ := (Work.flush_bare _).trans (linkLDownWork_bare s).bare
  have hport : (linkLDownWork s).st.portL = s.portL.lowered := (linkLDownWork_moves s).portL
  have hL : (linkLDownWork s).flush.portL = s.portL.lowered :=
    (Work.flush_portL_down (by rw [hport]; rfl)).trans hport
  have hless := (State.mirrorless_mirrorless s.loweredL).cutCalls everyCall .L .linkDown |>.congr hbare
  refine ⟨_, exec_linkDown_L hp hu, ?_⟩
  rw [linkLDownWork_noReset (by simp [hr]), linkLDownWork_stops hw, hL]
  refine ⟨rfl, rfl, rfl, ?_, hless.mirror, hless.crosses, fun h r hr => ?_⟩
  · exact Work.flush_has (e := .linkLDown) ((linkLDownWork_moves s).has (EventSets.has_add EventSets.empty .linkLDown))
  · rw [State.bare_call? hbare] at hr
    cases hc : s.loweredL.mirrorless.call? h with
    | none =>
      rw [State.cutCalls_call?_ne (fun r hr => by rw [hc] at hr; cases hr), hc] at hr
      cases hr
    | some r' => exact State.cutCalls_call?_self hc rfl hr

/-! ## Port H -/

/-- Port H's interface in DOWN. -/
def State.loweredH (s : State) : State := { s with portH := s.portH.lowered }

theorem State.loweredH_down (s : State) : s.loweredH.riserUp .H = false := rfl

/-- The event of port H's loss before its end. -/
def linkHDownWork (s : State) : Work :=
  ((Work.start s.loweredH).raise .linkHDown).cutCalls callsOnH .H .linkDown

theorem linkHDownWork_moves (s : State) : Moves ((Work.start s.loweredH).raise .linkHDown) (linkHDownWork s) :=
  Work.cutCalls_moves Moves.rfl'

theorem State.frees_port {u : State} {sel : CallRecord → Bool} {p q : Owned} (h : u.frees sel q = true)
    (hs : ∀ r, sel r = true → r.ownedPort = some p) : q = p := by
  rw [State.frees, List.any_eq_true] at h
  obtain ⟨v, -, h⟩ := h
  rw [Option.any_eq_true] at h
  obtain ⟨r, -, h⟩ := h
  simp only [Bool.and_eq_true, beq_iff_eq] at h
  obtain ⟨⟨hsel, -⟩, hf⟩ := h
  exact Option.some.inj ((CallRecord.ownedPort_of_freed hf).symm.trans (hs r hsel))

theorem exec_linkDown_H (hp : s.powered = true) (hu : s.portH.link = .up) :
    exec (.linkDown .H) s = .next (linkHDownWork s).flush := by
  have hup : s.riserUp .H = true := by simp [State.riserUp, hu]
  have hwork : s.lowerH = ((linkHDownWork s).run .H).finish := by
    rw [State.lowerH, Work.endUpperCalls_eq]
    rfl
  rw [exec_linkDown, execLinkDown, hp, hup, Bool.and_self, if_pos rfl]
  rw [hwork, Work.finish, Work.runArbiter_unusable fun p hp => ?_, Work.run_flush]
  have hpH : p = .H := by
    rw [Work.run] at hp
    rcases List.mem_cons.1 hp with h | h
    · exact h
    · rcases (Work.cutCalls_runs ((Work.Makes.start False s.loweredH).raise_bare .linkHDown) p).1 h with h | h
      · cases h
      · exact State.frees_port h fun r hr => by simpa using hr
  rw [Work.run_st, State.frame_usable (linkHDownWork_moves s).frame, hpH]
  rfl

theorem exec_linkDown_H_ends (hp : s.powered = true) (hu : s.portH.link = .up)
    (hL : s.roomL (1 + (s.selected fun r =>
      r.ownedPort == some .H && r.state != .clearing && (r.openKey .L).isSome).length)) :
    exec (.linkDown .H) s = .next ((s.loweredH.withEvent .linkHDown).cutCalls callsOnH .H .linkDown) := by
  have hm := (Work.Makes.start True s.loweredH).raise (e := .linkHDown) (fun _ => ⟨rfl, rfl⟩)
    fun _ => State.roomL.mono (s := s) hL (Nat.le_add_right 1 _)
  have hsel : ∀ sel, (s.loweredH.withEvent .linkHDown).selected sel = s.selected sel := fun sel =>
    List.filter_congr fun h _ => by rw [State.call?_withEvent]; rfl
  rw [exec_linkDown_H hp hu]
  refine congrArg Host.Outcome.next (hm.cutCalls (a := 0) (b := 0) (d := fun _ => 0) fun _ => ⟨?_, ?_, fun k => ?_⟩).1.flush
  · rw [State.need_cut_other (q := .L) (by decide)
      (sel' := fun r => r.ownedPort == some .H && r.state != .clearing && (r.openKey .L).isSome)
      (fun r => Bool.and_assoc ..), hsel]
    exact State.roomL_withEvent (s := s.loweredH) (State.roomL.mono (s := s) hL (Nat.le_of_eq (Nat.add_comm _ 1)))
  · rw [State.roomH_withEvent]
    exact fun hup => absurd hup (by rw [s.loweredH_down]; decide)
  · refine fun _ => .inl ?_
    rw [State.need_zero fun v r => ?_]
    unfold costOf CallRecord.floorCells
    split
    · next hs => exact if_neg fun h => by simp [eq_of_beq hs] at h
    · rfl

theorem exec_linkDown_H_leaves (hp : s.powered = true) (hu : s.portH.link = .up) :
    ∃ t, exec (.linkDown .H) s = .next t ∧ t.portH.link = .down ∧ t.portH.downMark = true ∧ t.portH.queue = [] ∧
      t.status.line &&& Event.mask .linkHDown ≠ 0 ∧
      ∀ (h : Handle) (r : CallRecord), t.call? h = some r → r.ownedPort = some .H →
        r.state = .clearing ∧ r.openKey .H = none := by
  have hm := (((Work.Makes.start False s.loweredH).raise_bare .linkHDown).cutCalls (sel := callsOnH) (p := .H)
    (c := .linkDown) (a := 0) (b := 0) (d := fun _ => 0) False.elim).1
  have hbare : (linkHDownWork s).flush.bare = (s.loweredH.cutCalls callsOnH .H .linkDown).bare :=
    (Work.flush_bare _).trans hm.bare
  have hport : (linkHDownWork s).flush.portH = s.portH.lowered :=
    (Work.flush_portH _).trans ((linkHDownWork_moves s).portH rfl)
  refine ⟨_, exec_linkDown_H hp hu, ?_⟩
  rw [hport]
  refine ⟨rfl, rfl, rfl, ?_, fun h r hr hr' => ?_⟩
  · exact Work.flush_has (e := .linkHDown) ((linkHDownWork_moves s).has (EventSets.has_add EventSets.empty .linkHDown))
  · rw [State.bare_call? hbare] at hr
    cases hc : s.loweredH.call? h with
    | none =>
      rw [State.cutCalls_call?_ne (fun r hr => by rw [hc] at hr; cases hr), hc] at hr
      cases hr
    | some r' =>
      cases hs : callsOnH r' with
      | true => exact State.cutCalls_call?_self hc hs hr
      | false =>
        rw [State.cutCalls_call?_ne (fun r hr => by rw [hc] at hr; cases hr; exact hs), hc] at hr
        cases hr
        simp [callsOnH, hr'] at hs

/-- Settles O11. -/
theorem linkDown : Obligations.LinkDown := by
  refine ⟨fun s hp hu => ⟨fun n hr => exec_linkDown_resets hp hu hr, fun hr hw hH hF => ?low⟩,
    fun s hp hu hL => exec_linkDown_H_ends hp hu hL, fun s hp hu hr hw => exec_linkDown_L_leaves hp hu hr hw,
    fun s hp hu => exec_linkDown_H_leaves hp hu, fun s => ⟨fun hd => ?_, fun hd => ?_⟩⟩
  case low =>
    intro t
    rw [exec_linkDown_L_ends hp hu hr hw hH hF, State.withEvent_down s.loweredL_down]
    rfl
  · exact congrArg Host.Outcome.next (if_neg (by simp [State.riserUp, hd]))
  · exact congrArg Host.Outcome.next (if_neg (by simp [State.riserUp, hd]))

end

end Sys2Proof.Machine
end

