-- ==== Sys2Proof/Proofs/NeighbourRestart.lean ====
section
/-! PROOFS. A neighbour's RESTART (O26). -/

namespace Sys2Proof.Machine

section
variable {s : State}

/-- The records whose side on a riser port is open. -/
abbrev openOn (p : Riser) : CallRecord → Bool := fun r => (r.openKey p).isSome

theorem State.waitersLeft_mirrorless : s.mirrorless.waitersLeft (openOn .L) = s.waitersLeft (openOn .L) := by
  refine List.filter_congr fun x _ => ?_
  rw [State.call?_mirrorless]
  cases s.call? x.handle <;> rfl

theorem State.frees_mirrorless (q : Owned) : s.mirrorless.frees (openOn .L) q = s.frees (openOn .L) q := by
  refine congrArg (List.any (List.finRange 48)) (funext fun h => ?_)
  rw [State.call?_mirrorless]
  cases s.call? h <;> rfl

theorem CallRecord.WaitsFor.notCleared {r : CallRecord} {p : Owned} (h : r.WaitsFor p) : r.state ≠ .clearing := by
  obtain ⟨hw | hw, -⟩ := h <;> rw [hw] <;> decide

/-- An entry that is left is that of a record that was not selected. -/
theorem State.waitersLeft_unselected {sel : CallRecord → Bool} {x : WaitEntry} {r : CallRecord}
    (hx : x ∈ s.waitersLeft sel) (hr : s.call? x.handle = some r) (hst : r.state ≠ .clearing) : sel r = false := by
  have := (List.mem_filter.1 hx).2
  rw [hr] at this
  simpa [hst] using this

/-- A record whose low side is not open waits as well without its L lane. -/
theorem CallRecord.WaitsFor.mirrorless {r : CallRecord} {p : Owned} (h : r.WaitsFor p) (hL : openOn .L r = false) :
    ({ r with lLane := none } : CallRecord).WaitsFor p := by
  obtain ⟨hw, hp, hq⟩ := h
  refine ⟨hw, hp, fun hst => ⟨fun hd => ?_, (hq hst).2⟩⟩
  have := ((hq hst).1 hd).2
  rw [openOn, this] at hL
  cases hL

theorem Work.runs_contains_frees {w : Work} {ports : Owned → Bool} (h : ∀ q, q ∈ w.runs ↔ ports q = true) (q : Owned) :
    w.runs.contains q = ports q := by
  rw [Bool.eq_iff_iff, List.contains_iff_mem]
  exact h q

/-! ## RESTART from below -/

/-- The event of a RESTART from below. -/
def restartBelowWork (s : State) : Work := (Work.start s).emptyWholeMirror.cutCalls (openOn .L) .L .neighbourRestart

theorem exec_restartBelow (hp : s.powered = true) (hu : s.receives .L = true) :
    exec .restartFromBelow s = .next (restartBelowWork s).finish := by
  rw [exec_restartFromBelow, execRestartFromBelow, onRiser_receives hp hu]
  rfl

theorem restartBelowWork_runs (s : State) (q : Owned) :
    (restartBelowWork s).runs.contains q = s.frees (openOn .L) q := by
  refine Work.runs_contains_frees (fun q => ?_) q
  have := Work.cutCalls_runs (sel := openOn .L) (p := .L) (c := .neighbourRestart)
    (Work.Makes.start False s).emptyWholeMirror q
  rw [State.frees_mirrorless] at this
  exact this.trans (or_iff_right (by rintro ⟨⟩))

theorem State.cutBelow_inLine (hl : s.InLine (s.waitersLeft (openOn .L))) :
    (s.mirrorless.cutCalls (openOn .L) .L .neighbourRestart).InLine (s.waitersLeft (openOn .L)) := by
  refine ⟨hl.1, fun x hx => ?_⟩
  obtain ⟨r, hr, hw⟩ := hl.2 x hx
  have hs := State.waitersLeft_unselected hx hr hw.notCleared
  have hr' : s.mirrorless.call? x.handle = some { r with lLane := none } := by
    rw [State.call?_mirrorless, Option.mem_def.1 hr]
    rfl
  refine ⟨{ r with lLane := none }, ?_, hw.mirrorless hs⟩
  rw [Option.mem_def, State.cutCalls_call?_ne fun r' h' => by cases hr'.symm.trans h'; exact hs, hr']

theorem State.roomToCutBelow {n : Nat}
    (hL : s.roomL n) (hH : s.roomH ((s.selected fun r =>
      r.state != .clearing && (r.openKey .L).isSome && (r.openKey .H).isSome).length + n))
    (hF : ∀ k : Floor, s.roomF k (s.floorCellsFor (fun r =>
      r.state != .clearing && (r.openKey .L).isSome && r.ownedPort == some (.F k)) .neighbourRestart + n)) :
    s.mirrorless.RoomToCut (openOn .L) .L .neighbourRestart n n fun _ => n where
  roomL := by
    rw [State.need_cut_self, Nat.zero_add]
    exact hL
  roomH := by
    rw [State.need_cut_other (q := .H) (by decide)
      (sel' := fun r => r.state != .clearing && (r.openKey .L).isSome && (r.openKey .H).isSome)
      (fun r => by rw [openOn, ← Bool.and_assoc, Bool.and_comm (r.openKey .L).isSome]), State.selected_mirrorless fun _ => rfl]
    exact hH
  roomF k := by
    rw [State.need_cut_floor
      (sel' := fun r => r.state != .clearing && (r.openKey .L).isSome && r.ownedPort == some (.F k))
      (fun r => by
        simp only [openOn, Bool.and_eq_true, bne_iff_ne, beq_iff_eq]
        rw [and_comm (a := r.state ≠ .clearing), and_assoc]),
      State.floorCellsFor_mirrorless fun _ => rfl]
    exact hF k

theorem exec_restartBelow_grants (hp : s.powered = true) (hu : s.receives .L = true)
    (hl : s.InLine (s.waitersLeft (openOn .L))) (hL : s.roomL (s.waitersLeft (openOn .L)).length)
    (hH : s.roomH ((s.selected fun r => r.state != .clearing && (r.openKey .L).isSome && (r.openKey .H).isSome).length +
      (s.waitersLeft (openOn .L)).length))
    (hF : ∀ k : Floor, s.roomF k (s.floorCellsFor (fun r =>
      r.state != .clearing && (r.openKey .L).isSome && r.ownedPort == some (.F k)) .neighbourRestart +
        (s.waitersLeft (openOn .L)).length)) :
    exec .restartFromBelow s = .next ((s.mirrorless.cutCalls (openOn .L) .L .neighbourRestart).arbitratedAt
      (s.frees (openOn .L))) := by
  have hm := (Work.Makes.start True s).emptyWholeMirror.cutCalls (sel := openOn .L) (p := .L) (c := .neighbourRestart)
    fun _ => State.roomToCutBelow hL hH hF
  obtain ⟨hm, hrL, hrH, hrF⟩ := hm
  have hw : (s.mirrorless.cutCalls (openOn .L) .L .neighbourRestart).waiting = s.waitersLeft (openOn .L) :=
    State.cutCalls_waiting.trans State.waitersLeft_mirrorless
  rw [exec_restartBelow hp hu]
  refine congrArg Host.Outcome.next (hm.runArbiter (restartBelowWork_runs s) ?_ (fun h => ?_) (fun h _ => ?_)
    fun h k _ => ?_).flush
  · rw [hw]
    exact (State.cutBelow_inLine hl).sublist List.filter_sublist
  · rw [hw]
    exact (hrL h).mono (List.length_filter_le ..)
  · rw [State.entriesFor, hw]
    exact (hrH h).mono (List.length_filter_le ..)
  · rw [State.entriesFor, hw]
    exact (hrF h k).mono (List.length_filter_le ..)

theorem restartBelowWork_bare (s : State) :
    (restartBelowWork s).Makes False (s.mirrorless.cutCalls (openOn .L) .L .neighbourRestart) :=
  ((Work.Makes.start False s).emptyWholeMirror.cutCalls (a := 0) (b := 0) (d := fun _ => 0) False.elim).1

theorem Work.runArbiter_noWaiters {w : Work} (h : w.st.waiting = []) : w.runArbiter = w :=
  Work.runArbiter_stops fun p _ => by rw [h]; rfl

theorem State.cutCalls_noWaiters {u : State} {sel : CallRecord → Bool} {p : Riser} {c : Cause} (h : u.waiting = []) :
    (u.cutCalls sel p c).waiting = [] := by
  rw [State.cutCalls_waiting, State.waitersLeft, h]
  rfl

theorem exec_restartBelow_leaves (hp : s.powered = true) (hu : s.receives .L = true) (hw : s.waiting = []) :
    ∃ t, exec .restartFromBelow s = .next t ∧ (∀ l : LLane, t.mirror[l] = none) ∧ t.crosses = [] ∧
      t.retained = s.retained ∧
      ∀ (h : Handle) (r : CallRecord), s.call? h = some r →
        (r.openKey .L = none → t.call? h = some { r with lLane := none }) ∧
        (r.openKey .L ≠ none → ∀ r', t.call? h = some r' → r'.state = .clearing ∧ r'.openKey .L = none) := by
  have hm := (restartBelowWork_bare s).bare
  have hbare := (Work.flush_bare (restartBelowWork s)).trans hm
  have hless := ((State.mirrorless_mirrorless s).cutCalls (openOn .L) .L .neighbourRestart).congr hbare
  have hfin : (restartBelowWork s).finish = (restartBelowWork s).flush := by
    rw [Work.finish, Work.runArbiter_noWaiters]
    rw [State.bare_waiting hm]
    exact State.cutCalls_noWaiters hw
  refine ⟨_, exec_restartBelow hp hu, ?_⟩
  rw [hfin]
  refine ⟨hless.mirror, hless.crosses, ?_, fun h r hr => ?_⟩
  · exact State.frame_retained ((Work.flush_frame _).trans (Work.cutCalls_moves Moves.rfl'.emptyWholeMirror).frame)
  · have hr' : s.mirrorless.call? h = some { r with lLane := none } := by
      rw [State.call?_mirrorless, hr]
      rfl
    rw [State.bare_call? hbare]
    refine ⟨fun hk => ?_, fun hk r' h' => ?_⟩
    · have hs : openOn .L { r with lLane := none } = false := by
        show (r.openKey .L).isSome = false
        rw [hk]
        rfl
      rw [State.cutCalls_call?_ne fun r' h' => by cases hr'.symm.trans h'; exact hs, hr']
    · exact State.cutCalls_call?_self hr' (Option.isSome_iff_ne_none.2 hk) h'

/-! ## RESTART from above -/

/-- The event of a RESTART from above. -/
def restartAboveWork (s : State) : Work :=
  ((Work.start s).cutCalls (openOn .H) .H .neighbourRestart).announceFire

theorem exec_restartAbove (hp : s.powered = true) (hu : s.receives .H = true) :
    exec .restartFromAbove s = .next (restartAboveWork s).finish := by
  rw [exec_restartFromAbove, execRestartFromAbove, onRiser_receives hp hu]
  rfl

@[simp] theorem Work.announceFire_runs (w : Work) : w.announceFire.runs = w.runs := by
  unfold Work.announceFire
  split
  · exact Work.sendH_runs ..
  · rfl

/-- The state after them, its grants not yet made. -/
def State.restartedAbove (s : State) : State :=
  if s.lineSource then (s.cutCalls (openOn .H) .H .neighbourRestart).sentH [fireOnCell]
  else s.cutCalls (openOn .H) .H .neighbourRestart

theorem State.bare_restartedAbove (s : State) :
    s.restartedAbove.bare = (s.cutCalls (openOn .H) .H .neighbourRestart).bare := by
  unfold State.restartedAbove
  split
  · exact State.bare_sentH ..
  · rfl

theorem Work.cutAbove_lineSource (s : State) :
    ((Work.start s).cutCalls (openOn .H) .H .neighbourRestart).st.lineSource = s.lineSource :=
  State.frame_lineSource (Work.cutCalls_moves Moves.rfl').frame

theorem restartAboveWork_makes {R : Prop} (s : State) {a b : Nat} {d : Floor → Nat}
    (hroom : R → s.RoomToCut (openOn .H) .H .neighbourRestart a (1 + b) d) :
    (restartAboveWork s).Makes R s.restartedAbove ∧ (R → s.restartedAbove.roomL a) ∧ (R → s.restartedAbove.roomH b) := by
  obtain ⟨hm, hL, hH, -⟩ := (Work.Makes.start R s).cutCalls hroom
  unfold restartAboveWork Work.announceFire State.restartedAbove
  rw [Work.cutAbove_lineSource]
  split
  · exact ⟨hm.sendH fun hR => (hH hR).mono (by omega), fun hR => (State.roomL_sentH ..).2 (hL hR),
      fun hR => State.roomH_sentH (hH hR)⟩
  · exact ⟨hm, hL, fun hR => (hH hR).mono (by omega)⟩

theorem restartAboveWork_runs (s : State) (q : Owned) :
    (restartAboveWork s).runs.contains q = s.frees (openOn .H) q := by
  refine Work.runs_contains_frees (fun q => ?_) q
  rw [restartAboveWork, Work.announceFire_runs, Work.cutCalls_runs (Work.Makes.start False s)]
  exact or_iff_right (by rintro ⟨⟩)

theorem CallRecord.ownedPort_of_openH {r : CallRecord} (h : openOn .H r = true) : r.ownedPort = some .H := by
  unfold openOn CallRecord.openKey at h
  unfold CallRecord.ownedPort
  cases hf : r.far with
  | high side => rfl
  | none => rw [hf] at h; cases h
  | floor f => rw [hf] at h; cases h

theorem State.restartedAbove_waiting : s.restartedAbove.waiting = s.waitersLeft (openOn .H) :=
  (State.bare_waiting s.bare_restartedAbove).trans State.cutCalls_waiting

theorem State.restartedAbove_inLine (hl : s.InLine ((s.waitersLeft (openOn .H)).filter fun x => x.port = .H)) :
    s.restartedAbove.InLine ((s.waitersLeft (openOn .H)).filter fun x => x.port = .H) := by
  refine hl.congr fun x hx => ?_
  rw [State.bare_call? s.bare_restartedAbove]
  obtain ⟨r, hr, hw⟩ := hl.2 x hx
  have hs := State.waitersLeft_unselected (List.mem_filter.1 hx).1 hr hw.notCleared
  exact State.cutCalls_call?_ne fun r' h' => by cases (Option.mem_def.1 hr).symm.trans h'; exact hs

theorem exec_restartAbove_grants (hp : s.powered = true) (hu : s.receives .H = true)
    {left : List WaitEntry} (hleft : left = (s.waitersLeft (openOn .H)).filter fun x => x.port = .H) (hl : s.InLine left)
    (hL : s.roomL ((s.selected fun r => r.state != .clearing && (r.openKey .L).isSome && (r.openKey .H).isSome).length +
      left.length)) (hH : s.roomH (1 + left.length)) :
    exec .restartFromAbove s = .next (s.restartedAbove.arbitratedAt (s.frees (openOn .H))) := by
  subst hleft
  have hports : ∀ q, s.frees (openOn .H) q = true → q = .H := fun q hq =>
    State.frees_port hq fun r hr => CallRecord.ownedPort_of_openH hr
  have hsub : (s.restartedAbove.waiting.filter fun x => s.frees (openOn .H) x.port).Sublist
      ((s.waitersLeft (openOn .H)).filter fun x => x.port = .H) := by
    rw [State.restartedAbove_waiting]
    exact List.monotone_filter_right _ fun x hx => by simpa using hports _ hx
  obtain ⟨hm, hrL, hrH⟩ := restartAboveWork_makes (R := True) s (d := fun _ => 0) fun _ =>
    ⟨by
      rw [State.need_cut_other (q := .L) (by decide)
        (sel' := fun r => r.state != .clearing && (r.openKey .L).isSome && (r.openKey .H).isSome)
        (fun r => by rw [openOn]; exact Bool.and_comm ..)]
      exact hL,
     by rw [State.need_cut_self, Nat.zero_add]; exact hH,
     fun k _ => .inl (by
      rw [State.need_zero fun v r => ?_]
      unfold costOf CallRecord.floorCells
      split
      · next hs => exact if_neg fun h => by simp [CallRecord.ownedPort_of_openH hs] at h
      · rfl)⟩
  rw [exec_restartAbove hp hu]
  refine congrArg Host.Outcome.next (hm.runArbiter (restartAboveWork_runs s) ((State.restartedAbove_inLine hl).sublist hsub)
    (fun h => (hrL h).mono hsub.length_le) (fun h _ => ?_) fun h k hk => ?_).flush
  · rw [State.entriesFor, State.restartedAbove_waiting]
    exact hrH h
  · cases hports _ hk

theorem exec_restartAbove_leaves (hp : s.powered = true) (hu : s.receives .H = true) (hw : s.waiting = []) :
    ∃ t, exec .restartFromAbove s = .next t ∧ t.lineSource = s.lineSource ∧ t.retained = s.retained ∧
      ∀ (h : Handle) (r : CallRecord), s.call? h = some r →
        (r.openKey .H = none → t.call? h = some r) ∧
        (r.openKey .H ≠ none → ∀ r', t.call? h = some r' → r'.state = .clearing ∧ r'.openKey .H = none) := by
  have hm := (restartAboveWork_makes (R := False) s (a := 0) (b := 0) (d := fun _ => 0) False.elim).1.bare
  have hbare : (restartAboveWork s).flush.bare = _ := (Work.flush_bare _).trans (hm.trans s.bare_restartedAbove)
  have hfin : (restartAboveWork s).finish = (restartAboveWork s).flush := by
    rw [Work.finish, Work.runArbiter_noWaiters]
    rw [State.bare_waiting hm, State.restartedAbove_waiting, State.waitersLeft, hw]
    rfl
  have hframe : (restartAboveWork s).flush.frame = s.frame :=
    (Work.flush_frame _).trans (Work.cutCalls_moves Moves.rfl').announceFire.frame
  refine ⟨_, exec_restartAbove hp hu, ?_⟩
  rw [hfin]
  refine ⟨State.frame_lineSource hframe, State.frame_retained hframe, fun h r hr => ?_⟩
  rw [State.bare_call? hbare]
  refine ⟨fun hk => ?_, fun hk r' h' => State.cutCalls_call?_self hr (Option.isSome_iff_ne_none.2 hk) h'⟩
  have hs : openOn .H r = false := by rw [openOn, hk]; rfl
  rw [State.cutCalls_call?_ne fun r' h' => by cases hr.symm.trans h'; exact hs, hr]

/-- Settles O26. -/
theorem restarts : Obligations.Restarts :=
  ⟨fun _ hp hu hl hL hH hF => exec_restartBelow_grants hp hu hl hL hH hF,
    fun _ hp hu hl hL hH => exec_restartAbove_grants hp hu rfl hl hL hH,
    fun _ hp hu hw => exec_restartBelow_leaves hp hu hw, fun _ hp hu hw => exec_restartAbove_leaves hp hu hw⟩

end

end Sys2Proof.Machine
end

