-- ==== Sys2Proof/Proofs/FireSources.lean ====
section
/-! PROOFS. The purge at the entry into fire mode, and the commands that change a source of fire mode (O48, O49). -/

namespace Sys2Proof.Machine

section
variable {R : Prop} {w : Work} {s u u' : State}

/-! ## The purge -/

/-- The records of these entries wait without a lane. -/
def State.Idle (s : State) (l : List WaitEntry) : Prop :=
  (l.map WaitEntry.handle).Nodup ∧ ∀ x ∈ l, ∀ r, s.call? x.handle = some r → r.Waits ∧ r.ownedLane = none

theorem State.Idle.tail {x : WaitEntry} {l : List WaitEntry} (h : s.Idle (x :: l))
    (hc : ∀ y ∈ l, x.handle ≠ y.handle → u.call? y.handle = s.call? y.handle) : u.Idle l := by
  obtain ⟨hnd, hw⟩ := h
  rw [List.map_cons, List.nodup_cons] at hnd
  refine ⟨hnd.2, fun y hy r hr => hw y (by simp [hy]) r ?_⟩
  rwa [hc y hy fun e => hnd.1 (e ▸ List.mem_map_of_mem hy)] at hr

theorem State.Idle.congr {l : List WaitEntry} (h : s.Idle l) (hb : u.bare = s.bare) : u.Idle l :=
  ⟨h.1, fun x hx r hr => h.2 x hx r (by rwa [State.bare_call? hb] at hr)⟩

theorem CallRecord.freedPort_of_noLane {r : CallRecord} (h : r.ownedLane = none) : r.freedPort = none := by
  rw [CallRecord.freedPort, h]
  rfl

theorem CallRecord.Waits.lastFloorCells_length {r : CallRecord} (h : r.Waits) (v : Handle) (c : Cause) :
    (r.lastFloorCells v c).length ≤ 1 := by
  have hno : ¬ (r.state = .offering ∨ r.state = .ringing) := by
    obtain h | h := h <;> rw [h] <;> decide
  unfold CallRecord.lastFloorCells
  cases hf : r.far with
  | none => exact Nat.zero_le _
  | high side => exact Nat.zero_le _
  | floor f =>
    dsimp only
    rw [if_neg hno]
    cases f.answering <;> simp

/-- One entry's part of the purge. -/
theorem Work.purge_cons (w : Work) (x : WaitEntry) (l : List WaitEntry) : w.purge (x :: l) =
    (w.withCall x.handle fun r => if r.cls < w.st.retained.fireClass then w.release x.handle .fireMode else w).purge l := rfl

/-- One entry's part of the purge, in the state. -/
def State.purgedOne (s : State) (x : WaitEntry) : State :=
  (s.call? x.handle).elim s fun r => if r.cls < s.retained.fireClass then s.ended x.handle r .fireMode else s

theorem State.purged_cons (s : State) (x : WaitEntry) (l : List WaitEntry) :
    s.purged (x :: l) = (s.purgedOne x).purged l := by
  rw [State.purged, State.purgedOne, List.foldl_cons]
  cases s.call? x.handle <;> rfl

theorem State.purgedOne_call?_ne {x : WaitEntry} {v : Handle} (hv : x.handle ≠ v) :
    (s.purgedOne x).call? v = s.call? v := by
  unfold State.purgedOne
  cases hr : s.call? x.handle with
  | none => rfl
  | some r =>
    dsimp only [Option.elim]
    split
    · exact s.ended_call?_ne _ _ _ hv
    · rfl

/-- Each entry has at most one cell for each port. -/
theorem State.purgedOne_rooms {x : WaitEntry} (hi : ∀ r, s.call? x.handle = some r → r.Waits) (n : Nat) :
    (s.roomL (n + 1) → (s.purgedOne x).roomL n) ∧ (s.roomH (n + 1) → (s.purgedOne x).roomH n) ∧
      ∀ k, s.roomF k (n + 1) → (s.purgedOne x).roomF k n := by
  unfold State.purgedOne
  cases hr : s.call? x.handle with
  | none => exact ⟨fun h => h.mono (by omega), fun h => h.mono (by omega), fun k h => h.mono (by omega)⟩
  | some r =>
    dsimp only [Option.elim]
    split
    · refine ⟨fun h => State.ended_roomL (h.mono ?_), fun h => State.ended_roomH (h.mono ?_),
        fun k h => State.ended_roomF (fun f _ _ => h.mono ?_) (h.mono (by omega))⟩
      · have := r.releaseCells_length .fireMode .L
        omega
      · have := r.releaseCells_length .fireMode .H
        omega
      · have := (hi r hr).lastFloorCells_length x.handle .fireMode
        omega
    · exact ⟨fun h => h.mono (by omega), fun h => h.mono (by omega), fun k h => h.mono (by omega)⟩

/-- The purge of a list of entries: each whose base class is below the fire admission class ends, and no lane is freed. -/
theorem Work.Makes.purge {l : List WaitEntry} (hm : w.Makes R u) (hi : u.Idle l) (a : Nat)
    (hL : R → u.roomL (l.length + a)) (hH : R → u.roomH l.length) (hF : R → ∀ k, u.roomF k l.length) :
    (w.purge l).Makes R (u.purged l) ∧ (R → (u.purged l).roomL a) ∧ (w.purge l).runs = w.runs := by
  induction l generalizing w u with
  | nil => exact ⟨hm, fun hR => (hL hR).mono (by simp), rfl⟩
  | cons x l ih =>
    have hwaits : ∀ r, u.call? x.handle = some r → r.Waits ∧ r.ownedLane = none := hi.2 x (by simp)
    have hrooms := State.purgedOne_rooms (s := u) fun r hr => (hwaits r hr).1
    rw [List.length_cons] at hL hH hF
    have hone : (w.withCall x.handle fun r =>
        if r.cls < w.st.retained.fireClass then w.release x.handle .fireMode else w).Makes R (u.purgedOne x) ∧
        (w.withCall x.handle fun r =>
          if r.cls < w.st.retained.fireClass then w.release x.handle .fireMode else w).runs = w.runs := by
      cases hr : u.call? x.handle with
      | none =>
        have hw : w.call? x.handle = none := (State.bare_call? hm.bare x.handle).trans hr
        rw [Work.withCall, hw, State.purgedOne, hr]
        exact ⟨hm, rfl⟩
      | some r =>
        have hr' : w.st.call? x.handle = some r := (State.bare_call? hm.bare x.handle).trans hr
        rw [Work.withCall_live hr', State.bare_retained hm.bare, State.purgedOne, hr, Option.elim_some]
        split
        · refine ⟨hm.release hr .fireMode (fun hR => (hL hR).mono ?_) (fun hR => (hH hR).mono ?_)
            fun hR f _ => (hF hR f.port).mono ?_, ?_⟩
          · have := r.releaseCells_length .fireMode .L
            omega
          · have := r.releaseCells_length .fireMode .H
            omega
          · have := (hwaits r hr).1.lastFloorCells_length x.handle .fireMode
            omega
          · rw [Work.release_runs hr', CallRecord.freedPort_of_noLane (hwaits r hr).2]
            rfl
        · exact ⟨hm, rfl⟩
    rw [Work.purge_cons, State.purged_cons]
    obtain ⟨h1, h2, h3⟩ := ih hone.1 (hi.tail fun y _ hy => State.purgedOne_call?_ne hy)
      (fun hR => (hrooms _).1 ((hL hR).mono (by omega))) (fun hR => (hrooms _).2.1 (hH hR))
      fun hR k => (hrooms _).2.2 k (hF hR k)
    exact ⟨h1, h2, h3.trans hone.2⟩

/-! ## A change of a source of fire mode -/

/-- The entry into fire mode. -/
abbrev State.enters (u u' : State) : Prop := u.fireMode = false ∧ u'.fireMode = true

/-- The state `u'` with FIRE_LOCAL set where the local source has become active in it. -/
def State.localTold (u u' : State) : State :=
  if u.localSource = false ∧ u'.localSource = true then u'.withEvent .fireLocal else u'

/-- What an event makes of a change of the sources from `u` to `u'`. -/
def State.sourcesChanged (u u' : State) : State :=
  if u.enters u' then (u.localTold u').purged u'.waiting else u.localTold u'

theorem State.bare_localTold (u u' : State) : (u.localTold u').bare = u'.bare := by
  unfold State.localTold
  split
  · exact State.bare_withEvent ..
  · rfl

theorem State.localTold_roomL {n : Nat} (h : u'.roomL (n + 1)) : (u.localTold u').roomL n := by
  unfold State.localTold
  split
  · exact State.roomL_withEvent h
  · exact h.mono (by omega)

theorem State.localTold_roomH {n : Nat} (h : u'.roomH n) : (u.localTold u').roomH n := by
  unfold State.localTold
  split
  · exact (State.roomH_withEvent ..).2 h
  · exact h

theorem State.localTold_roomF {k : Floor} {n : Nat} (h : u'.roomF k n) : (u.localTold u').roomF k n := by
  unfold State.localTold
  split
  · exact (State.roomF_withEvent ..).2 h
  · exact h

theorem not_and_bool_iff {a b : Bool} : (!a && b) = true ↔ a = false ∧ b = true := by
  cases a <;> cases b <;> decide

/-- A change of the sources: FIRE_LOCAL where the local source becomes active, and the purge at the entry. -/
theorem Work.Makes.changeSources {f : State → State} (hm : w.Makes R u) (hf : (w.modState f).Makes R u') (a : Nat)
    (hidle : u.enters u' → u'.waitersIdle)
    (hfresh : R → u.localSource = false → u'.localSource = true → w.raised = EventSets.empty ∧ w.outL = [])
    (hT : R → u.localSource = false → u'.localSource = true → u'.roomL 1) (hL : R → (u.localTold u').roomL a)
    (hLp : R → u.enters u' → (u.localTold u').roomL (u'.waiting.length + a))
    (hH : R → u.enters u' → u'.roomH u'.waiting.length) (hF : R → u.enters u' → ∀ k, u'.roomF k u'.waiting.length) :
    (w.changeSources f).Makes R (u.sourcesChanged u') ∧ (R → (u.sourcesChanged u').roomL a) ∧
      (w.changeSources f).runs = w.runs := by
  have htold : (if !w.st.localSource && (w.modState f).st.localSource then (w.modState f).raise .fireLocal
      else w.modState f).Makes R (u.localTold u') := by
    rw [State.bare_localSource hm.bare, State.bare_localSource hf.bare, State.localTold]
    by_cases h : u.localSource = false ∧ u'.localSource = true
    · rw [if_pos h, if_pos (not_and_bool_iff.2 h)]
      exact hf.raise (fun hR => hfresh hR h.1 h.2) fun hR => hT hR h.1 h.2
    · rw [if_neg h, if_neg (mt not_and_bool_iff.1 h)]
      exact hf
  have hst : ∀ b : Bool, (if b then (w.modState f).raise .fireLocal else w.modState f).st = (w.modState f).st := fun b => by
    cases b <;> rfl
  have hruns : ∀ b : Bool, (if b then (w.modState f).raise .fireLocal else w.modState f).runs = w.runs := fun b => by
    cases b <;> rfl
  unfold Work.changeSources State.sourcesChanged
  dsimp only
  rw [hst, State.bare_fireMode hm.bare, State.bare_fireMode hf.bare, State.bare_waiting hf.bare]
  by_cases h : u.enters u'
  · rw [if_pos h, if_pos (not_and_bool_iff.2 h)]
    have hi : (u.localTold u').Idle u'.waiting := State.Idle.congr (hidle h) (u.bare_localTold u')
    obtain ⟨h1, h2, h3⟩ := htold.purge hi a (fun hR => hLp hR h)
      (fun hR => State.localTold_roomH (hH hR h)) fun hR k => State.localTold_roomF (hF hR h k)
    exact ⟨h1, h2, h3.trans (hruns _)⟩
  · rw [if_neg h, if_neg (mt not_and_bool_iff.1 h)]
    exact ⟨htold, hL, hruns _⟩

/-! ## FIRE_EDGE -/

theorem State.localSource_iff (s : State) : s.localSource = true ↔
    (s.retained.sense = .levelLow ∧ s.pins.fireHigh = false) ∨
    (s.retained.sense = .levelHigh ∧ s.pins.fireHigh = true) ∨
    ((s.retained.sense = .riseLatch ∨ s.retained.sense = .fallLatch) ∧ s.latch = true) := by
  unfold State.localSource
  cases s.retained.sense <;> simp

/-- The part after an edge of the FIRE level, its source not yet told of. -/
def State.edged (s : State) (high : Bool) : State :=
  { s with pins := { s.pins with fireHigh := high }, latch := s.retained.sense.latchAfter high s.latch }

theorem exec_fireEdge_edge {high : Bool} (hp : s.powered = true) (hi : s.waitersIdle) (hL : s.roomL (s.waiting.length + 1))
    (hH : s.roomH s.waiting.length) (hF : ∀ k : Floor, s.roomF k s.waiting.length) (hne : s.pins.fireHigh ≠ high) :
    exec (.fireEdge high) s = .next (s.sourcesChanged (s.edged high)) := by
  obtain ⟨hm, -, hruns⟩ := (Work.Makes.start True s).changeSources (u' := s.edged high)
    (f := fun s => s.edged high) (Work.Makes.start True (s.edged high)) 0 (fun _ => hi) (fun _ _ _ => ⟨rfl, rfl⟩)
    (fun _ _ _ => State.roomL.mono (s := s) hL (by omega)) (fun _ _ => .inl rfl)
    (fun _ _ => State.localTold_roomL (u' := s.edged high) hL) (fun _ _ => hH) fun _ _ k => hF k
  rw [exec_fireEdge, execFireEdge, event_powered hp, Work.start_st, if_neg hne]
  exact congrArg Host.Outcome.next (hm.finish hruns)

theorem SenseMode.latchAfter_eq (m : SenseMode) (high latch : Bool) : m.latchAfter high latch =
    match m with
    | .ignore => false
    | .levelLow | .levelHigh => latch
    | .riseLatch => if high then true else latch
    | .fallLatch => if high then latch else true := by
  cases m <;> cases high <;> cases latch <;> rfl

/-- Settles O48. -/
theorem fireEdge : Obligations.FireEdge := by
  refine ⟨fun s => ⟨s.localSource_iff, by simp [State.fireMode]⟩, fun s high hp hi hL hH hF => ⟨fun he => ?_, fun hne => ?_⟩⟩
  · rw [exec_fireEdge, execFireEdge]
    exact event_nothing (if_pos he)
  · intro latch t u
    have hlatch : s.retained.sense.latchAfter high s.latch = latch := SenseMode.latchAfter_eq ..
    have ht : s.edged high = t :=
      congrArg (fun b : Bool => ({ s with pins := { s.pins with fireHigh := high }, latch := b } : State)) hlatch
    rw [exec_fireEdge_edge hp hi hL hH hF hne, ht]
    rfl

/-! ## FIRE_ON and FIRE_OFF -/

/-- The part after a fire cell has gone up port H. -/
def State.fireRelayed (s : State) (c : RiserCell) : State := if s.top then s else s.sentH [c]

theorem State.bare_fireRelayed (s : State) (c : RiserCell) : (s.fireRelayed c).bare = s.bare := by
  unfold State.fireRelayed
  split
  · rfl
  · exact State.bare_sentH ..

theorem Work.Makes.relayFire (hm : w.Makes R u) (c : RiserCell) (hH : R → u.roomH 1) :
    (w.relayFire c).Makes R (u.fireRelayed c) := by
  unfold Work.relayFire State.fireRelayed
  rw [State.bare_top hm.bare]
  split
  · exact hm
  · exact hm.sendH hH

@[simp] theorem Work.relayFire_runs (w : Work) (c : RiserCell) : (w.relayFire c).runs = w.runs := by
  unfold Work.relayFire
  split
  · rfl
  · exact Work.sendH_runs ..

theorem Work.relayFire_start_fresh (hroom : s.roomH 1) (c : RiserCell) :
    ((Work.start s).relayFire c).raised = EventSets.empty ∧ ((Work.start s).relayFire c).outL = [] := by
  unfold Work.relayFire
  split
  · exact ⟨rfl, rfl⟩
  · rw [Work.sendH_room (w := Work.start s) hroom]
    exact ⟨rfl, rfl⟩

theorem State.fireRelayed_roomL {c : RiserCell} {n : Nat} (h : s.roomL n) : (s.fireRelayed c).roomL n := by
  unfold State.fireRelayed
  split
  · exact h
  · exact (State.roomL_sentH ..).2 h

theorem State.fireRelayed_roomH {c : RiserCell} {n : Nat} (h : s.roomH (n + 1)) : (s.fireRelayed c).roomH n := by
  unfold State.fireRelayed
  split
  · exact h.mono (by omega)
  · exact State.roomH_sentH (h.mono (Nat.le_of_eq (Nat.add_comm _ n)))

theorem State.fireRelayed_roomF {c : RiserCell} {k : Floor} {n : Nat} (h : s.roomF k n) : (s.fireRelayed c).roomF k n := by
  unfold State.fireRelayed
  split
  · exact h
  · exact (State.roomF_sentH ..).2 h

/-- FIRE-ON from below while the line source is set. -/
theorem exec_fireOn_set (hp : s.powered = true) (hu : s.receives .L = true) (hH : s.roomH 1) (hs : s.lineSource = true) :
    exec (.fireOn .L) s = .next (s.fireRelayed fireOnCell) := by
  have hm := (Work.Makes.start True s).relayFire fireOnCell fun _ => hH
  rw [exec_fireOn, execFireOn, onlyFromBelow, onRiser_receives hp hu]
  have hls : ((Work.start s).relayFire fireOnCell).st.lineSource = true :=
    (State.bare_lineSource (hm.bare.trans (s.bare_fireRelayed fireOnCell))).trans hs
  dsimp only
  rw [if_pos hls]
  exact congrArg Host.Outcome.next (hm.finish (by simp))

/-- FIRE-ON from below while the line source is clear, in the state `up` that its relay leaves. -/
theorem exec_fireOn_sets (hp : s.powered = true) (hu : s.receives .L = true) (hls : s.lineSource = false)
    (hi : s.waitersIdle) (hL : s.roomL (s.waiting.length + 1)) (hH : s.roomH (s.waiting.length + 1))
    (hF : ∀ k : Floor, s.roomF k s.waiting.length) {t : State}
    (ht : t = ({ s.fireRelayed fireOnCell with lineSource := true } : State).withEvent .fireLine) :
    exec (.fireOn .L) s = .next (if s.fireMode then t else t.purged s.waiting) := by
  have hroomH : s.roomH 1 := hH.mono (by omega)
  have hfresh := Work.relayFire_start_fresh hroomH fireOnCell
  have hm0 := (Work.Makes.start True s).relayFire fireOnCell fun _ => hroomH
  have hroomL : (s.fireRelayed fireOnCell).roomL (s.waiting.length + 1) := State.fireRelayed_roomL hL
  have hb : (s.fireRelayed fireOnCell).bare = s.bare := s.bare_fireRelayed fireOnCell
  have htb : t.bare = ({ s with lineSource := true } : State).bare := by
    rw [ht, State.bare_withEvent]
    exact (congrArg (fun s : State => ({ s with lineSource := true } : State)) hb :)
  have hf : (((Work.start s).relayFire fireOnCell).raise .fireLine |>.modState fun s =>
      { s with lineSource := true }).Makes True t := by
    have h1 := hm0.modState (f := fun s => { s with lineSource := true })
      (congrArg (fun s : State => ({ s with lineSource := true } : State)) hm0.bare) (fun _ _ _ => rfl) rfl rfl
    have h2 := h1.raise (e := .fireLine) (fun _ => hfresh) fun _ => hroomL.mono (by omega)
    rw [ht]
    exact h2
  have hlocal : t.localSource = s.localSource := (State.bare_localSource htb :)
  have hwait : t.waiting = s.waiting := (State.bare_waiting htb :)
  have htrue : t.fireMode = true := by
    have : t.lineSource = true := State.bare_lineSource htb
    simp [State.fireMode, this]
  have htL : t.roomL s.waiting.length := by
    rw [ht]
    exact State.roomL_withEvent (s := { s.fireRelayed fireOnCell with lineSource := true }) hroomL
  have htH : t.roomH s.waiting.length := by
    rw [ht, State.roomH_withEvent]
    exact State.fireRelayed_roomH hH
  have htF : ∀ k, t.roomF k s.waiting.length := fun k => by
    rw [ht, State.roomF_withEvent]
    exact State.fireRelayed_roomF (hF k)
  have hm := hm0.raise (e := .fireLine) (fun _ => hfresh) fun _ => hroomL.mono (by omega)
  have hbe := (State.bare_withEvent (s.fireRelayed fireOnCell) .fireLine).trans hb
  have hquiet : ¬ (((s.fireRelayed fireOnCell).withEvent .fireLine).localSource = false ∧ t.localSource = true) := by
    rw [State.bare_localSource hbe, hlocal]
    rintro ⟨h1, h2⟩
    rw [h1] at h2
    cases h2
  have hnotold : ((s.fireRelayed fireOnCell).withEvent .fireLine).localTold t = t := if_neg hquiet
  have hidle : t.waitersIdle := by
    show t.Idle t.waiting
    rw [hwait]
    exact State.Idle.congr (s := { s with lineSource := true }) hi htb
  obtain ⟨hc, -, hruns⟩ := hm.changeSources hf 0 (fun _ => hidle) (fun _ h1 h2 => absurd ⟨h1, h2⟩ hquiet)
    (fun _ h1 h2 => absurd ⟨h1, h2⟩ hquiet) (fun _ _ => .inl rfl) (fun _ _ => by rw [hnotold, hwait]; exact htL)
    (fun _ _ => by rw [hwait]; exact htH) fun _ _ k => by rw [hwait]; exact htF k
  have hcond : ¬ ((Work.start s).relayFire fireOnCell).st.lineSource = true := by
    rw [State.bare_lineSource (hm0.bare.trans hb), hls]
    decide
  rw [exec_fireOn, execFireOn, onlyFromBelow, onRiser_receives hp hu]
  dsimp only
  rw [if_neg hcond, hc.finish (hruns.trans (Work.relayFire_runs ..))]
  refine congrArg Host.Outcome.next ?_
  have henters : ((s.fireRelayed fireOnCell).withEvent .fireLine).enters t ↔ ¬ s.fireMode = true := by
    rw [State.enters, State.bare_fireMode hbe, htrue]
    simp
  rw [State.sourcesChanged, hnotold, hwait, if_congr henters rfl rfl, ite_not]

/-- FIRE-OFF from below. -/
theorem exec_fireOff_below (hp : s.powered = true) (hu : s.receives .L = true) (hH : s.roomH 1) :
    exec (.fireOff .L) s = .next (({ s with lineSource := false, latch := false } : State).fireRelayed fireOffCell) := by
  obtain ⟨t, ht⟩ : ∃ t : State, t = { s with lineSource := false, latch := false } := ⟨_, rfl⟩
  have hmono : t.localSource = true → s.localSource = true := by
    rw [ht, State.localSource, State.localSource]
    cases s.retained.sense <;> simp
  have hquiet : ¬ (s.localSource = false ∧ t.localSource = true) := by
    rintro ⟨h1, h2⟩
    rw [hmono h2] at h1
    cases h1
  have henter : ¬ s.enters t := by
    rintro ⟨h1, h2⟩
    have hl : t.lineSource = false := by rw [ht]
    rw [State.fireMode, hl, Bool.or_false] at h2
    rw [State.fireMode, hmono h2] at h1
    cases h1
  have hmod : ((Work.start s).modState fun s => { s with lineSource := false, latch := false }).Makes True t := by
    rw [ht]
    exact Work.Makes.start True _
  obtain ⟨hc, -, hruns⟩ := (Work.Makes.start True s).changeSources hmod 0 (fun h => absurd h henter)
    (fun _ _ _ => ⟨rfl, rfl⟩) (fun _ h1 h2 => absurd ⟨h1, h2⟩ hquiet) (fun _ _ => .inl rfl)
    (fun _ h => absurd h henter) (fun _ h => absurd h henter) fun _ h => absurd h henter
  rw [State.sourcesChanged, if_neg henter, State.localTold, if_neg hquiet] at hc
  have hroom : t.roomH 1 := by
    rw [ht]
    exact hH
  rw [exec_fireOff, execFireOff, onlyFromBelow, onRiser_receives hp hu, ← ht]
  exact congrArg Host.Outcome.next ((hc.relayFire fireOffCell fun _ => hroom).finish (by rw [Work.relayFire_runs, hruns]; rfl))

/-- Settles O49. -/
theorem fireOnAndOff : Obligations.FireOnAndOff := by
  refine ⟨fun s hp hL => ⟨fun hu hH => ⟨fun hs => exec_fireOn_set hp hu hH hs, fun hls hi hL hH hF => ?_⟩, fun hu => ?_⟩,
    fun s hp => ⟨fun hu hH => exec_fireOff_below hp hu hH, fun hu hL => ?_⟩⟩
  · exact exec_fireOn_sets hp hu hls hi hL hH hF rfl
  · rw [exec_fireOn, execFireOn, onlyFromBelow]
    exact onRiser_raise hp hu hL rfl
  · rw [exec_fireOff, execFireOff, onlyFromBelow]
    exact onRiser_raise hp hu hL rfl

end

end Sys2Proof.Machine
end

