-- ==== Sys2Proof/Proofs/WriteSettings.lean ====
section
/-! PROOFS. WRITE of the settings (O53). -/

namespace Sys2Proof.Machine

section
variable {s : State} {q : Request} {f : FieldRef} {p : Owned}

/-- A WRITE of a field while the table is unlocked: what its owner does with it, and the reply. -/
theorem exec_write_field (ht : s.takes q) (hl : s.locked = false)
    (hf : fieldRef q.item.toNat q.field.toNat q.index.toNat = some f) {x : Work × Result}
    (hx : (Work.start s).writeField f q.value.toNat = x) :
    exec (.write q) s = .next ((x.1.reply .write q x.2 (x.1.st.presentValue f)).drawFree).finish := by
  rw [exec_write, execWrite, onRequest_takes ht, Work.writeOp_field hf, Work.ifUnlocked_unlocked hl, hx]

/-- A setting that is stored as clamped: the reply carries what is stored. -/
theorem exec_write_setting (ht : s.takes q) (hl : s.locked = false) (hroom : s.roomL 1)
    (hf : fieldRef q.item.toNat q.field.toNat q.index.toNat = some f) {d : Retained} {v : Nat}
    (hw : (Work.start s).writeField f q.value.toNat = (Work.start (s.storing d), storedResult q.value.toNat v))
    (hv : (s.storing d).readField f = some v) :
    exec (.write q) s = .next ((s.storing d).repliedFree .write q (if q.value.toNat = v then .done else .clamped) v) := by
  rw [exec_write_stored ht hl hroom hf hw, State.presentValue, hv, Option.getD_some]
  rfl

@[simp] theorem State.repliedFree_waiting (s : State) (op : MgmtOp) (q : Request) (r : Result) (v : Nat) :
    (s.repliedFree op q r v).waiting = s.waiting := s.replied_waiting ..

theorem State.repliedFree_roomL {op : MgmtOp} {r : Result} {v n : Nat} (h : s.roomL (1 + n)) :
    (s.repliedFree op q r v).roomL n :=
  State.roomL_sentL (s := s) (l := [replyCell s.node op q r v]) h

theorem State.repliedFree_roomH {op : MgmtOp} {r : Result} {v n : Nat} (h : s.roomH n) :
    (s.repliedFree op q r v).roomH n := (State.roomH_sentL (s := s) [replyCell s.node op q r v] n).2 h

theorem State.repliedFree_roomF {op : MgmtOp} {r : Result} {v n : Nat} {k : Floor} (h : s.roomF k n) :
    (s.repliedFree op q r v).roomF k n := (State.roomF_sentL (s := s) k [replyCell s.node op q r v] n).2 h

/-- A reserve that is stored: the arbiter runs for its port behind the reply. -/
theorem exec_write_reserve (ht : s.takes q) (hl : s.locked = false)
    (hf : fieldRef q.item.toNat q.field.toNat q.index.toNat = some f) {d : Retained} {r : Result} {v : Nat}
    (hw : (Work.start s).writeField f q.value.toNat = ((Work.start (s.storing d)).run p, r))
    (hv : (s.storing d).readField f = some v) (hline : s.InLine (s.entriesFor p))
    (hL : s.roomL (1 + (s.entriesFor p).length)) (hgrant : s.roomToGrant p (s.entriesFor p).length) :
    exec (.write q) s = .next (((s.storing d).repliedFree .write q r v).arbitrated p) := by
  have hL' : (s.storing d).roomL (1 + (s.entriesFor p).length) := hL
  have hm := ((Work.Makes.start True (s.storing d)).run p).replyFree .write q r v fun _ => hL'.mono (by omega)
  have hent : ((s.storing d).repliedFree .write q r v).entriesFor p = s.entriesFor p := by
    rw [State.entriesFor, State.repliedFree_waiting]
    rfl
  rw [exec_write_field ht hl hf hw]
  dsimp only
  have hpresent : ((Work.start (s.storing d)).run p).st.presentValue f = v := by
    show (s.storing d).presentValue f = v
    rw [State.presentValue, hv, Option.getD_some]
  rw [hpresent]
  refine congrArg Host.Outcome.next (hm.runArbiter_one (fun x => ?_) ?_ fun _ => ?_).flush
  · have hr : (((Work.start (s.storing d)).run p).reply .write q r v).drawFree.runs = ((Work.start (s.storing d)).run p).runs := by
      simp
    rw [hr]
    exact Work.run_contains rfl p x
  · rw [hent]
    exact hline.congr fun x _ => State.call?_replied (s.storing d) .write q r v x.handle
  · rw [hent]
    exact ⟨State.repliedFree_roomL hL', fun h => State.repliedFree_roomH (hgrant.2.1 h),
      fun k h => State.repliedFree_roomF (hgrant.2.2 k h)⟩

/-! ## The ageing period -/

/-- What is left of an entry's ageing step after a write of the ageing period (R50, R69). -/
def State.rewrittenStep (u : State) (before after : Nat) (x : WaitEntry) : Option Nat :=
  if after = 0 then none
  else if before = 0 then u.ageingStart (u.entryPriority x)
  else x.ageing

theorem Work.rewriteAgeing_start (u : State) (before after : Nat) : (Work.start u).rewriteAgeing before after =
    Work.start { u with waiting := u.waiting.map fun x => { x with ageing := u.rewrittenStep before after x } } := by
  unfold Work.rewriteAgeing State.rewrittenStep
  split
  · rfl
  · split
    · rfl
    · have hid : (u.waiting.map fun x => { x with ageing := x.ageing }) = u.waiting := List.map_id _
      rw [hid]

theorem exec_write_ageing (ht : s.takes q) (hl : s.locked = false) (hroom : s.roomL 1)
    (hf : fieldRef q.item.toNat q.field.toNat q.index.toNat = some (.timer .ageing)) {a : Nat}
    (ha : a = min q.value.toNat 255) :
    exec (.write q) s = .next (({ s.storing { s.retained with timers := { s.retained.timers with ageing := a } } with
      waiting := s.waiting.map fun x => { x with ageing :=
        if a = 0 then none
        else if s.retained.timers.ageing = 0 then if s.entryPriority x < 6 then some (a * 10) else none
        else x.ageing } } : State).repliedFree .write q (if q.value.toNat = a then .done else .clamped) a) := by
  obtain ⟨u, hu⟩ : ∃ u : State, u = { s.storing { s.retained with timers := { s.retained.timers with ageing := a } } with
      waiting := s.waiting.map fun x => { x with ageing :=
        if a = 0 then none
        else if s.retained.timers.ageing = 0 then if s.entryPriority x < 6 then some (a * 10) else none
        else x.ageing } } := ⟨_, rfl⟩
  have hw : (Work.start s).writeField (.timer .ageing) q.value.toNat = (Work.start u, storedResult q.value.toNat a) := by
    have hclamp : clampTo TimerField.ageing.range.1 TimerField.ageing.range.2 q.value.toNat = a := by
      rw [ha]
      exact Nat.max_eq_right (Nat.zero_le _)
    rw [hu]
    show ((Work.start _).rewriteAgeing _ _, _) = _
    rw [hclamp, Work.rewriteAgeing_start]
    refine congrArg (fun l : List WaitEntry => (Work.start ({ s.storing { s.retained with
      timers := { s.retained.timers with ageing := a } } with waiting := l } : State), storedResult q.value.toNat a))
      (List.map_congr_left fun x _ => congrArg (fun o : Option Nat => ({ x with ageing := o } : WaitEntry)) ?_)
    rw [State.rewrittenStep]
    by_cases h0 : a = 0
    · rw [if_pos h0, if_pos h0]
    · rw [if_neg h0, if_neg h0]
      refine if_congr Iff.rfl ?_ rfl
      show (if a ≠ 0 ∧ s.entryPriority x < 6 then some (a * 10) else none) = _
      simp only [ne_eq, h0, not_false_eq_true, true_and]
  have hpresent : u.presentValue (.timer .ageing) = a := by
    rw [hu]
    rfl
  have hroom' : u.roomL 1 := by
    rw [hu]
    exact hroom
  rw [exec_write_field ht hl hf hw, ← hu]
  dsimp only
  rw [Work.start_st, hpresent]
  exact congrArg Host.Outcome.next (((Work.Makes.start True u).replyFree .write q _ a fun _ => hroom').finish (by simp))

/-! ## The sense mode -/

theorem SenseMode.ofCode_none {v : Nat} (h : 4 < v) : SenseMode.ofCode v = none := by
  obtain ⟨n, rfl⟩ := Nat.exists_eq_add_of_lt h
  rw [show 4 + n + 1 = n + 5 by omega]
  rfl

theorem SenseMode.code_ofCode {v : Nat} {m : SenseMode} (h : SenseMode.ofCode v = some m) : m.code = v := by
  unfold SenseMode.ofCode at h
  split at h <;> cases h <;> rfl

theorem State.purged_retained (u : State) (l : List WaitEntry) : (u.purged l).retained = u.retained := by
  induction l generalizing u with
  | nil => rfl
  | cons x l ih =>
    rw [State.purged_cons, ih, State.purgedOne]
    cases u.call? x.handle with
    | none => rfl
    | some r =>
      rw [Option.elim_some]
      split
      · exact State.ended_retained ..
      · rfl

theorem State.sourcesChanged_retained (u u' : State) : (u.sourcesChanged u').retained = u'.retained := by
  have htold : (u.localTold u').retained = u'.retained := State.bare_retained (u.bare_localTold u')
  unfold State.sourcesChanged
  split
  · exact (State.purged_retained ..).trans htold
  · exact htold

/-- A written sense mode: the sources change, and the reply stands behind the cells of a purge. -/
theorem exec_write_sense (ht : s.takes q) (hl : s.locked = false)
    (hf : fieldRef q.item.toNat q.field.toNat q.index.toNat = some .senseMode) {m : SenseMode}
    (hm : SenseMode.ofCode q.value.toNat = some m) {t : State}
    (htt : t = { s.storing { s.retained with sense := m } with latch := false })
    (hidle : s.enters t → t.waitersIdle) (hL : t.roomL 2) (hLp : s.enters t → t.roomL (t.waiting.length + 2))
    (hH : s.enters t → t.roomH t.waiting.length) (hF : s.enters t → ∀ k, t.roomF k t.waiting.length) :
    exec (.write q) s = .next ((s.sourcesChanged t).repliedFree .write q .done q.value.toNat) := by
  have hmod : ((Work.start s).modState fun s =>
      { s with retained := { s.retained with sense := m }, latch := false }).Makes True t := by
    rw [htt]
    exact Work.Makes.start True _
  obtain ⟨hc, hroom, hruns⟩ := (Work.Makes.start True s).changeSources hmod 1 hidle (fun _ _ _ => ⟨rfl, rfl⟩)
    (fun _ _ _ => hL.mono (by omega)) (fun _ => State.localTold_roomL hL)
    (fun _ h => State.localTold_roomL (hLp h)) (fun _ h => hH h) fun _ h => hF h
  have hw : (Work.start s).writeField .senseMode q.value.toNat = ((Work.start s).changeSources fun s =>
      { s with retained := { s.retained with sense := m }, latch := false }, .done) := by
    show (match SenseMode.ofCode q.value.toNat with
      | some m => ((Work.start s).changeSources fun s =>
          { s with retained := { s.retained with sense := m }, latch := false }, Result.done)
      | none => (Work.start s, Result.badValue)) = _
    rw [hm]
  have hpresent : ((Work.start s).changeSources fun s =>
      { s with retained := { s.retained with sense := m }, latch := false }).st.presentValue .senseMode = q.value.toNat := by
    show ((Work.start s).changeSources _).st.retained.sense.code = _
    rw [State.bare_retained hc.bare, State.sourcesChanged_retained, htt]
    exact SenseMode.code_ofCode hm
  rw [exec_write_field ht hl hf hw]
  dsimp only
  rw [hpresent]
  exact congrArg Host.Outcome.next ((hc.replyFree .write q .done _ hroom).finish (by simpa using hruns))

/-! ## The statement -/

/-- Settles O53. -/
theorem writeSettings : Obligations.WriteSettings := by
  intro s q f ht hl hroom hf v d answers grants stores
  refine ⟨?window, ?ring, ?laneWait, ?grantWait, ?progressWait, ?ageing, ?talk, ?fireClass, ?threshold, ?priority, ?fire,
    ?sense⟩
  case window => rintro rfl; exact exec_write_setting ht hl hroom hf rfl rfl
  case ring => rintro rfl; exact exec_write_setting ht hl hroom hf rfl rfl
  case laneWait => rintro rfl; exact exec_write_setting ht hl hroom hf rfl rfl
  case grantWait => rintro rfl; exact exec_write_setting ht hl hroom hf rfl rfl
  case progressWait => rintro rfl; exact exec_write_setting ht hl hroom hf rfl rfl
  case ageing =>
    rintro rfl
    exact exec_write_ageing ht hl hroom hf rfl
  case talk =>
    rintro c rfl
    refine exec_write_setting ht hl hroom hf rfl ?_
    exact congrArg some (Vector.getElem_set_self ..)
  case fireClass => rintro rfl; exact exec_write_setting ht hl hroom hf rfl rfl
  case threshold =>
    rintro p rfl
    refine exec_write_setting ht hl hroom hf rfl ?_
    exact congrArg (fun x : PortSettings => some (x.read .threshold)) (Vector.getElem_set_self ..)
  case priority =>
    rintro p rfl x hline hL hgrant
    refine exec_write_reserve ht hl hf rfl ?_ hline hL hgrant
    exact congrArg (fun x : PortSettings => some (x.read .priority)) (Vector.getElem_set_self ..)
  case fire =>
    rintro p rfl x y hline hL hgrant
    refine exec_write_reserve ht hl hf rfl ?_ hline hL hgrant
    exact congrArg (fun x : PortSettings => some (x.read .fire)) (Vector.getElem_set_self ..)
  case sense =>
    rintro rfl
    refine ⟨fun hv => ?_, fun m hm => ?_⟩
    · refine exec_write_refused ht hl hroom hf ?_
      show (match SenseMode.ofCode q.value.toNat with
        | some m => ((Work.start s).changeSources fun s =>
            { s with retained := { s.retained with sense := m }, latch := false }, Result.done)
        | none => (Work.start s, Result.badValue)) = _
      rw [SenseMode.ofCode_none hv]
    · intro t u entered
      refine ⟨fun hno hroom2 => ?_, fun he hi hL hH hF => ?_⟩
      · rw [exec_write_sense ht hl hf hm rfl (fun h => absurd h hno) hroom2 (fun h => absurd h hno)
          (fun h => absurd h hno) fun h => absurd h hno, State.sourcesChanged, if_neg hno]
        rfl
      · rw [exec_write_sense ht hl hf hm rfl (fun _ => hi) (State.roomL.mono (s := s) hL (by omega)) (fun _ => hL)
          (fun _ => hH) fun _ => hF, State.sourcesChanged, if_pos he]
        rfl

end

end Sys2Proof.Machine
end

