-- ==== Sys2Proof/Proofs/CellsAdded.lean ====
section
/-! PROOFS. What an operation over calls asks for on port L does not depend on what is already asked for there: it adds a number
of cells behind them, and sets no event bit but TX_OVERFLOW. -/

namespace Sys2Proof.Machine

/-- The event with these cells for port L. -/
def Work.withL (w : Work) (o : List RiserCell) : Work := { w with outL := o }

@[simp] theorem Work.withL_st (w : Work) (o : List RiserCell) : (w.withL o).st = w.st := rfl
@[simp] theorem Work.withL_raised (w : Work) (o : List RiserCell) : (w.withL o).raised = w.raised := rfl
@[simp] theorem Work.withL_runs (w : Work) (o : List RiserCell) : (w.withL o).runs = w.runs := rfl
@[simp] theorem Work.withL_outL (w : Work) (o : List RiserCell) : (w.withL o).outL = o := rfl
@[simp] theorem Work.withL_withL (w : Work) (o o' : List RiserCell) : (w.withL o).withL o' = w.withL o' := rfl
@[simp] theorem Work.withL_self (w : Work) : w.withL w.outL = w := rfl
@[simp] theorem Work.withL_call? (w : Work) (o : List RiserCell) (h : Handle) : (w.withL o).call? h = w.call? h := rfl

/-- An operation adds at most n cells for port L, whatever is there, and sets at most TX_OVERFLOW. -/
structure AddsL (n : Nat) (F : Work → Work) : Prop where
  cells  : ∀ w, ∃ post : List RiserCell, post.length ≤ n ∧ ∀ o, F (w.withL o) = (F w).withL (o ++ post)
  raised : ∀ w, (F w).raised = w.raised ∨ (F w).raised = w.raised.add .txOverflow

namespace AddsL

variable {n m : Nat} {F G : Work → Work} {h : Handle} {r : CallRecord} {c : Cause} {p : Owned}

theorem plain (hF : ∀ w o, F (w.withL o) = (F w).withL o) (hr : ∀ w, (F w).raised = w.raised) : AddsL 0 F :=
  ⟨fun w => ⟨[], Nat.le_refl 0, fun o => by rw [List.append_nil]; exact hF w o⟩, fun w => .inl (hr w)⟩

theorem same : AddsL 0 fun w => w := plain (fun _ _ => rfl) fun _ => rfl

theorem mono (hF : AddsL n F) (hm : n ≤ m) : AddsL m F :=
  ⟨fun w => (hF.cells w).imp fun _ hp => ⟨hp.1.trans hm, hp.2⟩, hF.raised⟩

theorem add_twice (x : EventSets) (e : Event) : (x.add e).add e = x.add e := by
  cases e <;> simp [EventSets.add, EventSets.set, EventSets.get, Event.group, Event.mask, BitVec.or_assoc]

theorem comp (hF : AddsL n F) (hG : AddsL m G) : AddsL (n + m) fun w => G (F w) where
  cells w := by
    obtain ⟨post, hl, hp⟩ := hF.cells w
    obtain ⟨post', hl', hp'⟩ := hG.cells (F w)
    refine ⟨post ++ post', by rw [List.length_append]; omega, fun o => ?_⟩
    rw [hp, hp', List.append_assoc]
  raised w := by
    rcases hF.raised w with hf | hf <;> rcases hG.raised (F w) with hg | hg <;> rw [hg, hf]
    · exact .inl rfl
    · exact .inr rfl
    · exact .inr rfl
    · exact .inr (add_twice _ _)

theorem withCall {k : Work → CallRecord → Work} (hk : ∀ r, AddsL n fun w => k w r) :
    AddsL n fun w => w.withCall h (k w) where
  cells w := by
    unfold Work.withCall
    simp only [Work.withL_call?]
    cases w.call? h with
    | none => exact ⟨[], Nat.zero_le n, fun o => by rw [List.append_nil]⟩
    | some r => exact (hk r).cells w
  raised w := by
    unfold Work.withCall
    cases w.call? h with
    | none => exact .inl rfl
    | some r => exact (hk r).raised w

/-- A test of the state, which the cells for port L are no part of. -/
theorem ite (q : State → Prop) [∀ s, Decidable (q s)] (hF : AddsL n F) (hG : AddsL n G) :
    AddsL n fun w => if q w.st then F w else G w where
  cells w := by
    by_cases hq : q w.st
    · simp only [Work.withL_st, hq, if_true]
      exact hF.cells w
    · simp only [Work.withL_st, hq, if_false]
      exact hG.cells w
  raised w := by
    by_cases hq : q w.st
    · simp only [hq, if_true]
      exact hF.raised w
    · simp only [hq, if_false]
      exact hG.raised w

/-! ## The named changes -/

theorem sendL (c : RiserCell) : AddsL 1 fun w => w.sendL c where
  cells w := by
    by_cases hu : w.st.riserUp .L = true
    · exact ⟨[c], Nat.le_refl 1, fun o => by simp [Work.sendL, Work.withL, hu]⟩
    · exact ⟨[], Nat.zero_le 1, fun o => by simp [Work.sendL, Work.withL, hu]⟩
  raised w := .inl (by simp only [Work.sendL]; split <;> rfl)

theorem raise_overflow : AddsL 0 fun w => w.raise .txOverflow :=
  ⟨fun w => ⟨[], Nat.le_refl 0, fun o => by rw [List.append_nil]; rfl⟩, fun _ => .inr rfl⟩

theorem sendH (c : RiserCell) : AddsL 0 fun w => w.sendH c :=
  ite (fun s => s.riserUp .H = true) (ite (fun s => s.portH.queue.length < Config.queueDepth)
    (plain (fun _ _ => rfl) fun _ => rfl) raise_overflow) same

theorem sendF (k : Floor) (c : FloorCell) : AddsL 0 fun w => w.sendF k c :=
  ite (fun s => s.floorUp k = true) (ite (fun s => s.floors[k].queue.length < Config.queueDepth)
    (plain (fun _ _ => rfl) fun _ => rfl) raise_overflow) same

theorem progressDown (r : CallRecord) (x : Progress) : AddsL 1 fun w => w.progressDown r x := by
  unfold Work.progressDown
  cases r.openKey .L with
  | none => exact same.mono (Nat.zero_le 1)
  | some key => exact sendL _

theorem progressUp (r : CallRecord) (x : Progress) (l : Option Nat) : AddsL 0 fun w => w.progressUp r x l := by
  unfold Work.progressUp
  cases r.openKey .H with
  | none => exact same
  | some key => exact sendH _

theorem connectToward_L (r : CallRecord) : AddsL 1 fun w => w.connectToward r .L := by
  unfold Work.connectToward
  cases r.openKey .L with
  | none => exact same.mono (Nat.zero_le 1)
  | some key => exact sendL _

theorem statusTo (h : Handle) (r : CallRecord) (x : Status) (v : Byte) (l : Option Nat) :
    AddsL 0 fun w => w.statusTo h r x v l := by
  unfold Work.statusTo
  cases r.far with
  | none => exact same
  | high side => exact same
  | floor f =>
    cases hf : f.answering with
    | none => simp only [hf]; exact same
    | some a => simp only [hf]; exact sendF _ _

theorem cancelOffers (h : Handle) (k : Floor) (l : List OfferEntry) : AddsL 0 fun w => w.cancelOffers h k l := by
  induction l with
  | nil => exact same
  | cons e l ih =>
    unfold Work.cancelOffers
    by_cases he : e.state = .answered
    · simp only [he, if_true]
      exact ih
    · simp only [he, if_false]
      exact (sendF _ _).comp ih

theorem freeCall : AddsL 0 fun w => w.freeCall h := by
  refine plain (fun w o => ?_) fun w => ?_
  · unfold Work.freeCall
    rw [Work.withL_call?]
    cases w.call? h <;> rfl
  · unfold Work.freeCall
    cases w.call? h <;> rfl

/-! ## The end of a call -/

theorem freeLane : AddsL 0 fun w => w.freeLane h := by
  refine withCall fun r => ?_
  cases r.ownedPort with
  | none => exact same
  | some p =>
    cases r.ownedLane with
    | none => exact same
    | some i => exact plain (fun _ _ => rfl) fun _ => rfl

theorem emptyMirror : AddsL 0 fun w => w.emptyMirror h := by
  refine withCall fun r => ?_
  cases r.lLane with
  | none => exact same
  | some l => exact plain (fun _ _ => rfl) fun _ => rfl

theorem releaseSides (r : CallRecord) (c : Cause) : AddsL 1 fun w => w.releaseSides r c := by
  unfold Work.releaseSides
  cases r.openKey .L with
  | none =>
    cases r.openKey .H with
    | none => exact same.mono (Nat.zero_le 1)
    | some key => exact (sendH _).mono (Nat.zero_le 1)
  | some key =>
    cases r.openKey .H with
    | none => exact sendL _
    | some key => exact (sendL _).comp (sendH _)

theorem idleActivity (i : SlotNo) : AddsL 0 fun w => w.idleActivity h i :=
  ite (fun s => s.activity[i].handle? = some h) (plain (fun _ _ => rfl) fun _ => rfl) same

theorem tellFloor (r : CallRecord) (c : Cause) : AddsL 0 fun w => w.tellFloor h r c := by
  unfold Work.tellFloor
  cases r.far with
  | none => exact same
  | high side => exact same
  | floor f =>
    dsimp only
    have hrest : AddsL 0 fun w => (w.statusTo h r .cleared c.toByte).idleActivity h f.slot :=
      (statusTo h r .cleared c.toByte none).comp (idleActivity f.slot)
    by_cases hs : r.state = .offering ∨ r.state = .ringing
    · simp only [hs, if_true]
      exact (cancelOffers h f.port f.entries).comp hrest
    · simp only [hs, if_false]
      exact hrest

theorem modCall {f : State → CallRecord → CallRecord} : AddsL 0 fun w => w.modCall h (f w.st) :=
  plain (fun _ _ => rfl) fun _ => rfl

theorem clearOrFree : AddsL 0 fun w => w.clearOrFree h := by
  have h1 : AddsL 0 fun w => w.withCall h fun r => if r.anyOpen then w else w.freeCall h := withCall fun r => by
    by_cases hr : r.anyOpen = true
    · simp only [hr, if_true]; exact same
    · simp only [hr]; exact freeCall
  exact (modCall (h := h) (f := fun _ r => { r.modFloor FloorSide.stopWindows with
    state := .clearing, timer := startTimer .guard Config.guardTime, lLane := none, ownedLane := none })).comp h1

/-- The end of a call asks for one cell on port L at most. -/
theorem release (c : Cause) : AddsL 1 fun w => w.release h c := by
  refine withCall fun r => ?_
  have h1 : AddsL 0 fun w => (w.modCall h fun r => { r with pendingCause := some c }).leaveWaiting h :=
    plain (fun _ _ => rfl) fun _ => rfl
  exact ((((h1.comp freeLane).comp emptyMirror).comp (releaseSides r c)).comp (tellFloor r c)).comp clearOrFree

/-- The purge asks for one cell for each entry at most. -/
theorem purge (l : List WaitEntry) : AddsL l.length fun w => w.purge l := by
  induction l with
  | nil => exact same
  | cons x l ih =>
    have h1 : AddsL 1 fun w => w.withCall x.handle fun r =>
        if r.cls < w.st.retained.fireClass then w.release x.handle .fireMode else w :=
      withCall fun r => ite (fun s => r.cls < s.retained.fireClass) (release .fireMode) (same.mono (Nat.zero_le 1))
    simp only [Work.purge_cons]
    exact (h1.comp ih).mono (by rw [List.length_cons]; omega)

/-! ## The grants -/

theorem startOffers : AddsL 0 fun w => w.startOffers h := by
  refine withCall fun r => ?_
  cases r.far with
  | none => exact same
  | high side => exact same
  | floor f => exact (plain (F := fun w => (w.modCall h fun r => { r with
      state := .offering, timer := none, far := .floor { f with entries := w.st.firstEntries f } }).setActivity f.slot
      (.offered h)) (fun _ _ => rfl) fun _ => rfl).comp (sendF _ _)

theorem crossConnect : AddsL 0 fun w => w.crossConnect h := by
  refine withCall fun r => ?_
  cases r.lLane with
  | none => exact same
  | some l =>
    cases r.ownedPort with
    | none => exact same
    | some p =>
      cases r.ownedLane with
      | none => exact same
      | some i => exact plain (fun _ _ => rfl) fun _ => rfl

theorem connectFlat (a : Addr) : AddsL 1 fun w => w.connectFlat h a := by
  refine withCall fun r => ?_
  cases r.far with
  | none => exact same.mono (Nat.zero_le 1)
  | high side => exact same.mono (Nat.zero_le 1)
  | floor f =>
    have h1 : AddsL 0 fun w => w.modCall h fun r => { r with
        far := .floor (f.answeredBy a), state := .connected, talkOwner := true, timer := w.st.talkTimer r.cls } :=
      plain (fun _ _ => rfl) fun _ => rfl
    have h2 : AddsL 0 fun w => w.setActivity f.slot (.engaged h) := plain (fun _ _ => rfl) fun _ => rfl
    exact ((((h1.comp (sendF f.port (statusCell h.val a .connected 0 r.ownedLane))).comp
      (cancelOffers h f.port (f.answeredBy a).entries)).comp crossConnect).comp (connectToward_L r)).comp h2

theorem forwardSetup : AddsL 0 fun w => w.forwardSetup h := by
  refine withCall fun r => ⟨fun w => ?_, fun w => ?_⟩
  · exact ((plain (F := fun w => w.modCall h fun r => { r with
      far := .high (.opened (ownKey .H h)), state := .forwarded, timer := startTimer .progressWait w.st.progressTime })
      (fun _ _ => rfl) fun _ => rfl).comp (sendH (setupCell w.st r (ownKey .H h) r.ownedLane))).cells w
  · exact ((plain (F := fun w => w.modCall h fun r => { r with
      far := .high (.opened (ownKey .H h)), state := .forwarded, timer := startTimer .progressWait w.st.progressTime })
      (fun _ _ => rfl) fun _ => rfl).comp (sendH (setupCell w.st r (ownKey .H h) r.ownedLane))).raised w

theorem setupDown : AddsL 1 fun w => w.setupDown h := by
  refine withCall fun r => ⟨fun w => ?_, fun w => ?_⟩
  · exact ((plain (F := fun w => w.modCall h fun r => { r with
      low := .opened (ownKey .L h), state := .awaitingGrant, timer := startTimer .grantWait w.st.grantTime })
      (fun _ _ => rfl) fun _ => rfl).comp (sendL (setupCell w.st r (ownKey .L h) none))).cells w
  · exact ((plain (F := fun w => w.modCall h fun r => { r with
      low := .opened (ownKey .L h), state := .awaitingGrant, timer := startTimer .grantWait w.st.grantTime })
      (fun _ _ => rfl) fun _ => rfl).comp (sendL (setupCell w.st r (ownKey .L h) none))).raised w

theorem grantUpper : AddsL 1 fun w => w.grantUpper h := by
  refine withCall fun r => ?_
  cases r.openKey .H with
  | none => exact setupDown
  | some key => exact ((sendH _).comp setupDown).mono (Nat.le_refl 1)

theorem goOn (r : CallRecord) : AddsL 1 fun w => w.goOn h r := by
  have hoffers : AddsL 1 fun w => w.startOffers h := startOffers.mono (Nat.zero_le 1)
  have hforward : AddsL 1 fun w => w.forwardSetup h := forwardSetup.mono (Nat.zero_le 1)
  unfold Work.goOn
  cases r.dir with
  | up =>
    cases r.far with
    | none => exact hforward
    | high side => exact hforward
    | floor f =>
      cases hp : f.preAnswered with
      | false => simp only [hp, Bool.false_eq_true, if_false]; exact hoffers
      | true =>
        simp only [hp, if_true]
        cases f.answering with
        | none => exact hoffers
        | some a => exact connectFlat a
  | down =>
    cases r.far with
    | none => exact setupDown
    | high side => exact grantUpper
    | floor f => exact setupDown

theorem resume (r : CallRecord) (p : Owned) (i : Nat) : AddsL 1 fun w => w.resume h r p i := by
  have h1 : AddsL 0 fun w => w.modCall h fun r => { r with
      state := .connected, timer := if r.talkOwner then w.st.talkTimer r.cls else none } := plain (fun _ _ => rfl) fun _ => rfl
  have h2 : AddsL 0 fun w => match p with
      | .H => w.progressUp r .resumed (some i)
      | .F _ => w.statusTo h r .resumed 0 (some i) := by
    cases p with
    | H => exact progressUp _ _ _
    | F k => exact statusTo _ _ _ _ _
  unfold Work.resume
  cases r.heldBelow with
  | false =>
    simp only [Bool.false_eq_true, if_false]
    exact ((h1.comp crossConnect).comp h2).comp (progressDown r .resumed)
  | true =>
    simp only [if_true]
    exact (h1.comp h2).mono (Nat.zero_le 1)

/-- A grant asks for one cell on port L at most. -/
theorem grant (p : Owned) (i : Nat) : AddsL 1 fun w => w.grant h p i := by
  refine withCall fun r => ?_
  have h1 : AddsL 0 fun w => (w.takeLane h p i).leaveWaiting h := plain (fun _ _ => rfl) fun _ => rfl
  by_cases hst : r.state = .parked
  · simp only [hst, if_true]
    exact (h1.comp (resume r p i)).mono (Nat.le_refl 1)
  · simp only [hst, if_false]
    exact (h1.comp (goOn r)).mono (Nat.le_refl 1)

/-- A walk asks for one cell for each entry at most. -/
theorem walk (p : Owned) (l : List WaitEntry) : AddsL l.length fun w => w.walk p l := by
  induction l with
  | nil => exact same
  | cons x l ih =>
    by_cases hx : x.port = p
    · refine ⟨fun w => ?_, fun w => ?_⟩
      · simp only [Work.walk, hx, if_true, Work.withL_st]
        cases w.st.admitLane p (w.st.entryPriority x) with
        | none => exact ⟨[], Nat.zero_le _, fun o => by rw [List.append_nil]⟩
        | some i => exact (((grant p i).comp ih).mono (by rw [List.length_cons]; omega)).cells w
      · simp only [Work.walk, hx, if_true]
        cases w.st.admitLane p (w.st.entryPriority x) with
        | none => exact .inl rfl
        | some i => exact ((grant p i).comp ih).raised w
    · simp only [Work.walk, hx, if_false]
      exact ih.mono (by rw [List.length_cons]; omega)

end AddsL

end Sys2Proof.Machine
end

