-- ==== Sys2Proof/Proofs/CellsAgainstEntries.lean ====
section
/-! PROOFS. UPDATE against WRITE (O54): both do the same but for the reply, which stands in the same place. -/

namespace Sys2Proof.Machine

section
variable (w : Work) (h : Handle) (r : CallRecord)

/-! ## What the grants do to the wait list -/

@[simp] theorem Work.progressDown_waiting (x : Progress) : (w.progressDown r x).st.waiting = w.st.waiting := by
  unfold Work.progressDown; split <;> simp
@[simp] theorem Work.progressUp_waiting (x : Progress) (l : Option Nat) :
    (w.progressUp r x l).st.waiting = w.st.waiting := by
  unfold Work.progressUp; split <;> simp
@[simp] theorem Work.connectToward_L_waiting : (w.connectToward r .L).st.waiting = w.st.waiting := by
  unfold Work.connectToward
  split
  · exact Work.sendL_waiting ..
  · rfl
@[simp] theorem Work.crossConnect_waiting : (w.crossConnect h).st.waiting = w.st.waiting :=
  withCall_waiting rfl fun r _ => by split <;> simp
@[simp] theorem Work.startOffers_waiting : (w.startOffers h).st.waiting = w.st.waiting :=
  withCall_waiting rfl fun r _ => by split <;> simp
@[simp] theorem Work.connectFlat_waiting (a : Addr) : (w.connectFlat h a).st.waiting = w.st.waiting :=
  withCall_waiting rfl fun r _ => by split <;> simp
@[simp] theorem Work.forwardSetup_waiting : (w.forwardSetup h).st.waiting = w.st.waiting :=
  withCall_waiting rfl fun r _ => by simp
@[simp] theorem Work.setupDown_waiting : (w.setupDown h).st.waiting = w.st.waiting :=
  withCall_waiting rfl fun r _ => by simp
@[simp] theorem Work.grantUpper_waiting : (w.grantUpper h).st.waiting = w.st.waiting :=
  withCall_waiting rfl fun r _ => by split <;> simp
@[simp] theorem Work.goOn_waiting : (w.goOn h r).st.waiting = w.st.waiting := by
  unfold Work.goOn
  split
  · split
    · split <;> simp
    · simp
  · simp
  · simp
  · simp
@[simp] theorem Work.resume_waiting (p : Owned) (i : Nat) : (w.resume h r p i).st.waiting = w.st.waiting := by
  unfold Work.resume
  cases r.heldBelow <;> cases p <;> simp

theorem Work.grant_waiting {w : Work} {h : Handle} {r : CallRecord} (hr : w.call? h = some r) (p : Owned) (i : Nat) :
    (w.grant h p i).st.waiting = w.st.waiting.filter fun x => !(x.handle == h) := by
  rw [Work.grant, Work.withCall_live hr]
  dsimp only
  split
  · rw [Work.resume_waiting, Work.leaveWaiting_waiting]
    rfl
  · rw [Work.goOn_waiting, Work.leaveWaiting_waiting]
    rfl

end

/-! ## Cells against entries -/

/-- An operation over a list of entries takes the entries of some handles out of the wait list, and asks for at most one cell on
port L for each entry of the list that has such a handle. -/
structure SpendsOn (l : List WaitEntry) (F : Work → Work) : Prop where
  cells  : ∀ w, ∃ (gone : Handle → Bool) (post : List RiserCell), post.length ≤ l.countP (fun x => gone x.handle) ∧
    (F w).st.waiting = w.st.waiting.filter (fun x => !gone x.handle) ∧ ∀ o, F (w.withL o) = (F w).withL (o ++ post)
  raised : ∀ w, (F w).raised = w.raised ∨ (F w).raised = w.raised.add .txOverflow

/-- An operation asks for at most one cell on port L for each entry that it takes out of the wait list. -/
structure Spends (F : Work → Work) : Prop where
  cells  : ∀ w, ∃ post : List RiserCell, post.length + (F w).st.waiting.length ≤ w.st.waiting.length ∧
    ∀ o, F (w.withL o) = (F w).withL (o ++ post)
  raised : ∀ w, (F w).raised = w.raised ∨ (F w).raised = w.raised.add .txOverflow

theorem filter_countP_length (l : List WaitEntry) (g : WaitEntry → Bool) :
    l.countP g + (l.filter fun x => !g x).length = l.length := by
  rw [← List.countP_eq_length_filter, List.length_eq_countP_add_countP g]
  congr 2
  funext x
  cases g x <;> rfl

theorem SpendsOn.nil : SpendsOn [] fun w => w :=
  ⟨fun w => ⟨fun _ => false, [], Nat.le_refl 0, by simp, fun o => by rw [List.append_nil]⟩, fun _ => .inl rfl⟩

/-- An operation on the first entry, which takes it out where it asks for a cell, and then on the rest. -/
theorem SpendsOn.cons {x : WaitEntry} {l : List WaitEntry} {F G : Work → Work} {w : Work} {gone : Bool}
    {post : List RiserCell} (hlen : post.length ≤ gone.toNat)
    (hwait : (F w).st.waiting = w.st.waiting.filter fun y => !(gone && y.handle == x.handle))
    (hcells : ∀ o, F (w.withL o) = (F w).withL (o ++ post)) (hG : SpendsOn l G) :
    ∃ (gone : Handle → Bool) (post : List RiserCell), post.length ≤ (x :: l).countP (fun y => gone y.handle) ∧
      (G (F w)).st.waiting = w.st.waiting.filter (fun y => !gone y.handle) ∧
      ∀ o, G (F (w.withL o)) = (G (F w)).withL (o ++ post) := by
  obtain ⟨gone', post', hl', hw', hc'⟩ := hG.cells (F w)
  refine ⟨fun v => gone && v == x.handle || gone' v, post ++ post', ?_, ?_, fun o => ?_⟩
  · have hmono : l.countP (fun y => gone' y.handle) ≤ l.countP fun y => gone && y.handle == x.handle || gone' y.handle :=
      List.countP_mono_left fun y _ hy => by simp [hy]
    rw [List.length_append, List.countP_cons]
    cases gone with
    | false =>
      simp only [Bool.toNat_false, Bool.false_and, Bool.false_or] at hlen ⊢
      omega
    | true =>
      simp only [Bool.toNat_true, Bool.true_and, beq_self_eq_true, Bool.true_or, if_true] at hlen hmono ⊢
      omega
  · rw [hw', hwait, List.filter_filter]
    refine List.filter_congr fun y _ => ?_
    rw [Bool.not_or, Bool.and_comm]
  · rw [hcells, hc', List.append_assoc]

theorem SpendsOn.spends {F : List WaitEntry → Work → Work} (h : ∀ l, SpendsOn l (F l)) :
    Spends fun w => F w.st.waiting w where
  cells w := by
    obtain ⟨gone, post, hl, hw, hc⟩ := (h w.st.waiting).cells w
    refine ⟨post, ?_, hc⟩
    rw [hw, ← filter_countP_length w.st.waiting fun x => gone x.handle]
    omega
  raised w := (h w.st.waiting).raised w

theorem Spends.same : Spends fun w => w :=
  ⟨fun w => ⟨[], by simp, fun o => by rw [List.append_nil]⟩, fun _ => .inl rfl⟩

theorem Spends.comp {F G : Work → Work} (hF : Spends F) (hG : Spends G) : Spends fun w => G (F w) where
  cells w := by
    obtain ⟨post, hl, hc⟩ := hF.cells w
    obtain ⟨post', hl', hc'⟩ := hG.cells (F w)
    exact ⟨post ++ post', by rw [List.length_append]; omega, fun o => by rw [hc, hc', List.append_assoc]⟩
  raised w := by
    rcases hF.raised w with hf | hf <;> rcases hG.raised (F w) with hg | hg <;> rw [hg, hf]
    · exact .inl rfl
    · exact .inr rfl
    · exact .inr rfl
    · exact .inr (AddsL.add_twice _ _)

theorem SpendsOn.purge (l : List WaitEntry) : SpendsOn l fun w => w.purge l := by
  refine ⟨fun w => ?_, (AddsL.purge l).raised⟩
  induction l generalizing w with
  | nil => exact SpendsOn.nil.cells w
  | cons x l ih =>
    have hG : SpendsOn l fun w => w.purge l := ⟨ih, (AddsL.purge l).raised⟩
    simp only [Work.purge_cons, Work.withCall, Work.withL_call?, Work.withL_st]
    cases hr : w.call? x.handle with
    | none =>
      exact SpendsOn.cons (F := fun w => w) (gone := false) (post := []) (Nat.le_refl 0) (by simp)
        (fun o => by rw [List.append_nil]) hG
    | some r =>
      dsimp only
      by_cases hc : r.cls < w.st.retained.fireClass
      · simp only [hc, if_true]
        obtain ⟨post, hl, hp⟩ := (AddsL.release (h := x.handle) .fireMode).cells w
        exact SpendsOn.cons (F := fun w => w.release x.handle .fireMode) (gone := true) hl
          (by rw [Work.release_waiting .fireMode hr]; rfl) hp hG
      · simp only [hc, if_false]
        exact SpendsOn.cons (F := fun w => w) (gone := false) (post := []) (Nat.le_refl 0) (by simp)
          (fun o => by rw [List.append_nil]) hG

theorem SpendsOn.walk (p : Owned) (l : List WaitEntry) : SpendsOn l fun w => w.walk p l := by
  refine ⟨fun w => ?_, (AddsL.walk p l).raised⟩
  induction l generalizing w with
  | nil => exact SpendsOn.nil.cells w
  | cons x l ih =>
    have hG : SpendsOn l fun w => w.walk p l := ⟨ih, (AddsL.walk p l).raised⟩
    have hskip := fun w => SpendsOn.cons (x := x) (w := w) (F := fun w => w) (gone := false) (post := []) (Nat.le_refl 0)
      (by simp) (fun o => by rw [List.append_nil]) hG
    by_cases hx : x.port = p
    · simp only [Work.walk, hx, if_true, Work.withL_st]
      cases w.st.admitLane p (w.st.entryPriority x) with
      | none => exact ⟨fun _ => false, [], Nat.zero_le _, by simp, fun o => by rw [List.append_nil]⟩
      | some i =>
        dsimp only
        cases hr : w.call? x.handle with
        | none =>
          have hno : ∀ o, (w.withL o).grant x.handle p i = w.withL o := fun o => by
            rw [Work.grant, Work.withCall, Work.withL_call?, hr]
          have hno' : w.grant x.handle p i = w := by rw [Work.grant, Work.withCall, hr]
          simp only [hno, hno']
          exact hskip w
        | some r =>
          obtain ⟨post, hl, hp⟩ := (AddsL.grant (h := x.handle) p i).cells w
          exact SpendsOn.cons (F := fun w => w.grant x.handle p i) (gone := true) hl
            (by rw [Work.grant_waiting hr]; rfl) hp hG
    · simp only [Work.walk, hx, if_false]
      exact hskip w

theorem Spends.runFor (p : Owned) : Spends fun w => w.runFor p := by
  have h := SpendsOn.spends (F := fun l w => w.walk p l) (SpendsOn.walk p)
  refine ⟨fun w => ?_, fun w => ?_⟩
  · unfold Work.runFor
    simp only [Work.withL_runs, Work.withL_st]
    by_cases hp : w.runs.contains p = true
    · simp only [hp, if_true]
      exact h.cells w
    · simp only [hp]
      exact Spends.same.cells w
  · unfold Work.runFor
    split
    · exact h.raised w
    · exact .inl rfl

/-- The arbiter's runs ask for at most one cell on port L for each entry that they take out of the list. -/
theorem Spends.runArbiter : Spends Work.runArbiter := by
  unfold Work.runArbiter
  generalize allOwned = l
  induction l with
  | nil => exact Spends.same
  | cons p l ih => exact (Spends.runFor p).comp ih

end Sys2Proof.Machine
end

