-- ==== Sys2Proof/Proofs/UpdateCompares.lean ====
section
/-! PROOFS. UPDATE against WRITE (O54): both do the same but for the reply, which stands in the same place. -/

namespace Sys2Proof.Machine

section
variable {s u : State} {q : Request} {f : FieldRef} {v : Nat} {w : Work}

/-! ## What a write leaves in its event -/

/-- What a write of a field leaves in its event, before the reply. -/
structure Work.Written (w : Work) (s : State) : Prop where
  portL  : w.st.portL = s.portL
  node   : w.st.node = s.node
  raised : w.raised.get .call = 0
  cells  : w.outL.length + w.st.waiting.length ≤ s.waiting.length

theorem Work.Written.start (hL : u.portL = s.portL) (hn : u.node = s.node) (hw : u.waiting.length = s.waiting.length) :
    (Work.start u).Written s :=
  ⟨hL, hn, rfl, (Nat.zero_add _).le.trans hw.le⟩

theorem Work.Written.run (h : w.Written s) (p : Owned) : (w.run p).Written s := ⟨h.portL, h.node, h.raised, h.cells⟩

theorem Work.Written.raise (h : w.Written s) {e : Event} (he : e.group ≠ .call) : (w.raise e).Written s := by
  refine ⟨h.portL, h.node, ?_, h.cells⟩
  rw [Work.raise_raised, EventSets.get_add, if_neg he.symm]
  exact h.raised

/-- At most TX_OVERFLOW beside what was raised, so nothing in the call group. -/
theorem EventSets.noCall {x y : EventSets} (h : y = x ∨ y = x.add .txOverflow) (hx : x.get .call = 0) : y.get .call = 0 := by
  rcases h with rfl | rfl
  · exact hx
  · rw [EventSets.get_add]
    exact hx

theorem Work.Written.purge (h : w.Written s) (ho : w.outL = []) : (w.purge w.st.waiting).Written s := by
  have hm : Moves w (w.purge w.st.waiting) := Moves.rfl'.purge _
  have hS := SpendsOn.spends (F := fun l w => w.purge l) SpendsOn.purge
  obtain ⟨post, hl, hp⟩ := hS.cells w
  have he : (w.purge w.st.waiting).outL = post := by
    have := congrArg Work.outL (hp w.outL)
    rw [Work.withL_self, Work.withL_outL, ho, List.nil_append] at this
    exact this
  refine ⟨hm.portL.trans h.portL, (congrArg State.node hm.frame :).trans h.node,
    EventSets.noCall (hS.raised w) h.raised, ?_⟩
  rw [he]
  have := h.cells
  rw [ho] at this
  exact hl.trans (by simpa using this)

theorem Work.Written.changeSources {g : State → State} (hL : (g s).portL = s.portL) (hn : (g s).node = s.node)
    (hw : (g s).waiting = s.waiting) : ((Work.start s).changeSources g).Written s := by
  have h1 : ((Work.start s).modState g).Written s := Work.Written.start (u := g s) hL hn (congrArg List.length hw)
  have h2 : ∀ b : Bool, (if b then ((Work.start s).modState g).raise .fireLocal else (Work.start s).modState g).Written s := by
    rintro (_ | _)
    · exact h1
    · exact h1.raise (by decide)
  have h3 : ∀ b : Bool, (if b then ((Work.start s).modState g).raise .fireLocal else (Work.start s).modState g).outL = [] := by
    rintro (_ | _) <;> rfl
  have h4 : ∀ (w : Work) (b : Bool), w.Written s → w.outL = [] → (if b then w.purge w.st.waiting else w).Written s := by
    rintro w (_ | _) hw ho
    · exact hw
    · exact hw.purge ho
  exact h4 _ _ (h2 _) (h3 _)

/-- A write of any field. -/
theorem writeField_written (s : State) (f : FieldRef) (v : Nat) : ((Work.start s).writeField f v).1.Written s := by
  have hstart : ∀ d, (Work.start (s.storing d)).Written s := fun d => Work.Written.start rfl rfl rfl
  have hsame : (Work.start s).Written s := Work.Written.start rfl rfl rfl
  cases f with
  | window x g => exact hstart _
  | slot i g => exact hstart _
  | ceiling n => exact hstart _
  | talkLimit c => exact hstart _
  | fireClass => exact hstart _
  | setting p g =>
    simp only [Work.writeField]
    split
    · exact hstart _
    · exact (hstart _).run p
  | timer g =>
    simp only [Work.writeField]
    split
    · exact (Work.rewriteAgeing_start ..).symm ▸ Work.Written.start rfl rfl (List.length_map ..)
    · exact hstart _
  | senseMode =>
    simp only [Work.writeField]
    split
    · exact Work.Written.changeSources rfl rfl rfl
    · exact hsame
  | activity i => exact hsame
  | laneCount p => exact hsame
  | guardTime => exact hsame
  | fire g => exact hsame
  | service => exact hsame
  | tableLock => exact hsame
  | status g => exact hsame
  | mask g => exact hsame
  | call h g => exact hsame
  | mirror l => exact hsame
  | lane p i => exact hsame
  | order p i => exact hsame
  | freeCount p => exact hsame
  | wait x g => exact hsame
  | interface p g => exact hsame

/-! ## The end of the event with either reply -/

/-- Notices of at most two groups. -/
theorem State.notices_noCall {raised final : EventSets} (h : raised.get .call = 0) : (s.notices raised final).length ≤ 2 := by
  rw [State.notices, List.length_map]
  have hcall : ∀ a b : Word, raised.get .call &&& a &&& b = 0 := fun a b => by
    rw [h]
    simp
  have hle : ∀ g : Group → Bool, g .call = false → (allGroups.filter g).length ≤ 2 := fun g hg => by
    unfold allGroups
    rw [List.filter_cons, List.filter_cons, hg]
    have := List.length_filter_le g [Group.line]
    rw [List.length_singleton] at this
    split <;> simp <;> omega
  refine hle _ ?_
  rw [hcall]
  decide

/-- The end of an event whose cells for port L are a reply among others: the same with any reply but for port L's queue, and
with room, for the reply in it. -/
theorem Work.Written.ends (hw : w.Written s) (hu : s.riserUp .L = true) : ∃ (u : State) (pre post : List RiserCell),
    (∀ c, { ((w.sendL c).drawFree).finish with portL := s.portL } = { u with portL := s.portL }) ∧
    (s.roomL (s.waiting.length + 3) → ∀ c, ((w.sendL c).drawFree).finish = { u with portL := { s.portL with
      queue := s.portL.queue ++ pre ++ [c] ++ post } }) := by
  have hup : w.st.riserUp .L = true := by
    rw [State.riserUp, hw.portL]
    exact hu
  have hsend : ∀ c, (w.sendL c).drawFree = w.drawFree.withL (w.outL ++ [c]) := fun c => by
    rw [Work.sendL, if_pos hup]
    rfl
  obtain ⟨post, hl, hp⟩ := Spends.runArbiter.cells w.drawFree
  obtain ⟨w', hw'⟩ : ∃ w', w' = w.drawFree.runArbiter := ⟨_, rfl⟩
  rw [← hw'] at hl hp
  have hm : Moves w.drawFree w' := hw' ▸ Moves.rfl'.runArbiter
  have hport : w'.st.portL = s.portL := hm.portL.trans hw.portL
  have hup' : w'.st.riserUp .L = true := by
    rw [State.riserUp, hport]
    exact hu
  have hraised : w'.raised.get .call = 0 := hw' ▸ EventSets.noCall (Spends.runArbiter.raised w.drawFree) hw.raised
  have hfin : ∀ c, ((w.sendL c).drawFree).finish = (w'.withL (w.outL ++ [c] ++ post)).flush := fun c => by
    rw [Work.finish, hsend, hp]
  have hlen : ∀ c, (w.outL ++ [c] ++ post).length = w.outL.length + 1 + post.length := fun c => by
    rw [List.length_append, List.length_append, List.length_singleton]
  have hend : ∀ c, w'.st.raisedAtEnd w'.raised (w.outL ++ [c] ++ post) =
      w'.st.raisedAtEnd w'.raised (w.outL ++ [fireOnCell] ++ post) := fun c => by
    rw [State.raisedAtEnd, State.raisedAtEnd, hlen, hlen]
  have hflush : ∀ c, (w'.withL (w.outL ++ [c] ++ post)).flush =
      { w'.st with
        status := w'.st.status.union (w'.st.raisedAtEnd w'.raised (w.outL ++ [fireOnCell] ++ post))
        portL := w'.st.placeL (w'.st.notices w'.raised
          (w'.st.raisedAtEnd w'.raised (w.outL ++ [fireOnCell] ++ post)) ++ (w.outL ++ [c] ++ post)) } := fun c => by
    rw [Work.flush, if_pos (by rw [Work.withL_st]; exact hup'), ← hend c]
    rfl
  refine ⟨{ w'.st with
      status := w'.st.status.union (w'.st.raisedAtEnd w'.raised (w.outL ++ [fireOnCell] ++ post)) },
    w'.st.notices w'.raised (w'.st.raisedAtEnd w'.raised (w.outL ++ [fireOnCell] ++ post)) ++ w.outL, post,
    fun c => ?_, fun hroom c => ?_⟩
  · rw [hfin, hflush]
  · rw [hfin, hflush]
    refine congrArg (fun x : RiserPort => ({ w'.st with
      status := w'.st.status.union (w'.st.raisedAtEnd w'.raised (w.outL ++ [fireOnCell] ++ post)), portL := x } : State)) ?_
    have hcells := hw.cells
    have hwd : w.drawFree.st.waiting = w.st.waiting := rfl
    rw [hwd] at hl
    have hq := (hroom hu).resolve_left (by omega)
    have hn := State.notices_noCall (s := w'.st) (final := w'.st.raisedAtEnd w'.raised (w.outL ++ [fireOnCell] ++ post)) hraised
    rw [State.placeL, hport, List.take_of_length_le]
    · simp only [List.append_assoc]
    · rw [List.length_append, hlen]
      have : Config.queueDepth = 16 := rfl
      omega

/-! ## UPDATE -/

theorem State.takes_up (ht : s.takes q) : s.riserUp .L = true := by
  obtain ⟨-, hu, -⟩ := ht
  simp only [State.receives, Bool.and_eq_true] at hu
  exact hu.1

theorem exec_update_equal (ht : s.takes q) (hl : s.locked = false)
    (hf : fieldRef q.item.toNat q.field.toNat q.index.toNat = some f) (hv : s.readField f = some v)
    (hcond : (!f.readOnly && decide (v ≠ q.expected.toNat)) = false) :
    exec (.update q) s = .next ((((Work.start s).writeField f q.value.toNat).1.reply .update q
      ((Work.start s).writeField f q.value.toNat).2 v).drawFree).finish := by
  have hp : (Work.start s).st.presentValue f = v := by
    rw [Work.start_st, State.presentValue, hv, Option.getD_some]
  rw [exec_update, execUpdate, onRequest_takes ht, Work.updateOp_field hf, Work.ifUnlocked_unlocked hl, hp,
    if_neg (by rw [hcond]; decide)]

theorem exec_update_differs (ht : s.takes q) (hl : s.locked = false) (hroom : s.roomL 1)
    (hf : fieldRef q.item.toNat q.field.toNat q.index.toNat = some f) (hv : s.readField f = some v)
    (hro : f.readOnly = false) (hne : v ≠ q.expected.toNat) :
    exec (.update q) s = .next (s.replied .update q .compareFailed v) := by
  have hp : (Work.start s).st.presentValue f = v := by
    rw [Work.start_st, State.presentValue, hv, Option.getD_some]
  refine (exec_update q s).trans (onRequest_reply ht hroom ?_)
  rw [Work.updateOp_field hf, Work.ifUnlocked_unlocked hl, hp, if_pos (by simp [hro, hne])]

/-- Settles O54. -/
theorem updateCompares : Obligations.UpdateCompares := by
  refine ⟨fun s q ht hroom hf => ⟨?_, ?_⟩, fun s q f v ht hl hroom hf hv => ⟨fun hro hne => ?differs, fun hro heq => ?equal,
    fun hro => ?readOnly⟩⟩
  · exact (exec_write q s).trans (onRequest_reply ht hroom (by rw [Work.writeOp, hf]))
  · exact (exec_update q s).trans (onRequest_reply ht hroom (by rw [Work.updateOp, hf]))
  case differs => exact exec_update_differs ht hl hroom hf hv hro hne
  case readOnly =>
    rw [exec_update_equal ht hl hf hv (by simp [hro]), Work.writeField_readOnly hro]
    exact congrArg Host.Outcome.next (((Work.Makes.start True s).replyFree .update q .badValue v fun _ => hroom).finish
      (by simp))
  case equal =>
    have hw := writeField_written s f q.value.toNat
    obtain ⟨x, hx⟩ : ∃ x, x = (Work.start s).writeField f q.value.toNat := ⟨_, rfl⟩
    have hwrite := exec_write_field ht hl hf hx.symm
    have hupdate := exec_update_equal ht hl hf hv (by simp [heq])
    rw [← hx] at hw hupdate
    obtain ⟨u, pre, post, hsame, hplaced⟩ := hw.ends (State.takes_up ht)
    refine ⟨⟨_, _, hupdate, hwrite, (hsame _).trans (hsame _).symm⟩, fun hroom3 => ?_⟩
    refine ⟨_, pre, post, x.2, x.1.st.presentValue f, hwrite, ?_, ?_⟩
    · rw [Work.reply, hplaced hroom3, hw.node]
    · rw [hupdate, Work.reply, Work.reply, hplaced hroom3, hplaced hroom3, hw.node]

end

end Sys2Proof.Machine
end

