-- ==== Sys2Proof/Proofs/JoiningAndPreemption.lean ====
section
/-! PROOFS. An event bit set before or after an operation over calls, joining the wait list, and preemption (R56 to R59, R65 to
R67): what each makes of the state that the event will leave. -/

namespace Sys2Proof.Machine

/-! ## An event bit set behind an operation -/

theorem EventSets.add_comm (x : EventSets) (a b : Event) : (x.add a).add b = (x.add b).add a := by
  refine EventSets.ext_get fun g => ?_
  simp only [EventSets.get_add]
  split
  · split
    · rw [BitVec.or_assoc, BitVec.or_assoc, BitVec.or_comm a.mask]
    · rfl
  · rfl

/-- It makes no difference whether an event bit is set before or after the operation. -/
def Commutes (F : Work → Work) : Prop := ∀ w e, F (w.raise e) = (F w).raise e

@[simp] theorem Work.raise_call? (w : Work) (e : Event) (h : Handle) : (w.raise e).call? h = w.call? h := rfl

namespace Commutes

variable {F G : Work → Work} {h : Handle}

theorem plain (hF : ∀ w e, F (w.raise e) = (F w).raise e) : Commutes F := hF

theorem same : Commutes fun w => w := fun _ _ => rfl

theorem comp (hF : Commutes F) (hG : Commutes G) : Commutes fun w => G (F w) := fun w e =>
  (congrArg G (hF w e)).trans (hG (F w) e)

theorem withCall {k : Work → CallRecord → Work} (hk : ∀ r, Commutes fun w => k w r) :
    Commutes fun w => w.withCall h (k w) := fun w e => by
  dsimp only [Work.withCall]
  rw [Work.raise_call?]
  cases w.call? h with
  | none => rfl
  | some r => exact hk r w e

theorem ite (q : State → Prop) [∀ s, Decidable (q s)] (hF : Commutes F) (hG : Commutes G) :
    Commutes fun w => if q w.st then F w else G w := fun w e => by
  by_cases hq : q w.st
  · simp only [Work.raise_st, hq, if_true]
    exact hF w e
  · simp only [Work.raise_st, hq, if_false]
    exact hG w e

theorem overflow : Commutes fun w => w.raise .txOverflow := fun w e => by
  unfold Work.raise
  rw [EventSets.add_comm]

theorem sendL (c : RiserCell) : Commutes fun w => w.sendL c :=
  ite (fun s => s.riserUp .L = true) (plain fun _ _ => rfl) same

theorem sendH (c : RiserCell) : Commutes fun w => w.sendH c :=
  ite (fun s => s.riserUp .H = true) (ite (fun s => s.portH.queue.length < Config.queueDepth)
    (plain fun _ _ => rfl) overflow) same

theorem sendF (k : Floor) (c : FloorCell) : Commutes fun w => w.sendF k c :=
  ite (fun s => s.floorUp k = true) (ite (fun s => s.floors[k].queue.length < Config.queueDepth)
    (plain fun _ _ => rfl) overflow) same

theorem statusTo (h : Handle) (r : CallRecord) (x : Status) (v : Byte) (l : Option Nat) :
    Commutes fun w => w.statusTo h r x v l := by
  unfold Work.statusTo
  cases r.far with
  | none => exact same
  | high side => exact same
  | floor f =>
    cases hf : f.answering with
    | none => simp only [hf]; exact same
    | some a => simp only [hf]; exact sendF _ _

theorem cancelOffers (h : Handle) (k : Floor) (l : List OfferEntry) : Commutes fun w => w.cancelOffers h k l := by
  induction l with
  | nil => exact same
  | cons e l ih =>
    unfold Work.cancelOffers
    by_cases he : e.state = .answered
    · simp only [he, if_true]
      exact ih
    · simp only [he, if_false]
      exact (sendF _ _).comp ih

theorem freeCall : Commutes fun w => w.freeCall h := fun w e => by
  dsimp only [Work.freeCall]
  rw [Work.raise_call?]
  cases w.call? h <;> rfl

theorem freeLane : Commutes fun w => w.freeLane h := by
  refine withCall fun r => ?_
  cases r.ownedPort with
  | none => exact same
  | some p =>
    cases r.ownedLane with
    | none => exact same
    | some i => exact plain fun _ _ => rfl

theorem emptyMirror : Commutes fun w => w.emptyMirror h := by
  refine withCall fun r => ?_
  cases r.lLane with
  | none => exact same
  | some l => exact plain fun _ _ => rfl

theorem releaseSides (r : CallRecord) (c : Cause) : Commutes fun w => w.releaseSides r c := by
  unfold Work.releaseSides
  cases r.openKey .L with
  | none =>
    cases r.openKey .H with
    | none => exact same
    | some key => exact sendH _
  | some key =>
    cases r.openKey .H with
    | none => exact sendL _
    | some key => exact (sendL _).comp (sendH _)

theorem tellFloor (r : CallRecord) (c : Cause) : Commutes fun w => w.tellFloor h r c := by
  unfold Work.tellFloor
  cases r.far with
  | none => exact same
  | high side => exact same
  | floor f =>
    dsimp only
    have hidle : Commutes fun w => w.idleActivity h f.slot :=
      ite (fun s => s.activity[f.slot].handle? = some h) (plain fun _ _ => rfl) same
    have hrest : Commutes fun w => (w.statusTo h r .cleared c.toByte).idleActivity h f.slot :=
      (statusTo h r .cleared c.toByte none).comp hidle
    by_cases hs : r.state = .offering ∨ r.state = .ringing
    · simp only [hs, if_true]
      exact (cancelOffers h f.port f.entries).comp hrest
    · simp only [hs, if_false]
      exact hrest

theorem clearOrFree : Commutes fun w => w.clearOrFree h := by
  have h1 : Commutes fun w => w.withCall h fun r => if r.anyOpen then w else w.freeCall h := withCall fun r => by
    by_cases hr : r.anyOpen = true
    · simp only [hr, if_true]; exact same
    · simp only [hr]; exact freeCall
  have h2 : Commutes fun w => w.modCall h fun r => { r.modFloor FloorSide.stopWindows with
    state := .clearing, timer := startTimer .guard Config.guardTime, lLane := none, ownedLane := none } := plain fun _ _ => rfl
  exact h2.comp h1

/-- The end of a call. -/
theorem release (c : Cause) : Commutes fun w => w.release h c := by
  refine withCall fun r => ?_
  have h1 : Commutes fun w => (w.modCall h fun r => { r with pendingCause := some c }).leaveWaiting h := plain fun _ _ => rfl
  exact ((((h1.comp freeLane).comp emptyMirror).comp (releaseSides r c)).comp (tellFloor r c)).comp clearOrFree

end Commutes

/-! ## Joining the wait list -/

section
variable {R : Prop} {w : Work} {u : State} {h v : Handle} {r r' : CallRecord} {p : Owned} {c : Cause}

theorem effPriority_zero (cls : Class) : effPriority cls 0 = cls.val := by
  unfold effPriority
  have := cls.isLt
  split <;> omega

theorem State.entryPriority_putCall (hr : u.call? h = some r) (hc : r'.cls = r.cls) (x : WaitEntry) :
    (u.putCall h r').entryPriority x = u.entryPriority x := by
  unfold State.entryPriority
  by_cases hx : h = x.handle
  · subst hx
    rw [State.call?_putCall_self, hr]
    dsimp only
    rw [hc]
  · rw [State.call?_putCall_ne _ _ hx]

theorem State.placed_congr {s t : State} (h : ∀ x, s.entryPriority x = t.entryPriority x) : s.placed = t.placed := by
  funext x e l
  unfold State.placed
  simp only [h]

/-- The record in a waiting state, with its lane-wait timer. -/
abbrev CallRecord.waitingIn (r : CallRecord) (st : CallState) (units : Nat) : CallRecord :=
  { r with state := st, timer := startTimer .laneWait units }

/-- A record joins the wait list (R65, R67). -/
theorem Work.Makes.joinWaiting (hm : w.Makes R u) (hr : u.call? h = some r) (p : Owned) (st : CallState) :
    (w.joinWaiting h p r.cls st).Makes R (u.joined h r p st) := by
  have hplaced : w.st.placed = u.placed := State.bare_placed hm.bare
  have hage : w.st.ageingStart = u.ageingStart := State.bare_ageingStart hm.bare
  have hwait : w.st.waiting = u.waiting := State.bare_waiting hm.bare
  have htime : w.st.laneWaitTime = u.laneWaitTime :=
    congrArg (fun d : Retained => d.timers.laneWait) (State.bare_retained hm.bare :)
  unfold Work.joinWaiting
  rw [hplaced, hage, hwait, htime]
  have h1 := (hm.setWaiting (u.placed { handle := h, port := p, steps := 0, ageing := u.ageingStart (effPriority r.cls 0) }
    (effPriority r.cls 0) u.waiting)).modCall
    (f := fun r => { r with state := st, timer := startTimer .laneWait u.laneWaitTime }) hr
  have he : (u.putCall h (r.waitingIn st u.laneWaitTime)).placed = u.placed :=
    State.placed_congr fun x => State.entryPriority_putCall (r' := r.waitingIn st u.laneWaitTime) hr rfl x
  have hu : u.joined h r p st = { u.putCall h (r.waitingIn st u.laneWaitTime) with
      waiting := u.placed { handle := h, port := p, steps := 0, ageing := u.ageingStart (effPriority r.cls 0) }
        (effPriority r.cls 0) u.waiting } := by
    rw [← he]
    rfl
  rw [hu]
  exact h1

theorem State.joined_putCall (s : State) (h : Handle) (r₀ r : CallRecord) (p : Owned) (st : CallState) :
    (s.putCall h r₀).joined h r p st = s.joined h r p st := by
  unfold State.joined
  simp only [State.putCall_putCall]
  rfl

/-! ## A record of another handle in the state -/

variable {x : CallRecord}

theorem State.putCall_comm (s : State) {h v : Handle} (hv : h ≠ v) (a b : CallRecord) :
    (s.putCall h a).putCall v b = (s.putCall v b).putCall h a := by
  have : h.val ≠ v.val := fun e => hv (Fin.ext e)
  unfold State.putCall
  rw [Vector.set_comm _ _ this]

theorem State.callOver_putCall_ne (s : State) (hv : h ≠ v) (x r : CallRecord) (c : Cause) :
    (s.putCall h x).callOver v r c = (s.callOver v r c).putCall h x := by
  have : h.val ≠ v.val := fun e => hv (Fin.ext e)
  unfold State.callOver State.putCall
  dsimp only
  rw [Vector.set_comm _ _ this]
  rfl

theorem State.ended_putCall_ne (s : State) (hv : h ≠ v) (x r : CallRecord) (c : Cause) :
    (s.putCall h x).ended v r c = (s.ended v r c).putCall h x := by
  have hp := TableChange.putCall h x
  rw [State.ended, State.ended, State.callOver_putCall_ne s hv, hp.floorTold, hp.sentH, hp.sentL]

theorem State.joined_putCall_ne (s : State) (hv : h ≠ v) (hr : s.call? h = some r) (hc : x.cls = r.cls) (rv : CallRecord)
    (p : Owned) (st : CallState) : (s.putCall h x).joined v rv p st = (s.joined v rv p st).putCall h x := by
  unfold State.joined
  dsimp only
  rw [State.putCall_comm _ hv]
  have he : ∀ y : CallRecord, ((s.putCall v y).putCall h x).placed = (s.putCall v y).placed := fun y =>
    State.placed_congr fun z => State.entryPriority_putCall ((State.call?_putCall_ne s y (Ne.symm hv)).trans hr) hc z
  rw [he]
  rfl

theorem TableChange.ownedTold {f : State → State} (hf : TableChange f) (s : State) (v : Handle) (r : CallRecord) (p : Owned)
    (up : Progress) (floor : Status) (l : Option Nat) :
    (f s).ownedTold v r p up floor l = f (s.ownedTold v r p up floor l) := by
  unfold State.ownedTold State.statusSent
  cases p with
  | H => exact (hf.sentH ..).symm
  | F k =>
    cases r.far with
    | none => rfl
    | high side => rfl
    | floor g => exact (hf.sentF ..).symm

theorem State.parkedOn_eq (s : State) (v : Handle) (r : CallRecord) (p : Owned) : s.parkedOn v r p =
    ((s.joined v { r with ownedLane := none } p .parked).ownedTold v r p .held .held none).sentL
      (if r.heldBelow then [] else r.cellsDown .held) := by
  unfold State.parkedOn
  cases hb : r.heldBelow
  · simp only [Bool.false_eq_true, if_false, State.ownedTold] <;> cases p <;> rfl
  · simp only [if_true, State.sentL_nil, State.ownedTold] <;> cases p <;> rfl

theorem State.parkedOn_putCall_ne (s : State) (hv : h ≠ v) (hr : s.call? h = some r) (hc : x.cls = r.cls) (rv : CallRecord)
    (p : Owned) : (s.putCall h x).parkedOn v rv p = (s.parkedOn v rv p).putCall h x := by
  have hp := TableChange.putCall h x
  rw [State.parkedOn_eq, State.parkedOn_eq, State.joined_putCall_ne s hv hr hc, hp.ownedTold, hp.sentL]

/-! ## Preemption -/

/-- A lane has passed out of its cross-connect (R57). -/
def State.lanePassed (s : State) (p : Owned) (i : Nat) (h : Handle) : State :=
  { s.laneTaken p i h with crosses := s.crosses.filter fun x => !(x.port == p && x.lane == i) }

theorem TableChange.lanePassed (p : Owned) (i : Nat) (h : Handle) : TableChange (·.lanePassed p i h) := fun _ _ _ _ _ => rfl

theorem State.waitFull_iff (s : State) : s.waitFull = true ↔ 16 ≤ s.waiting.length := decide_eq_true_iff

/-- What becomes of a victim on a port: parked, with room in the list, or cleared (R58, R59). -/
def State.victimEnded (s : State) (v : Handle) (rv : CallRecord) (p : Owned) : State :=
  if rv.state = .connected ∧ s.waiting.length < 16 then s.parkedOn v rv p
  else s.ended v { rv with ownedLane := none } .preempted

theorem State.victimEnded_putCall (s : State) (v : Handle) (rv : CallRecord) (p : Owned) (x : CallRecord) :
    (s.putCall v x).victimEnded v rv p = s.victimEnded v rv p := by
  unfold State.victimEnded
  simp only [State.parkedOn_eq, State.joined_putCall, State.ended_putCall, State.putCall_waiting]

theorem State.victimEnded_putCall_ne (s : State) (hv : h ≠ v) (hr : s.call? h = some r) (hc : x.cls = r.cls)
    (rv : CallRecord) (p : Owned) : (s.putCall h x).victimEnded v rv p = (s.victimEnded v rv p).putCall h x := by
  unfold State.victimEnded
  rw [State.parkedOn_putCall_ne s hv hr hc, State.ended_putCall_ne s hv, State.putCall_waiting]
  split <;> rfl

/-- A victim is parked or cleared (R58, R59). -/
theorem Work.Makes.endVictim (hm : w.Makes R u) {rv : CallRecord} (hv : u.call? v = some rv) (hi : rv.ownedLane = none)
    (p : Owned) (hL : R → u.roomL 1) (hH : R → u.roomH 1)
    (hF : R → ∀ f, rv.far = .floor f → u.roomF f.port ((rv.lastFloorCells v .preempted).length + 1)) :
    (w.endVictim v p).Makes R (u.victimEnded v rv p) := by
  have hwait : w.st.waiting = u.waiting := State.bare_waiting hm.bare
  have hlane : { rv with ownedLane := none } = rv := by rw [← hi]
  refine hm.withCall hv ?_
  have hiff : rv.state = .connected ∧ ¬ w.st.waitFull = true ↔ rv.state = .connected ∧ u.waiting.length < 16 := by
    rw [State.waitFull_iff, hwait, Nat.not_le]
  unfold State.victimEnded
  rw [hlane]
  by_cases hc : rv.state = .connected ∧ u.waiting.length < 16
  · rw [if_pos hc, if_pos (hiff.2 hc), State.parkedOn_eq, hlane]
    have h1 := hm.joinWaiting hv p .parked
    have h2 : (match p with
        | .H => (w.joinWaiting v p rv.cls .parked).progressUp rv .held
        | .F _ => (w.joinWaiting v p rv.cls .parked).statusTo v rv .held).Makes R
        ((u.joined v rv p .parked).ownedTold v rv p .held .held none) := by
      cases p with
      | H => exact h1.progressUp rv .held none fun hR => State.roomH.mono (s := u) (hH hR) (rv.cellsUp_length ..)
      | F k =>
        exact h1.statusTo v rv .held none fun hR f hf =>
          State.roomF.mono (s := u) (hF hR f hf) (by have := f.answering_length; omega)
    cases hb : rv.heldBelow with
    | true =>
      rw [if_pos rfl, if_pos rfl, State.sentL_nil]
      exact h2
    | false =>
      rw [if_neg (by simp), if_neg (by simp)]
      exact h2.progressDown rv .held fun hR => State.roomL.mono (n := 1) ((State.roomL_ownedTold ..).2 (hL hR))
        (rv.cellsDown_length .held)
  · rw [if_neg hc, if_neg fun h => hc (hiff.1 h)]
    exact hm.release hv .preempted (fun hR => (hL hR).mono (rv.releaseCells_length ..))
      (fun hR => (hH hR).mono (rv.releaseCells_length ..)) fun hR f hf => (hF hR f hf).mono (by omega)

/-- The victim's lane taken by the new record and out of its cross-connect, before the victim is parked or cleared. -/
def Work.laneWon (w : Work) (h : Handle) (p : Owned) (i : Nat) (v : Handle) : Work :=
  (((w.takeLane h p i).dropOwnedCross p i).raise .preemption).modCall v fun r => { r with ownedLane := none }

theorem Work.preempt_eq (w : Work) (h : Handle) (p : Owned) (i : Nat) (v : Handle) :
    w.preempt h p i v = (w.laneWon h p i v).endVictim v p := rfl

/-- A lane passes from its holder to the preempting record, and the victim is parked or cleared (R57 to R59). -/
theorem Work.Makes.preempt (hm : (w.raise .preemption).Makes R u) (hr : u.call? h = some r) (hne : h ≠ v) {rv : CallRecord}
    (hv : u.call? v = some rv) (p : Owned) (i : Nat) (hL : R → u.roomL 1) (hH : R → u.roomH 1)
    (hF : R → ∀ f, rv.far = .floor f → u.roomF f.port ((rv.lastFloorCells v .preempted).length + 1)) :
    (w.preempt h p i v).Makes R ((u.preempted h p i v rv).putCall h (r.onLane i)) := by
  have hx : ((w.raise .preemption).takeLane h p i).st.crosses = u.crosses := (State.bare_crosses hm.bare :)
  have h1 : ((((w.raise .preemption).takeLane h p i).dropOwnedCross p i)).Makes R
      ((u.lanePassed p i h).putCall h (r.onLane i)) := by
    have h2 := (hm.takeLane hr p i).setCrosses (u.crosses.filter fun x => !(x.port == p && x.lane == i))
    unfold Work.dropOwnedCross
    rw [hx]
    exact h2
  have hv1 : ((u.lanePassed p i h).putCall h (r.onLane i)).call? v = some rv :=
    (State.call?_putCall_ne _ _ hne).trans hv
  have h2 := (h1.modCall (f := fun r => { r with ownedLane := none }) hv1).endVictim (State.call?_putCall_self ..) rfl p
    hL hH hF
  rw [State.victimEnded_putCall, State.victimEnded_putCall_ne (s := u.lanePassed p i h) (x := r.onLane i) hne hr rfl] at h2
  exact h2

end

end Sys2Proof.Machine
end

