-- ==== Sys2Proof/Proofs/CommandsThatAsk.lean ====
section
/-! PROOFS. The commands that ask for a lane (R88 to R95, R126 to R132): what each makes before its request, and how it goes on
with the outcome (`State.Asks`). -/

namespace Sys2Proof.Machine

/-! ## The record that a command makes -/

/-- A record has been made, with its handle taken from the free-handle list and its L lane in the mirror (R90). -/
abbrev State.madeUp (s : State) (h : Handle) (rest : List Handle) (l : LLane) (r : CallRecord) : State :=
  ({ s with freeHandles := rest, mirror := s.mirror.set l (some h) } : State).putCall h r

/-- A record has been made, with its handle taken from the free-handle list (R127, R132). -/
abbrev State.madeDown (s : State) (h : Handle) (rest : List Handle) (r : CallRecord) : State :=
  ({ s with freeHandles := rest } : State).putCall h r

section
variable {s t : State} {h : Handle} {rest : List Handle} {r : CallRecord} {l : LLane} {key : Key} {lane : Byte} {dest : Word}
  {cls : Class} {okind : BitVec 2} {origin : Word} {o : Origin}

theorem Work.start_modCall (hr : t.call? h = some r) (f : CallRecord → CallRecord) :
    (Work.start t).modCall h f = Work.start (t.putCall h (f r)) := by
  rw [Work.modCall_live (show (Work.start t).st.call? h = some r from hr)]
  rfl

theorem TableChange.madeUp (h : Handle) (rest : List Handle) (l : LLane) (r : CallRecord) :
    TableChange (·.madeUp h rest l r) := fun _ _ _ _ _ => rfl

theorem TableChange.madeDown (h : Handle) (rest : List Handle) (r : CallRecord) :
    TableChange (·.madeDown h rest r) := fun _ _ _ _ _ => rfl

/-- The record of an upward SETUP is made, with its L lane (R90). -/
theorem Work.start_madeUp (s : State) (h : Handle) (rest : List Handle) (base : Class) (o : Origin) (dest : Word) (key : Key)
    (l : LLane) : ((Work.start s).makeCall h rest (newCall .up base o dest (.opened key) .none)).fillMirror h l =
      Work.start (s.madeUp h rest l (newUpward base o dest key l .none)) := by
  have hr : (({ s with freeHandles := rest, mirror := s.mirror.set l (some h) } : State).putCall h
      (newCall .up base o dest (.opened key) .none)).call? h = some _ := State.call?_putCall_self ..
  have h1 := Work.start_modCall hr fun r => { r with lLane := some l }
  rw [State.putCall_putCall] at h1
  exact h1

/-- An upward SETUP that passes its tests, with a free handle (R88 to R90). -/
theorem exec_setupFromBelow_made (hp : s.powered = true) (hu : s.receives .L = true) (hl : laneOf lane = some l)
    (ho : originOf okind origin = some o) (hd : dest.toNat ≤ 9999) (hs : key.side = .low) (hk : s.keyed .L key = none)
    (hm : s.mirror[l] = none) (hf : s.freeHandles = h :: rest) :
    exec (.setupFromBelow key lane dest cls okind origin) s = .next ((Work.start (s.madeUp h rest l
      (newUpward (s.retained.baseClass o cls) o dest key l .none))).routeUp h (s.retained.baseClass o cls) dest).finish := by
  have h0 : exec (.setupFromBelow key lane dest cls okind origin) s =
      execSetupFromBelow key lane dest cls okind origin s := rfl
  have hst : (Work.start s).st = s := rfl
  rw [h0, execSetupFromBelow, onRiser_receives hp hu]
  simp only [hl, ho, hst]
  rw [if_pos ⟨hd, hs, hk, hm⟩]
  simp only [hf]
  rw [Work.start_madeUp]

/-- A downward SETUP that passes its tests, with a free handle (R131, R132). -/
theorem exec_setupFromAbove_made (hp : s.powered = true) (hu : s.receives .H = true) (hl : laneFieldOk lane = true)
    (ho : originOf okind origin = some o) (hd : dest.toNat ≤ 9999) (hs : key.side = .high) (hk : s.keyed .H key = none)
    (hf : s.freeHandles = h :: rest) :
    exec (.setupFromAbove key lane dest cls okind origin) s = .next ((Work.start (s.madeDown h rest
      (newDownward cls o dest (.high (.opened key))))).routeCallDown h cls dest .H).finish := by
  have h0 : exec (.setupFromAbove key lane dest cls okind origin) s =
      execSetupFromAbove key lane dest cls okind origin s := rfl
  have hst : (Work.start s).st = s := rfl
  rw [h0, execSetupFromAbove, onRiser_receives hp hu]
  simp only [ho, hst]
  rw [if_pos ⟨hl, hd, hs, hk⟩]
  simp only [hf]
  rfl

/-- A DIAL from a handset of an IDLE flat, with a free handle (R126, R127). -/
theorem exec_dial_made {k : Floor} {a : Addr} {n : SlotNo} {role : Role} (hp : s.powered = true) (hu : s.floorUp k = true)
    (hh : s.retained.handset k a = some (n, role)) (ha : s.activity[n] = .idle) (hf : s.freeHandles = h :: rest) :
    exec (.dial k a) s = .next ((Work.start ((s.madeDown h rest (newDownward s.retained.slots[n].callDown (.dialled n) 0
      (.floor (s.retained.slots[n].capture n (some a))))).putActivity n (.originating h))).routeCallDown h
      s.retained.slots[n].callDown 0 (.F k)).finish := by
  have h0 : exec (.dial k a) s = execDial k a s := rfl
  have hst : (Work.start s).st = s := rfl
  rw [h0, execDial, onFloor_receives hp hu]
  simp only [hh, hst, ha, Work.callDown, hf]
  rfl

end

/-! ## The continuation of a lane request -/

/-- What a command makes of the outcome of its lane request. -/
structure Continues (k : Work → LaneOutcome → Work) (h : Handle) (r : CallRecord) (p : Owned) (told : State → State) : Prop where
  refused    : ∀ w c, k w (.refused c) = w.release h c
  takenRuns  : ∀ w, (k w .taken).runs = w.runs
  queuedRuns : ∀ w, (k w .queued).runs = w.runs
  taken      : ∀ {R : Prop} {w : Work} {u : State} {i : Nat}, w.Makes R (u.putCall h (r.onLane i)) →
    (R → r.dir = .down → u.roomL 1) → (R → p = .H → u.roomH 1) →
    (R → r.dir = .up → ∀ f, r.far = .floor f → u.roomF f.port 1) → (k w .taken).Makes R (u.goneOn h r i)
  queued     : ∀ {R : Prop} {w : Work} {u : State}, w.Makes R u → (R → u.roomL 1) → (R → p = .H → u.roomH 1) →
    (R → ∀ j, u.roomF j 1) → (k (w.tellQueued h r) .queued).Makes R (told u)

section
variable {h : Handle} {r : CallRecord}

/-- The continuations of R93, R108, and of R129 and R132. -/
def afterHigh (h : Handle) (w : Work) : LaneOutcome → Work
  | .taken => w.forwardSetup h
  | .queued => w
  | .refused c => w.release h c

def afterFloor (h : Handle) (n : SlotNo) (w : Work) : LaneOutcome → Work
  | .taken => w.startOffers h
  | .queued => w.setActivity n (.pending h)
  | .refused c => w.release h c

def afterDown (h : Handle) (w : Work) : LaneOutcome → Work
  | .taken => w.grantUpper h
  | .queued => w
  | .refused c => w.release h c

theorem Work.tellQueued_up {w : Work} (hd : r.dir = .up) : w.tellQueued h r = w.progressDown r .queued := by
  simp only [Work.tellQueued, hd]

theorem continues_high {key : Key} (hd : r.dir = .up) (hf : r.far = .high .unopened) (hk : r.openKey .L = some key) :
    Continues (afterHigh h) h r .H fun u => u.sentL [progressCell key .queued] where
  refused _ _ := rfl
  takenRuns w := w.forwardSetup_runs h
  queuedRuns _ := rfl
  taken hm _ hH _ := hm.forwardSetup hd (by simp [hf]) fun hR => hH hR rfl
  queued hm hL _ _ := by
    have h1 := hm.progressDown r .queued fun hR => (hL hR).mono (r.cellsDown_length .queued)
    rw [CallRecord.cellsDown, hk] at h1
    rw [Work.tellQueued_up hd]
    exact h1

theorem continues_flat {key : Key} {f : FloorSide} (hd : r.dir = .up) (hf : r.far = .floor f) (hk : r.openKey .L = some key) :
    Continues (afterFloor h f.slot) h r (.F f.port) fun u => (u.sentL [progressCell key .queued]).putActivity f.slot
      (.pending h) where
  refused _ _ := rfl
  takenRuns w := w.startOffers_runs h
  queuedRuns _ := rfl
  taken hm _ _ hF := hm.startOffers hd hf fun hR => hF hR hd f hf
  queued hm hL _ _ := by
    have h1 := (hm.progressDown r .queued fun hR => (hL hR).mono (r.cellsDown_length .queued)).setActivity f.slot (.pending h)
    rw [CallRecord.cellsDown, hk] at h1
    rw [Work.tellQueued_up hd]
    exact h1

theorem continues_relayed {key : Key} (hd : r.dir = .down) (hf : r.far = .high (.opened key)) :
    Continues (afterDown h) h r .H fun u => u.sentH [progressCell key .queued] where
  refused _ _ := rfl
  takenRuns w := w.grantUpper_runs h
  queuedRuns _ := rfl
  taken hm hL hH _ := hm.grantUpper hd (fun hR => hL hR hd) fun hR => hH hR rfl
  queued {R w u} hm _ hH _ := by
    have hk : r.openKey .H = some key := by simp [CallRecord.openKey, hf, Far.riser?, RiserSide.key?]
    have h1 := hm.progressUp r .queued none fun hR => (hH hR rfl).mono (r.cellsUp_length ..)
    have hq : w.tellQueued h r = w.progressUp r .queued := by simp only [Work.tellQueued, hd, hf]
    rw [CallRecord.cellsUp, hk] at h1
    rw [hq]
    exact h1

theorem continues_dial {f : FloorSide} {a : Addr} (hd : r.dir = .down) (hf : r.far = .floor f)
    (ha : f.answering = some a) :
    Continues (afterDown h) h r (.F f.port) fun u => u.sentF f.port [statusCell h.val a .queued] where
  refused _ _ := rfl
  takenRuns w := w.grantUpper_runs h
  queuedRuns _ := rfl
  taken {R w u i} hm hL _ _ := by
    have hk : (r.onLane i).openKey .H = none := by simp [CallRecord.openKey, hf, Far.riser?]
    have hg : w.grantUpper h = w.setupDown h := by
      unfold Work.grantUpper
      rw [Work.withCall_live ((State.bare_call? hm.bare h).trans (State.call?_putCall_self ..)), hk]
    show (w.grantUpper h).Makes R _
    rw [hg]
    exact hm.setupDown_goneOn hd hk fun hR => hL hR hd
  queued {R w u} hm _ _ hF := by
    have h1 := hm.statusTo h r .queued none fun hR f' _ => (hF hR f'.port).mono f'.answering_length
    have hq : w.tellQueued h r = w.statusTo h r .queued := by simp only [Work.tellQueued, hd, hf]
    rw [State.statusSent, hf] at h1
    dsimp only at h1
    rw [ha] at h1
    rw [hq]
    exact h1

end

/-! ## The route of a new record -/

theorem State.route_floor {s : State} {n : Nat} {k : Floor} {i : SlotNo} (h : s.route n = .floor k i) :
    s.retained.slots[i].port = k := by
  unfold State.route at h
  split at h
  · cases h
  split at h
  · cases h
  split at h
  · split at h <;> cases h
  · cases h
  · split at h
    · cases h
    · split at h
      · cases h
      · next hk =>
        split at h
        · cases h
          simpa using hk
        · cases h

/-- The flat of a handset is on its floor port (R26). -/
theorem Retained.handset_port {d : Retained} {k : Floor} {a : Addr} {n : SlotNo} {role : Role}
    (h : d.handset k a = some (n, role)) : d.slots[n].port = k := by
  unfold Retained.handset at h
  obtain ⟨i, hi, he⟩ := Option.map_eq_some_iff.1 h
  cases he
  have := List.find?_some (p := fun i : SlotNo => d.slots[i].answers k a) hi
  exact ((Slot.answers_iff ..).1 this).2.1

section
variable {t : State} {h : Handle} {r : CallRecord} {cls : Class} {dest : Word}

theorem Work.routeUp_high (hfire : t.fireRefuses cls = false) (hroute : t.route dest.toNat = .high)
    (hr : t.call? h = some r) : (Work.start t).routeUp h cls dest =
      (Work.start (t.putCall h { r with far := .high .unopened })).lane h .H (afterHigh h) := by
  have hf : ¬ (Work.start t).st.fireRefuses cls = true := by
    show ¬ t.fireRefuses cls = true
    rw [hfire]
    decide
  rw [Work.routeUp, if_neg hf]
  simp only [show (Work.start t).st.route dest.toNat = .high from hroute]
  rw [Work.routeHigh, Work.start_modCall hr]
  rfl

/-- The record of an upward call with its flat captured (R95). -/
abbrev CallRecord.toFlat (r : CallRecord) (x : Slot) (n : SlotNo) : CallRecord := { r with far := .floor (x.capture n none) }

theorem Work.routeUp_floor (hfire : t.fireRefuses cls = false) {k : Floor} {n : SlotNo}
    (hroute : t.route dest.toNat = .floor k n) : (Work.start t).routeUp h cls dest = (Work.start t).routeFloor h cls k n := by
  have hf : ¬ (Work.start t).st.fireRefuses cls = true := by
    show ¬ t.fireRefuses cls = true
    rw [hfire]
    decide
  rw [Work.routeUp, if_neg hf]
  simp only [show (Work.start t).st.route dest.toNat = .floor k n from hroute]

theorem passesQuiet_iff (cls quiet : Class) : passesQuiet cls quiet = true ↔ cls = 7 ∨ quiet < cls := by
  simp [passesQuiet]

theorem Work.routeFloor_passes (hr : t.call? h = some r) {n : SlotNo} (k : Floor)
    (hq : cls = 7 ∨ t.retained.slots[n].quiet < cls) :
    (Work.start t).routeFloor h cls k n =
      (match t.activity[n].handle? with
        | none => (Work.start (t.putCall h (r.toFlat t.retained.slots[n] n))).askFloor h k n
        | some v => if cls = 7 then (((Work.start (t.putCall h (r.toFlat t.retained.slots[n] n))).raise .preemption).release v
            .preempted).askFloor h k n
          else (Work.start (t.putCall h (r.toFlat t.retained.slots[n] n))).release h .busy) := by
  have hpass : passesQuiet cls (Work.start t).st.retained.slots[n].quiet = true := (passesQuiet_iff ..).2 hq
  rw [Work.routeFloor, Work.start_modCall hr, if_pos hpass]
  rfl

theorem Work.routeCallDown_asks (hfire : t.fireRefuses cls = false) (hs : t.retained.service = .inService) (p : Owned) :
    (Work.start t).routeCallDown h cls 0 p = (Work.start t).lane h p (afterDown h) := by
  have hf : ¬ (Work.start t).st.fireRefuses cls = true := by
    show ¬ t.fireRefuses cls = true
    rw [hfire]
    decide
  have hr : (Work.start t).st.routeDown (0 : Word).toNat = .low := by
    show t.routeDown 0 = .low
    simp [State.routeDown, hs]
  rw [Work.routeCallDown, if_neg hf]
  simp only [hr]
  rfl

end

/-! ## The lane request of a command -/

/-- The command's event is its lane request, in the state with its record, which has no lane. -/
structure State.Requests (s : State) (c : Instr) (h : Handle) (r : CallRecord) (t : State) (p : Owned)
    (told : State → State) (k : Work → LaneOutcome → Work) : Prop where
  event     : exec c s = .next ((Work.start t).lane h p k).finish
  continues : Continues k h r p told
  call      : t.call? h = some r
  noLane    : r.ownedLane = none
  waiting   : t.waiting = s.waiting
  tables    : ∃ f, TableChange f ∧ t = f s
  port      : r.ownedPort = some p
  fresh     : r.state = .waitingLane

section
variable {s : State} {c : Instr} {h : Handle} {r : CallRecord} {t : State} {p : Owned} {told : State → State}

theorem State.Asks.requests (ha : s.Asks c h r t p told) : ∃ k, s.Requests c h r t p told k := by
  cases ha with
  | high key lane dest cls okind origin l o _ rest _ hp hu hl ho hd hs hk hm hf hfire hroute hr =>
    refine ⟨afterHigh h, ?_, hr ▸ continues_high rfl rfl rfl, State.call?_putCall_self .., hr ▸ rfl, rfl,
      ⟨_, TableChange.madeUp h rest l r, rfl⟩, hr ▸ rfl, hr ▸ rfl⟩
    rw [exec_setupFromBelow_made hp hu hl ho hd hs hk hm hf,
      Work.routeUp_high (t := s.madeUp h rest l (newUpward (s.retained.baseClass o cls) o dest key l .none)) hfire hroute
        (State.call?_putCall_self ..), State.putCall_putCall, hr]
    rfl
  | flat key lane dest cls okind origin l o _ rest _ k n hp hu hl ho hd hs hk hm hf hfire hroute hquiet hact hr =>
    have hport := State.route_floor hroute
    have hc : Continues (afterFloor h n) h r (.F k) fun u => (u.sentL [progressCell key .queued]).putActivity n
        (.pending h) := by
      rw [← hport, hr]
      exact continues_flat (f := s.retained.slots[n].capture n none) (key := key) rfl rfl rfl
    refine ⟨afterFloor h n, ?_, hc, State.call?_putCall_self .., hr ▸ rfl, rfl, ⟨_, (TableChange.madeUp h rest l r), rfl⟩, ?_,
      hr ▸ rfl⟩
    · have hidle : s.activity[n].handle? = none := by rw [hact]; rfl
      rw [exec_setupFromBelow_made hp hu hl ho hd hs hk hm hf,
        Work.routeUp_floor (t := s.madeUp h rest l (newUpward (s.retained.baseClass o cls) o dest key l .none)) hfire hroute,
        Work.routeFloor_passes (t := s.madeUp h rest l (newUpward (s.retained.baseClass o cls) o dest key l .none))
          (State.call?_putCall_self ..) k hquiet]
      simp only [show (s.madeUp h rest l (newUpward (s.retained.baseClass o cls) o dest key l .none)).activity[n].handle? =
        none from hidle]
      rw [State.putCall_putCall, hr]
      rfl
    · rw [hr, ← hport]
      rfl
  | relayed key lane cls okind origin o _ rest _ hp hu hl ho hs hk hf hfire hserv hr =>
    refine ⟨afterDown h, ?_, hr ▸ continues_relayed rfl rfl, State.call?_putCall_self .., hr ▸ rfl, rfl,
      ⟨_, TableChange.madeDown h rest r, rfl⟩, hr ▸ rfl, hr ▸ rfl⟩
    rw [exec_setupFromAbove_made hp hu hl ho (by decide) hs hk hf,
      Work.routeCallDown_asks (t := s.madeDown h rest (newDownward cls o 0 (.high (.opened key)))) hfire hserv, hr]
  | dial k a n role _ rest _ hp hu hh ha hf hfire hserv hr =>
    have hport : s.retained.slots[n].port = k := Retained.handset_port hh
    have hc : Continues (afterDown h) h r (.F k) fun u => u.sentF k [statusCell h.val a .queued] := by
      rw [← hport, hr]
      exact continues_dial (f := s.retained.slots[n].capture n (some a)) rfl rfl rfl
    refine ⟨afterDown h, ?_, hc, State.call?_putCall_self .., hr ▸ rfl, rfl,
      ⟨fun u => (u.madeDown h rest r).putActivity n (.originating h), fun _ _ _ _ _ => rfl, rfl⟩, ?_, hr ▸ rfl⟩
    · rw [exec_dial_made hp hu hh ha hf, Work.routeCallDown_asks (t := (s.madeDown h rest (newDownward
        s.retained.slots[n].callDown (.dialled n) 0 (.floor (s.retained.slots[n].capture n (some a))))).putActivity n
        (.originating h)) hfire hserv, hr]
    · rw [hr, ← hport]
      rfl

end

end Sys2Proof.Machine
end

