-- ==== Sys2Proof/Proofs/RequestOutcomes.lean ====
section
/-! PROOFS. The outcomes of a lane request, for each command that makes one (R54 to R59, R65 to R67, R92 to R95, R108, R129,
R132). -/

namespace Sys2Proof.Machine

/-! ## The request itself -/

section
variable {t : State} {h : Handle} {r : CallRecord} {p : Owned} {k : Work → LaneOutcome → Work}

theorem Work.lane_start (hr : t.call? h = some r) (p : Owned) (k : Work → LaneOutcome → Work) :
    (Work.start t).lane h p k = k ((Work.start t).requestLane h p r).1 ((Work.start t).requestLane h p r).2 := by
  unfold Work.lane
  rw [Work.withCall_live (show (Work.start t).st.call? h = some r from hr)]

theorem Work.requestLane_unusable {w : Work} (hu : w.st.usable p = false) :
    w.requestLane h p r = (w, .refused (unusableCause p)) := by
  unfold Work.requestLane
  rw [hu]
  rfl

theorem Work.requestLane_admitted {w : Work} {i : Nat} (hi : w.st.admitLane p (effPriority r.cls 0) = some i) :
    w.requestLane h p r = (w.takeLane h p i, .taken) := by
  have hu : w.st.usable p = true := by
    cases hu : w.st.usable p with
    | true => rfl
    | false => rw [State.admitLane_unusable hu] at hi; cases hi
  unfold Work.requestLane
  rw [if_pos hu, hi]

theorem Work.requestLane_preempts {w : Work} {i : Nat} {v : Handle} (hu : w.st.usable p = true)
    (hn : w.st.admitLane p (effPriority r.cls 0) = none) (hv : w.st.preemption p r.cls = some (i, v)) :
    w.requestLane h p r = (w.preempt h p i v, .taken) := by
  unfold Work.requestLane
  rw [if_pos hu, hn, hv]

theorem Work.requestLane_queues {w : Work} (hu : w.st.usable p = true)
    (hn : w.st.admitLane p (effPriority r.cls 0) = none) (hv : w.st.preemption p r.cls = none) :
    w.requestLane h p r = w.queueCall h p r := by
  unfold Work.requestLane
  rw [if_pos hu, hn, hv]

theorem Work.queueCall_room {w : Work} (hw : w.st.waiting.length < 16) :
    w.queueCall h p r = ((w.joinWaiting h p r.cls .waitingLane).tellQueued h r, .queued) := by
  have hn : ¬ w.st.waitFull = true := by rw [State.waitFull_iff]; omega
  unfold Work.queueCall
  rw [if_neg hn]

theorem Work.queueCall_displaces {w : Work} (hw : 16 ≤ w.st.waiting.length) {tail : WaitEntry}
    (ht : w.st.waiting.getLast? = some tail) (he : w.st.entryPriority tail < effPriority r.cls 0) :
    w.queueCall h p r = (((((w.leaveWaiting tail.handle).release tail.handle .congestion).raise .displaced).joinWaiting h p
      r.cls .waitingLane).tellQueued h r, .queued) := by
  unfold Work.queueCall
  rw [if_pos ((State.waitFull_iff _).2 hw)]
  simp only [ht]
  rw [if_pos he]

theorem Work.queueCall_congested {w : Work} (hw : 16 ≤ w.st.waiting.length) {tail : WaitEntry}
    (ht : w.st.waiting.getLast? = some tail) (he : effPriority r.cls 0 ≤ w.st.entryPriority tail) :
    w.queueCall h p r = (w.raise .congestion, .refused .congestion) := by
  unfold Work.queueCall
  rw [if_pos ((State.waitFull_iff _).2 hw)]
  simp only [ht]
  rw [if_neg (by omega)]

end

/-! ## The runs that a request asks for -/

section
variable (w : Work) (h : Handle) (r : CallRecord) (p : Owned)

@[simp] theorem Work.tellQueued_runs : (w.tellQueued h r).runs = w.runs := by
  unfold Work.tellQueued
  split <;> simp

@[simp] theorem Work.joinWaiting_runs (cls : Class) (st : CallState) : (w.joinWaiting h p cls st).runs = w.runs := by
  simp [Work.joinWaiting]

/-- The end of a call that has no lane asks for no run (R60). -/
theorem Work.release_runs_noLane {w : Work} {h : Handle} {r : CallRecord} (hr : w.call? h = some r)
    (hl : r.ownedLane = none) (c : Cause) : (w.release h c).runs = w.runs := by
  rw [Work.release_runs hr]
  simp [CallRecord.freedPort, hl]

theorem Work.endVictim_runs {w : Work} {h : Handle} {r : CallRecord} (hr : w.call? h = some r) (hl : r.ownedLane = none) :
    (w.endVictim h p).runs = w.runs := by
  unfold Work.endVictim
  rw [Work.withCall_live hr]
  split
  · cases p <;> dsimp only <;> split <;> simp
  · exact Work.release_runs_noLane hr hl _

theorem Work.call?_modCall_ne (w : Work) {h v : Handle} (f : CallRecord → CallRecord) (hne : h ≠ v) :
    (w.modCall h f).call? v = w.call? v := by
  have : h.val ≠ v.val := fun e => hne (Fin.ext e)
  simp [Work.call?, State.call?, Work.modCall, this]

theorem Work.preempt_runs {w : Work} {h v : Handle} {r : CallRecord} (hne : h ≠ v) (hv : w.call? v = some r) (i : Nat) :
    (w.preempt h p i v).runs = w.runs := by
  have h1 : (((w.takeLane h p i).dropOwnedCross p i).raise .preemption).call? v = some r :=
    (Work.call?_modCall_ne _ _ hne).trans hv
  have h2 : (w.laneWon h p i v).call? v = some { r with ownedLane := none } := by
    unfold Work.laneWon
    rw [Work.modCall_live h1]
    exact State.call?_putCall_self ..
  rw [Work.preempt_eq, Work.endVictim_runs p h2 rfl]
  rfl

end

/-- A record that has left the wait list before it leaves its call. -/
theorem State.ended_leftWaiting (s : State) (v : Handle) (r : CallRecord) (c : Cause) :
    ({ s with waiting := s.waiting.filter fun x => !(x.handle == v) } : State).ended v r c = s.ended v r c := by
  have hc : ({ s with waiting := s.waiting.filter fun x => !(x.handle == v) } : State).callOver v r c = s.callOver v r c := by
    unfold State.callOver
    simp only [List.filter_filter, Bool.and_self]
    rfl
  rw [State.ended, State.ended, hc]

/-! ## The room that a victim leaves -/

section
variable {s : State} {v : Handle} {rv : CallRecord} {p : Owned} {n : Nat}

theorem State.roomH_ownedTold (s : State) (v : Handle) (r : CallRecord) (p : Owned) (c : Progress) (d : Status)
    (l : Option Nat) (h : s.roomH (n + 1)) : (s.ownedTold v r p c d l).roomH n := by
  unfold State.ownedTold State.statusSent
  cases p with
  | H => exact State.roomH_sentH (h.mono (by have := r.cellsUp_length c l; omega))
  | F k =>
    dsimp only
    cases r.far with
    | none => exact h.mono (by omega)
    | high side => exact h.mono (by omega)
    | floor f => exact (State.roomH_sentF ..).2 (h.mono (by omega))

theorem State.roomF_ownedTold (s : State) (v : Handle) (r : CallRecord) (p : Owned) (c : Progress) (d : Status)
    (l : Option Nat) {j : Floor} (h : s.roomF j (n + 1)) : (s.ownedTold v r p c d l).roomF j n := by
  unfold State.ownedTold State.statusSent
  cases p with
  | H => exact (State.roomF_sentH ..).2 (h.mono (by omega))
  | F k =>
    dsimp only
    cases r.far with
    | none => exact h.mono (by omega)
    | high side => exact h.mono (by omega)
    | floor f =>
      dsimp only
      by_cases hj : f.port = j
      · subst hj
        refine State.roomF_sentF (h.mono ?_)
        have := f.answering_length
        rw [List.length_map]
        omega
      · exact State.roomF_sentF_ne hj (h.mono (by omega))

theorem State.victimEnded_roomL (h : s.roomL (n + 1)) : (s.victimEnded v rv p).roomL n := by
  unfold State.victimEnded
  split
  · rw [State.parkedOn_eq]
    refine State.roomL_sentL ((State.roomL_ownedTold ..).2 (State.roomL.mono (s := s) h ?_))
    have := rv.cellsDown_length .held
    split
    · simp
    · omega
  · exact State.ended_roomL (h.mono (by have := CallRecord.releaseCells_length { rv with ownedLane := none } .preempted .L; omega))

theorem State.victimEnded_roomH (h : s.roomH (n + 1)) : (s.victimEnded v rv p).roomH n := by
  unfold State.victimEnded
  split
  · rw [State.parkedOn_eq]
    exact (State.roomH_sentL ..).2 (State.roomH_ownedTold _ _ _ _ _ _ _ (show State.roomH _ _ from h))
  · exact State.ended_roomH (h.mono (by have := CallRecord.releaseCells_length { rv with ownedLane := none } .preempted .H; omega))

theorem State.victimEnded_roomF {j : Floor} (h : s.roomF j ((rv.lastFloorCells v .preempted).length + n + 1)) :
    (s.victimEnded v rv p).roomF j n := by
  unfold State.victimEnded
  split
  · rw [State.parkedOn_eq]
    refine (State.roomF_sentL ..).2 (State.roomF_ownedTold _ _ _ _ _ _ _ ?_)
    exact State.roomF.mono (s := s) h (by omega)
  · exact State.ended_roomF (fun _ _ _ => State.roomF.mono (s := s) h (by
      show (rv.lastFloorCells v .preempted).length + n ≤ _
      omega)) (h.mono (by omega))

end

/-! ## The outcomes -/

section
variable {s : State} {c : Instr} {h : Handle} {r : CallRecord} {t : State} {p : Owned} {told : State → State}
  {k : Work → LaneOutcome → Work}

namespace State.Requests

variable (hq : s.Requests c h r t p told k)
include hq

theorem roomL_iff (n : Nat) : t.roomL n ↔ s.roomL n := by
  obtain ⟨f, hf, rfl⟩ := hq.tables
  exact hf.roomL_iff s n

theorem roomH_iff (n : Nat) : t.roomH n ↔ s.roomH n := by
  obtain ⟨f, hf, rfl⟩ := hq.tables
  exact hf.roomH_iff s n

theorem roomF_iff (j : Floor) (n : Nat) : t.roomF j n ↔ s.roomF j n := by
  obtain ⟨f, hf, rfl⟩ := hq.tables
  exact hf.roomF_iff s j n

theorem step : exec c s = .next (k ((Work.start t).requestLane h p r).1 ((Work.start t).requestLane h p r).2).finish := by
  rw [hq.event, Work.lane_start hq.call]

theorem waits : r.Waits := .inl hq.fresh

/-- The new record's release, after at most an event bit (R54, R66). -/
theorem ends {w : Work} {u : State} (hm : w.Makes True u) (hr : u.call? h = some r) (hn : w.runs = []) (x : Cause)
    (hL : u.roomL 1) (hH : u.roomH 1) (hF : ∀ j, u.roomF j 1) : (w.release h x).finish = u.ended h r x := by
  have hfree : r.freedPort = none := by
    unfold CallRecord.freedPort
    rw [hq.noLane]
    rfl
  refine (hm.release hr x (fun _ => hL.mono (r.releaseCells_length ..)) (fun _ => hH.mono (r.releaseCells_length ..))
    fun _ f _ => (hF _).mono (hq.waits.lastFloorCells_length h x)).finish ?_
  rw [Work.release_runs ((State.bare_call? hm.bare h).trans hr), hfree, hn]
  rfl

theorem unusable (hu : t.usable p = false) (hL : s.roomL 1) (hH : s.roomH 1) (hF : ∀ j, s.roomF j 1) :
    exec c s = .next (t.ended h r (unusableCause p)) := by
  rw [hq.step, Work.requestLane_unusable hu, hq.continues.refused]
  exact congrArg _ (hq.ends (Work.Makes.start True t) hq.call rfl _ ((hq.roomL_iff _).2 hL) ((hq.roomH_iff _).2 hH)
    fun j => (hq.roomF_iff ..).2 (hF j))

theorem admitted {i : Nat} (hi : t.admitLane p (effPriority r.cls 0) = some i) (hL : r.dir = .down → s.roomL 1)
    (hH : p = .H → s.roomH 1) (hF : r.dir = .up → ∀ f, r.far = .floor f → s.roomF f.port 1) :
    exec c s = .next ((t.laneTaken p i h).goneOn h r i) := by
  rw [hq.step, Work.requestLane_admitted hi]
  refine congrArg _ (Work.Makes.finish ?_ ((hq.continues.takenRuns _).trans rfl))
  exact hq.continues.taken ((Work.Makes.start True t).takeLane hq.call p i) (fun _ hd => (hq.roomL_iff _).2 (hL hd))
    (fun _ e => (hq.roomH_iff _).2 (hH e)) fun _ hd f hf => (hq.roomF_iff ..).2 (hF hd f hf)

theorem queued (hu : t.usable p = true) (hn : t.admitLane p (effPriority r.cls 0) = none)
    (hv : t.preemption p r.cls = none) (hw : t.waiting.length < 16) (hL : s.roomL 1) (hH : s.roomH 1)
    (hF : ∀ j, s.roomF j 1) : exec c s = .next (told (t.joined h r p .waitingLane)) := by
  rw [hq.step, Work.requestLane_queues hu hn hv, Work.queueCall_room hw]
  refine congrArg _ (Work.Makes.finish ?_ ((hq.continues.queuedRuns _).trans ?_))
  · exact hq.continues.queued ((Work.Makes.start True t).joinWaiting hq.call p .waitingLane)
      (fun _ => (hq.roomL_iff _).2 hL) (fun _ _ => (hq.roomH_iff _).2 hH) fun _ j => (hq.roomF_iff ..).2 (hF j)
  · simp [Work.joinWaiting, Work.tellQueued_runs]

theorem congested (hu : t.usable p = true) (hn : t.admitLane p (effPriority r.cls 0) = none)
    (hv : t.preemption p r.cls = none) (hw : 16 ≤ t.waiting.length) {tail : WaitEntry}
    (ht : t.waiting.getLast? = some tail) (he : effPriority r.cls 0 ≤ t.entryPriority tail) (hL : s.roomL 2)
    (hH : s.roomH 1) (hF : ∀ j, s.roomF j 1) : exec c s = .next ((t.withEvent .congestion).ended h r .congestion) := by
  have hLt := (hq.roomL_iff 2).2 hL
  rw [hq.step, Work.requestLane_queues hu hn hv, Work.queueCall_congested hw ht he, hq.continues.refused]
  refine congrArg _ (hq.ends ((Work.Makes.start True t).raise (fun _ => ⟨rfl, rfl⟩) fun _ => hLt.mono (by omega)) ?_ rfl _
    (State.roomL_withEvent hLt) ?_ fun j => ?_)
  · exact (State.call?_withEvent ..).trans hq.call
  · exact (State.roomH_withEvent ..).2 ((hq.roomH_iff _).2 hH)
  · exact (State.roomF_withEvent ..).2 ((hq.roomF_iff ..).2 (hF j))

theorem displaced (hu : t.usable p = true) (hn : t.admitLane p (effPriority r.cls 0) = none)
    (hv : t.preemption p r.cls = none) (hw : 16 ≤ t.waiting.length) {tail : WaitEntry}
    (ht : t.waiting.getLast? = some tail) (he : t.entryPriority tail < effPriority r.cls 0) {rt : CallRecord}
    (hrt : t.call? tail.handle = some rt) (hne : tail.handle ≠ h) (hwt : rt.Waits) (hlt : rt.ownedLane = none)
    (hL : s.roomL 3) (hH : s.roomH 2) (hF : ∀ j, s.roomF j 2) :
    exec c s = .next (told (((t.withEvent .displaced).ended tail.handle rt .congestion).joined h r p .waitingLane)) := by
  have hL0 : (t.withEvent .displaced).roomL 2 := State.roomL_withEvent ((hq.roomL_iff _).2 hL)
  have hH0 : (t.withEvent .displaced).roomH 2 := (State.roomH_withEvent ..).2 ((hq.roomH_iff _).2 hH)
  have hF0 : ∀ j, (t.withEvent .displaced).roomF j 2 := fun j => (State.roomF_withEvent ..).2 ((hq.roomF_iff ..).2 (hF j))
  have hLc := rt.releaseCells_length .congestion .L
  have hHc := rt.releaseCells_length .congestion .H
  have hFc := hwt.lastFloorCells_length tail.handle .congestion
  have hcomm : (((Work.start t).leaveWaiting tail.handle).release tail.handle .congestion).raise .displaced =
      (((Work.start t).raise .displaced).leaveWaiting tail.handle).release tail.handle .congestion :=
    (Commutes.release .congestion ((Work.start t).leaveWaiting tail.handle) .displaced).symm
  have hm := (((Work.Makes.start True t).raise (e := .displaced) (fun _ => ⟨rfl, rfl⟩)
    fun _ => ((hq.roomL_iff _).2 hL).mono (by omega)).leaveWaiting tail.handle).release
    ((State.call?_withEvent ..).trans hrt) .congestion (fun _ => State.roomL.mono (s := t.withEvent .displaced) hL0 (by omega))
    (fun _ => State.roomH.mono (s := t.withEvent .displaced) hH0 (by omega))
    fun _ f _ => State.roomF.mono (s := t.withEvent .displaced) (hF0 f.port) (by omega)
  rw [State.ended_leftWaiting, ← hcomm] at hm
  have hcall : ((t.withEvent .displaced).ended tail.handle rt .congestion).call? h = some r := by
    rw [State.ended_call?_ne _ _ _ _ hne, State.call?_withEvent]
    exact hq.call
  rw [hq.step, Work.requestLane_queues hu hn hv, Work.queueCall_displaces hw ht he]
  refine congrArg _ (Work.Makes.finish ?_ ((hq.continues.queuedRuns _).trans ?_))
  · refine hq.continues.queued (hm.joinWaiting hcall p .waitingLane) (fun _ => ?_) (fun _ _ => ?_) fun _ j => ?_
    · exact State.ended_roomL (hL0.mono (by omega))
    · exact State.ended_roomH (hH0.mono (by omega))
    · exact State.ended_roomF (fun _ _ _ => (hF0 j).mono (by omega)) ((hF0 j).mono (by omega))
  · rw [Work.tellQueued_runs, Work.joinWaiting_runs, Work.raise_runs]
    exact Work.release_runs_noLane (w := (Work.start t).leaveWaiting tail.handle) hrt hlt _

/-- A preemption (R56 to R59). -/
theorem preempts (hu : t.usable p = true) (hn : t.admitLane p (effPriority r.cls 0) = none) {i : Nat} {v : Handle}
    (hv : t.preemption p r.cls = some (i, v)) {rv : CallRecord} (hrv : t.call? v = some rv) (hne : h ≠ v)
    (hL : s.roomL 3) (hH : s.roomH 2) (hF : ∀ j, s.roomF j ((rv.lastFloorCells v .preempted).length + 2)) :
    exec c s = .next (((t.withEvent .preemption).preempted h p i v rv).goneOn h r i) := by
  have hL0 : (t.withEvent .preemption).roomL 2 := State.roomL_withEvent ((hq.roomL_iff _).2 hL)
  have hH0 : (t.withEvent .preemption).roomH 2 := (State.roomH_withEvent ..).2 ((hq.roomH_iff _).2 hH)
  have hF0 : ∀ j, (t.withEvent .preemption).roomF j ((rv.lastFloorCells v .preempted).length + 2) := fun j =>
    (State.roomF_withEvent ..).2 ((hq.roomF_iff ..).2 (hF j))
  have hm := Work.Makes.preempt (w := Work.start t) (u := t.withEvent .preemption) (R := True) (r := r) (rv := rv)
    ((Work.Makes.start True t).raise (fun _ => ⟨rfl, rfl⟩) fun _ => ((hq.roomL_iff _).2 hL).mono (by omega))
    ((State.call?_withEvent ..).trans hq.call) hne ((State.call?_withEvent ..).trans hrv) p i (fun _ => hL0.mono (by omega))
    (fun _ => hH0.mono (by omega)) fun _ f _ => (hF0 f.port).mono (by omega)
  rw [hq.step, Work.requestLane_preempts hu hn hv]
  refine congrArg _ (Work.Makes.finish ?_ ((hq.continues.takenRuns _).trans
    (Work.preempt_runs (w := Work.start t) p hne hrv i)))
  refine hq.continues.taken hm (fun _ _ => ?_) (fun _ _ => ?_) fun _ _ f _ => ?_
  · exact State.victimEnded_roomL (s := (t.withEvent .preemption).lanePassed p i h) hL0
  · exact State.victimEnded_roomH (s := (t.withEvent .preemption).lanePassed p i h) hH0
  · exact State.victimEnded_roomF (s := (t.withEvent .preemption).lanePassed p i h) (hF0 f.port)

end State.Requests

end

end Sys2Proof.Machine
end

