-- ==== Sys2Proof/Proofs/NewCallsAdmitted.lean ====
section
/-! PROOFS. The statements of the new calls that are admitted, queued, refused or preempt (R54 to R59, R65 to R67, R90 to R95,
R105 to R108, R111, R125 to R129, R132). -/

namespace Sys2Proof.Machine

open Sys2Proof

/-- The record of a new call, written again once it has its lane. -/
theorem State.made_laneTaken (u : State) (h : Handle) (a b : CallRecord) (p : Owned) (i : Nat) :
    ((u.putCall h a).laneTaken p i h).putCall h b = (u.putCall h b).laneTaken p i h := by
  rw [← State.putCall_putCall u h a b]
  rfl

/-- Settles O31: the five outcomes of the lane request that each of the four commands makes (`State.Requests`). -/
theorem laneRequests : Obligations.LaneRequests := by
  unfold Obligations.LaneRequests
  intro s c h r t p told ha hL hH hF
  obtain ⟨k, hq⟩ := ha.requests
  have hL1 : s.roomL 1 := hL.mono (by omega)
  have hL2 : s.roomL 2 := hL.mono (by omega)
  have hH1 : s.roomH 1 := hH.mono (by omega)
  have hF1 : ∀ j, s.roomF j 1 := fun j => (hF j).mono (by omega)
  refine ⟨fun hu => ?_, fun i hi => hq.admitted hi (fun _ => hL1) (fun _ => hH1) fun _ f _ => hF1 f.port,
    fun hu hn hv => ⟨fun hw => hq.queued hu hn hv hw hL1 hH1 hF1, fun hw tail rt ht hrt hne hwt hlt =>
      ⟨fun he => hq.displaced hu hn hv hw ht he hrt hne hwt hlt hL hH hF,
        fun he => hq.congested hu hn hv hw ht he hL2 hH1 hF1⟩⟩⟩
  rw [hq.unusable hu hL1 hH1 hF1]
  cases p <;> rfl

/-- Settles O27: the request for a lane of port H admitted, written out with the record made and the SETUP sent up. -/
theorem setupForwarded : Obligations.SetupForwarded := by
  unfold Obligations.SetupForwarded
  intro s key lane dest cls okind origin l o h rest i hp hu hl ho hd hs hk hm hf base hfire hroute hi hroom r
  obtain ⟨k, hq⟩ := (State.Asks.high key lane dest cls okind origin l o h rest _ hp hu hl ho hd hs hk hm hf hfire hroute
    rfl).requests
  have ha : s.admitLane .H (effPriority base 0) = some i := by rw [effPriority_zero]; exact hi
  rw [hq.admitted ha (fun h => by cases h) (fun _ => hroom) (fun _ f hf => by cases hf),
    State.goneOn_forwarded _ h i rfl (fun f hf => by cases hf)]
  rw [State.made_laneTaken]
  rfl

/-- The handsets of a captured flat that an offer goes to second (R24, R111). -/
theorem Slot.capture_firstSecond (x : Slot) (n : SlotNo) (a : Option Addr) :
    (x.capture n a).firstSecond = if x.mode = .paired then x.ext else none := by
  rw [FloorSide.firstSecond_eq]
  unfold Slot.capture
  cases hx : x.ext with
  | none => simp
  | some y => simp

/-- Settles O28: the request for a lane of the flat's port admitted, written out with the record made and the OFFER sent. -/
theorem setupOffered : Obligations.SetupOffered := by
  unfold Obligations.SetupOffered
  intro s key lane dest cls okind origin l o h rest k n i hp hu hl ho hd hs hk hm hf base x hfire hroute hquiet hact hi hroom
    second sent f r
  have hport : x.port = k := State.route_floor hroute
  obtain ⟨c, hq⟩ := (State.Asks.flat key lane dest cls okind origin l o h rest _ k n hp hu hl ho hd hs hk hm hf hfire hroute
    hquiet hact rfl).requests
  have ha : s.admitLane (.F k) (effPriority base 0) = some i := by rw [effPriority_zero]; exact hi
  have hfar : x.capture n none = { f with entries := [] } := by
    unfold Slot.capture
    rw [hport]
  have hsecond : (x.capture n none).firstSecond = second := x.capture_firstSecond n none
  have hroomF : s.roomF x.port 1 := hport ▸ hroom
  rw [hq.admitted ha (fun h => by cases h) (fun h => by cases h) (fun _ f' hf' => by cases hf'; exact hroomF),
    State.goneOn_offered _ h i rfl rfl, State.made_laneTaken, State.firstEntries_eq]
  rw [hsecond, hfar]
  rfl

/-- The first clause of O30. -/
theorem exec_setupFromAbove_admitted (s : State) (key : Key) (lane : Byte) (cls : Class) (okind : BitVec 2) (origin : Word)
    (o : Origin) (h : Handle) (rest : List Handle) (i : Nat) (hp : s.powered = true) (hu : s.receives .H = true)
    (hl : laneFieldOk lane = true) (ho : originOf okind origin = some o) (hs : key.side = .high)
    (hk : s.keyed .H key = none) (hf : s.freeHandles = h :: rest) (hfire : s.fireRefuses cls = false)
    (hserv : s.retained.service = .inService) (hi : s.admitLane .H cls.val = some i) (hH : s.roomH 1) (hL : s.roomL 1) :
    exec (.setupFromAbove key lane 0 cls okind origin) s = .next (((((s.madeDown h rest
      ((newDownward cls o 0 (.high (.opened key))).setUpOn h i s.retained.timers.grantWait)).laneTaken .H i h).sentH
        [laneGrantCell key (some i)]).sentL
        [setupCell s (newDownward cls o 0 (.high (.opened key))) (ownKey .L h) none])) := by
  obtain ⟨c, hq⟩ := (State.Asks.relayed key lane cls okind origin o h rest _ hp hu hl ho hs hk hf hfire hserv rfl).requests
  have ha : s.admitLane .H (effPriority cls 0) = some i := by rw [effPriority_zero]; exact hi
  rw [hq.admitted ha (fun _ => hL) (fun _ => hH) (fun h => by cases h), State.goneOn_down _ h i rfl, State.made_laneTaken]
  rfl

/-- The second clause of O30. -/
theorem exec_dial_admitted (s : State) (k : Floor) (a : Addr) (n : SlotNo) (role : Role) (h : Handle) (rest : List Handle)
    (i : Nat) (hp : s.powered = true) (hu : s.floorUp k = true) (hh : s.retained.handset k a = some (n, role))
    (hact : s.activity[n] = .idle) (hf : s.freeHandles = h :: rest) (hserv : s.retained.service = .inService)
    (hfire : s.fireRefuses s.retained.slots[n].callDown = false)
    (hi : s.admitLane (.F k) s.retained.slots[n].callDown.val = some i) (hL : s.roomL 1) :
    exec (.dial k a) s = .next ((((s.madeDown h rest ((newDownward s.retained.slots[n].callDown (.dialled n) 0
      (.floor (s.retained.slots[n].capture n (some a)))).setUpOn h i s.retained.timers.grantWait)).laneTaken (.F k) i
        h).putActivity n (.originating h)).sentL [setupCell s (newDownward s.retained.slots[n].callDown (.dialled n) 0
      (.floor (s.retained.slots[n].capture n (some a)))) (ownKey .L h) none]) := by
  obtain ⟨c, hq⟩ := (State.Asks.dial k a n role h rest _ hp hu hh hact hf hfire hserv rfl).requests
  have ha : s.admitLane (.F k) (effPriority s.retained.slots[n].callDown 0) = some i := by
    rw [effPriority_zero]; exact hi
  rw [hq.admitted ha (fun _ => hL) (fun h => by cases h) (fun h => by cases h), State.goneOn_down _ h i rfl]
  have hput : ∀ (u : State) (x y : CallRecord), (((u.putCall h x).putActivity n (.originating h)).laneTaken (.F k) i h).putCall
      h y = ((u.putCall h y).laneTaken (.F k) i h).putActivity n (.originating h) := fun u x y => by
    rw [← State.putCall_putCall u h x y]
    rfl
  rw [hput]
  have hkey : (newDownward s.retained.slots[n].callDown (.dialled n) 0
      (.floor (s.retained.slots[n].capture n (some a)))).openKey .H = none := rfl
  rw [hkey, Option.toList_none, List.map_nil, State.sentH_nil]
  rfl

/-- Settles O30: a SETUP from above and a DIAL whose lane requests are admitted. -/
theorem downwardAdmitted : Obligations.DownwardAdmitted := by
  unfold Obligations.DownwardAdmitted
  refine ⟨?above, ?dial⟩
  case above =>
    intro s key lane dest cls okind origin o h rest i hp hu hl ho hd hs hk hf hfire hserv hi hH hL r
    rw [hd, exec_setupFromAbove_admitted s key lane cls okind origin o h rest i hp hu hl ho hs hk hf hfire hserv hi hH hL]
    subst hd
    rfl
  case dial =>
    intro s k a n role h rest i hp hu hh hact hf hserv x hfire hi hL f r
    have hport : x.port = k := Retained.handset_port hh
    have hfar : x.capture n (some a) = f := by
      unfold Slot.capture
      rw [hport]
    rw [exec_dial_admitted s k a n role h rest i hp hu hh hact hf hserv hfire hi hL]
    have hr : (newDownward x.callDown (.dialled n) 0 (.floor (x.capture n (some a)))).setUpOn h i
        s.retained.timers.grantWait = r := by
      rw [hfar]
      rfl
    rw [hr]
    rfl

end Sys2Proof.Machine
end

