-- ==== Sys2Proof/Proofs/PreemptionPasses.lean ====
section
/-! PROOFS. Preemption in its statement: what it makes of the lane and of the victim, and the class 7 call to a flat (R56 to R59,
R72, R107). -/

namespace Sys2Proof.Machine

open Sys2Proof

/-! ## What a victim's end leaves -/

section
variable (s : State) (v : Handle) {rv : CallRecord} (p : Owned)

@[simp] theorem State.bare_ownedTold (r : CallRecord) (c : Progress) (d : Status) (l : Option Nat) :
    (s.ownedTold v r p c d l).bare = s.bare := by
  unfold State.ownedTold State.statusSent
  cases p with
  | H => exact s.bare_sentH _
  | F k =>
    dsimp only
    cases r.far with
    | floor f => exact s.bare_sentF ..
    | none => rfl
    | high side => rfl

theorem State.bare_parkedOn (r : CallRecord) :
    (s.parkedOn v r p).bare = (s.joined v { r with ownedLane := none } p .parked).bare := by
  rw [State.parkedOn_eq, State.bare_sentL, State.bare_ownedTold]

theorem State.ended_maps_noLane {r : CallRecord} (hl : r.ownedLane = none) (c : Cause) : (s.ended v r c).maps = s.maps := by
  rw [State.bare_maps (s.bare_ended v r c)]
  unfold State.callOver
  rw [hl]
  cases r.ownedPort <;> rfl

theorem State.victimEnded_maps : (s.victimEnded v rv p).maps = s.maps := by
  unfold State.victimEnded
  split
  · exact (State.bare_maps (s.bare_parkedOn v p rv)).trans rfl
  · exact s.ended_maps_noLane v rfl _

theorem State.joined_waiting_perm (r : CallRecord) (st : CallState) : ∃ x : WaitEntry, x.handle = v ∧ x.port = p ∧
    x.steps = 0 ∧ (s.joined v r p st).waiting.Perm (x :: s.waiting) :=
  ⟨_, rfl, rfl, rfl, State.placed_perm ..⟩

theorem State.parkedOn_call? : (s.parkedOn v rv p).call? v =
    some ({ rv with ownedLane := none }.waitingIn .parked s.retained.timers.laneWait) := by
  rw [State.bare_call? (s.bare_parkedOn v p rv)]
  exact State.call?_putCall_self ..

end

section
variable {w : Work} {h v : Handle} {p : Owned} {i : Nat} {rv : CallRecord}

/-- The tables that a preemption leaves, whatever room the queues have. -/
theorem Work.preempt_bare (hv : w.call? v = some rv) (hne : h ≠ v) (i : Nat) : (w.preempt h p i v).st.bare =
    ((w.laneWon h p i v).st.victimEnded v { rv with ownedLane := none } p).bare := by
  have h1 : (((w.takeLane h p i).dropOwnedCross p i).raise .preemption).call? v = some rv :=
    (Work.call?_modCall_ne _ _ hne).trans hv
  have h2 : (w.laneWon h p i v).st.call? v = some { rv with ownedLane := none } := by
    unfold Work.laneWon
    rw [Work.modCall_live h1]
    exact State.call?_putCall_self ..
  have hm : (w.laneWon h p i v).Makes False (w.laneWon h p i v).st := ⟨rfl, False.elim⟩
  exact (hm.endVictim h2 rfl p False.elim False.elim False.elim).bare

/-- The first clause of O47. -/
theorem Work.preempt_leaves (hv : w.call? v = some rv) (hne : h ≠ v) (hi : i < (w.st.map p).holders.length) :
    (w.preempt h p i v).st.holder p i = some h ∧
    ((w.preempt h p i v).st.map p).order = (w.st.map p).order.filter (· ≠ i) ++ [i] ∧
    (w.preempt h p i v).raised.call &&& Event.mask .preemption ≠ 0 ∧
    (rv.state = .connected → w.st.waiting.length < 16 → ∃ r', (w.preempt h p i v).call? v = some r' ∧
      r'.state = .parked ∧ r'.ownedLane = none ∧ r'.lLane = rv.lLane ∧
      (w.preempt h p i v).st.waiting.length = w.st.waiting.length + 1 ∧
      ∃ x ∈ (w.preempt h p i v).st.waiting, x.handle = v ∧ x.port = p ∧ x.steps = 0) ∧
    ((rv.state ≠ .connected ∨ 16 ≤ w.st.waiting.length) → ∀ r', (w.preempt h p i v).call? v = some r' →
      r'.state = .clearing ∧ r'.pendingCause = some .preempted ∧ r'.ownedLane = none) := by
  have hb := Work.preempt_bare (p := p) hv hne i
  have hmap : (w.preempt h p i v).st.map p =
      { holders := (w.st.map p).holders.set i (some h), order := (w.st.map p).order.filter (· ≠ i) ++ [i] } := by
    unfold State.map
    rw [State.bare_maps hb, State.victimEnded_maps]
    exact Vector.getElem_set_self _
  have hwait : (w.laneWon h p i v).st.waiting = w.st.waiting := rfl
  refine ⟨?holder, ?order, ?event, fun hc hl => ?parked, fun hc r' hr' => ?cleared⟩
  case holder =>
    unfold State.holder
    rw [hmap]
    simp [hi]
  case order => rw [hmap]
  case event =>
    have hhas : (w.laneWon h p i v).raised.Has .preemption := EventSets.has_add w.raised .preemption
    exact (Moves.rfl'.endVictim v p).has hhas
  case parked =>
    have he : (w.laneWon h p i v).st.victimEnded v { rv with ownedLane := none } p =
        (w.laneWon h p i v).st.parkedOn v { rv with ownedLane := none } p := if_pos ⟨hc, hl⟩
    rw [he] at hb
    refine ⟨_, (State.bare_call? hb v).trans (State.parkedOn_call? ..), rfl, rfl, rfl, ?_⟩
    obtain ⟨x, hxh, hxp, hxs, hperm⟩ := State.joined_waiting_perm (w.laneWon h p i v).st v p
      { rv with ownedLane := none } .parked
    rw [State.bare_waiting (hb.trans (State.bare_parkedOn ..))]
    exact ⟨hperm.length_eq, x, hperm.mem_iff.2 (by simp), hxh, hxp, hxs⟩
  case cleared =>
    have hn : ¬ (rv.state = .connected ∧ w.st.waiting.length < 16) := by
      rintro ⟨h1, h2⟩
      rcases hc with hc | hc
      · exact hc h1
      · omega
    have he : (w.laneWon h p i v).st.victimEnded v { rv with ownedLane := none } p =
        (w.laneWon h p i v).st.ended v { rv with ownedLane := none } .preempted := if_neg hn
    rw [he] at hb
    have h1 := (State.bare_call? hb v).symm.trans hr'
    rw [State.ended_call?_self] at h1
    split at h1
    · cases h1
      exact ⟨rfl, rfl, rfl⟩
    · cases h1

end

/-! ## A class 7 call to a flat with a call -/

/-- The end of an event that has freed the lane of one call (R60, R72). -/
theorem Work.Makes.regrants {w : Work} {u : State} {r : CallRecord} (hm : w.Makes True u) (hruns : w.runs = r.freedPort.toList)
    (hl : ∀ p, r.freedPort = some p → u.InLine (u.entriesFor p))
    (hroom : ∀ p, r.freedPort = some p → u.roomToGrant p (u.entriesFor p).length) : w.finish = u.regranted r := by
  unfold State.regranted
  cases hp : r.freedPort with
  | none => exact hm.finish (by rw [hruns, hp]; rfl)
  | some p =>
    refine (hm.runArbiter_one (p := p) (fun q => ?_) (hl p hp) fun _ => hroom p hp).flush
    rw [hruns, hp]
    simp [Bool.beq_eq_decide_eq]

/-- A lane request that is admitted, by its continuation. -/
theorem Work.Makes.laneAdmitted {R : Prop} {w : Work} {u : State} {h : Handle} {r : CallRecord} {p : Owned} {told : State → State}
    {k : Work → LaneOutcome → Work} (hm : w.Makes R u) (hr : u.call? h = some r) (hk : Continues k h r p told) {i : Nat}
    (hi : u.admitLane p (effPriority r.cls 0) = some i) (hL : R → r.dir = .down → u.roomL 1) (hH : R → p = .H → u.roomH 1)
    (hF : R → r.dir = .up → ∀ f, r.far = .floor f → u.roomF f.port 1) :
    (w.lane h p k).Makes R ((u.laneTaken p i h).goneOn h r i) ∧ (w.lane h p k).runs = w.runs := by
  have hi' : w.st.admitLane p (effPriority r.cls 0) = some i := (State.bare_admitLane hm.bare ..).trans hi
  have hw : w.lane h p k = k (w.takeLane h p i) .taken := by
    unfold Work.lane
    rw [Work.withCall_live ((State.bare_call? hm.bare h).trans hr), Work.requestLane_admitted hi']
  rw [hw]
  exact ⟨hk.taken (hm.takeLane hr p i) hL hH hF, (hk.takenRuns _).trans rfl⟩

/-- Settles O47: what the preemption makes of the lane and its victim, by any command; and the class 7 call to a flat, whose
victim ends first. -/
theorem preemptionPasses : Obligations.PreemptionPasses := by
  unfold Obligations.PreemptionPasses
  refine ⟨fun w h v p i rv hv hne _ hi => Work.preempt_leaves hv hne hi, ?any, ?flat⟩
  case any =>
    intro s c h r t p told ha i v rv hu hn hv hrv hne _ _ hL hH hF
    obtain ⟨k, hq⟩ := ha.requests
    exact hq.preempts hu hn hv hrv hne hL hH hF
  case flat =>
    intro s key lane dest okind origin l o h rest k n v rv fv i hp hu hl ho hd hs hk hm hf hbase hfire hroute hact hfree hv hfar
      waiters hline hL hH hF r t u hi
    have hne : h ≠ v := fun e => by rw [e, hv] at hfree; cases hfree
    have hport : s.retained.slots[n].port = k := State.route_floor hroute
    have hvt : t.call? v = some rv := (State.call?_putCall_ne _ _ hne).trans hv
    have hexec : exec (.setupFromBelow key lane dest 7 okind origin) s = .next ((((Work.start t).raise .preemption).release v
        .preempted).askFloor h k n).finish := by
      rw [exec_setupFromBelow_made hp hu hl ho hd hs hk hm hf, hbase, Work.routeUp_floor (t := s.madeUp h rest l
        (newUpward 7 o dest key l .none)) hfire hroute, Work.routeFloor_passes (t := s.madeUp h rest l
        (newUpward 7 o dest key l .none)) (State.call?_putCall_self ..) k (.inl rfl)]
      simp only [show (s.madeUp h rest l (newUpward 7 o dest key l .none)).activity[n].handle? = some v from hact]
      rw [if_pos trivial, State.putCall_putCall]
      rfl
    have hLt : t.roomL (2 + waiters.length) := hL
    have hHt : t.roomH 1 := hH
    have hFt : ∀ j, t.roomF j ((rv.lastFloorCells v .preempted).length + 1 + waiters.length) := hF
    have hLe : (t.withEvent .preemption).roomL (1 + waiters.length) := State.roomL_withEvent (hLt.mono (by omega))
    have hHe : (t.withEvent .preemption).roomH 1 := (State.roomH_withEvent ..).2 hHt
    have hFe : ∀ j, (t.withEvent .preemption).roomF j ((rv.lastFloorCells v .preempted).length + 1 + waiters.length) :=
      fun j => (State.roomF_withEvent ..).2 (hFt j)
    have hLc := rv.releaseCells_length .preempted .L
    have hHc := rv.releaseCells_length .preempted .H
    have hve : (t.withEvent .preemption).call? v = some rv := (State.call?_withEvent ..).trans hvt
    have h1 : (((Work.start t).raise .preemption).release v .preempted).Makes True u :=
      ((Work.Makes.start True t).raise (fun _ => ⟨rfl, rfl⟩) fun _ => hLt.mono (by omega)).release hve .preempted
        (fun _ => hLe.mono (by omega)) (fun _ => hHe.mono (by omega)) fun _ f _ => (hFe f.port).mono (by omega)
    have hruns : (((Work.start t).raise .preemption).release v .preempted).runs = rv.freedPort.toList := by
      rw [Work.release_runs (w := (Work.start t).raise .preemption) hvt]
      simp
    have hcall : u.call? h = some r := by
      show ((t.withEvent .preemption).ended v rv .preempted).call? h = some r
      rw [State.ended_call?_ne _ _ _ _ (Ne.symm hne), State.call?_withEvent]
      exact State.call?_putCall_self ..
    have hLu : u.roomL waiters.length := State.ended_roomL (hLe.mono (by omega))
    have hFu : ∀ j, u.roomF j (1 + waiters.length) := fun j =>
      State.ended_roomF (fun _ _ _ => (hFe j).mono (by omega)) ((hFe j).mono (by omega))
    have hcont : Continues (afterFloor h n) h r (.F k) fun u => (u.sentL [progressCell key .queued]).putActivity n
        (.pending h) := by
      rw [← hport]
      exact continues_flat (f := s.retained.slots[n].capture n none) (key := key) rfl rfl rfl
    have hi' : u.admitLane (.F k) (effPriority r.cls 0) = some i := by rw [effPriority_zero]; exact hi
    obtain ⟨h2, hruns2⟩ := h1.laneAdmitted hcall hcont hi' (fun _ hd => by cases hd) (fun _ hp => by cases hp)
      fun _ _ f _ => (hFu f.port).mono (by omega)
    have hgone := State.goneOn_offered (u.laneTaken (.F k) i h) h i (r := r) rfl rfl
    have hgoes := State.goneOn_goesOn (u.laneTaken (.F k) i h) h i (r := r) (p := .F k) (hport ▸ rfl)
    have hentries : ∀ p, rv.freedPort = some p → ((u.laneTaken (.F k) i h).goneOn h r i).entriesFor p = waiters := fun p hp => by
      have he : ((u.laneTaken (.F k) i h).goneOn h r i).entriesFor p = u.entriesFor p :=
        congrArg (List.filter fun x : WaitEntry => decide (x.port = p)) hgoes.waiting
      rw [he, State.ended_entriesFor hp, State.withEvent_waitersOn]
      rfl
    rw [hexec]
    refine congrArg _ (h2.regrants (hruns2.trans hruns) (fun p hp => ?_) fun p hp => ?_)
    · rw [hentries p hp]
      refine hline.congr fun x hx => ?_
      have hxv : x.handle ≠ v := fun e => by
        have := (List.mem_filter.1 hx).2
        simp [e] at this
      have hxh : h ≠ x.handle := fun e => by
        obtain ⟨y, hy, -⟩ := hline.2 x hx
        rw [← e, hfree] at hy
        cases hy
      rw [hgoes.call?_ne hxh]
      show ((t.withEvent .preemption).ended v rv .preempted).call? x.handle = _
      rw [State.ended_call?_ne _ _ _ _ (Ne.symm hxv), State.call?_withEvent]
      exact State.call?_putCall_ne _ _ hxh
    · rw [hentries p hp, hgone]
      have hfloor : p ≠ .H := fun e => by
        obtain ⟨side, hside⟩ := CallRecord.far_of_ownedPort_H (e ▸ CallRecord.ownedPort_of_freed hp)
        rw [hfar] at hside
        cases hside
      have hF' : ∀ j, ((u.laneTaken (.F k) i h).putCall h (r.offeredOn (s.retained.slots[n].capture n none) i
          ((u.laneTaken (.F k) i h).firstEntries (s.retained.slots[n].capture n none)))).roomF j (1 + waiters.length) := hFu
      refine ⟨(State.roomL_sentF ..).2 hLu, fun e => absurd e hfloor, fun j _ => ?_⟩
      by_cases hj : (s.retained.slots[n].capture n none).port = j
      · subst hj
        exact State.roomF_sentF (hF' _)
      · exact State.roomF_sentF_ne hj ((hF' j).mono (by omega))

end Sys2Proof.Machine
end

