-- ==== Sys2Proof/Proofs/SetupsRefused.lean ====
section
/-! PROOFS. New calls that are discarded, or refused before they ask for a lane (R6, R22, R23, R27 to R30, R88 to R92, R105, R106,
R131, R132). -/

namespace Sys2Proof.Machine

open Sys2Proof

/-! ## The routing lookup (R22, R23, R28, R29) -/

/-- The lowest place of a vector whose element passes a test. -/
theorem Vector.find?_lowest {α : Type} {n : Nat} {v : Vector α n} {P : α → Bool} (i : Fin n) (hi : P v[i] = true)
    (hlow : ∀ j < i, ¬ P v[j] = true) : v.toList.find? P = some v[i] := by
  rw [List.find?_eq_some_iff_getElem]
  refine ⟨hi, i.val, by simp, by simp, fun j hj => ?_⟩
  have := hlow ⟨j, by omega⟩ hj
  simpa using this

theorem Vector.find?_none {α : Type} {n : Nat} {v : Vector α n} {P : α → Bool} (h : ∀ i : Fin n, ¬ P v[i] = true) :
    v.toList.find? P = none := by
  rw [List.find?_eq_none]
  intro x hx
  obtain ⟨i, hi, rfl⟩ := List.getElem_of_mem hx
  have := h ⟨i, by simpa using hi⟩
  simpa using this

/-- A window contains a number (R22). -/
def Window.Contains (x : Window) (n : Nat) : Prop := x.base ≤ x.limit ∧ x.base ≤ n ∧ n ≤ x.limit

theorem Window.contains_iff {x : Window} {n : Nat} : x.contains n = true ↔ x.Contains n := decide_eq_true_iff

section
variable {d : Retained} {n : Nat}

theorem Retained.target_none (h : ∀ i : Fin 8, ¬ d.ordinary[i].Contains n) : d.target n = .high := by
  unfold Retained.target
  rw [Vector.find?_none fun i hi => h i (Window.contains_iff.1 hi)]

theorem Retained.target_ordinary (i : Fin 8) (hi : d.ordinary[i].Contains n) (hlow : ∀ j < i, ¬ d.ordinary[j].Contains n)
    (hno : ∀ j : Fin 4, ¬ d.exceptions[j].Contains n) : d.target n = d.ordinary[i].target := by
  unfold Retained.target
  rw [Vector.find?_lowest (P := fun x : Window => x.contains n) i (Window.contains_iff.2 hi) fun j hj h => hlow j hj (Window.contains_iff.1 h),
    Vector.find?_none (P := fun x : Window => x.contains n) fun j hj => hno j (Window.contains_iff.1 hj)]

theorem Retained.target_exception (i : Fin 8) (hi : d.ordinary[i].Contains n) (hlow : ∀ j < i, ¬ d.ordinary[j].Contains n)
    (m : Fin 4) (hm : d.exceptions[m].Contains n) (hmlow : ∀ j < m, ¬ d.exceptions[j].Contains n) :
    d.target n = d.exceptions[m].target := by
  unfold Retained.target
  rw [Vector.find?_lowest (P := fun x : Window => x.contains n) i (Window.contains_iff.2 hi) fun j hj h => hlow j hj (Window.contains_iff.1 h),
    Vector.find?_lowest (P := fun x : Window => x.contains n) m (Window.contains_iff.2 hm) fun j hj h => hmlow j hj (Window.contains_iff.1 h)]

theorem Retained.slotOf_none (h : ∀ i : SlotNo, d.slots[i].number ≠ n) : d.slotOf n = none := by
  unfold Retained.slotOf
  rw [List.find?_eq_none]
  intro i _ hi
  simp only [Bool.and_eq_true, beq_iff_eq] at hi
  exact h i hi.2

theorem Retained.slotOf_lowest (hn : n ≠ 0) (i : SlotNo) (hi : d.slots[i].number = n)
    (hlow : ∀ j < i, d.slots[j].number ≠ n) : d.slotOf n = some i := by
  unfold Retained.slotOf
  rw [List.find?_eq_some_iff_getElem]
  have hocc : d.slots[i].occupied = true := decide_eq_true (by rw [hi]; exact hn)
  refine ⟨by rw [Bool.and_eq_true]; exact ⟨hocc, beq_iff_eq.2 hi⟩, i.val, by simp [allSlots], by simp [allSlots], fun j hj => ?_⟩
  have := hlow ⟨j, by omega⟩ hj
  simp only [allSlots, List.getElem_finRange, Bool.not_eq_true', Bool.and_eq_false_imp]
  intro _
  simpa using this

end

/-- The route that a target gives in service (R28, R29). -/
structure State.RouteOf (s : State) (n : Nat) : Prop where
  high    : s.retained.target n = .high → s.route n = if s.top then .refused .noSuchApartment false else .high
  bar     : s.retained.target n = .bar → s.route n = .refused .barred false
  noSlot  : ∀ k, s.retained.target n = .floor k → s.retained.slotOf n = none → s.route n = .refused .noSuchApartment false
  slot    : ∀ k i, s.retained.target n = .floor k → s.retained.slotOf n = some i →
    s.route n = if s.retained.slots[i].port ≠ k then .refused .noSuchApartment true
      else if s.floorUp k then .floor k i else .refused .lineFault false

theorem State.route_in {s : State} {n : Nat} (hs : s.retained.service = .inService) (hn : n ≠ 0) : s.RouteOf n := by
  have hout : s.retained.service ≠ .outOfService := by rw [hs]; decide
  refine ⟨fun ht => ?_, fun ht => ?_, fun k ht hi => ?_, fun k i ht hi => ?_⟩
  all_goals unfold State.route
  all_goals rw [if_neg hout, if_neg hn]
  all_goals simp only [ht]
  all_goals simp only [hi]

/-- The target that the windows give a number (R23, R28). -/
def Retained.Chosen (d : Retained) (n : Nat) (x : Target) : Prop :=
  ((∀ i : Fin 8, ¬ d.ordinary[i].Contains n) ∧ x = .high) ∨
  ∃ i : Fin 8, (d.ordinary[i].Contains n ∧ ∀ j < i, ¬ d.ordinary[j].Contains n) ∧
    (((∀ j : Fin 4, ¬ d.exceptions[j].Contains n) ∧ x = d.ordinary[i].target) ∨
      ∃ j : Fin 4, d.exceptions[j].Contains n ∧ (∀ m < j, ¬ d.exceptions[m].Contains n) ∧ x = d.exceptions[j].target)

theorem Retained.Chosen.target {d : Retained} {n : Nat} {x : Target} (h : d.Chosen n x) : d.target n = x := by
  obtain ⟨hno, rfl⟩ | ⟨i, ⟨hi, hlow⟩, ⟨hno, rfl⟩ | ⟨j, hj, hjlow, rfl⟩⟩ := h
  · exact Retained.target_none hno
  · exact Retained.target_ordinary i hi hlow hno
  · exact Retained.target_exception i hi hlow j hj hjlow

/-! ## Discards -/

section
variable {s : State} {key : Key} {lane : Byte} {dest : Word} {cls : Class} {okind : BitVec 2} {origin : Word} {o : Origin}
  {l : LLane}

theorem exec_setupFromBelow_discarded (hp : s.powered = true) (hu : s.receives .L = true)
    (hbad : laneOf lane = none ∨ originOf okind origin = none ∨ 9999 < dest.toNat ∨ key.side = .high ∨ s.keyed .L key ≠ none ∨
      ∃ l, laneOf lane = some l ∧ s.mirror[l] ≠ none) (hroom : s.roomL 1) :
    exec (.setupFromBelow key lane dest cls okind origin) s = .next (s.withEvent .protocol) := by
  have h0 : exec (.setupFromBelow key lane dest cls okind origin) s =
      execSetupFromBelow key lane dest cls okind origin s := rfl
  rw [h0, execSetupFromBelow]
  refine onRiser_raise hp hu hroom ?_
  cases hl : laneOf lane with
  | none => rfl
  | some l =>
    cases ho : originOf okind origin with
    | none => rfl
    | some o =>
      have hno : ¬ (dest.toNat ≤ 9999 ∧ key.side = .low ∧ s.keyed .L key = none ∧ s.mirror[l] = none) := by
        rintro ⟨hd, hs, hk, hm⟩
        obtain h | h | h | h | h | ⟨l', hl', hm'⟩ := hbad
        · rw [hl] at h; cases h
        · rw [ho] at h; cases h
        · omega
        · rw [hs] at h; cases h
        · exact h hk
        · rw [hl] at hl'
          cases hl'
          exact hm' hm
      exact if_neg hno

/-- No free handle: the SETUP is refused TABLE_FULL without a record (R89). -/
theorem exec_setupFromBelow_full (hp : s.powered = true) (hu : s.receives .L = true) (hl : laneOf lane = some l)
    (ho : originOf okind origin = some o) (hd : dest.toNat ≤ 9999) (hs : key.side = .low) (hk : s.keyed .L key = none)
    (hm : s.mirror[l] = none) (hf : s.freeHandles = []) (hroom : s.roomL 2) :
    exec (.setupFromBelow key lane dest cls okind origin) s =
      .next ((s.withEvent .tableFull).sentL [releaseCell key .tableFull]) := by
  have h0 : exec (.setupFromBelow key lane dest cls okind origin) s =
      execSetupFromBelow key lane dest cls okind origin s := rfl
  have hst : (Work.start s).st = s := rfl
  rw [h0, execSetupFromBelow, onRiser_receives hp hu]
  simp only [hl, ho, hst]
  rw [if_pos ⟨hd, hs, hk, hm⟩]
  simp only [hf]
  rw [← Commutes.sendL (releaseCell key .tableFull) (Work.start s) .tableFull]
  exact congrArg _ ((((Work.Makes.start True s).raise (fun _ => ⟨rfl, rfl⟩) fun _ => hroom.mono (by omega)).sendL
    fun _ => State.roomL_withEvent hroom).finish (by simp))

theorem exec_setupFromAbove_discarded (hp : s.powered = true) (hu : s.receives .H = true)
    (hbad : laneFieldOk lane = false ∨ originOf okind origin = none ∨ 9999 < dest.toNat ∨ key.side = .low ∨
      s.keyed .H key ≠ none) (hroom : s.roomL 1) :
    exec (.setupFromAbove key lane dest cls okind origin) s = .next (s.withEvent .protocol) := by
  have h0 : exec (.setupFromAbove key lane dest cls okind origin) s =
      execSetupFromAbove key lane dest cls okind origin s := rfl
  rw [h0, execSetupFromAbove]
  refine onRiser_raise hp hu hroom ?_
  cases ho : originOf okind origin with
  | none => rfl
  | some o =>
    have hno : ¬ (laneFieldOk lane = true ∧ dest.toNat ≤ 9999 ∧ key.side = .high ∧ s.keyed .H key = none) := by
      rintro ⟨hl, hd, hs, hk⟩
      obtain h | h | h | h | h := hbad
      · rw [hl] at h; cases h
      · rw [ho] at h; cases h
      · omega
      · rw [hs] at h; cases h
      · exact h hk
    exact if_neg hno

theorem exec_setupFromAbove_full (hp : s.powered = true) (hu : s.receives .H = true) (hl : laneFieldOk lane = true)
    (ho : originOf okind origin = some o) (hd : dest.toNat ≤ 9999) (hs : key.side = .high) (hk : s.keyed .H key = none)
    (hf : s.freeHandles = []) (hL : s.roomL 1) (hH : s.roomH 1) :
    exec (.setupFromAbove key lane dest cls okind origin) s =
      .next ((s.withEvent .tableFull).sentH [releaseCell key .tableFull]) := by
  have h0 : exec (.setupFromAbove key lane dest cls okind origin) s =
      execSetupFromAbove key lane dest cls okind origin s := rfl
  have hst : (Work.start s).st = s := rfl
  rw [h0, execSetupFromAbove, onRiser_receives hp hu]
  simp only [ho, hst]
  rw [if_pos ⟨hl, hd, hs, hk⟩]
  simp only [hf]
  rw [← Commutes.sendH (releaseCell key .tableFull) (Work.start s) .tableFull]
  exact congrArg _ ((((Work.Makes.start True s).raise (fun _ => ⟨rfl, rfl⟩) fun _ => hL).sendH
    fun _ => (State.roomH_withEvent ..).2 hH).finish (by simp))

end

/-! ## Refusals of a record just made -/

section
variable {t u : State} {w : Work} {h : Handle} {r : CallRecord} {cls : Class} {dest : Word} {c : Cause}

/-- A record just made leaves its call: it has no lane. -/
theorem Work.Makes.refused (hm : w.Makes True u) (hr : u.call? h = some r) (hl : r.ownedLane = none) (hn : w.runs = [])
    (c : Cause) (hL : u.roomL (r.releaseCells .L c).length) (hH : u.roomH (r.releaseCells .H c).length)
    (hF : ∀ f, r.far = .floor f → u.roomF f.port (r.lastFloorCells h c).length) : (w.release h c).finish = u.ended h r c :=
  (hm.release hr c (fun _ => hL) (fun _ => hH) fun _ => hF).finish
    ((Work.release_runs_noLane ((State.bare_call? hm.bare h).trans hr) hl c).trans hn)

theorem Work.routeUp_fire (hfire : t.fireRefuses cls = true) (h : Handle) (dest : Word) :
    (Work.start t).routeUp h cls dest = (Work.start t).release h .fireMode := if_pos hfire

theorem Work.routeUp_refused (hfire : t.fireRefuses cls = false) {b : Bool} (hroute : t.route dest.toNat = .refused c b) :
    (Work.start t).routeUp h cls dest =
      (if b then (Work.start t).raise .directoryMismatch else Work.start t).release h c := by
  have hf : ¬ (Work.start t).st.fireRefuses cls = true := by
    show ¬ t.fireRefuses cls = true
    rw [hfire]
    decide
  rw [Work.routeUp, if_neg hf]
  simp only [show (Work.start t).st.route dest.toNat = .refused c b from hroute]

/-- A downward record that fire mode, the service state or the destination refuses (R128, R132). -/
theorem Work.routeCallDown_refused {p : Owned} (hc : (t.fireRefuses cls = true ∧ c = .fireMode) ∨
    (t.fireRefuses cls = false ∧ ∃ b, t.routeDown dest.toNat = .refused c b)) :
    (Work.start t).routeCallDown h cls dest p = (Work.start t).release h c := by
  unfold Work.routeCallDown
  obtain ⟨hfire, rfl⟩ | ⟨hfire, b, hroute⟩ := hc
  · exact if_pos hfire
  · have hf : ¬ (Work.start t).st.fireRefuses cls = true := by
      show ¬ t.fireRefuses cls = true
      rw [hfire]
      decide
    rw [if_neg hf]
    simp only [show (Work.start t).st.routeDown dest.toNat = .refused c b from hroute]

theorem Work.routeFloor_quiet (hr : t.call? h = some r) {n : SlotNo} (k : Floor)
    (hq : ¬ (cls = 7 ∨ t.retained.slots[n].quiet < cls)) : (Work.start t).routeFloor h cls k n =
      (Work.start (t.putCall h (r.toFlat t.retained.slots[n] n))).release h .quiet := by
  have hpass : ¬ passesQuiet cls (Work.start t).st.retained.slots[n].quiet = true := fun hp => hq ((passesQuiet_iff ..).1 hp)
  rw [Work.routeFloor, Work.start_modCall hr, if_neg hpass]
  rfl

theorem Work.routeFloor_busy (hr : t.call? h = some r) {n : SlotNo} (k : Floor) (h7 : cls ≠ 7)
    (hq : t.retained.slots[n].quiet < cls) (ha : t.activity[n] ≠ .idle) : (Work.start t).routeFloor h cls k n =
      (Work.start (t.putCall h (r.toFlat t.retained.slots[n] n))).release h .busy := by
  rw [Work.routeFloor_passes hr k (.inr hq)]
  cases hact : t.activity[n] with
  | idle => exact absurd hact ha
  | pending v => exact if_neg h7
  | offered v => exact if_neg h7
  | engaged v => exact if_neg h7
  | originating v => exact if_neg h7

/-- The release of an upward record just made sends one RELEASE down port L and nothing else. -/
theorem Work.Makes.refusedUp {o : Origin} {key : Key} {l : LLane} {far : Far} (hm : w.Makes True u)
    (hr : u.call? h = some (newUpward cls o dest key l far)) (hn : w.runs = []) (c : Cause) (hL : u.roomL 1)
    (hfar : far = .none ∨ ∃ x n, far = .floor (Slot.capture x n none)) :
    (w.release h c).finish = u.ended h (newUpward cls o dest key l far) c := by
  refine hm.refused hr rfl hn c (hL.mono (CallRecord.releaseCells_length ..)) ?_ ?_
  · rcases hfar with rfl | ⟨x, n, rfl⟩ <;> exact fun _ => .inl rfl
  · rcases hfar with rfl | ⟨x, n, rfl⟩
    · intro f hf; cases hf
    · intro f hf; exact fun _ => .inl rfl

end

/-- Settles O32: each test of a SETUP from above in its order. -/
theorem setupFromAboveRefused : Obligations.SetupFromAboveRefused := by
  unfold Obligations.SetupFromAboveRefused
  intro s key lane dest cls okind origin hp hu hL hH
  refine ⟨fun hbad => exec_setupFromAbove_discarded hp hu hbad hL, fun o hl ho hd hs hk =>
    ⟨fun hf => exec_setupFromAbove_full hp hu hl ho hd hs hk hf hL hH, fun h rest c hf hc => ?_⟩⟩
  intro r
  have hmade : exec (.setupFromAbove key lane dest cls okind origin) s =
      .next ((Work.start (s.madeDown h rest r)).routeCallDown h cls dest .H).finish :=
    exec_setupFromAbove_made hp hu hl ho hd hs hk hf
  rw [hmade, Work.routeCallDown_refused (t := s.madeDown h rest r) (c := c) ?_]
  · exact congrArg _ ((Work.Makes.start True _).refused (State.call?_putCall_self ..) rfl rfl c
      (State.roomL.mono (s := s) hL (CallRecord.releaseCells_length ..))
      (State.roomH.mono (s := s) hH (CallRecord.releaseCells_length ..)) fun f hf => by cases hf)
  · obtain ⟨hfire, rfl⟩ | ⟨hfire, hserv, rfl⟩ | ⟨hfire, hserv, hd0, rfl⟩ := hc
    · exact .inl ⟨hfire, rfl⟩
    · exact .inr ⟨hfire, false, if_pos hserv⟩
    · refine .inr ⟨hfire, false, ?_⟩
      have hne : dest.toNat ≠ 0 := fun e => hd0 (BitVec.eq_of_toNat_eq e)
      unfold State.routeDown
      rw [if_neg (by rw [show (s.madeDown h rest r).retained.service = _ from hserv]; decide), if_pos hne]

/-- Settles O29: the lookup by the lowest windows, the clamp, and each test of an upward SETUP in its order. -/
theorem setupRefused : Obligations.SetupRefused := by
  unfold Obligations.SetupRefused
  refine ⟨?route, ?clamp, ?tests, ?refused⟩
  case route =>
    intro s n d inside lowest chosen
    refine ⟨fun hs => if_pos hs, fun hs hn => ?_, fun hs hn => ⟨fun hc => ?_, fun hc => ?_, fun k hc => ⟨fun hno => ?_,
      fun i hi hlow => ⟨fun hk => ?_, fun hk => ?_⟩⟩⟩⟩
    · unfold State.route
      rw [if_neg (by rw [hs]; decide), if_pos hn]
    all_goals have hroute := State.route_in (s := s) hs hn
    all_goals have ht := Retained.Chosen.target (d := s.retained) (n := n) hc
    · exact hroute.high ht
    · exact hroute.bar ht
    · exact hroute.noSlot k ht (Retained.slotOf_none hno)
    · rw [hroute.slot k i ht (Retained.slotOf_lowest hn i hi hlow)]
      exact if_pos hk
    · rw [hroute.slot k i ht (Retained.slotOf_lowest hn i hi hlow)]
      exact if_neg (not_not.2 hk)
  case clamp =>
    intro d o cls
    refine ⟨fun m hm => by rw [hm]; rfl, fun hno => ?_⟩
    cases o with
    | panel m => exact absurd rfl (hno m)
    | apartment x => rfl
    | dialled x => rfl
    | firePosition x => rfl
  case tests =>
    intro s key lane dest cls okind origin hp hu
    exact ⟨fun hbad hroom => exec_setupFromBelow_discarded hp hu hbad hroom,
      fun l o hl ho hd hs hk hm hf hroom => exec_setupFromBelow_full hp hu hl ho hd hs hk hm hf hroom⟩
  case refused =>
    intro s key lane dest cls okind origin l o h rest hp hu hl ho hd hs hk hm hf hroom base r t
    have hmade : exec (.setupFromBelow key lane dest cls okind origin) s =
        .next ((Work.start (t.putCall h (r .none))).routeUp h base dest).finish :=
      exec_setupFromBelow_made hp hu hl ho hd hs hk hm hf
    have hcall : ∀ far, (t.putCall h (r far)).call? h = some (r far) := fun far => State.call?_putCall_self ..
    refine ⟨fun hfire => ?_, fun c hfire hroute => ?_, fun c hfire hroute hroom2 => ?_, fun k n hfire hroute =>
      ⟨fun hq => ?_, fun hq ha => ?_⟩⟩
    all_goals rw [hmade]
    · rw [Work.routeUp_fire (t := t.putCall h (r .none)) hfire]
      exact congrArg _ ((Work.Makes.start True _).refusedUp (hcall _) rfl _ hroom (.inl rfl))
    · rw [Work.routeUp_refused (t := t.putCall h (r .none)) hfire hroute]
      exact congrArg _ ((Work.Makes.start True _).refusedUp (hcall _) rfl _ hroom (.inl rfl))
    · rw [Work.routeUp_refused (t := t.putCall h (r .none)) hfire hroute]
      have hm1 := (Work.Makes.start True (t.putCall h (r .none))).raise (e := .directoryMismatch) (fun _ => ⟨rfl, rfl⟩)
        fun _ => hroom
      exact congrArg _ (hm1.refusedUp ((State.call?_withEvent ..).trans (hcall _)) rfl _
        (State.roomL_withEvent (s := t.putCall h (r .none)) hroom2) (.inl rfl))
    · rw [Work.routeUp_floor (t := t.putCall h (r .none)) hfire hroute, Work.routeFloor_quiet (hcall _) k hq,
        State.putCall_putCall]
      exact congrArg _ ((Work.Makes.start True _).refusedUp (hcall _) rfl _ hroom (.inr ⟨_, _, rfl⟩))
    · rw [Work.routeUp_floor (t := t.putCall h (r .none)) hfire hroute, Work.routeFloor_busy (hcall _) k hq.1 hq.2 ha,
        State.putCall_putCall]
      exact congrArg _ ((Work.Makes.start True _).refusedUp (hcall _) rfl _ hroom (.inr ⟨_, _, rfl⟩))

end Sys2Proof.Machine
end

