-- ==== Sys2Proof/Proofs/DialAnswered.lean ====
section
/-! PROOFS. A DIAL that begins no call-down, or whose record is freed at once (R10, R121, R122, R126 to R128). -/

namespace Sys2Proof.Machine

open Sys2Proof

section
variable {s : State} {k : Floor} {a : Addr} {n : SlotNo} {role : Role} {h v : Handle} {r : CallRecord} {f : FloorSide} {c : Cause}

/-- A DIAL that is received is the event of its handset's flat. -/
theorem exec_dial_received (hp : s.powered = true) (hu : s.floorUp k = true) {w : Work}
    (hw : (match s.retained.handset k a with
      | none => (Work.start s).sendF k (clearedCell 0 a .noSuchApartment)
      | some (i, _) => match s.activity[i] with
        | .idle => (Work.start s).callDown k a i
        | .offered h => (Work.start s).connectFlat h a
        | .pending h => (Work.start s).preAnswer h k a
        | .engaged _ | .originating _ => (Work.start s).sendF k (clearedCell 0 a .busy)) = w) :
    exec (.dial k a) s = .next w.finish := by
  rw [exec_dial, execDial, onFloor_receives hp hu, ← hw]
  rfl

/-- A cell to the dialling handset and nothing more. -/
theorem Work.answered_finish (hroom : s.roomF k 1) (x : FloorCell) : ((Work.start s).sendF k x).finish = s.sentF k [x] :=
  ((Work.Makes.start True s).sendF fun _ => hroom).finish (by simp)

/-- A cell for a floor port whose queue is full is discarded (R10). -/
theorem Work.sendF_full {w : Work} (hu : w.st.floorUp k = true) (hfull : 16 ≤ w.st.floors[k].queue.length) (x : FloorCell) :
    w.sendF k x = w.raise .txOverflow := by
  unfold Work.sendF
  rw [if_pos hu, if_neg (by show ¬ _ < 16; omega)]

theorem exec_dial_full (hp : s.powered = true) (hu : s.floorUp k = true) (hL : s.roomL 1)
    (hfull : 16 ≤ s.floors[k].queue.length) (hh : s.retained.handset k a = none) :
    exec (.dial k a) s = .next (s.withEvent .txOverflow) := by
  have h1 : exec (.dial k a) s = .next ((Work.start s).raise .txOverflow).finish := by
    refine exec_dial_received hp hu ?_
    rw [hh]
    exact Work.sendF_full hu hfull _
  rw [h1]
  exact congrArg _ (((Work.Makes.start True s).raise (fun _ => ⟨rfl, rfl⟩) fun _ => hL).finish rfl)

theorem exec_dial_noFlat (hp : s.powered = true) (hu : s.floorUp k = true) (hF : s.roomF k 1)
    (hh : s.retained.handset k a = none) :
    exec (.dial k a) s = .next (s.sentF k [clearedCell 0 a .noSuchApartment]) := by
  rw [exec_dial_received hp hu (by rw [hh]), Work.answered_finish hF]

theorem exec_dial_ownCall (hp : s.powered = true) (hu : s.floorUp k = true) (hF : s.roomF k 1)
    (hh : s.retained.handset k a = some (n, role)) (ha : s.activity[n] = .engaged v ∨ s.activity[n] = .originating v) :
    exec (.dial k a) s = .next (s.sentF k [clearedCell 0 a .busy]) := by
  have h1 : exec (.dial k a) s = .next ((Work.start s).sendF k (clearedCell 0 a .busy)).finish := by
    refine exec_dial_received hp hu ?_
    rw [hh]
    obtain ha | ha := ha <;> simp only [ha]
  rw [h1, Work.answered_finish hF]

theorem exec_dial_idle (hp : s.powered = true) (hu : s.floorUp k = true) (hh : s.retained.handset k a = some (n, role))
    (ha : s.activity[n] = .idle) : exec (.dial k a) s = .next ((Work.start s).callDown k a n).finish := by
  refine exec_dial_received hp hu ?_
  rw [hh]
  simp only [ha]

theorem exec_dial_tableFull (hp : s.powered = true) (hu : s.floorUp k = true) (hF : s.roomF k 1)
    (hh : s.retained.handset k a = some (n, role)) (ha : s.activity[n] = .idle) (hf : s.freeHandles = []) (hL : s.roomL 1) :
    exec (.dial k a) s = .next ((s.withEvent .tableFull).sentF k [clearedCell 0 a .tableFull]) := by
  have hw : (Work.start s).callDown k a n = ((Work.start s).raise .tableFull).sendF k (clearedCell 0 a .tableFull) := by
    refine Eq.trans ?_ (Commutes.sendF k (clearedCell 0 a .tableFull) (Work.start s) .tableFull).symm
    unfold Work.callDown
    simp only [show (Work.start s).st.freeHandles = [] from hf]
  rw [exec_dial_idle hp hu hh ha, hw]
  exact congrArg _ ((((Work.Makes.start True s).raise (fun _ => ⟨rfl, rfl⟩) fun _ => hL).sendF
    fun _ => (State.roomF_withEvent ..).2 hF).finish (by simp))

/-- The record of a call-down that has no lane yet. -/
abbrev dialledCall (cls : Class) (x : Slot) (n : SlotNo) (a : Addr) : CallRecord :=
  newDownward cls (.dialled n) 0 (.floor (x.capture n (some a)))

/-- The record of a DIAL that is refused is freed at once: no side of it is open (R128, R145). -/
theorem State.ended_dialled {rest : List Handle} (ha : s.activity[n] = .idle) (hw : ∀ y ∈ s.waiting, y.handle ≠ h)
    (x : Slot) (cls : Class) (c : Cause) :
    ((s.madeDown h rest (dialledCall cls x n a)).putActivity n (.originating h)).ended h (dialledCall cls x n a) c =
      ({ s with calls := s.calls.set h none, freeHandles := rest ++ [h] } : State).sentF x.port [clearedCell h.val a c] := by
  have hwait : (s.waiting.filter fun x => !(x.handle == h)) = s.waiting :=
    List.filter_eq_self.2 fun y hy => by simpa using hw y hy
  have hcross : (s.crosses.filter fun y => !((dialledCall cls x n a).ownedPort == some y.port &&
      (dialledCall cls x n a).ownedLane == some y.lane) && !((dialledCall cls x n a).lLane == some y.lLane)) = s.crosses :=
    List.filter_eq_self.2 fun _ _ => by simp [newDownward]
  have hidle : (s.activity.set n (.originating h)).set n .idle = s.activity := by
    rw [Vector.set_set, ← show s.activity[n.val] = .idle from ha]
    exact Vector.set_getElem_self n.isLt
  have hact : (if (s.activity.set n (.originating h))[n].handle? = some h then
      (s.activity.set n (.originating h)).set n .idle else s.activity.set n (.originating h)) = s.activity := by
    rw [if_pos (by simp [Activity.handle?]), hidle]
  have hcalls : (s.calls.set h (some (dialledCall cls x n a))).set h none = s.calls.set h none := Vector.set_set ..
  have hover : ((s.madeDown h rest (dialledCall cls x n a)).putActivity n (.originating h)).callOver h (dialledCall cls x n a)
      c = { s with
        calls := (s.calls.set h (some (dialledCall cls x n a))).set h none
        freeHandles := rest ++ [h]
        waiting := s.waiting.filter fun x => !(x.handle == h)
        crosses := s.crosses.filter fun y => !((dialledCall cls x n a).ownedPort == some y.port &&
          (dialledCall cls x n a).ownedLane == some y.lane) && !((dialledCall cls x n a).lLane == some y.lLane)
        activity := if (s.activity.set n (.originating h))[n].handle? = some h then
          (s.activity.set n (.originating h)).set n .idle else s.activity.set n (.originating h) } := rfl
  rw [State.ended, hover, hwait, hcross, hact, hcalls]
  have hL : (dialledCall cls x n a).releaseCells .L c = [] := rfl
  have hH : (dialledCall cls x n a).releaseCells .H c = [] := rfl
  rw [hL, hH, State.sentL_nil, State.sentH_nil]
  rfl

theorem exec_dial_refused {rest : List Handle} (hp : s.powered = true) (hu : s.floorUp k = true) (hF : s.roomF k 1)
    (hh : s.retained.handset k a = some (n, role)) (ha : s.activity[n] = .idle) (hf : s.freeHandles = h :: rest)
    (hc : (s.fireRefuses s.retained.slots[n].callDown = true ∧ c = .fireMode) ∨
      (s.fireRefuses s.retained.slots[n].callDown = false ∧ s.retained.service = .outOfService ∧ c = .notInService))
    (hw : ∀ y ∈ s.waiting, y.handle ≠ h) :
    exec (.dial k a) s = .next (({ s with
      calls := s.calls.set h none, freeHandles := rest ++ [h] } : State).sentF k [clearedCell h.val a c]) := by
  have hport : s.retained.slots[n].port = k := Retained.handset_port hh
  obtain ⟨t, ht⟩ : ∃ t, t = (s.madeDown h rest (dialledCall s.retained.slots[n].callDown s.retained.slots[n] n a)).putActivity
      n (.originating h) := ⟨_, rfl⟩
  have hcall : t.call? h = some (dialledCall s.retained.slots[n].callDown s.retained.slots[n] n a) := by
    rw [ht]
    exact State.call?_putCall_self ..
  have hroom : t.roomF s.retained.slots[n].port 1 := by
    rw [ht, hport]
    exact hF
  have hrefused : (Work.start t).routeCallDown h s.retained.slots[n].callDown 0 (.F k) = (Work.start t).release h c := by
    refine Work.routeCallDown_refused ?_
    rw [ht]
    obtain ⟨hfire, rfl⟩ | ⟨hfire, hserv, rfl⟩ := hc
    · exact .inl ⟨hfire, rfl⟩
    · exact .inr ⟨hfire, false, if_pos hserv⟩
  have hend : ((Work.start t).release h c).finish =
      t.ended h (dialledCall s.retained.slots[n].callDown s.retained.slots[n] n a) c := by
    refine (Work.Makes.start True t).refused hcall rfl rfl c (fun _ => .inl rfl) (fun _ => .inl rfl) fun f hf => ?_
    cases hf
    exact hroom
  rw [exec_dial_made hp hu hh ha hf, ← ht, hrefused, hend, ht, State.ended_dialled ha hw, hport]

theorem exec_dial_pending (hp : s.powered = true) (hu : s.floorUp k = true) (hF : s.roomF k 1)
    (hh : s.retained.handset k a = some (n, role)) (ha : s.activity[n] = .pending v) (hr : s.call? v = some r)
    (hf : r.far = .floor f) :
    (f.preAnswered = true → exec (.dial k a) s = .next (s.sentF k [clearedCell 0 a .busy])) ∧
    (f.preAnswered = false → exec (.dial k a) s =
      .next ((s.putCall v { r with far := .floor { f with preAnswered := true, answering := some a } }).sentF k
        [statusCell v.val a .queued])) := by
  have h1 : exec (.dial k a) s = .next ((Work.start s).preAnswer v k a).finish := by
    refine exec_dial_received hp hu ?_
    rw [hh]
    simp only [ha]
  rw [h1, Work.preAnswer, Work.withCall_live (show (Work.start s).st.call? v = some r from hr)]
  simp only [hf]
  refine ⟨fun hpre => ?_, fun hpre => ?_⟩
  · rw [if_pos hpre, Work.answered_finish hF]
  · rw [if_neg (by rw [hpre]; decide), Work.start_modCall hr, Work.answered_finish (s := s.putCall v _) hF, CallRecord.modFloor, hf]

end

/-- Settles O33: each test of a DIAL in its order. -/
theorem dialAnswered : Obligations.DialAnswered := by
  unfold Obligations.DialAnswered
  refine ⟨fun s k a hp hu hL hfull hh => exec_dial_full hp hu hL hfull hh, fun s k a hp hu hF =>
    ⟨fun hh => exec_dial_noFlat hp hu hF hh, fun n role hh => ⟨fun v ha => exec_dial_ownCall hp hu hF hh ha,
      fun ha hf hL => exec_dial_tableFull hp hu hF hh ha hf hL, fun h rest c ha hf => ?_,
      fun v r f ha hr hf => exec_dial_pending hp hu hF hh ha hr hf⟩⟩⟩
  intro x hc hw
  exact exec_dial_refused hp hu hF hh ha hf hc hw

end Sys2Proof.Machine
end

