-- ==== Sys2Proof/Proofs/HoldersAndQuiet.lean ====
section
/-! PROOFS. What the tables that agree are built from: the lanes of a port and their holders, the admission test as an order, and
an arbiter that could grant nothing (R42, R44, R53, R55, R64, R72, R73). -/

namespace Sys2Proof.Machine

/-! ## Holders -/

section
variable {s t : State} {p q : Owned} {i j : Nat} {h : Handle}

theorem State.map_set (s : State) (p q : Owned) (m : LaneMap) :
    ({ s with maps := s.maps.set p.idx m } : State).map q = if q = p then m else s.map q := by
  unfold State.map
  by_cases hq : q = p
  · subst hq
    simp
  · have hne : p.idx.val ≠ q.idx.val := fun e => hq (Owned.idx_inj (Fin.ext e)).symm
    simp [hq, hne]

theorem State.holder_congr (hm : t.map p = s.map p) (i : Nat) : t.holder p i = s.holder p i := by
  unfold State.holder
  rw [hm]

/-- The holder of a lane in a lane map. -/
def LaneMap.holder (m : LaneMap) (i : Nat) : Option Handle := m.holders[i]?.join

theorem State.holder_eq (s : State) (p : Owned) (i : Nat) : s.holder p i = (s.map p).holder i := rfl

/-- A lane map with a lane HELD, at the tail of the grant order. -/
abbrev LaneMap.taken (m : LaneMap) (i : Nat) (h : Handle) : LaneMap :=
  { holders := m.holders.set i (some h), order := m.order.filter (· ≠ i) ++ [i] }

/-- A lane map with a lane FREE, out of the grant order. -/
abbrev LaneMap.freed (m : LaneMap) (i : Nat) : LaneMap :=
  { holders := m.holders.set i none, order := m.order.filter (· ≠ i) }

theorem LaneMap.holder_taken (m : LaneMap) (hi : i < m.holders.length) (h : Handle) (j : Nat) :
    (m.taken i h).holder j = if j = i then some h else m.holder j := by
  unfold LaneMap.holder
  by_cases hj : j = i
  · subst hj
    simp [hi]
  · simp [hj, Ne.symm hj]

theorem LaneMap.holder_freed (m : LaneMap) (i j : Nat) :
    (m.freed i).holder j = if j = i then none else m.holder j := by
  unfold LaneMap.holder
  by_cases hj : j = i
  · subst hj
    by_cases hlt : j < m.holders.length
    · simp [hlt]
    · simp [hlt]
  · simp [hj, Ne.symm hj]

theorem LaneMap.holder_lt {m : LaneMap} (hh : m.holder i = some h) : i < m.holders.length := by
  by_contra hlt
  have : m.holders[i]? = none := List.getElem?_eq_none (Nat.not_lt.1 hlt)
  unfold LaneMap.holder at hh
  rw [this] at hh
  cases hh

/-- The grant order holds each HELD lane once (R44). -/
structure LaneMap.Ordered (m : LaneMap) : Prop where
  nodup : m.order.Nodup
  mem   : ∀ i, i ∈ m.order ↔ (m.holder i).isSome

theorem LaneMap.Ordered.taken {m : LaneMap} (hm : m.Ordered) (hi : i < m.holders.length) (h : Handle) :
    (m.taken i h).Ordered where
  nodup := by
    rw [List.nodup_append]
    refine ⟨hm.nodup.filter _, by simp, fun a ha b hb => ?_⟩
    rw [List.mem_singleton] at hb
    subst hb
    simpa using (List.mem_filter.1 ha).2
  mem j := by
    rw [m.holder_taken hi h j, List.mem_append, List.mem_filter, hm.mem, List.mem_singleton]
    by_cases hj : j = i <;> simp [hj]

theorem LaneMap.Ordered.freed {m : LaneMap} (hm : m.Ordered) (i : Nat) : (m.freed i).Ordered where
  nodup := hm.nodup.filter _
  mem j := by
    rw [m.holder_freed i j, List.mem_filter, hm.mem]
    by_cases hj : j = i <;> simp [hj]

end

/-! ## The admission test -/

section
variable {s t : State} {p : Owned} {e e' : Nat}

theorem State.needed_antitone (s : State) (p : Owned) (he : e ≤ e') : s.needed p e' ≤ s.needed p e := by
  unfold State.needed
  split_ifs <;> omega

theorem State.admitLane_none_iff : s.admitLane p e = none ↔ s.usable p = false ∨ s.freeCount p ≤ s.needed p e := by
  cases hu : s.usable p with
  | false => simp [State.admitLane_unusable hu]
  | true =>
    by_cases hn : s.needed p e < s.freeCount p
    · have hsome := State.admitLane_isSome hu hn
      refine iff_of_false (fun h => ?_) (by simpa using hn)
      rw [h] at hsome
      cases hsome
    · refine iff_of_true ?_ (.inr (Nat.not_lt.1 hn))
      simp [State.admitLane, State.admits, hn]

/-- A lower priority passes no test that a higher one fails (R53, R55). -/
theorem State.admitLane_antitone (he : e ≤ e') (h : s.admitLane p e' = none) : s.admitLane p e = none := by
  rw [State.admitLane_none_iff] at h ⊢
  exact h.imp_right fun h => h.trans (s.needed_antitone p he)

theorem State.freeCount_le (h : ∀ i, t.laneState p i = .free → s.laneState p i = .free) : t.freeCount p ≤ s.freeCount p := by
  rw [State.freeCount_eq_length_freeLanes, State.freeCount_eq_length_freeLanes]
  refine List.Sublist.length_le (List.monotone_filter_right _ fun i hi => ?_)
  exact beq_iff_eq.2 (h i (beq_iff_eq.1 hi))

/-- The second state admits nobody on the port whom the first does not. -/
def State.NoEasier (s t : State) (p : Owned) : Prop := ∀ e, s.admitLane p e = none → t.admitLane p e = none

theorem State.NoEasier.refl (s : State) (p : Owned) : s.NoEasier s p := fun _ h => h

theorem State.NoEasier.trans {u : State} (h : s.NoEasier t p) (h' : t.NoEasier u p) : s.NoEasier u p :=
  fun e he => h' e (h e he)

/-- With the same reserves and no more FREE lanes, nothing becomes easier. -/
theorem State.noEasier_of_free (hu : t.usable p = true → s.usable p = true)
    (hfire : (t.settings p).fire = (s.settings p).fire) (hprio : (t.settings p).priority = (s.settings p).priority)
    (hf : ∀ i, t.laneState p i = .free → s.laneState p i = .free) : s.NoEasier t p := fun e he => by
  have hn : t.needed p e = s.needed p e := by
    unfold State.needed
    rw [hfire, hprio]
  rw [State.admitLane_none_iff] at he ⊢
  rw [hn]
  refine he.imp (fun h => ?_) fun h => (State.freeCount_le hf).trans h
  cases ht : t.usable p with
  | false => rfl
  | true => rw [hu ht] at h; cases h

/-- With the same settings and marks and no more lanes without a holder, nothing becomes easier. -/
theorem State.noEasier_of_holders (hu : t.usable p = true → s.usable p = true)
    (hs : t.retained.settings = s.retained.settings) (hm : t.retained.outMarks = s.retained.outMarks)
    (hh : ∀ i, t.holder p i = none → s.holder p i = none) : s.NoEasier t p := by
  have hset : t.settings p = s.settings p := by unfold State.settings; rw [hs]
  refine State.noEasier_of_free hu (by rw [hset]) (by rw [hset]) fun i hi => ?_
  rw [State.laneState_eq_free_iff] at hi ⊢
  refine ⟨hh i hi.1, ?_⟩
  rw [← hi.2]
  unfold State.outMark
  rw [hm]

/-! ## An arbiter with nothing to grant -/

/-- No entry for the port passes the admission test (R72, R73). -/
def State.Quiet (s : State) (p : Owned) : Prop :=
  ∀ x ∈ s.waiting, x.port = p → s.admitLane p (s.entryPriority x) = none

theorem State.Quiet.unusable (h : s.usable p = false) : s.Quiet p := fun _ _ _ => State.admitLane_unusable h _

/-- The test of the first entry decides, where priority never increases from head to tail (R64). -/
theorem State.quiet_iff (hs : s.waiting.Pairwise fun x y => s.entryPriority y ≤ s.entryPriority x) :
    s.Quiet p ↔ ∀ x, (s.waiting.find? fun y => y.port = p) = some x → s.admitLane p (s.entryPriority x) = none := by
  refine ⟨fun h x hx => h x (List.mem_of_find?_eq_some hx) (by simpa using List.find?_some hx), fun h x hx hp => ?_⟩
  have hsome : (s.waiting.find? fun y => y.port = p).isSome = true := List.find?_isSome.2 ⟨x, hx, by simpa using hp⟩
  obtain ⟨y, hy⟩ := Option.isSome_iff_exists.1 hsome
  obtain ⟨-, pre, post, he, hpre⟩ := List.find?_eq_some_iff_append.1 hy
  have hle : s.entryPriority x ≤ s.entryPriority y := by
    rw [he] at hs hx
    rcases List.mem_append.1 hx with hx | hx
    · have := hpre x hx
      simp [hp] at this
    · rcases List.mem_cons.1 hx with rfl | hx
      · exact Nat.le_refl _
      · exact (List.pairwise_cons.1 (List.pairwise_append.1 hs).2.1).1 x hx
  exact State.admitLane_antitone hle (h y hy)

/-- Nothing becomes easier, and every entry was there or fails now. -/
theorem State.Quiet.step (h : s.Quiet p) (he : s.NoEasier t p)
    (hw : ∀ x ∈ t.waiting, x.port = p → (x ∈ s.waiting ∧ t.entryPriority x ≤ s.entryPriority x) ∨
      t.admitLane p (t.entryPriority x) = none) : t.Quiet p := fun x hx hp => by
  rcases hw x hx hp with ⟨hs, hle⟩ | hn
  · exact State.admitLane_antitone hle (he _ (h x hs hp))
  · exact hn

theorem State.Quiet.sublist (h : s.Quiet p) (he : s.NoEasier t p) (hw : ∀ x ∈ t.waiting, x ∈ s.waiting)
    (hp : ∀ x ∈ t.waiting, t.entryPriority x = s.entryPriority x) : t.Quiet p :=
  h.step he fun x hx _ => .inl ⟨hw x hx, (hp x hx).le⟩

theorem State.Quiet.bare (hb : s.bare = t.bare) (h : s.Quiet p) : t.Quiet p := fun x hx hp => by
  rw [← State.bare_entryPriority hb, ← State.bare_admitLane hb]
  exact h x (State.bare_waiting hb ▸ hx) hp

end

end Sys2Proof.Machine
end

