-- ==== Sys2Proof/Proofs/TablesAgree.lean ====
section
/-! PROOFS. The agreement of the tables, one record at a time: what the tables say of a live record (`State.Live`) and of a free
handle (`State.Gone`). In the middle of an event one record may stand outside the wait list and its flat's activity: the record
that the event makes, or grants a lane (R42 to R46, R63, R64, R70, R82, R103, R139, R145, R150). -/

namespace Sys2Proof.Machine

/-! ## One record -/

/-- What the tables say of the live record `r` of handle `h`; `loose` where it stands outside the wait list for now. -/
structure State.Live (s : State) (h : Handle) (loose : Prop) (r : CallRecord) : Prop where
  lane     : ∀ p i, s.holder p i = some h ↔ r.ownedPort = some p ∧ r.ownedLane = some i
  mirror   : ∀ l : LLane, s.mirror[l] = some h ↔ r.lLane = some l
  queued   : ¬ loose → ((∃ x ∈ s.waiting, x.handle = h) ↔ r.Waits)
  outside  : loose → ∀ x ∈ s.waiting, x.handle ≠ h
  waits    : ∀ x ∈ s.waiting, x.handle = h → r.ownedPort = some x.port ∧ r.ownedLane = none
  activity : ∀ i : SlotNo, s.activity[i].handle? = some h → r.state ≠ .clearing ∧ ∃ f, r.far = .floor f ∧ f.slot = i
  named    : ¬ loose → r.state ≠ .clearing → ∀ f, r.far = .floor f → r.activityOf h = some s.activity[f.slot]
  crosses  : ∀ x : Cross, x.handle = h → (x ∈ s.crosses ↔ r.Joined x.lLane x.port x.lane)
  clearing : r.state = .clearing → r.anyOpen = true ∧ r.lLane = none ∧ r.ownedLane = none
  below    : r.heldBelow = true → r.lLane = none ∧ (r.state = .connected ∨ r.state = .parked ∨ r.state = .clearing)

/-- No table names the free handle `h`. -/
structure State.Gone (s : State) (h : Handle) : Prop where
  lane     : ∀ p i, s.holder p i ≠ some h
  mirror   : ∀ l : LLane, s.mirror[l] ≠ some h
  outside  : ∀ x ∈ s.waiting, x.handle ≠ h
  activity : ∀ i : SlotNo, s.activity[i].handle? ≠ some h
  crosses  : ∀ x ∈ s.crosses, x.handle ≠ h

/-! ## The tables -/

/-- The key of a record's open side on a riser port. -/
def State.openAt (s : State) (p : Riser) (h : Handle) : Option Key := (s.call? h).bind fun r => r.openKey p

/-- Open sides have keys of their own, those of this switch's setups naming their record (R3, R84, R85). -/
def State.KeysApart (s : State) : Prop :=
  ∀ p h key, s.openAt p h = some key → (key.side = ownSide p → key.ref.val = h.val) ∧
    ∀ h', s.openAt p h' = some key → h' = h

/-- What is said of the lanes and the lists as a whole, besides single records. -/
structure State.InOrder (s : State) : Prop where
  lengths : ∀ p : Owned, (s.map p).holders.length = laneCount p
  orders  : ∀ p : Owned, (s.map p).Ordered
  nodup   : (s.waiting.map WaitEntry.handle).Nodup
  sorted  : s.waiting.Pairwise fun x y => s.entryPriority y ≤ s.entryPriority x
  apart   : s.crosses.Nodup
  keys    : s.KeysApart

/-- The tables agree with the records, those that `loose` names standing outside the wait list. -/
structure State.Fits (s : State) (loose : Handle → Prop) : Prop extends s.InOrder where
  live : ∀ h r, s.call? h = some r → s.Live h (loose h) r
  gone : ∀ h, s.call? h = none → s.Gone h

section
variable {s t : State} {loose loose' : Handle → Prop} {h : Handle} {r : CallRecord}

theorem State.openAt_some {p : Riser} {key : Key} : s.openAt p h = some key ↔ ∃ r, s.call? h = some r ∧ r.openKey p = some key :=
  Option.bind_eq_some_iff

theorem State.Live.congr {a b : Prop} (hs : s.Live h a r) (hab : a ↔ b) : s.Live h b r := propext hab ▸ hs

theorem State.Fits.congr (hs : s.Fits loose) (he : ∀ h, loose h ↔ loose' h) : s.Fits loose' :=
  ⟨hs.toInOrder, fun h r hr => (hs.live h r hr).congr (he h), hs.gone⟩

/-! ## The statement's form of the agreement -/

theorem State.Linked.keysApart (hs : s.Linked) : s.KeysApart := fun p h key ho => by
  obtain ⟨r, hr, hk⟩ := State.openAt_some.1 ho
  obtain ⟨hown, huniq⟩ := hs.keys p h r key hr hk
  refine ⟨hown, fun h' ho' => ?_⟩
  obtain ⟨r', hr', hk'⟩ := State.openAt_some.1 ho'
  exact huniq h' r' hr' hk'

theorem State.Linked.fits (hs : s.Linked) (hl : ∀ p : Owned, (s.map p).holders.length = laneCount p) :
    s.Fits fun _ => False where
  lengths := hl
  orders p := ⟨(hs.order p).1, fun i => (hs.order p).2 i⟩
  nodup := hs.queued.1
  sorted := hs.sorted
  apart := hs.crosses.1
  keys := hs.keysApart
  live h r hr := by
    refine ⟨fun p i => ?_, fun l => ?_, fun _ => ?_, False.elim, fun x hx he => ?_, fun i hi => ?_, fun _ hc f hf => ?_,
      fun x hx => ?_, hs.clearing h r hr, hs.below h r hr⟩
    · rw [hs.held p i h]
      simp [hr]
    · rw [hs.mirror l h]
      simp [hr]
    · rw [hs.queued.2 h]
      simp [hr]
    · exact hs.waits x hx r (he ▸ hr)
    · obtain ⟨r', f, hr', hc, hf, hi⟩ := hs.activity i h hi
      cases hr.symm.trans hr'
      exact ⟨hc, f, hf, hi⟩
    · exact hs.named h r f hr hc hf
    · rw [hs.crosses.2 x, hx]
      simp [hr]
  gone h hr := by
    have hno : ∀ P : CallRecord → Prop, ¬ ∃ r, s.call? h = some r ∧ P r := fun P ⟨r, hr', _⟩ => by
      rw [hr] at hr'; cases hr'
    refine ⟨fun p i hh => hno _ ((hs.held p i h).1 hh), fun l hl => hno _ ((hs.mirror l h).1 hl),
      fun x hx he => hno _ ((hs.queued.2 h).1 ⟨x, hx, he⟩), fun i hi => ?_, fun x hx he => ?_⟩
    · obtain ⟨r, f, hr', -⟩ := hs.activity i h hi
      rw [hr] at hr'; cases hr'
    · exact hno _ (he ▸ (hs.crosses.2 x).1 hx)

theorem State.Linked.quiet (hs : s.Linked) (p : Owned) : s.Quiet p := (State.quiet_iff hs.sorted).2 (hs.settled p)

theorem State.Fits.linked (hs : s.Fits fun _ => False) (hq : ∀ p, s.Quiet p) : s.Linked := by
  have hor : ∀ h, s.call? h = none ∨ ∃ r, s.call? h = some r := fun h => by cases s.call? h <;> simp
  refine ⟨fun p i h => ?_, fun p => ⟨(hs.orders p).nodup, (hs.orders p).mem⟩, fun l h => ?_, ⟨hs.nodup, fun h => ?_⟩,
    fun x hx r hr => ?_, hs.sorted, fun p => (State.quiet_iff hs.sorted).1 (hq p), fun i h hi => ?_,
    fun h r f hr hc hf => ?_, ⟨hs.apart, fun x => ?_⟩, fun h r hr => (hs.live h r hr).clearing, fun p h r key hr hk => ?_,
    fun h r hr => (hs.live h r hr).below⟩
  · rcases hor h with hn | ⟨r, hr⟩
    · refine iff_of_false ((hs.gone h hn).lane p i) fun ⟨r, hr, _⟩ => ?_
      rw [hn] at hr; cases hr
    · rw [(hs.live h r hr).lane p i]
      simp [hr]
  · rcases hor h with hn | ⟨r, hr⟩
    · refine iff_of_false ((hs.gone h hn).mirror l) fun ⟨r, hr, _⟩ => ?_
      rw [hn] at hr; cases hr
    · rw [(hs.live h r hr).mirror l]
      simp [hr]
  · rcases hor h with hn | ⟨r, hr⟩
    · refine iff_of_false (fun ⟨x, hx, he⟩ => (hs.gone h hn).outside x hx he) fun ⟨r, hr, _⟩ => ?_
      rw [hn] at hr; cases hr
    · rw [(hs.live h r hr).queued not_false]
      simp [hr]
  · exact (hs.live x.handle r hr).waits x hx rfl
  · rcases hor h with hn | ⟨r, hr⟩
    · exact absurd hi ((hs.gone h hn).activity i)
    · obtain ⟨hc, f, hf, he⟩ := (hs.live h r hr).activity i hi
      exact ⟨r, f, hr, hc, hf, he⟩
  · exact (hs.live h r hr).named not_false hc f hf
  · rcases hor x.handle with hn | ⟨r, hr⟩
    · refine iff_of_false (fun hx => (hs.gone _ hn).crosses x hx rfl) fun ⟨r, hr, _⟩ => ?_
      rw [hn] at hr; cases hr
    · rw [(hs.live _ r hr).crosses x rfl]
      simp [hr]
  · obtain ⟨hown, huniq⟩ := hs.keys p h key (State.openAt_some.2 ⟨r, hr, hk⟩)
    exact ⟨hown, fun h' r' hr' hk' => huniq h' (State.openAt_some.2 ⟨r', hr', hk'⟩)⟩

/-! ## A change that leaves the other records -/

/-- For the records that `T` does not name, the tables of `t` say what those of `s` say. -/
structure State.Agree (T : Handle → Prop) (s t : State) : Prop where
  call     : ∀ h, ¬ T h → t.call? h = s.call? h
  lane     : ∀ p i h, ¬ T h → (t.holder p i = some h ↔ s.holder p i = some h)
  mirror   : ∀ (l : LLane) h, ¬ T h → (t.mirror[l] = some h ↔ s.mirror[l] = some h)
  waiting  : ∀ x : WaitEntry, ¬ T x.handle → (x ∈ t.waiting ↔ x ∈ s.waiting)
  activity : ∀ (i : SlotNo) h a, ¬ T h → a.handle? = some h → (t.activity[i] = a ↔ s.activity[i] = a)
  crosses  : ∀ x : Cross, ¬ T x.handle → (x ∈ t.crosses ↔ x ∈ s.crosses)

theorem CallRecord.activityOf_handle {a : Activity} (ha : r.activityOf h = some a) : a.handle? = some h := by
  unfold CallRecord.activityOf at ha
  split at ha <;> cases ha <;> rfl

/-- Where a record not in CLEARING has a floor side, it gives its flat an activity or the tables would not agree. -/
theorem State.Live.agree {T : Handle → Prop} (hs : s.Live h (loose h) r) (hT : ¬ T h) (ha : State.Agree T s t) :
    t.Live h (loose h) r where
  lane p i := (ha.lane p i h hT).trans (hs.lane p i)
  mirror l := (ha.mirror l h hT).trans (hs.mirror l)
  queued hl := by
    rw [← hs.queued hl]
    refine exists_congr fun x => ?_
    by_cases he : x.handle = h
    · rw [ha.waiting x (he ▸ hT)]
    · simp [he]
  outside hl x hx he := hs.outside hl x ((ha.waiting x (he ▸ hT)).1 hx) he
  waits x hx he := hs.waits x ((ha.waiting x (he ▸ hT)).1 hx) he
  activity i hi := hs.activity i (by rwa [(ha.activity i h _ hT hi).1 rfl])
  named hl hc f hf := by
    have h1 := hs.named hl hc f hf
    rw [h1, (ha.activity f.slot h _ hT (CallRecord.activityOf_handle h1)).2 rfl]
  crosses x he := by rw [ha.crosses x (he ▸ hT), hs.crosses x he]
  clearing := hs.clearing
  below := hs.below

theorem State.Gone.agree {T : Handle → Prop} (hs : s.Gone h) (hT : ¬ T h) (ha : State.Agree T s t) : t.Gone h where
  lane p i hh := hs.lane p i ((ha.lane p i h hT).1 hh)
  mirror l hl := hs.mirror l ((ha.mirror l h hT).1 hl)
  outside x hx he := hs.outside x ((ha.waiting x (he ▸ hT)).1 hx) he
  activity i hi := hs.activity i (by rwa [(ha.activity i h _ hT hi).1 rfl])
  crosses x hx he := hs.crosses x ((ha.crosses x (he ▸ hT)).1 hx) he

/-- A change of the records that `T` names. -/
theorem State.Fits.change (T : Handle → Prop) (hs : s.Fits loose) (ha : State.Agree T s t) (hT : ∀ h, ¬ T h → (loose' h ↔ loose h))
    (ho : t.InOrder) (hlive : ∀ h r, T h → t.call? h = some r → t.Live h (loose' h) r)
    (hgone : ∀ h, T h → t.call? h = none → t.Gone h) : t.Fits loose' := by
  refine ⟨ho, fun h r hr => ?_, fun h hn => ?_⟩
  · by_cases hh : T h
    · exact hlive h r hh hr
    · exact ((hs.live h r ((ha.call h hh).symm.trans hr)).agree hh ha).congr (hT h hh).symm
  · by_cases hh : T h
    · exact hgone h hh hn
    · exact (hs.gone h ((ha.call h hh).symm.trans hn)).agree hh ha

/-- The second state has the tables of the first. -/
structure State.SameTables (s t : State) : Prop where
  calls    : t.calls = s.calls
  maps     : t.maps = s.maps
  mirror   : t.mirror = s.mirror
  waiting  : t.waiting = s.waiting
  activity : t.activity = s.activity
  crosses  : t.crosses = s.crosses

/-- The tables alone decide. -/
theorem State.Fits.same (hb : s.SameTables t) (hs : s.Fits loose) : t.Fits loose := by
  have hcall : ∀ h, t.call? h = s.call? h := fun h => by unfold State.call?; rw [hb.calls]
  have hmap : ∀ p, t.map p = s.map p := fun p => by unfold State.map; rw [hb.maps]
  have hhold : ∀ p i, t.holder p i = s.holder p i := fun p i => State.holder_congr (hmap p) i
  have hpri : ∀ x, t.entryPriority x = s.entryPriority x := fun x => by unfold State.entryPriority; rw [hcall]
  refine hs.change (fun _ => False) ⟨fun h _ => hcall h, fun p i h _ => by rw [hhold], fun l h _ => by rw [hb.mirror],
    fun x _ => by rw [hb.waiting], fun i h a _ _ => by rw [hb.activity], fun x _ => by rw [hb.crosses]⟩ (fun _ _ => Iff.rfl) ?_
    (fun _ _ h => h.elim) fun _ h => h.elim
  refine ⟨fun p => hmap p ▸ hs.lengths p, fun p => hmap p ▸ hs.orders p, hb.waiting ▸ hs.nodup, ?_, hb.crosses ▸ hs.apart, ?_⟩
  · rw [hb.waiting]
    exact hs.sorted.imp fun h => by rwa [hpri, hpri]
  · have ho : ∀ p h, t.openAt p h = s.openAt p h := fun p h => by unfold State.openAt; rw [hcall]
    intro p h key hk
    simp only [ho] at hk ⊢
    exact hs.keys p h key hk

theorem State.SameTables.of_bare (hb : s.bare = t.bare) : s.SameTables t :=
  ⟨(State.bare_calls hb).symm, (State.bare_maps hb).symm, (State.bare_mirror hb).symm, (State.bare_waiting hb).symm,
    (State.bare_activity hb).symm, (State.bare_crosses hb).symm⟩

theorem State.Fits.bare (hb : s.bare = t.bare) (hs : s.Fits loose) : t.Fits loose := hs.same (.of_bare hb)

end

end Sys2Proof.Machine
end

