-- ==== Sys2Proof/Proofs/RecordRecast.lean ====
section
/-! PROOFS. A record that changes while its lanes, its mirror entry and its place in the wait list stand: what else must hold for
the tables to agree afterwards. -/

namespace Sys2Proof.Machine

/-! ## Priorities, keys and cross-connects -/

section
variable {s t : State} {loose loose' : Handle → Prop} {h : Handle} {r r' : CallRecord} {p : Owned}

theorem State.entryPriority_congr {x : WaitEntry} (hc : (t.call? x.handle).map CallRecord.cls =
    (s.call? x.handle).map CallRecord.cls) : t.entryPriority x = s.entryPriority x := by
  unfold State.entryPriority
  cases ht : t.call? x.handle with
  | none =>
    rw [ht] at hc
    rw [Option.map_eq_none_iff.1 hc.symm]
  | some a =>
    rw [ht] at hc
    obtain ⟨b, hb, he⟩ := Option.map_eq_some_iff.1 hc.symm
    rw [hb]
    dsimp only
    rw [he]

theorem State.putCall_cls (hr : s.call? h = some r) (hc : r'.cls = r.cls) (v : Handle) :
    ((s.putCall h r').call? v).map CallRecord.cls = (s.call? v).map CallRecord.cls := by
  by_cases hv : h = v
  · subst hv
    rw [State.call?_putCall_self, hr]
    simp [hc]
  · rw [State.call?_putCall_ne _ _ hv]

theorem ownKey_side (p : Riser) (h : Handle) : (ownKey p h).side = ownSide p := by cases p <;> rfl

theorem ownKey_ref (p : Riser) (h : Handle) : (ownKey p h).ref.val = h.val := rfl

/-- One record's open sides change: their keys are old, its own, or a neighbour's that no other side is open with. -/
theorem State.KeysApart.change (hs : s.KeysApart) (hcall : ∀ v, v ≠ h → t.call? v = s.call? v)
    (hk : ∀ p key, t.openAt p h = some key → s.openAt p h = some key ∨ key = ownKey p h ∨
      (key.side ≠ ownSide p ∧ ∀ v, s.openAt p v ≠ some key)) : t.KeysApart := by
  have hne : ∀ p v, v ≠ h → t.openAt p v = s.openAt p v := fun p v hv => by
    unfold State.openAt
    rw [hcall v hv]
  have hother : ∀ p v key, v ≠ h → s.openAt p v = some key → t.openAt p h ≠ some key := fun p v key hv ho hth => by
    rcases hk p key hth with h1 | h1 | ⟨-, h1⟩
    · exact hv ((hs p h key h1).2 v ho)
    · have := (hs p v key ho).1 (h1 ▸ ownKey_side p h)
      rw [h1, ownKey_ref] at this
      exact hv (Fin.ext this.symm)
    · exact h1 v ho
  intro p v key ho
  by_cases hv : v = h
  · subst hv
    refine ⟨fun hside => ?_, fun v' ho' => ?_⟩
    · rcases hk p key ho with h1 | h1 | ⟨h1, -⟩
      · exact (hs p v key h1).1 hside
      · rw [h1, ownKey_ref]
      · exact absurd hside h1
    · by_contra hv'
      exact hother p v' key hv' (hne p v' hv' ▸ ho') ho
  · rw [hne p v hv] at ho
    refine ⟨(hs p v key ho).1, fun v' ho' => ?_⟩
    by_cases hv' : v' = h
    · subst hv'
      exact absurd ho' (hother p v key hv ho)
    · exact (hs p v key ho).2 v' (hne p v' hv' ▸ ho')

theorem CallRecord.mem_joins {x : Cross} : x ∈ r.joins h ↔
    x.handle = h ∧ r.lLane = some x.lLane ∧ r.ownedPort = some x.port ∧ r.ownedLane = some x.lane := by
  obtain ⟨v, l, p, i⟩ := x
  unfold CallRecord.joins
  split
  · next l' p' i' hl hp hi =>
    rw [List.mem_singleton, Cross.mk.injEq, hl, hp, hi]
    simp only [Option.some.injEq, eq_comm]
  · next hno =>
    refine iff_of_false (by simp) fun ⟨_, hl, hp, hi⟩ => hno _ _ _ hl hp hi

theorem CallRecord.joined_iff {l : LLane} {i : Nat} (hc : r.state = .connected) (hb : r.heldBelow = false) :
    r.Joined l p i ↔ r.lLane = some l ∧ r.ownedPort = some p ∧ r.ownedLane = some i :=
  ⟨fun h => ⟨h.lLane, h.port, h.lane⟩, fun ⟨hl, hp, hi⟩ => ⟨hc, hb, hl, hp, hi⟩⟩

theorem CallRecord.joins_nodup (r : CallRecord) (h : Handle) : (r.joins h).Nodup := by
  unfold CallRecord.joins
  split <;> simp

/-! ## The tables for one record -/

/-- The lanes of `t` are those of `s` for the other records, and h has those that `lane` tells. -/
structure LanesFor (s t : State) (h : Handle) (lane : Owned → Nat → Prop) : Prop where
  lengths : ∀ p : Owned, (t.map p).holders.length = laneCount p
  orders  : ∀ p : Owned, (t.map p).Ordered
  other   : ∀ p i v, v ≠ h → (t.holder p i = some v ↔ s.holder p i = some v)
  own     : ∀ p i, t.holder p i = some h ↔ lane p i

/-- The same for the mirror. -/
structure MirrorFor (old new : Vector (Option Handle) 12) (h : Handle) (lane : LLane → Prop) : Prop where
  other : ∀ (l : LLane) v, v ≠ h → (new[l] = some v ↔ old[l] = some v)
  own   : ∀ l : LLane, new[l] = some h ↔ lane l

/-- The same for the wait list; in `t` h has an entry where `queued` holds. -/
structure WaitingFor (s t : State) (h : Handle) (queued : Prop) : Prop where
  nodup  : (t.waiting.map WaitEntry.handle).Nodup
  sorted : t.waiting.Pairwise fun x y => t.entryPriority y ≤ t.entryPriority x
  other  : ∀ x : WaitEntry, x.handle ≠ h → (x ∈ t.waiting ↔ x ∈ s.waiting)
  own    : (∃ x ∈ t.waiting, x.handle = h) ↔ queued

/-- The same for the cross-connects. -/
structure CrossesFor (old new : List Cross) (h : Handle) (joined : LLane → Owned → Nat → Prop) : Prop where
  nodup : new.Nodup
  other : ∀ x : Cross, x.handle ≠ h → (x ∈ new ↔ x ∈ old)
  own   : ∀ x : Cross, x.handle = h → (x ∈ new ↔ joined x.lLane x.port x.lane)

/-- The same for the activities: one that changes was of h or of no record, and is so still. -/
def ActivitiesFor (old new : Vector Activity 96) (h : Handle) : Prop :=
  ∀ i : SlotNo, new[i] = old[i] ∨
    ((old[i].handle? = none ∨ old[i].handle? = some h) ∧ (new[i].handle? = none ∨ new[i].handle? = some h))

theorem ActivitiesFor.agree {old new : Vector Activity 96} (ha : ActivitiesFor old new h) (i : SlotNo) {v : Handle} {a : Activity}
    (hv : v ≠ h) (hav : a.handle? = some v) : new[i] = a ↔ old[i] = a := by
  rcases ha i with he | ⟨ho, hn⟩
  · rw [he]
  · refine iff_of_false (fun e => ?_) fun e => ?_
    · rw [e, hav] at hn
      rcases hn with hn | hn
      · cases hn
      · exact hv (Option.some.inj hn)
    · rw [e, hav] at ho
      rcases ho with ho | ho
      · cases ho
      · exact hv (Option.some.inj ho)

/-- The tables of `t` are those of `s` for the records but h, and tell of h what the predicates say. -/
structure TablesFor (s t : State) (h : Handle) (lane : Owned → Nat → Prop) (low : LLane → Prop) (queued : Prop)
    (joined : LLane → Owned → Nat → Prop) : Prop where
  call     : ∀ v, v ≠ h → t.call? v = s.call? v
  keys     : t.KeysApart
  lanes    : LanesFor s t h lane
  mirror   : MirrorFor s.mirror t.mirror h low
  waiting  : WaitingFor s t h queued
  crosses  : CrossesFor s.crosses t.crosses h joined
  activity : ActivitiesFor s.activity t.activity h

section
variable {lane : Owned → Nat → Prop} {low : LLane → Prop} {queued : Prop} {joined : LLane → Owned → Nat → Prop}

theorem TablesFor.agree (ht : TablesFor s t h lane low queued joined) : State.Agree (· = h) s t where
  call v hv := ht.call v hv
  lane p i v hv := ht.lanes.other p i v hv
  mirror l v hv := ht.mirror.other l v hv
  waiting x hx := ht.waiting.other x hx
  activity i _ _ hv hav := ht.activity.agree i hv hav
  crosses x hx := ht.crosses.other x hx

theorem TablesFor.inOrder (ht : TablesFor s t h lane low queued joined) : t.InOrder :=
  ⟨ht.lanes.lengths, ht.lanes.orders, ht.waiting.nodup, ht.waiting.sorted, ht.crosses.nodup, ht.keys⟩

/-- What the activities and the entries say of the record `r` that h has now. -/
structure RecordFor (t : State) (h : Handle) (loose : Prop) (r : CallRecord) : Prop where
  queued   : ¬ loose → ((∃ x ∈ t.waiting, x.handle = h) ↔ r.Waits)
  outside  : loose → ∀ x ∈ t.waiting, x.handle ≠ h
  waits    : ∀ x ∈ t.waiting, x.handle = h → r.ownedPort = some x.port ∧ r.ownedLane = none
  activity : ∀ i : SlotNo, t.activity[i].handle? = some h → r.state ≠ .clearing ∧ ∃ f, r.far = .floor f ∧ f.slot = i
  named    : ¬ loose → r.state ≠ .clearing → ∀ f, r.far = .floor f → r.activityOf h = some t.activity[f.slot]
  clearing : r.state = .clearing → r.anyOpen = true ∧ r.lLane = none ∧ r.ownedLane = none
  below    : r.heldBelow = true → r.lLane = none ∧ (r.state = .connected ∨ r.state = .parked ∨ r.state = .clearing)

/-- A record changes: the tables agree with the record it has become. -/
theorem State.Fits.recast (hs : s.Fits loose) (hE : ∀ v, v ≠ h → (loose' v ↔ loose v)) (hr : t.call? h = some r)
    (ht : TablesFor s t h (fun p i => r.ownedPort = some p ∧ r.ownedLane = some i) (fun l => r.lLane = some l) queued
      fun l p i => r.Joined l p i) (hrec : RecordFor t h (loose' h) r) : t.Fits loose' := by
  refine hs.change (· = h) ht.agree hE ht.inOrder ?_ ?_
  · rintro v r' rfl hr'
    cases hr.symm.trans hr'
    exact ⟨ht.lanes.own, ht.mirror.own, hrec.queued, hrec.outside, hrec.waits, hrec.activity, hrec.named, ht.crosses.own,
      hrec.clearing, hrec.below⟩
  · rintro v rfl hn
    rw [hr] at hn; cases hn

/-- A record is freed: no table names it. -/
theorem State.Fits.vanish (hs : s.Fits loose) (hE : ∀ v, v ≠ h → (loose' v ↔ loose v)) (hr : t.call? h = none)
    (ht : TablesFor s t h (fun _ _ => False) (fun _ => False) False fun _ _ _ => False)
    (hact : ∀ i : SlotNo, t.activity[i].handle? ≠ some h) : t.Fits loose' := by
  refine hs.change (· = h) ht.agree hE ht.inOrder ?_ ?_
  · rintro v r' rfl hr'
    rw [hr] at hr'; cases hr'
  · rintro v rfl -
    exact ⟨fun p i hh => (ht.lanes.own p i).1 hh, fun l hl => (ht.mirror.own l).1 hl,
      fun x hx he => ht.waiting.own.1 ⟨x, hx, he⟩, hact, fun x hx he => (ht.crosses.own x he).1 hx⟩

end

/-! ## Tables that stand -/

theorem State.Fits.lanesFor (hs : s.Fits loose) (hr : s.call? h = some r) (hm : t.maps = s.maps)
    (hport : r'.ownedPort = r.ownedPort) (hlane : r'.ownedLane = r.ownedLane) :
    LanesFor s t h fun p i => r'.ownedPort = some p ∧ r'.ownedLane = some i := by
  have hmap : ∀ p, t.map p = s.map p := fun p => by unfold State.map; rw [hm]
  refine ⟨fun p => hmap p ▸ hs.lengths p, fun p => hmap p ▸ hs.orders p, fun p i v _ => ?_, fun p i => ?_⟩
  · rw [State.holder_congr (hmap p)]
  · rw [State.holder_congr (hmap p), hport, hlane]
    exact (hs.live h r hr).lane p i

theorem State.Fits.mirrorFor (hs : s.Fits loose) (hr : s.call? h = some r) (hm : t.mirror = s.mirror)
    (hl : r'.lLane = r.lLane) : MirrorFor s.mirror t.mirror h fun l => r'.lLane = some l := by
  rw [hm]
  exact ⟨fun _ _ _ => Iff.rfl, fun l => by rw [hl]; exact (hs.live h r hr).mirror l⟩

theorem State.Fits.waitingFor (hs : s.Fits loose) (hw : t.waiting = s.waiting)
    (hc : ∀ v, (t.call? v).map CallRecord.cls = (s.call? v).map CallRecord.cls) :
    WaitingFor s t h (∃ x ∈ s.waiting, x.handle = h) := by
  refine ⟨hw ▸ hs.nodup, ?_, fun x _ => by rw [hw], by rw [hw]⟩
  rw [hw]
  exact hs.sorted.imp fun hab => by
    rwa [State.entryPriority_congr (hc _), State.entryPriority_congr (hc _)]

/-- No cross-connect of the record changes. -/
theorem State.Fits.crossesFor (hs : s.Fits loose) (hr : s.call? h = some r) (hx : t.crosses = s.crosses)
    (hj : ∀ l p i, r'.Joined l p i ↔ r.Joined l p i) : CrossesFor s.crosses t.crosses h fun l p i => r'.Joined l p i := by
  rw [hx]
  exact ⟨hs.apart, fun _ _ => Iff.rfl, fun x he => by rw [hj]; exact (hs.live h r hr).crosses x he⟩

/-- A record that had no cross-connect is joined on its lanes. -/
theorem State.Fits.crossesJoined (hs : s.Fits loose) (hr : s.call? h = some r) (hx : t.crosses = s.crosses ++ r'.joins h)
    (hno : ∀ l p i, ¬ r.Joined l p i) (hc : r'.state = .connected) (hb : r'.heldBelow = false) :
    CrossesFor s.crosses t.crosses h fun l p i => r'.Joined l p i := by
  have hnot : ∀ x ∈ s.crosses, x.handle ≠ h := fun x hx he => hno _ _ _ (((hs.live h r hr).crosses x he).1 hx)
  rw [hx]
  refine ⟨?_, fun x hx => ?_, fun x hx => ?_⟩
  · rw [List.nodup_append]
    refine ⟨hs.apart, r'.joins_nodup h, fun x hx y hy e => hnot x hx (e ▸ (CallRecord.mem_joins.1 hy).1)⟩
  · rw [List.mem_append, CallRecord.mem_joins]
    simp [hx]
  · rw [List.mem_append, CallRecord.mem_joins, CallRecord.joined_iff hc hb]
    exact ⟨fun h1 => h1.elim (fun h1 => absurd hx (hnot x h1)) fun h1 => h1.2, fun h1 => .inr ⟨hx, h1⟩⟩

theorem ActivitiesFor.same {old new : Vector Activity 96} (he : new = old) (h : Handle) : ActivitiesFor old new h :=
  fun _ => .inl (by rw [he])

theorem getElem_set_slot (v : Vector Activity 96) (n i : SlotNo) (a : Activity) :
    (v.set n a)[i] = if i = n then a else v[i] := by
  by_cases hi : i = n
  · subst hi; simp
  · have hne : n.val ≠ i.val := fun e => hi (Fin.ext e).symm
    simp [hi, hne]

theorem ActivitiesFor.set {old : Vector Activity 96} {n : SlotNo} {a : Activity} (ho : old[n].handle? = none ∨
    old[n].handle? = some h) (ha : a.handle? = none ∨ a.handle? = some h) : ActivitiesFor old (old.set n a) h := fun i => by
  rw [getElem_set_slot]
  by_cases hi : i = n
  · rw [if_pos hi]
    subst hi
    exact .inr ⟨ho, ha⟩
  · rw [if_neg hi]
    exact .inl rfl

end

end Sys2Proof.Machine
end

