-- ==== Sys2Proof/Proofs/RecordAlike.lean ====
section
/-! PROOFS. The changes of one record, each keeping the agreement of the tables: a record recast, the end of a call, the wait
list, lanes and the mirror (R46, R55, R57, R63 to R65, R82, R139, R145, R150). -/

namespace Sys2Proof.Machine

section
variable {s t : State} {loose loose' : Handle → Prop} {h v : Handle} {r r' : CallRecord} {p : Owned}

theorem State.withCallTables_call? (s : State) (h : Handle) (r : CallRecord) (x : List Cross) (act : Vector Activity 96) :
    (s.withCallTables h r x act).call? h = some r := State.call?_putCall_self s h r

theorem State.withCallTables_ne (s : State) (r : CallRecord) (x : List Cross) (act : Vector Activity 96) (hv : v ≠ h) :
    (s.withCallTables h r x act).call? v = s.call? v := State.call?_putCall_ne s r (Ne.symm hv)

/-- The keys of a record's open sides after a change. -/
def NewKeys (s : State) (h : Handle) (r r' : CallRecord) : Prop :=
  ∀ p key, r'.openKey p = some key → r.openKey p = some key ∨ key = ownKey p h ∨
    (key.side ≠ ownSide p ∧ ∀ v, s.openAt p v ≠ some key)

theorem State.Fits.keysFor (hs : s.Fits loose) (hr : s.call? h = some r) (hcall : ∀ v, v ≠ h → t.call? v = s.call? v)
    (hr' : t.call? h = some r') (hk : NewKeys s h r r') : t.KeysApart := by
  refine hs.keys.change hcall fun p key ho => ?_
  obtain ⟨r'', hr'', hkey⟩ := State.openAt_some.1 ho
  cases hr'.symm.trans hr''
  exact (hk p key hkey).imp_left fun h1 => State.openAt_some.2 ⟨r, hr, h1⟩

/-- A record changes, with its cross-connects and activities; its lanes, its mirror entry and the wait list stand. -/
theorem State.Fits.withCall (hs : s.Fits loose) (hr : s.call? h = some r) {x : List Cross} {act : Vector Activity 96}
    (hE : ∀ v, v ≠ h → (loose' v ↔ loose v)) (hE' : ¬ loose' h) (hcls : r'.cls = r.cls) (hport : r'.ownedPort = r.ownedPort)
    (hlane : r'.ownedLane = r.ownedLane) (hl : r'.lLane = r.lLane) (hW : r'.Waits ↔ ¬ loose h ∧ r.Waits)
    (hx : CrossesFor s.crosses x h fun l p i => r'.Joined l p i) (hact : ActivitiesFor s.activity act h)
    (hfloor : ∀ i : SlotNo, act[i].handle? = some h → r'.state ≠ .clearing ∧ ∃ f, r'.far = .floor f ∧ f.slot = i)
    (hnamed : r'.state ≠ .clearing → ∀ f, r'.far = .floor f → r'.activityOf h = some act[f.slot])
    (hclear : r'.state = .clearing → r'.anyOpen = true ∧ r'.lLane = none ∧ r'.ownedLane = none)
    (hbelow : r'.heldBelow = true → r'.lLane = none ∧ (r'.state = .connected ∨ r'.state = .parked ∨ r'.state = .clearing))
    (hkeys : NewKeys s h r r') : (s.withCallTables h r' x act).Fits loose' := by
  have hlive := hs.live h r hr
  have hwait : ∀ y ∈ s.waiting, y.handle = h → ¬ loose h := fun y hy he hl => hlive.outside hl y hy he
  have hcall : ∀ v, v ≠ h → (s.withCallTables h r' x act).call? v = s.call? v := fun v hv => s.withCallTables_ne r' x act hv
  have hr' := s.withCallTables_call? h r' x act
  refine hs.recast hE hr' ⟨hcall, hs.keysFor hr hcall hr' hkeys, hs.lanesFor hr rfl hport hlane, hs.mirrorFor hr rfl hl,
    hs.waitingFor rfl (State.putCall_cls hr hcls), hx, hact⟩ ⟨fun _ => ?_, fun hl => absurd hl hE', fun y hy he => ?_, hfloor,
    fun _ => hnamed, hclear, hbelow⟩
  · rw [hW]
    exact ⟨fun ⟨y, hy, he⟩ => ⟨hwait y hy he, (hlive.queued (hwait y hy he)).1 ⟨y, hy, he⟩⟩, fun ⟨h1, h2⟩ => (hlive.queued h1).2 h2⟩
  · rw [hport, hlane]; exact hlive.waits y hy he

/-! ## A record that stays what it was to the tables -/

/-- To the tables the second record is what the first is. -/
structure CallRecord.Alike (r r' : CallRecord) (h : Handle) : Prop where
  cls       : r'.cls = r.cls
  port      : r'.ownedPort = r.ownedPort
  lane      : r'.ownedLane = r.ownedLane
  lLane     : r'.lLane = r.lLane
  below     : r'.heldBelow = r.heldBelow
  waits     : r'.Waits ↔ r.Waits
  clearing  : r'.state = .clearing ↔ r.state = .clearing
  connected : r'.state = .connected ↔ r.state = .connected
  held      : r.heldBelow = true → r'.state = r.state
  floor     : ∀ f', r'.far = .floor f' → ∃ f, r.far = .floor f ∧ f.slot = f'.slot ∧ r'.activityOf h = r.activityOf h
  slot      : ∀ f, r.far = .floor f → ∃ f', r'.far = .floor f' ∧ f'.slot = f.slot
  keys      : ∀ p key, r'.openKey p = some key → r.openKey p = some key
  anyOpen   : r.state = .clearing → r'.anyOpen = true

/-- The record of an unchanged state, whatever its timers and its offers. -/
theorem CallRecord.Alike.of_state {r r' : CallRecord} (h : Handle) (hst : r'.state = r.state) (hdir : r'.dir = r.dir)
    (hcls : r'.cls = r.cls) (hlow : r'.low = r.low) (hl : r'.lLane = r.lLane) (hb : r'.heldBelow = r.heldBelow)
    (hlane : r'.ownedLane = r.ownedLane) (hfar : r'.far = r.far ∨ ∃ f f', r.far = .floor f ∧ r'.far = .floor f' ∧
      f'.slot = f.slot ∧ f'.port = f.port) (hopen : r.state = .clearing → r.anyOpen = true) : r.Alike r' h := by
  have hport : r'.ownedPort = r.ownedPort := by
    unfold CallRecord.ownedPort
    rcases hfar with e | ⟨f, f', e, e', -, hp⟩
    · rw [e]
    · rw [e, e']; exact congrArg (fun k => some (Owned.F k)) hp
  have hkeys : ∀ p, r'.openKey p = r.openKey p := fun p => by
    cases p with
    | L => exact congrArg RiserSide.key? hlow
    | H =>
      unfold CallRecord.openKey
      rcases hfar with e | ⟨f, f', e, e', -, -⟩
      · rw [e]
      · rw [e, e']; rfl
  have hact : r'.activityOf h = r.activityOf h := by unfold CallRecord.activityOf; rw [hst, hdir]
  refine ⟨hcls, hport, hlane, hl, hb, by unfold CallRecord.Waits; rw [hst], by rw [hst], by rw [hst], fun _ => hst, fun f' hf' => ?_,
    fun f hf => ?_, fun p key hk => by rwa [hkeys] at hk, fun hc => ?_⟩
  · rcases hfar with e | ⟨f, f'', e, e', hs, -⟩
    · exact ⟨f', e ▸ hf', rfl, hact⟩
    · cases e'.symm.trans hf'
      exact ⟨f, e, hs.symm, hact⟩
  · rcases hfar with e | ⟨f₀, f', e, e', hs, -⟩
    · exact ⟨f, e ▸ hf, rfl⟩
    · cases e.symm.trans hf
      exact ⟨f', e', hs⟩
  · unfold CallRecord.anyOpen
    rw [hkeys, hkeys]
    exact hopen hc

theorem CallRecord.Alike.joined (ha : r.Alike r' h) (l : LLane) (p : Owned) (i : Nat) : r'.Joined l p i ↔ r.Joined l p i := by
  constructor
  · rintro ⟨h1, h2, h3, h4, h5⟩
    exact ⟨ha.connected.1 h1, ha.below ▸ h2, ha.lLane ▸ h3, ha.port ▸ h4, ha.lane ▸ h5⟩
  · rintro ⟨h1, h2, h3, h4, h5⟩
    exact ⟨ha.connected.2 h1, ha.below.trans h2, ha.lLane.trans h3, ha.port.trans h4, ha.lane.trans h5⟩

theorem CallRecord.Alike.refl (r : CallRecord) (h : Handle) (ho : r.state = .clearing → r.anyOpen = true) : r.Alike r h :=
  ⟨rfl, rfl, rfl, rfl, rfl, Iff.rfl, Iff.rfl, Iff.rfl, fun _ => rfl, fun f hf => ⟨f, hf, rfl, rfl⟩, fun f hf => ⟨f, hf, rfl⟩,
    fun _ _ hk => hk, ho⟩

theorem State.Live.alike {a : Prop} (hs : s.Live h a r) (ha : r.Alike r' h) : s.Live h a r' where
  lane p i := by rw [ha.port, ha.lane]; exact hs.lane p i
  mirror l := by rw [ha.lLane]; exact hs.mirror l
  queued hl := (hs.queued hl).trans ha.waits.symm
  outside := hs.outside
  waits x hx he := by rw [ha.port, ha.lane]; exact hs.waits x hx he
  activity i hi := by
    obtain ⟨hc, f, hf, hfi⟩ := hs.activity i hi
    obtain ⟨f', hf', hs'⟩ := ha.slot f hf
    exact ⟨fun e => hc (ha.clearing.1 e), f', hf', hs'.trans hfi⟩
  named hl hc f' hf' := by
    obtain ⟨f, hf, hfs, hav⟩ := ha.floor f' hf'
    rw [hav, hs.named hl (fun e => hc (ha.clearing.2 e)) f hf]
    exact congrArg (fun i : SlotNo => some s.activity[i]) hfs
  crosses x he := by rw [ha.joined]; exact hs.crosses x he
  clearing hc := by
    obtain ⟨-, h2, h3⟩ := hs.clearing (ha.clearing.1 hc)
    exact ⟨ha.anyOpen (ha.clearing.1 hc), ha.lLane.trans h2, ha.lane.trans h3⟩
  below hb := by
    rw [ha.lLane, ha.held (ha.below ▸ hb)]
    exact hs.below (ha.below ▸ hb)

/-- A state in which each record is to the tables what it was. -/
structure State.AllAlike (s t : State) : Prop where
  maps     : t.maps = s.maps
  mirror   : t.mirror = s.mirror
  waiting  : t.waiting = s.waiting
  activity : t.activity = s.activity
  crosses  : t.crosses = s.crosses
  none     : ∀ h, t.call? h = none → s.call? h = none
  some     : ∀ h r', t.call? h = some r' → ∃ r, s.call? h = some r ∧ r.Alike r' h

theorem State.AllAlike.cls (ha : s.AllAlike t) (v : Handle) :
    (t.call? v).map CallRecord.cls = (s.call? v).map CallRecord.cls := by
  cases ht : t.call? v with
  | none => rw [ha.none v ht]
  | some r' =>
    obtain ⟨r, hr, hal⟩ := ha.some v r' ht
    rw [hr]
    exact congrArg Option.some hal.cls

theorem State.Fits.allAlike (hs : s.Fits loose) (ha : s.AllAlike t) : t.Fits loose := by
  have hmap : ∀ p, t.map p = s.map p := fun p => by unfold State.map; rw [ha.maps]
  have hhold : ∀ p i, t.holder p i = s.holder p i := fun p i => State.holder_congr (hmap p) i
  have hpri : ∀ x, t.entryPriority x = s.entryPriority x := fun x => State.entryPriority_congr (ha.cls _)
  have hopen : ∀ p h key, t.openAt p h = some key → s.openAt p h = some key := fun p h key ho => by
    obtain ⟨r', hr', hk⟩ := State.openAt_some.1 ho
    obtain ⟨r, hr, hal⟩ := ha.some h r' hr'
    exact State.openAt_some.2 ⟨r, hr, hal.keys p key hk⟩
  refine ⟨⟨fun p => hmap p ▸ hs.lengths p, fun p => hmap p ▸ hs.orders p, ha.waiting ▸ hs.nodup, ?_, ha.crosses ▸ hs.apart,
    fun p h key ho => ?_⟩, fun h r' hr' => ?_, fun h hn => ?_⟩
  · rw [ha.waiting]
    exact hs.sorted.imp fun h => by rwa [hpri, hpri]
  · obtain ⟨h1, h2⟩ := hs.keys p h key (hopen p h key ho)
    exact ⟨h1, fun v hv => h2 v (hopen p v key hv)⟩
  · obtain ⟨r, hr, hal⟩ := ha.some h r' hr'
    obtain ⟨h1, h2, h3, h4, h5, h6, h7, h8, h9, h10⟩ := (hs.live h r hr).alike hal
    refine ⟨fun p i => by rw [hhold]; exact h1 p i, ?_, ?_, ?_, ?_, ?_, ?_, ?_, h9, h10⟩
    · rw [ha.mirror]; exact h2
    · rw [ha.waiting]; exact h3
    · rw [ha.waiting]; exact h4
    · rw [ha.waiting]; exact h5
    · rw [ha.activity]; exact h6
    · rw [ha.activity]; exact h7
    · rw [ha.crosses]; exact h8
  · obtain ⟨h1, h2, h3, h4, h5⟩ := hs.gone h (ha.none h hn)
    refine ⟨fun p i => by rw [hhold]; exact h1 p i, ?_, ?_, ?_, ?_⟩
    · rw [ha.mirror]; exact h2
    · rw [ha.waiting]; exact h3
    · rw [ha.activity]; exact h4
    · rw [ha.crosses]; exact h5

theorem State.Fits.alike (hs : s.Fits loose) (hr : s.call? h = some r) (ha : r.Alike r' h) :
    (s.putCall h r').Fits loose := by
  refine hs.allAlike ⟨rfl, rfl, rfl, rfl, rfl, fun v hv => ?_, fun v x hv => ?_⟩
  · by_cases he : h = v
    · subst he
      rw [State.call?_putCall_self] at hv; cases hv
    · rwa [State.call?_putCall_ne _ _ he] at hv
  · by_cases he : h = v
    · subst he
      rw [State.call?_putCall_self] at hv
      cases hv
      exact ⟨r, hr, ha⟩
    · rw [State.call?_putCall_ne _ _ he] at hv
      exact ⟨x, hv, .refl x v fun hc => ((hs.live v x hv).clearing hc).1⟩

theorem State.Quiet.putCall (hq : s.Quiet p) (hr : s.call? h = some r) (hcls : r'.cls = r.cls) (x : List Cross)
    (act : Vector Activity 96) : (s.withCallTables h r' x act).Quiet p :=
  hq.sublist (fun _ he => he) (fun _ hy => hy) fun y _ => State.entryPriority_congr (State.putCall_cls hr hcls y.handle)

end

end Sys2Proof.Machine
end

