-- ==== Sys2Proof/Proofs/CallGone.lean ====
section
/-! PROOFS. The end of a call and a freed record keep the agreement of the tables (R82, R145). -/

namespace Sys2Proof.Machine

section
variable {s t : State} {loose loose' : Handle → Prop} {h v : Handle} {r r' : CallRecord} {p : Owned} {c : Cause}

/-! ## The tables after the end of a call -/

theorem State.callOver_map (s : State) (h : Handle) (r : CallRecord) (c : Cause) (p : Owned) :
    (s.callOver h r c).map p = match r.ownedPort, r.ownedLane with
      | some q, some i => if p = q then (s.map q).freed i else s.map p
      | _, _ => s.map p := by
  unfold State.callOver
  cases hp : r.ownedPort with
  | none => rfl
  | some q =>
    cases hi : r.ownedLane with
    | none => rfl
    | some i =>
      have := State.map_set s q p ((s.map q).freed i)
      exact this

theorem State.callOver_holder (s : State) (h : Handle) (r : CallRecord) (c : Cause) (p : Owned) (i : Nat) :
    (s.callOver h r c).holder p i = if r.ownedPort = some p ∧ r.ownedLane = some i then none else s.holder p i := by
  rw [State.holder_eq, State.callOver_map]
  cases hp : r.ownedPort with
  | none => simp [State.holder_eq]
  | some q =>
    cases hi : r.ownedLane with
    | none => simp [State.holder_eq]
    | some j =>
      dsimp only
      by_cases hpq : p = q
      · subst hpq
        rw [if_pos rfl, LaneMap.holder_freed, State.holder_eq]
        simp [eq_comm]
      · rw [if_neg hpq, State.holder_eq]
        simp [Ne.symm hpq]

theorem getElem_set_lane (m : Vector (Option Handle) 12) (a l : LLane) (x : Option Handle) :
    (m.set a x)[l] = if l = a then x else m[l] := by
  by_cases hl : l = a
  · subst hl; simp
  · have hne : a.val ≠ l.val := fun e => hl (Fin.ext e).symm
    simp [hl, hne]

theorem State.callOver_mirror (s : State) (h : Handle) (r : CallRecord) (c : Cause) (l : LLane) :
    (s.callOver h r c).mirror[l] = if r.lLane = some l then none else s.mirror[l] := by
  unfold State.callOver
  cases hl : r.lLane with
  | none => simp
  | some a =>
    dsimp only
    rw [getElem_set_lane]
    simp [eq_comm]

/-- A flat's activity becomes IDLE where it names the record and the record's floor side is the flat's (R104). -/
theorem State.callOver_activity_idle (s : State) {h : Handle} {r : CallRecord} (c : Cause) {f : FloorSide} (hf : r.far = .floor f)
    (ha : s.activity[f.slot].handle? = some h) : (s.callOver h r c).activity[f.slot] = .idle := by
  unfold State.callOver
  simp only [hf, ha, if_true]
  rw [getElem_set_slot, if_pos rfl]

theorem State.callOver_activity_same (s : State) {h : Handle} {r : CallRecord} (c : Cause) {i : SlotNo}
    (hi : ∀ f, r.far = .floor f → f.slot = i → s.activity[i].handle? ≠ some h) :
    (s.callOver h r c).activity[i] = s.activity[i] := by
  have he : (s.callOver h r c).activity = (s.flatIdled h r).activity := 
    (congrArg State.activity (s.flatIdled_eq h r)).symm
  rw [he]
  unfold State.flatIdled State.idled
  cases hf : r.far with
  | none => rfl
  | high side => rfl
  | floor f =>
    dsimp only
    split
    · next ha =>
      rw [getElem_set_slot, if_neg]
      rintro rfl
      exact hi f hf rfl ha
    · rfl

theorem State.callOver_call?_ne (s : State) (r : CallRecord) (c : Cause) (hv : v ≠ h) :
    (s.callOver h r c).call? v = s.call? v := by
  have := State.bare_call? (s.bare_ended h r c) v
  rw [← this]
  exact State.ended_call?_ne s h r c (Ne.symm hv)

theorem State.callOver_call?_self (s : State) (h : Handle) (r : CallRecord) (c : Cause) :
    (s.callOver h r c).call? h = if r.anyOpen then some (r.cleared c) else none := by
  rw [← State.bare_call? (s.bare_ended h r c)]
  exact State.ended_call?_self s h r c

theorem CallRecord.cleared_openKey (r : CallRecord) (c : Cause) (p : Riser) : (r.cleared c).openKey p = r.openKey p := by
  have h1 : (r.cleared c).openKey p = r.guarded.openKey p := rfl
  rw [h1, CallRecord.openKey_guarded]

/-- A call that ends leaves every table but its own record, whatever its state was (R145). -/
theorem State.Fits.callOver_tables (hs : s.Fits loose) (hr : s.call? h = some r) (c : Cause) :
    TablesFor s (s.callOver h r c) h (fun _ _ => False) (fun _ => False) False fun _ _ _ => False := by
  have hlive := hs.live h r hr
  have hcall : ∀ v, v ≠ h → (s.callOver h r c).call? v = s.call? v := fun v hv => s.callOver_call?_ne r c hv
  have hmine : ∀ p i, r.ownedPort = some p ∧ r.ownedLane = some i → s.holder p i = some h := fun p i e => (hlive.lane p i).2 e
  refine ⟨hcall, ?keys, ⟨fun p => ?_, fun p => ?_, fun p i v hv => ?_, fun p i => ?_⟩, ⟨fun l v hv => ?_, fun l => ?_⟩,
    ⟨?nodup, ?sorted, fun x hx => ?_, ?own⟩, ⟨?apart, fun x hx => ?_, fun x hx => ?_⟩, fun i => ?activity⟩
  case keys =>
    refine hs.keys.change hcall fun p key ho => .inl ?_
    obtain ⟨r', hr', hk⟩ := State.openAt_some.1 ho
    rw [State.callOver_call?_self] at hr'
    split at hr'
    · cases hr'
      exact State.openAt_some.2 ⟨r, hr, (r.cleared_openKey c p) ▸ hk⟩
    · cases hr'
  · rw [State.callOver_map]
    split
    · split
      · next q i _ _ hpq => subst hpq; rw [← hs.lengths p]; exact List.length_set
      · exact hs.lengths p
    · exact hs.lengths p
  · rw [State.callOver_map]
    split
    · split
      · next q i _ _ hpq => subst hpq; exact (hs.orders p).freed i
      · exact hs.orders p
    · exact hs.orders p
  · rw [State.callOver_holder]
    split
    · next e =>
      rw [hmine p i e]
      exact iff_of_false (by simp) fun e' => hv (Option.some.inj e').symm
    · rfl
  · rw [State.callOver_holder]
    split
    · simp
    · next e => rw [hlive.lane p i]; exact ⟨fun e' => e e', False.elim⟩
  · rw [State.callOver_mirror]
    split
    · next e =>
      rw [(hlive.mirror l).2 e]
      exact iff_of_false (by simp) fun e' => hv (Option.some.inj e').symm
    · rfl
  · rw [State.callOver_mirror]
    split
    · simp
    · next e => rw [hlive.mirror l]; exact ⟨fun e' => e e', False.elim⟩
  case nodup => exact hs.nodup.sublist (List.filter_sublist.map _)
  case sorted =>
    have hsub : (s.callOver h r c).waiting.Pairwise fun x y => s.entryPriority y ≤ s.entryPriority x :=
      hs.sorted.sublist List.filter_sublist
    refine hsub.imp_of_mem fun {a b} ha hb hab => ?_
    have hne : ∀ x ∈ (s.callOver h r c).waiting, x.handle ≠ h := fun x hx => by
      simpa using (List.mem_filter.1 hx).2
    rwa [State.entryPriority_congr (congrArg _ (hcall _ (hne a ha))), State.entryPriority_congr (congrArg _ (hcall _ (hne b hb)))]
  · exact ⟨fun hm => (List.mem_filter.1 hm).1, fun hm => List.mem_filter.2 ⟨hm, by simpa using hx⟩⟩
  case own =>
    refine iff_of_false (fun ⟨x, hx, he⟩ => ?_) not_false
    have := (List.mem_filter.1 hx).2
    simp [he] at this
  case apart => exact hs.apart.filter _
  · refine ⟨fun hm => (List.mem_filter.1 hm).1, fun hm => List.mem_filter.2 ⟨hm, ?_⟩⟩
    have hlx : ∃ r', s.call? x.handle = some r' := by
      cases hn : s.call? x.handle with
      | none => exact absurd rfl ((hs.gone _ hn).crosses x hm)
      | some r' => exact ⟨r', rfl⟩
    obtain ⟨r', hr'⟩ := hlx
    have hj := ((hs.live _ r' hr').crosses x rfl).1 hm
    have h1 : ¬ (r.ownedPort = some x.port ∧ r.ownedLane = some x.lane) := fun e => by
      have := ((hs.live _ r' hr').lane x.port x.lane).2 ⟨hj.port, hj.lane⟩
      rw [hmine _ _ e] at this
      exact hx (Option.some.inj this).symm
    have h2 : r.lLane ≠ some x.lLane := fun e => by
      have := ((hs.live _ r' hr').mirror x.lLane).2 hj.lLane
      rw [(hlive.mirror _).2 e] at this
      exact hx (Option.some.inj this).symm
    simp only [Bool.and_eq_true, Bool.not_eq_true', Bool.and_eq_false_iff, beq_eq_false_iff_ne]
    exact ⟨not_and_or.1 h1, h2⟩
  · refine iff_of_false (fun hm => ?_) not_false
    have hj := (hlive.crosses x hx).1 (List.mem_filter.1 hm).1
    have := (List.mem_filter.1 hm).2
    simp [hj.lLane] at this
  case activity =>
    by_cases hi : ∃ f, r.far = .floor f ∧ f.slot = i ∧ s.activity[i].handle? = some h
    · obtain ⟨f, hf, rfl, ha⟩ := hi
      rw [State.callOver_activity_idle s c hf ha]
      exact .inr ⟨.inr ha, .inl rfl⟩
    · exact .inl (State.callOver_activity_same s c fun f hf hfi ha => hi ⟨f, hf, hfi, ha⟩)

theorem State.callOver_noActivity (hs : s.Fits loose) (hr : s.call? h = some r) (c : Cause) (i : SlotNo) :
    (s.callOver h r c).activity[i].handle? ≠ some h := by
  intro hi
  by_cases ha : s.activity[i].handle? = some h
  · obtain ⟨-, f, hf, rfl⟩ := (hs.live h r hr).activity i ha
    rw [State.callOver_activity_idle s c hf ha] at hi
    cases hi
  · rw [State.callOver_activity_same s c fun _ _ _ => ha] at hi
    exact ha hi

/-- The end of a call keeps the agreement (R145). -/
theorem State.Fits.ended (hs : s.Fits loose) (hr : s.call? h = some r) (c : Cause)
    (hE : ∀ v, v ≠ h → (loose' v ↔ loose v)) (hE' : ¬ loose' h) : (s.ended h r c).Fits loose' := by
  refine State.Fits.bare (s.bare_ended h r c).symm ?_
  have ht := hs.callOver_tables hr c
  have hself := s.callOver_call?_self h r c
  cases ho : r.anyOpen with
  | false =>
    rw [ho] at hself
    exact hs.vanish hE hself ht (State.callOver_noActivity hs hr c)
  | true =>
    rw [ho] at hself
    obtain ⟨hl, hn, hm, hw, hcr⟩ : (r.cleared c).ownedLane = none ∧ ¬ (r.cleared c).Waits ∧ (r.cleared c).lLane = none ∧
        (r.cleared c).state = .clearing ∧ (∀ l p i, ¬ (r.cleared c).Joined l p i) :=
      ⟨rfl, by simp [CallRecord.Waits, CallRecord.cleared], rfl, rfl, fun l p i hj => by simpa [CallRecord.cleared] using hj.state⟩
    refine hs.recast (queued := False) hE hself ⟨ht.call, ht.keys, ⟨ht.lanes.lengths, ht.lanes.orders, ht.lanes.other, fun p i => ?_⟩,
      ⟨ht.mirror.other, fun l => ?_⟩, ht.waiting, ⟨ht.crosses.nodup, ht.crosses.other, fun x hx => ?_⟩, ht.activity⟩
      ⟨fun _ => ?_, fun hl => absurd hl hE', fun x hx he => ?_, fun i hi => ?_, fun _ hc => absurd hw hc, fun _ => ⟨?_, hm, hl⟩,
        fun _ => ⟨hm, .inr (.inr hw)⟩⟩
    · rw [ht.lanes.own, hl]; simp
    · rw [ht.mirror.own, hm]; simp
    · rw [ht.crosses.own x hx]; exact ⟨False.elim, hcr _ _ _⟩
    · exact ht.waiting.own.trans ⟨False.elim, hn⟩
    · exact absurd ⟨x, hx, he⟩ (fun e => ht.waiting.own.1 e)
    · exact absurd hi (State.callOver_noActivity hs hr c i)
    · unfold CallRecord.anyOpen at ho ⊢
      rw [CallRecord.cleared_openKey, CallRecord.cleared_openKey]
      exact ho

/-- Where a call's end frees no lane of the port, nothing there becomes easier. -/
theorem State.ended_noEasier (s : State) (h : Handle) (c : Cause) (hf : r.freedPort ≠ some p) : s.NoEasier (s.ended h r c) p :=
  fun e he => by
  rw [State.bare_admitLane (s.bare_ended h r c)]
  refine State.noEasier_of_holders (s := s) (t := s.callOver h r c) (fun hu => hu) rfl rfl (fun i hi => ?_) e he
  rw [State.callOver_holder] at hi
  split at hi
  · next e =>
    refine absurd ?_ hf
    unfold CallRecord.freedPort
    rw [e.1, e.2]
    rfl
  · exact hi

theorem State.Quiet.ended (hq : s.Quiet p) (c : Cause) (hf : r.freedPort ≠ some p) :
    (s.ended h r c).Quiet p := by
  have hwait := s.ended_waiting h r c
  refine hq.sublist (s.ended_noEasier h c hf) (fun x hx => ?_) fun x hx => ?_
  · rw [hwait] at hx
    exact (List.mem_filter.1 hx).1
  · rw [hwait] at hx
    have hne : h ≠ x.handle := Ne.symm (by simpa using (List.mem_filter.1 hx).2)
    exact State.entryPriority_congr (congrArg _ (s.ended_call?_ne h r c hne))

/-! ## A record in CLEARING is freed -/

theorem State.Fits.freed (hs : s.Fits loose) (hr : s.call? h = some r) (hc : r.state = .clearing) (hE : ¬ loose h) :
    (s.freed h).Fits loose := by
  have hlive := hs.live h r hr
  obtain ⟨-, hl, hi⟩ := hlive.clearing hc
  have hcall : ∀ v, v ≠ h → (s.freed h).call? v = s.call? v := fun v hv => by
    have : h.val ≠ v.val := fun e => hv (Fin.ext e).symm
    simp [State.call?, State.freed, this]
  have hself : (s.freed h).call? h = none := by simp [State.call?, State.freed]
  have hwait : ∀ x ∈ s.waiting, x.handle ≠ h := fun x hx he => by
    have := (hlive.queued hE).1 ⟨x, hx, he⟩
    simp [CallRecord.Waits, hc] at this
  refine hs.vanish (fun _ _ => Iff.rfl) hself ⟨hcall, ?keys, ⟨hs.lengths, hs.orders, fun _ _ _ _ => Iff.rfl, fun p i => ?_⟩,
    ⟨fun _ _ _ => Iff.rfl, fun l => ?_⟩, ⟨hs.nodup, ?sorted, fun _ _ => Iff.rfl, ?_⟩,
    ⟨hs.apart, fun _ _ => Iff.rfl, fun x hx => ?_⟩, .same rfl h⟩ fun i hi => ?_
  case keys =>
    refine hs.keys.change hcall fun p key ho => ?_
    obtain ⟨r', hr', -⟩ := State.openAt_some.1 ho
    rw [hself] at hr'; cases hr'
  case sorted =>
    refine hs.sorted.imp_of_mem fun {a b} ha hb hab => ?_
    rwa [State.entryPriority_congr (congrArg _ (hcall _ (hwait a ha))), State.entryPriority_congr (congrArg _ (hcall _ (hwait b hb)))]
  · exact iff_of_false (fun e => by have := (hlive.lane p i).1 e; simp [hi] at this) not_false
  · exact iff_of_false (fun e => by have := (hlive.mirror l).1 e; simp [hl] at this) not_false
  · exact iff_of_false (fun ⟨x, hx, he⟩ => hwait x hx he) not_false
  · exact iff_of_false (fun e => by have := ((hlive.crosses x hx).1 e).state; simp [hc] at this) not_false
  · exact (hlive.activity i hi).1 hc

theorem State.Quiet.freed (hq : s.Quiet p) (hs : s.Fits loose) (hr : s.call? h = some r) (hc : r.state = .clearing)
    (hE : ¬ loose h) : (s.freed h).Quiet p := by
  refine hq.sublist (fun _ he => he) (fun _ hy => hy) fun y hy => State.entryPriority_congr (congrArg _ ?_)
  have hne : y.handle ≠ h := fun he => by
    have := ((hs.live h r hr).queued hE).1 ⟨y, hy, he⟩
    simp [CallRecord.Waits, hc] at this
  have : h.val ≠ y.handle.val := fun e => hne (Fin.ext e).symm
  simp [State.call?, State.freed, this]

end

end Sys2Proof.Machine
end

