-- ==== Sys2Proof/Proofs/LanesAndWaiting.lean ====
section
/-! PROOFS. A record that takes a lane, loses it, or joins the wait list keeps the agreement of the tables; on the way it stands
outside the wait list (R55, R57, R63 to R65, R74). -/

namespace Sys2Proof.Machine

section
variable {s t : State} {loose loose' : Handle → Prop} {h v : Handle} {r r' : CallRecord} {p : Owned} {i : Nat} {c : Cause}

/-! ## The lanes -/

theorem State.Fits.lanesTaken (hs : s.Fits loose) (hr : s.call? h = some r) (hno : r.ownedLane = none)
    (hfree : s.holder p i = none) (hi : i < laneCount p)
    (hm : ∀ q, t.map q = if q = p then (s.map p).taken i h else s.map q) (hport : r'.ownedPort = some p)
    (hlane : r'.ownedLane = some i) : LanesFor s t h fun q j => r'.ownedPort = some q ∧ r'.ownedLane = some j := by
  have hlt : i < (s.map p).holders.length := (hs.lengths p).symm ▸ hi
  have hold : ∀ q j, t.holder q j = if q = p ∧ j = i then some h else s.holder q j := fun q j => by
    rw [State.holder_eq, hm]
    by_cases hq : q = p
    · subst hq
      rw [if_pos rfl, LaneMap.holder_taken _ hlt]
      simp [State.holder_eq]
    · rw [if_neg hq, if_neg fun e => hq e.1, State.holder_eq]
  refine ⟨fun q => ?_, fun q => ?_, fun q j v hv => ?_, fun q j => ?_⟩
  · rw [hm]
    split
    · next hq => subst hq; rw [← hs.lengths q]; exact List.length_set
    · exact hs.lengths q
  · rw [hm]
    split
    · next hq => subst hq; exact (hs.orders q).taken hlt h
    · exact hs.orders q
  · rw [hold]
    split
    · next e =>
      rw [e.1, e.2, hfree]
      exact iff_of_false (fun e' => hv (Option.some.inj e').symm) (by simp)
    · rfl
  · rw [hold, hport, hlane]
    split
    · next e => simp [e.1, e.2]
    · next e =>
      have hno' : s.holder q j ≠ some h := fun e' => by
        have := ((hs.live h r hr).lane q j).1 e'
        simp [hno] at this
      refine iff_of_false hno' fun e' => e ?_
      exact ⟨(Option.some.inj e'.1).symm, (Option.some.inj e'.2).symm⟩

theorem LanesFor.congr {u : State} {lane lane' : Owned → Nat → Prop} (hl : LanesFor s t h lane) (hm : ∀ p, u.map p = t.map p)
    (he : ∀ p i, lane p i ↔ lane' p i) : LanesFor s u h lane' where
  lengths p := hm p ▸ hl.lengths p
  orders p := hm p ▸ hl.orders p
  other p i v hv := by rw [State.holder_congr (hm p)]; exact hl.other p i v hv
  own p i := by rw [State.holder_congr (hm p), hl.own, he]

/-- A record without a lane keeps having none, whatever its port. -/
theorem State.Fits.lanesNone (hs : s.Fits loose) (hr : s.call? h = some r) (hm : t.maps = s.maps) (hno : r.ownedLane = none)
    (hno' : r'.ownedLane = none) : LanesFor s t h fun p i => r'.ownedPort = some p ∧ r'.ownedLane = some i :=
  (hs.lanesFor (t := t) hr hm rfl rfl).congr (fun _ => rfl) fun p i => by simp [hno, hno']

/-! ## The wait list -/

theorem State.Fits.waitingGone (hs : s.Fits loose) (hw : t.waiting = s.waiting.filter fun x => !(x.handle == h))
    (hcall : ∀ v, v ≠ h → t.call? v = s.call? v) : WaitingFor s t h False := by
  refine ⟨?_, ?_, fun x hx => ?_, iff_of_false (fun ⟨x, hx, he⟩ => ?_) not_false⟩
  · rw [hw]; exact hs.nodup.sublist (List.filter_sublist.map _)
  · have hsub : t.waiting.Pairwise fun x y => s.entryPriority y ≤ s.entryPriority x := by
      rw [hw]; exact hs.sorted.sublist List.filter_sublist
    refine hsub.imp_of_mem fun {a b} ha hb hab => ?_
    have hne : ∀ x ∈ t.waiting, x.handle ≠ h := fun x hx => by
      rw [hw] at hx
      simpa using (List.mem_filter.1 hx).2
    rwa [State.entryPriority_congr (congrArg _ (hcall _ (hne a ha))), State.entryPriority_congr (congrArg _ (hcall _ (hne b hb)))]
  · rw [hw, List.mem_filter]
    simp [hx]
  · rw [hw] at hx
    have := (List.mem_filter.1 hx).2
    simp [he] at this

/-- A record's entry is placed among those of the other records, by its effective priority (R64). -/
theorem State.Fits.waitingPlaced (hs : s.Fits loose) {l : List WaitEntry} (hsub : l.Sublist s.waiting)
    (hl : ∀ x : WaitEntry, x.handle ≠ h → (x ∈ l ↔ x ∈ s.waiting)) (hout : ∀ x ∈ l, x.handle ≠ h) {x : WaitEntry} {e : Nat}
    (hx : x.handle = h) (he : t.entryPriority x = e) (hw : t.waiting = t.placed x e l)
    (hcall : ∀ v, v ≠ h → t.call? v = s.call? v) : WaitingFor s t h True := by
  have hperm : t.waiting.Perm (x :: l) := hw ▸ t.placed_perm x e l
  have hsame : ∀ y ∈ l, t.entryPriority y = s.entryPriority y := fun y hy =>
    State.entryPriority_congr (congrArg _ (hcall _ (hout y hy)))
  refine ⟨?_, ?_, fun y hy => ?_, iff_of_true ⟨x, hperm.mem_iff.2 (by simp), hx⟩ trivial⟩
  · refine ((hperm.map WaitEntry.handle).nodup_iff).2 (List.nodup_cons.2 ⟨fun hm => ?_, hs.nodup.sublist (hsub.map _)⟩)
    obtain ⟨y, hy, hyx⟩ := List.mem_map.1 hm
    exact hout y hy (hyx.trans hx)
  · rw [hw]
    refine State.placed_sorted he ((hs.sorted.sublist hsub).imp_of_mem fun {a b} ha hb hab => ?_)
    rwa [hsame a ha, hsame b hb]
  · rw [hperm.mem_iff, List.mem_cons, or_iff_right, hl y hy]
    rintro rfl
    exact hy hx

/-! ## A lane is taken -/

/-- A record gets a lane and leaves the wait list, if it is there; it has to go on (R55, R74). -/
theorem State.Fits.gained (hs : s.Fits loose) (hr : s.call? h = some r) (hE : ∀ v, v ≠ h → (loose' v ↔ loose v)) (hE' : loose' h)
    (hp : r.ownedPort = some p) (hno : r.ownedLane = none) (hfree : s.holder p i = none) (hi : i < laneCount p)
    (hconn : r.state ≠ .connected) (hclear : r.state ≠ .clearing) :
    ((s.gained h p i).putCall h (r.onLane i)).Fits loose' := by
  have hlive := hs.live h r hr
  have hcall : ∀ v, v ≠ h → ((s.gained h p i).putCall h (r.onLane i)).call? v = s.call? v := fun v hv =>
    State.call?_putCall_ne _ _ (Ne.symm hv)
  have hself : ((s.gained h p i).putCall h (r.onLane i)).call? h = some (r.onLane i) := State.call?_putCall_self ..
  have hw : WaitingFor s ((s.gained h p i).putCall h (r.onLane i)) h False := hs.waitingGone rfl hcall
  refine hs.recast hE hself ⟨hcall, hs.keysFor hr hcall hself fun _ _ hk => .inl hk,
    hs.lanesTaken hr hno hfree hi (fun q => State.map_set s p q _) hp rfl, hs.mirrorFor hr rfl rfl, hw,
    hs.crossesFor hr rfl fun l q j => ?_, .same rfl h⟩ ⟨fun hl => absurd hE' hl, fun _ x hx he => hw.own.1 ⟨x, hx, he⟩,
    fun x hx he => absurd ⟨x, hx, he⟩ fun e => hw.own.1 e, hlive.activity, fun hl => absurd hE' hl,
    fun hc => absurd hc hclear, hlive.below⟩
  exact iff_of_false (fun hj => hconn hj.state) fun hj => hconn hj.state

/-- The same for a record that has no entry. -/
theorem State.gained_eq (hout : ∀ x ∈ s.waiting, x.handle ≠ h) (p : Owned) (i : Nat) : s.gained h p i = s.laneTaken p i h := by
  have hf : s.waiting.filter (fun x => !(x.handle == h)) = s.waiting :=
    List.filter_eq_self.2 fun x hx => by simp [hout x hx]
  unfold State.gained
  rw [hf]
  rfl

/-- The entries of other records stand, and no other lane changes. -/
theorem State.gained_noEasier (hlen : ∀ p : Owned, (s.map p).holders.length = laneCount p) (hi : i < laneCount p) (q : Owned)
    (r : CallRecord) : s.NoEasier ((s.gained h p i).putCall h r) q := by
  refine State.noEasier_of_holders (fun hu => hu) rfl rfl fun j hj => ?_
  have hm : ((s.gained h p i).putCall h r).map q = if q = p then (s.map p).taken i h else s.map q := State.map_set s p q _
  rw [State.holder_eq, hm] at hj
  by_cases hq : q = p
  · subst hq
    rw [if_pos rfl, LaneMap.holder_taken _ ((hlen q).symm ▸ hi)] at hj
    split at hj
    · cases hj
    · exact hj
  · rw [if_neg hq] at hj
    exact hj

theorem State.Quiet.gained {q : Owned} (hq : s.Quiet q) (hlen : ∀ p : Owned, (s.map p).holders.length = laneCount p)
    (hi : i < laneCount p) : ((s.gained h p i).putCall h r').Quiet q := by
  refine hq.sublist (State.gained_noEasier hlen hi q r') (fun x hx => (List.mem_filter.1 hx).1) fun x hx => ?_
  have hne : x.handle ≠ h := by simpa using (List.mem_filter.1 hx).2
  exact State.entryPriority_congr (congrArg _ (State.call?_putCall_ne _ _ (Ne.symm hne)))

/-! ## A lane is lost -/

theorem State.laneFreed_map (s : State) (h : Handle) (r : CallRecord) (c : Cause) (p : Owned) :
    (s.laneFreed h r).map p = (s.callOver h r c).map p := by
  rw [State.callOver_map]
  unfold State.laneFreed
  cases hp : r.ownedPort with
  | none => rfl
  | some q =>
    cases hi : r.ownedLane with
    | none => rfl
    | some i => exact State.map_set s q p ((s.map q).freed i)

/-- A record loses its lane and its cross-connect, and has to wait or to end (R57). -/
theorem State.Fits.laneFreed (hs : s.Fits loose) (hr : s.call? h = some r) (hE : ∀ v, v ≠ h → (loose' v ↔ loose v))
    (hE' : loose' h) (hp : r.ownedPort = some p) (hi : r.ownedLane = some i) : (s.laneFreed h r).Fits loose' := by
  have hlive := hs.live h r hr
  have heq : s.laneFreed h r = ({ s with
      maps := s.maps.set p.idx ((s.map p).freed i)
      crosses := s.crosses.filter fun x => !(x.port == p && x.lane == i) } : State).putCall h { r with ownedLane := none } := by
    simp only [State.laneFreed, hp, hi]
  have hclear : r.state ≠ .clearing := fun hc => by
    have := (hlive.clearing hc).2.2
    rw [hi] at this; cases this
  have hout : ∀ x ∈ s.waiting, x.handle ≠ h := fun x hx he => by
    have := (hlive.waits x hx he).2
    rw [hi] at this; cases this
  have hcall : ∀ v, v ≠ h → (s.laneFreed h r).call? v = s.call? v := fun v hv => by
    rw [heq]; exact State.call?_putCall_ne _ _ (Ne.symm hv)
  have hself : (s.laneFreed h r).call? h = some { r with ownedLane := none } := by
    rw [heq]; exact State.call?_putCall_self ..
  have hwt : (s.laneFreed h r).waiting = s.waiting := by rw [heq]; rfl
  have hw := hs.waitingFor (h := h) hwt fun v => by
    by_cases hv : v = h
    · subst hv
      rw [hself, hr]
      rfl
    · rw [hcall v hv]
  have hnot : ¬ ∃ x ∈ s.waiting, x.handle = h := fun ⟨x, hx, he⟩ => hout x hx he
  refine hs.recast hE hself ⟨hcall, hs.keysFor hr hcall hself fun _ _ hk => .inl hk,
    (hs.callOver_tables hr .normal).lanes.congr (s.laneFreed_map h r .normal) fun q j => by simp,
    hs.mirrorFor hr (by rw [heq]; rfl) rfl, hw, ⟨?_, fun x hx => ?_, fun x hx => ?_⟩, .same (by rw [heq]; rfl) h⟩
    ⟨fun hl => absurd hE' hl, fun _ x hx => hout x (hwt ▸ hx), fun x hx he => absurd he (hout x (hwt ▸ hx)),
    fun n hn => hlive.activity n (by rw [heq] at hn; exact hn), fun hl => absurd hE' hl, fun hc => absurd hc hclear, hlive.below⟩
  · rw [heq]; exact hs.apart.filter _
  · rw [heq]
    refine ⟨fun hm => (List.mem_filter.1 hm).1, fun hm => List.mem_filter.2 ⟨hm, ?_⟩⟩
    have hj : s.holder x.port x.lane = some x.handle := by
      cases hn : s.call? x.handle with
      | none => exact absurd rfl ((hs.gone _ hn).crosses x hm)
      | some r' =>
        have hj := ((hs.live _ r' hn).crosses x rfl).1 hm
        exact ((hs.live _ r' hn).lane x.port x.lane).2 ⟨hj.port, hj.lane⟩
    have hh := (hlive.lane p i).2 ⟨hp, hi⟩
    by_contra hb
    obtain ⟨h1, h2⟩ : x.port = p ∧ x.lane = i := by simpa using hb
    rw [h1, h2, hh] at hj
    exact hx (Option.some.inj hj).symm
  · refine iff_of_false (fun hm => ?_) fun hj => by cases hj.lane
    rw [heq] at hm
    obtain ⟨hm, hb⟩ := List.mem_filter.1 hm
    have hj := (hlive.crosses x hx).1 hm
    rw [Option.some.inj (hp.symm.trans hj.port), Option.some.inj (hi.symm.trans hj.lane)] at hb
    simp at hb

/-! ## The wait list is joined -/

/-- The entry with which a record joins the wait list (R63, R65). -/
def State.newEntry (s : State) (h : Handle) (p : Owned) (cls : Class) : WaitEntry :=
  { handle := h, port := p, steps := 0, ageing := s.ageingStart (effPriority cls 0) }

theorem State.joined_eq (s : State) (h : Handle) (r : CallRecord) (p : Owned) (st : CallState) :
    s.joined h r p st = { s.putCall h (r.waitingIn st s.retained.timers.laneWait) with
      waiting := (s.putCall h (r.waitingIn st s.retained.timers.laneWait)).placed (s.newEntry h p r.cls)
        (effPriority r.cls 0) s.waiting } := rfl

/-- A record without a lane joins the wait list, its flat's activity with it (R58, R65). -/
theorem State.Fits.joined (hs : s.Fits loose) (hr : s.call? h = some r) (hE : ∀ v, v ≠ h → (loose' v ↔ loose v))
    (hE' : ¬ loose' h) (hout : ∀ x ∈ s.waiting, x.handle ≠ h) (hp : r.ownedPort = some p) (hno : r.ownedLane = none)
    {st : CallState} (hst : st = .waitingLane ∨ st = .parked) (hb : r.heldBelow = true → st = .parked)
    {act : Vector Activity 96} (hact : ActivitiesFor s.activity act h)
    (hfloor : ∀ n : SlotNo, act[n].handle? = some h → ∃ f, r.far = .floor f ∧ f.slot = n)
    (hnamed : ∀ f, r.far = .floor f → ({ r with state := st } : CallRecord).activityOf h = some act[f.slot]) :
    ({ s.joined h r p st with activity := act } : State).Fits loose' := by
  have hlive := hs.live h r hr
  obtain ⟨t, ht⟩ : ∃ t : State, t = { s.joined h r p st with activity := act } := ⟨_, rfl⟩
  obtain ⟨r', hr'⟩ : ∃ r' : CallRecord, r' = r.waitingIn st s.retained.timers.laneWait := ⟨_, rfl⟩
  have hstate : r'.state = st := by rw [hr']
  have hnc : st ≠ .clearing ∧ st ≠ .connected := by rcases hst with rfl | rfl <;> simp
  have hcall : ∀ v, v ≠ h → t.call? v = s.call? v := fun v hv => by
    rw [ht]; exact State.call?_putCall_ne s _ (Ne.symm hv)
  have hself : t.call? h = some r' := by
    rw [ht, hr']; exact State.call?_putCall_self ..
  have hj : ∀ l q j, ¬ r.Joined l q j := fun l q j hj => by
    have := hj.lane
    rw [hno] at this; cases this
  obtain ⟨x, hxh, hxp, hxe, hxw⟩ : ∃ x : WaitEntry, x.handle = h ∧ x.port = p ∧
      t.entryPriority x = effPriority r.cls 0 ∧ t.waiting = t.placed x (effPriority r.cls 0) s.waiting := by
    refine ⟨s.newEntry h p r.cls, rfl, rfl, ?_, ?_⟩
    · have hsame : t.call? (s.newEntry h p r.cls).handle = some r' := hself
      unfold State.entryPriority
      rw [hsame, hr']
      rfl
    · rw [ht]; rfl
  have hw : WaitingFor s t h True := hs.waitingPlaced (.refl _) (fun _ _ => Iff.rfl) hout hxh hxe hxw hcall
  have hmem : ∀ y ∈ t.waiting, y.handle = h → y = x := fun y hy he => by
    have hm := (t.placed_perm x (effPriority r.cls 0) s.waiting).mem_iff.1 (hxw ▸ hy)
    exact (List.mem_cons.1 hm).resolve_right fun hm => hout y hm he
  have hfit : t.Fits loose' := by
    refine hs.recast hE hself ⟨hcall, hs.keysFor hr hcall hself fun _ _ hk => .inl (by rw [hr'] at hk; exact hk),
      hs.lanesNone hr (by rw [ht]; rfl) hno (by rw [hr']; exact hno), hs.mirrorFor hr (by rw [ht]; rfl) (by rw [hr']), hw,
      hs.crossesFor hr (by rw [ht]; rfl) fun l q j => iff_of_false (fun hj => hnc.2 (hstate ▸ hj.state)) (hj l q j),
      by rw [ht]; exact hact⟩ ⟨fun _ => ?_, fun hl => absurd hl hE', fun y hy he => ?_, fun n hn => ?_, fun _ _ f hf => ?_,
      fun hc => absurd (hstate ▸ hc) hnc.1, fun hh => ?_⟩
    · exact hw.own.trans (iff_of_true trivial (by unfold CallRecord.Waits; rw [hstate]; exact hst))
    · rw [hmem y hy he, hxp, hr']
      exact ⟨hp, hno⟩
    · obtain ⟨f, hf, hfn⟩ := hfloor n (by rw [ht] at hn; exact hn)
      exact ⟨hstate ▸ hnc.1, f, by rw [hr']; exact hf, hfn⟩
    · have h1 := hnamed f (by rw [hr'] at hf; exact hf)
      rw [ht]
      refine Eq.trans ?_ h1
      unfold CallRecord.activityOf
      rw [hr']
    · rw [hr'] at hh
      have h1 := hlive.below hh
      refine ⟨by rw [hr']; exact h1.1, .inr (.inl ?_)⟩
      rw [hstate]
      exact hb hh
  exact ht ▸ hfit

/-- The port of the new entry stays quiet where the entry's own test fails. -/
theorem State.Quiet.joined {q : Owned} (hq : s.Quiet q) (hr : s.call? h = some r) {st : CallState} (act : Vector Activity 96)
    (hn : q = p → s.admitLane p (effPriority r.cls 0) = none) : ({ s.joined h r p st with activity := act } : State).Quiet q := by
  obtain ⟨t, ht⟩ : ∃ t : State, t = { s.joined h r p st with activity := act } := ⟨_, rfl⟩
  have hpri : ∀ y, t.entryPriority y = s.entryPriority y := fun y => by
    rw [ht]
    exact State.entryPriority_congr (State.putCall_cls hr (r' := r.waitingIn st s.retained.timers.laneWait) rfl y.handle)
  have hfit : t.Quiet q := by
    refine hq.step (fun e he => by rw [ht]; exact he) fun y hy hp => ?_
    obtain ⟨x, hx⟩ : ∃ x : WaitEntry, x = s.newEntry h p r.cls := ⟨_, rfl⟩
    have hm : y ∈ (s.putCall h (r.waitingIn st s.retained.timers.laneWait)).placed x (effPriority r.cls 0) s.waiting := by
      rw [ht, State.joined_eq] at hy
      rw [hx]
      exact hy
    rcases List.mem_cons.1 ((State.placed_perm ..).mem_iff.1 hm) with rfl | hm
    · refine .inr ?_
      have hqp : q = p := hp.symm.trans (congrArg WaitEntry.port hx)
      have he : t.entryPriority y = effPriority r.cls 0 := by
        rw [hpri, hx]
        have hsame : s.call? (s.newEntry h p r.cls).handle = some r := hr
        unfold State.entryPriority
        rw [hsame]
        rfl
      rw [he, hqp, ht]
      exact hn hqp
    · exact .inl ⟨hm, (hpri y).le⟩
  exact ht ▸ hfit

end

end Sys2Proof.Machine
end

