-- ==== Sys2Proof/Proofs/EventReady.lean ====
section
/-! PROOFS. An event in progress whose tables agree (`Work.Ready`), and how a call goes on in it once it has a lane (R74 to R77,
R94, R111, R114, R129). -/

namespace Sys2Proof.Machine

/-! ## An event in progress -/

/-- The tables of an event in progress agree, and the arbiter has nothing to grant but on the ports that `busy` names. -/
structure Work.Ready (w : Work) (loose : Handle → Prop) (busy : Owned → Prop) : Prop where
  fits  : w.st.Fits loose
  quiet : ∀ p, ¬ busy p → w.st.Quiet p

/-- The arbiter is to run for the port (R72). -/
abbrev Work.Due (w : Work) (p : Owned) : Prop := w.runs.contains p = true

/-- No record stands outside the wait list. -/
abbrev noneLoose : Handle → Prop := fun _ => False

/-- An operation that asks for cells and sets event bits, and changes nothing else. -/
structure Work.Plain (w w' : Work) : Prop where
  bare : w'.st.bare = w.st.bare
  runs : w'.runs = w.runs

section
variable {w w' : Work} {loose loose' : Handle → Prop} {busy' : Owned → Prop} {h : Handle} {r r' : CallRecord} {u : State}

theorem Work.makes_self (w : Work) : w.Makes False w.st := ⟨rfl, False.elim⟩

namespace Work.Plain

theorem refl (w : Work) : w.Plain w := ⟨rfl, rfl⟩

theorem trans {w'' : Work} (h : w.Plain w') (h' : w'.Plain w'') : w.Plain w'' :=
  ⟨h'.bare.trans h.bare, h'.runs.trans h.runs⟩

theorem raise (e : Event) : w.Plain (w.raise e) := ⟨rfl, rfl⟩

theorem sendL (c : RiserCell) : w.Plain (w.sendL c) :=
  ⟨(w.makes_self.sendL (c := c) False.elim).bare.trans (State.bare_sentL ..), w.sendL_runs c⟩

theorem sendH (c : RiserCell) : w.Plain (w.sendH c) :=
  ⟨(w.makes_self.sendH (c := c) False.elim).bare.trans (State.bare_sentH ..), w.sendH_runs c⟩

theorem sendF (k : Floor) (c : FloorCell) : w.Plain (w.sendF k c) :=
  ⟨(w.makes_self.sendF (c := c) False.elim).bare.trans (State.bare_sentF ..), w.sendF_runs k c⟩

theorem sendRiser (p : Riser) (c : RiserCell) : w.Plain (w.sendRiser p c) := by
  cases p with
  | L => exact sendL c
  | H => exact sendH c

theorem progressDown (r : CallRecord) (c : Progress) : w.Plain (w.progressDown r c) := by
  unfold Work.progressDown
  split
  · exact sendL _
  · exact refl w

theorem progressUp (r : CallRecord) (c : Progress) (l : Option Nat) : w.Plain (w.progressUp r c l) := by
  unfold Work.progressUp
  split
  · exact sendH _
  · exact refl w

theorem connectToward (r : CallRecord) (p : Riser) : w.Plain (w.connectToward r p) := by
  unfold Work.connectToward
  split
  · exact sendRiser p _
  · exact refl w

theorem statusTo (h : Handle) (r : CallRecord) (c : Status) (v : Byte) (l : Option Nat) : w.Plain (w.statusTo h r c v l) := by
  unfold Work.statusTo
  split
  · split
    · exact sendF _ _
    · exact refl w
  · exact refl w

theorem tellOrigin (h : Handle) (r : CallRecord) (c : Status) (d : Progress) : w.Plain (w.tellOrigin h r c d) := by
  unfold Work.tellOrigin
  split
  · exact statusTo h r c 0 none
  · exact progressUp r d none

theorem tellQueued (h : Handle) (r : CallRecord) : w.Plain (w.tellQueued h r) := by
  unfold Work.tellQueued
  split
  · exact progressDown r _
  · exact progressUp r _ none
  · exact statusTo h r _ 0 none

theorem cancelOffers (h : Handle) (k : Floor) (l : List OfferEntry) : w.Plain (w.cancelOffers h k l) :=
  ⟨(w.makes_self.cancelOffers h k l False.elim).bare.trans (State.bare_sentF ..), w.cancelOffers_runs h k l⟩

theorem call? (hp : w.Plain w') (v : Handle) : w'.call? v = w.call? v := State.bare_call? hp.bare v

theorem makes (hp : w.Plain w') (hm : w.Makes False u) : w'.Makes False u := ⟨hp.bare.trans hm.bare, False.elim⟩

end Work.Plain

/-! ## Rules -/

theorem Work.Makes.ready (hm : w.Makes False u) (hf : u.Fits loose) (hq : ∀ p, ¬ busy p → u.Quiet p) :
    w.Ready loose busy :=
  ⟨hf.bare hm.bare.symm, fun p hp => (hq p hp).bare hm.bare.symm⟩

theorem Work.Ready.plain (hw : w.Ready loose busy) (hp : w.Plain w') : w'.Ready loose busy :=
  Work.Makes.ready (u := w.st) ⟨hp.bare, False.elim⟩ hw.fits hw.quiet

theorem Work.Ready.mono (hw : w.Ready loose busy) (hb : ∀ p, busy p → busy' p) : w.Ready loose busy' :=
  ⟨hw.fits, fun p hp => hw.quiet p fun h => hp (hb p h)⟩

theorem Work.Ready.run (hw : w.Ready loose busy) (p : Owned) : (w.run p).Ready loose busy := ⟨hw.fits, hw.quiet⟩

theorem Work.run_due (w : Work) (p q : Owned) : (w.run p).Due q ↔ q = p ∨ w.Due q := by
  simp [Work.Due, Work.run]

/-- The arbiter runs for the port, so that it may have something to grant. -/
theorem Work.Ready.runDue (hw : w.Ready loose busy) {p : Owned} (hb : ∀ q, busy q → q = p ∨ w.Due q) :
    (w.run p).Ready loose (w.run p).Due :=
  (hw.run p).mono fun q hq => (w.run_due p q).2 (hb q hq)

/-- An operation that begins no run. -/
theorem Work.Ready.due (hw : w'.Ready loose w.Due) (hr : w'.runs = w.runs) : w'.Ready loose w'.Due :=
  hw.mono fun p hp => by rwa [Work.Due, hr]

/-- A record, the cross-connects and the activities have changed, and the arbiter has no more to do than before. -/
theorem Work.Ready.withCallTables (hw : w.Ready loose busy) (hr : w.call? h = some r) {x : List Cross} {act : Vector Activity 96}
    (hm : w'.Makes False (w.st.withCallTables h r' x act)) (hcls : r'.cls = r.cls)
    (hf : (w.st.withCallTables h r' x act).Fits loose') : w'.Ready loose' busy :=
  hm.ready hf fun p hp => (hw.quiet p hp).putCall hr hcls x act

/-- To the tables the record is what it was. -/
theorem Work.Ready.modCall (hw : w.Ready loose busy) (hr : w.call? h = some r) {f : CallRecord → CallRecord}
    (ha : r.Alike (f r) h) : (w.modCall h f).Ready loose busy :=
  hw.withCallTables hr (x := w.st.crosses) (act := w.st.activity) (w.makes_self.modCall hr) ha.cls
    (hw.fits.alike hr ha)

theorem Work.start_ready {s : State} (hs : s.Linked) (hl : ∀ p : Owned, (s.map p).holders.length = laneCount p) :
    (Work.start s).Ready noneLoose (Work.start s).Due :=
  ⟨hs.fits hl, fun p _ => hs.quiet p⟩

/-! ## A record goes on -/

theorem only_self {v h : Handle} (hv : v ≠ h) : noneLoose v ↔ v = h := (iff_false_intro hv).symm

theorem State.Live.notBelow {s : State} {a : Prop} (hs : s.Live h a r)
    (hst : r.state ≠ .connected ∧ r.state ≠ .parked ∧ r.state ≠ .clearing) : r.heldBelow = false := by
  by_contra hb
  have := (hs.below (by simpa using hb)).2
  simp [hst] at this

/-- A record that has just got its lane goes on from WAITING_LANE. -/
theorem Work.Ready.goesOn (hw : w.Ready (· = h) busy) (hr : w.call? h = some r) (hst : r.state = .waitingLane)
    {act : Vector Activity 96} (hm : w'.Makes False (w.st.withCallTables h r' w.st.crosses act))
    (hst' : r'.state = .forwarded ∨ r'.state = .awaitingGrant ∨ r'.state = .offering) (hcls : r'.cls = r.cls)
    (hport : r'.ownedPort = r.ownedPort) (hlane : r'.ownedLane = r.ownedLane) (hl : r'.lLane = r.lLane)
    (hb : r'.heldBelow = r.heldBelow) (hact : ActivitiesFor w.st.activity act h)
    (hfloor : ∀ i : SlotNo, act[i].handle? = some h → ∃ f, r'.far = .floor f ∧ f.slot = i)
    (hnamed : ∀ f, r'.far = .floor f → r'.activityOf h = some act[f.slot]) (hkeys : NewKeys w.st h r r') :
    w'.Ready noneLoose busy := by
  have hno : ¬ r'.Waits ∧ r'.state ≠ .connected ∧ r'.state ≠ .clearing := by
    unfold CallRecord.Waits
    rcases hst' with e | e | e <;> rw [e] <;> simp
  have hbelow := hb.trans ((hw.fits.live h r hr).notBelow (by simp [hst]))
  refine hw.withCallTables hr hm hcls (hw.fits.withCall hr (fun v hv => only_self hv) not_false hcls hport hlane hl
    (iff_of_false hno.1 fun e => e.1 rfl) (hw.fits.crossesFor (t := w.st) hr rfl fun l p i => ?_) hact
    (fun i hi => ⟨hno.2.2, hfloor i hi⟩) (fun _ => hnamed) (fun hc => absurd hc hno.2.2) (fun hh => ?_) hkeys)
  · refine iff_of_false (fun hj => hno.2.1 hj.state) fun hj => ?_
    have := hj.state
    rw [hst] at this; cases this
  · rw [hbelow] at hh; cases hh

/-- A record that has just got its lane is forwarded (R94). -/
theorem Work.Ready.forwardSetup (hw : w.Ready (· = h) busy) (hr : w.call? h = some r) (hst : r.state = .waitingLane)
    {side : RiserSide} (hf : r.far = .high side) : (w.forwardSetup h).Ready noneLoose busy := by
  obtain ⟨r', hr'⟩ : ∃ r' : CallRecord, r' = { r with
    far := .high (.opened (ownKey .H h)), state := .forwarded,
    timer := startTimer .progressWait w.st.progressTime } := ⟨_, rfl⟩
  have hm : (w.forwardSetup h).Makes False (w.st.withCallTables h r' w.st.crosses w.st.activity) := by
    refine w.makes_self.withCall hr ((Work.Plain.sendH _).makes ?_)
    exact hr' ▸ w.makes_self.modCall hr
  refine hw.goesOn hr hst hm (.inl (by rw [hr'])) (by rw [hr'])
    (by rw [hr']; simp [CallRecord.ownedPort, hf]) (by rw [hr']) (by rw [hr']) (by rw [hr']) (.same rfl h) (fun i hi => ?_)
    (fun f hf' => ?_) fun p key hk => ?_
  · obtain ⟨-, f, hf', -⟩ := (hw.fits.live h r hr).activity i hi
    rw [hf] at hf'; cases hf'
  · rw [hr'] at hf'; cases hf'
  · rw [hr'] at hk
    cases p with
    | L => exact .inl hk
    | H => exact .inr (.inl (Option.some.inj hk).symm)

/-- A downward record that has just got its lane sends its SETUP down (R129). -/
theorem Work.Ready.setupDown (hw : w.Ready (· = h) busy) (hr : w.call? h = some r) (hst : r.state = .waitingLane)
    (hd : r.dir = .down) (hact : ∀ f, r.far = .floor f → w.st.activity[f.slot] = .originating h) :
    (w.setupDown h).Ready noneLoose busy := by
  obtain ⟨r', hr'⟩ : ∃ r' : CallRecord, r' = { r with
    low := .opened (ownKey .L h), state := .awaitingGrant,
    timer := startTimer .grantWait w.st.grantTime } := ⟨_, rfl⟩
  have hm : (w.setupDown h).Makes False (w.st.withCallTables h r' w.st.crosses w.st.activity) := by
    refine w.makes_self.withCall hr ((Work.Plain.sendL _).makes ?_)
    exact hr' ▸ w.makes_self.modCall hr
  refine hw.goesOn hr hst hm (.inr (.inl (by rw [hr']))) (by rw [hr']) (by rw [hr']; rfl)
    (by rw [hr']) (by rw [hr']) (by rw [hr']) (.same rfl h) (fun i hi => ?_) (fun f hf' => ?_) fun p key hk => ?_
  · rw [hr']
    exact ((hw.fits.live h r hr).activity i hi).2
  · rw [hr'] at hf'
    rw [hact f hf', hr']
    unfold CallRecord.activityOf
    rw [hd]
  · rw [hr'] at hk
    cases p with
    | L => exact .inr (.inl (Option.some.inj hk).symm)
    | H => exact .inl hk

/-- A relayed downward record answers the node above first (R132). -/
theorem Work.Ready.grantUpper (hw : w.Ready (· = h) busy) (hr : w.call? h = some r) (hst : r.state = .waitingLane)
    (hd : r.dir = .down) (hact : ∀ f, r.far = .floor f → w.st.activity[f.slot] = .originating h) :
    (w.grantUpper h).Ready noneLoose busy := by
  have hr' : w.st.call? h = some r := hr
  rw [Work.grantUpper, Work.withCall_live hr']
  split
  · next key _ =>
    have hp : w.Plain (w.sendH (laneGrantCell key r.ownedLane)) := .sendH _
    exact (hw.plain hp).setupDown ((hp.call? h).trans hr) hst hd fun f hf => by
      rw [State.bare_activity hp.bare]; exact hact f hf
  · exact hw.setupDown hr hst hd hact

/-- An activity that names the record stands in the slot of its floor side. -/
theorem State.Live.activity_set {s : State} {a : Prop} (hs : s.Live h a r) {f : FloorSide} (hf : r.far = .floor f) {b : Activity}
    (i : SlotNo) (hi : (s.activity.set f.slot b)[i].handle? = some h) : f.slot = i := by
  rw [getElem_set_slot] at hi
  split at hi
  · next e => exact e.symm
  · obtain ⟨-, f', hf', he⟩ := hs.activity i hi
    cases hf.symm.trans hf'
    exact he

/-- An upward record that has just got its floor lane is offered to its handsets (R111). -/
theorem Work.Ready.startOffers (hw : w.Ready (· = h) busy) (hr : w.call? h = some r) (hst : r.state = .waitingLane)
    (hd : r.dir = .up) {f : FloorSide} (hf : r.far = .floor f)
    (hact : w.st.activity[f.slot].handle? = none ∨ w.st.activity[f.slot].handle? = some h) :
    (w.startOffers h).Ready noneLoose busy := by
  obtain ⟨f', hf'⟩ : ∃ f' : FloorSide, f' = { f with entries := w.st.firstEntries f } := ⟨_, rfl⟩
  have hslot : f'.slot = f.slot ∧ f'.port = f.port := by rw [hf']; exact ⟨rfl, rfl⟩
  obtain ⟨r', hr'⟩ : ∃ r' : CallRecord, r' = { r with state := .offering, timer := none, far := .floor f' } := ⟨_, rfl⟩
  have hm : (w.startOffers h).Makes False (w.st.withCallTables h r' w.st.crosses (w.st.activity.set f.slot (.offered h))) := by
    refine w.makes_self.withCall hr ?_
    rw [hf]
    refine (Work.Plain.sendF _ _).makes (Work.Makes.setActivity ?_ f.slot (.offered h) (u := w.st.putCall h r'))
    rw [hr', hf']
    exact w.makes_self.modCall hr
  refine hw.goesOn hr hst hm (.inr (.inr (by rw [hr']))) (by rw [hr'])
    (by rw [hr']; simp [CallRecord.ownedPort, hf, hslot]) (by rw [hr']) (by rw [hr']) (by rw [hr']) (.set hact (.inr rfl))
    (fun i hi => ⟨f', by rw [hr'], hslot.1.trans ((hw.fits.live h r hr).activity_set hf i hi)⟩) (fun f'' hf'' => ?_)
    fun p key hk => .inl ?_
  · rw [hr'] at hf''
    cases hf''
    have hset : (w.st.activity.set f.slot (.offered h))[f'.slot] = .offered h := by
      rw [getElem_set_slot, if_pos hslot.1]
    rw [hset, hr']
    unfold CallRecord.activityOf
    rw [hd]
  · rw [hr'] at hk
    cases p with
    | L => exact hk
    | H => simp [CallRecord.openKey, Far.riser?] at hk

/-! ## A call connects at its flat -/

/-- The record that a handset has answered (R114). -/
def CallRecord.answeredAt (r : CallRecord) (f : FloorSide) (a : Addr) (m : Option Timer) : CallRecord :=
  { r with far := .floor (f.answeredBy a), state := .connected, talkOwner := true, timer := m }

theorem Work.connectFlat_makes (hr : w.call? h = some r) {f : FloorSide} (hf : r.far = .floor f) (a : Addr) :
    (w.connectFlat h a).Makes False (w.st.withCallTables h (r.answeredAt f a (w.st.talkTimer r.cls))
      (w.st.crosses ++ (r.answeredAt f a (w.st.talkTimer r.cls)).joins h) (w.st.activity.set f.slot (.engaged h))) := by
  obtain ⟨r', hr'⟩ : ∃ r', r' = r.answeredAt f a (w.st.talkTimer r.cls) := ⟨_, rfl⟩
  rw [← hr']
  refine w.makes_self.withCall hr ?_
  rw [hf]
  dsimp only
  refine Work.Makes.setActivity ((Work.Plain.connectToward _ _).makes (Work.Makes.crossConnect (((Work.Plain.sendF _ _).trans
    (Work.Plain.cancelOffers h f.port _)).makes (u := w.st.putCall h r') ?_) ?_)) f.slot (.engaged h)
  · exact hr' ▸ w.makes_self.modCall hr
  · exact State.call?_putCall_self ..

/-- A call that is not connected yet connects at its flat's switch (R75, R114, R120). -/
theorem Work.Ready.connectFlat (hw : w.Ready loose busy) (hr : w.call? h = some r) (hE : ∀ v, v ≠ h → ¬ loose v)
    (hW : loose h ∨ ¬ r.Waits) (hst : r.state ≠ .connected ∧ r.state ≠ .parked ∧ r.state ≠ .clearing) {f : FloorSide} (hf : r.far = .floor f)
    (hact : w.st.activity[f.slot].handle? = none ∨ w.st.activity[f.slot].handle? = some h) (a : Addr) :
    (w.connectFlat h a).Ready noneLoose busy := by
  have hlive := hw.fits.live h r hr
  have hb : r.heldBelow = false := hlive.notBelow hst
  refine hw.withCallTables hr (Work.connectFlat_makes hr hf a) rfl (hw.fits.withCall hr
    (fun v hv => (iff_false_intro (hE v hv)).symm) not_false rfl (by simp [CallRecord.ownedPort, CallRecord.answeredAt, hf, FloorSide.answeredBy]) rfl rfl
    ?_ (hw.fits.crossesJoined (t := { w.st with crosses := w.st.crosses ++ _ }) hr rfl (fun l p i hj => hst.1 hj.state) rfl hb)
    (.set hact (.inr rfl)) (fun i hi => ⟨by simp [CallRecord.answeredAt], f.answeredBy a, rfl, hlive.activity_set hf i hi⟩)
    (fun _ f' hf' => ?_) (fun hc => by cases hc) (fun hh => absurd hh (by simp [CallRecord.answeredAt, hb])) fun p key hk => .inl ?_)
  · refine iff_of_false (by simp [CallRecord.Waits, CallRecord.answeredAt]) fun ⟨h1, h2⟩ => hW.elim h1 fun h3 => h3 h2
  · cases hf'
    show _ = some (w.st.activity.set f.slot _)[f.slot]
    rw [getElem_set_slot, if_pos rfl]
    unfold CallRecord.activityOf CallRecord.answeredAt
    cases r.dir <;> rfl
  · cases p with
    | L => exact hk
    | H => simp [CallRecord.openKey, Far.riser?, CallRecord.answeredAt] at hk

/-! ## A parked call resumes -/

/-- A PARKED record that has just got its lane resumes (R76, R77). -/
theorem Work.Ready.resume {p : Owned} {i : Nat} (hw : w.Ready (· = h) busy) (hr : w.call? h = some (r.onLane i)) (hst : r.state = .parked)
    (hact : ∀ f, r.far = .floor f → w.st.activity[f.slot] = .engaged h) : (w.resume h r p i).Ready noneLoose busy := by
  have hlive := hw.fits.live h _ hr
  obtain ⟨r', hr'⟩ : ∃ r' : CallRecord, r' = { r.onLane i with
    state := .connected, timer := if r.talkOwner then w.st.talkTimer r.cls else none } := ⟨_, rfl⟩
  have hstate : r'.state = .connected := by rw [hr']
  have hbelow : r'.heldBelow = r.heldBelow := by rw [hr']
  have hnj : ∀ l q j, ¬ (r.onLane i).Joined l q j := fun l q j hj => by
    have := hj.state
    rw [show (r.onLane i).state = r.state from rfl, hst] at this; cases this
  obtain ⟨x, hx⟩ : ∃ x, x = if r.heldBelow then w.st.crosses else w.st.crosses ++ r'.joins h := ⟨_, rfl⟩
  have hm : (w.resume h r p i).Makes False (w.st.withCallTables h r' x w.st.activity) := by
    have h1 : (w.modCall h fun r => { r with
        state := .connected, timer := if r.talkOwner then w.st.talkTimer r.cls else none }).Makes False (w.st.putCall h r') :=
      hr' ▸ w.makes_self.modCall hr
    unfold Work.resume
    dsimp only
    cases hb : r.heldBelow with
    | true =>
      simp only [if_true]
      rw [hx, hb]
      cases p with
      | H => exact (Work.Plain.progressUp ..).makes h1
      | F k => exact (Work.Plain.statusTo ..).makes h1
    | false =>
      simp only [Bool.false_eq_true, if_false]
      rw [hx, hb]
      have h2 := h1.crossConnect (State.call?_putCall_self ..)
      refine (Work.Plain.progressDown ..).makes ?_
      cases p with
      | H => exact (Work.Plain.progressUp ..).makes h2
      | F k => exact (Work.Plain.statusTo ..).makes h2
  have hcls : r'.cls = (r.onLane i).cls := by rw [hr']
  refine hw.withCallTables hr hm hcls (hw.fits.withCall hr (fun v hv => only_self hv) not_false hcls
    (by rw [hr']; rfl) (by rw [hr']) (by rw [hr']) (by simp [CallRecord.Waits, hstate]) ?crosses (.same rfl h) (fun n hn => ?_)
    (fun _ f' hf' => ?_) (fun hc => ?_) (fun hh => ?_) fun p key hk => .inl ?_)
  case crosses =>
    rw [hx]
    cases hb : r.heldBelow with
    | true =>
      refine hw.fits.crossesFor (t := w.st) hr rfl fun l q j => iff_of_false (fun hj => ?_) (hnj l q j)
      have := hj.below
      rw [hbelow, hb] at this; cases this
    | false =>
      exact hw.fits.crossesJoined (t := { w.st with crosses := w.st.crosses ++ _ }) hr rfl hnj hstate (hbelow.trans hb)
  · refine ⟨by rw [hstate]; simp, ?_⟩
    rw [hr']
    exact (hlive.activity n hn).2
  · rw [hr'] at hf'
    rw [hact f' hf']
    unfold CallRecord.activityOf
    rw [hstate]
    cases r'.dir <;> rfl
  · rw [hstate] at hc; cases hc
  · refine ⟨?_, .inl hstate⟩
    have := (hlive.below (hbelow ▸ hh)).1
    rw [hr']
    exact this
  · rw [hr'] at hk; exact hk

end

end Sys2Proof.Machine
end

