-- ==== Sys2Proof/Proofs/WalkReady.lean ====
section
/-! PROOFS. A grant and the walk for a port in an event whose tables agree: the first entries for the port get its lanes, and the
first that is left fails its test (R72 to R74). -/

namespace Sys2Proof.Machine

/-! ## The lanes when a call goes on -/

section
variable (w : Work) (h : Handle) (r : CallRecord)

theorem Work.Makes.maps {u : State} {w : Work} (hm : w.Makes False u) : w.st.maps = u.maps := State.bare_maps hm.bare

theorem Work.withCall_maps {k : CallRecord → Work} (hk : ∀ r, w.call? h = some r → (k r).st.maps = w.st.maps) :
    (w.withCall h k).st.maps = w.st.maps := by
  unfold Work.withCall
  split
  · next r hr => exact hk r hr
  · rfl

theorem Work.Plain.maps {w w' : Work} (hp : w.Plain w') : w'.st.maps = w.st.maps := State.bare_maps hp.bare

@[simp] theorem Work.crossConnect_maps : (w.crossConnect h).st.maps = w.st.maps :=
  w.withCall_maps h fun r _ => by split <;> rfl

@[simp] theorem Work.setupDown_maps : (w.setupDown h).st.maps = w.st.maps :=
  w.withCall_maps h fun _ _ => (Work.Plain.sendL _).maps

theorem Work.goOn_maps : (w.goOn h r).st.maps = w.st.maps := by
  have hup : ∀ w : Work, (w.grantUpper h).st.maps = w.st.maps := fun w => w.withCall_maps h fun r _ => by
    split
    · exact (Work.setupDown_maps _ h).trans (Work.Plain.sendH _).maps
    · exact Work.setupDown_maps _ h
  have hoffer : (w.startOffers h).st.maps = w.st.maps := w.withCall_maps h fun r _ => by
    split
    · exact (Work.Plain.sendF _ _).maps
    · rfl
  have hflat : ∀ a, (w.connectFlat h a).st.maps = w.st.maps := fun a => w.withCall_maps h fun r hr => by
    split
    · next f hf =>
      have := (Work.connectFlat_makes hr hf a).maps
      rwa [Work.connectFlat, Work.withCall_live (show w.st.call? h = some r from hr), hf] at this
    · rfl
  unfold Work.goOn
  split
  · split
    · split
      · exact hflat _
      · exact hoffer
    · exact hoffer
  · exact w.withCall_maps h fun _ _ => (Work.Plain.sendH _).maps
  · exact hup w
  · exact w.setupDown_maps h

theorem Work.resume_maps (p : Owned) (i : Nat) : (w.resume h r p i).st.maps = w.st.maps := by
  unfold Work.resume
  dsimp only
  have h1 : ∀ w : Work, ∀ p : Owned, (match p with
      | .H => w.progressUp r .resumed (some i)
      | .F _ => w.statusTo h r .resumed 0 (some i)).st.maps = w.st.maps := fun w p => by
    cases p with
    | H => exact (Work.Plain.progressUp ..).maps
    | F k => exact (Work.Plain.statusTo ..).maps
  cases r.heldBelow with
  | true => exact h1 _ p
  | false => exact (Work.Plain.progressDown ..).maps.trans ((h1 _ p).trans (Work.crossConnect_maps _ h))

/-- A grant changes the lane that it grants alone. -/
theorem Work.grant_maps {w : Work} (hr : w.call? h = some r) (p : Owned) (i : Nat) :
    (w.grant h p i).st.maps = (w.st.laneTaken p i h).maps := by
  have hr' : w.st.call? h = some r := hr
  rw [Work.grant, Work.withCall_live hr']
  dsimp only
  split
  · exact Work.resume_maps _ h r p i
  · exact Work.goOn_maps _ h r

end

/-! ## A grant -/

section
variable {w : Work} {busy : Owned → Prop} {h : Handle} {r : CallRecord} {p : Owned} {i : Nat}

/-- What the tables say of the record of an entry. -/
theorem State.Fits.entry {s : State} (hs : s.Fits noneLoose) {x : WaitEntry} (hx : x ∈ s.waiting) :
    ∃ r, s.call? x.handle = some r ∧ r.Waits ∧ r.ownedPort = some x.port ∧ r.ownedLane = none := by
  cases hr : s.call? x.handle with
  | none => exact absurd rfl ((hs.gone _ hr).outside x hx)
  | some r =>
    have hlive := hs.live _ r hr
    obtain ⟨hp, hi⟩ := hlive.waits x hx rfl
    exact ⟨r, rfl, (hlive.queued not_false).1 ⟨x, hx, rfl⟩, hp, hi⟩

theorem State.free_of_admitLane {s : State} {e : Nat} (hi : s.admitLane p e = some i) : s.holder p i = none ∧ i < laneCount p := by
  obtain ⟨hlt, hfree, -⟩ := State.head_freeLanes (State.admitLane_some hi).2.2
  exact ⟨((State.laneState_eq_free_iff s p i).1 hfree).1, hlt⟩

/-- A record takes a lane and leaves the list; it has to go on. -/
theorem Work.Ready.gained {loose : Handle → Prop} (hw : w.Ready loose busy) (hr : w.call? h = some r)
    (hE : ∀ v, v ≠ h → ¬ loose v) (hp : r.ownedPort = some p) (hno : r.ownedLane = none) (hfree : w.st.holder p i = none)
    (hi : i < laneCount p) (hst : r.state ≠ .connected ∧ r.state ≠ .clearing) :
    ((w.takeLane h p i).leaveWaiting h).Ready (· = h) busy := by
  have hm : ((w.takeLane h p i).leaveWaiting h).Makes False ((w.st.gained h p i).putCall h (r.onLane i)) :=
    (w.makes_self.takeLane hr p i).leaveWaiting h
  exact hm.ready (hw.fits.gained hr (fun v hv => iff_of_false hv (hE v hv)) rfl hp hno hfree hi hst.1 hst.2) fun q hq =>
    (hw.quiet q hq).gained hw.fits.lengths hi

/-- An entry's record is granted a lane (R74). -/
theorem Work.Ready.grant (hw : w.Ready noneLoose busy) {x : WaitEntry} (hx : x ∈ w.st.waiting)
    (hfree : w.st.holder x.port i = none) (hi : i < laneCount x.port) : (w.grant x.handle x.port i).Ready noneLoose busy := by
  obtain ⟨r, hr, hW, hp, hno⟩ := hw.fits.entry hx
  have hlive := hw.fits.live _ r hr
  have hst : r.state ≠ .connected ∧ r.state ≠ .clearing := by
    rcases hW with e | e <;> rw [e] <;> simp
  obtain ⟨w', hw'⟩ : ∃ w', w' = (w.takeLane x.handle x.port i).leaveWaiting x.handle := ⟨_, rfl⟩
  have h1 : w'.Ready (· = x.handle) busy := hw' ▸ hw.gained hr (fun _ _ => id) hp hno hfree hi hst
  have hr' : w'.call? x.handle = some (r.onLane i) := by
    have hm := (w.makes_self.takeLane hr x.port i).leaveWaiting x.handle
    rw [hw']
    exact (State.bare_call? hm.bare x.handle).trans (State.call?_putCall_self ..)
  have hact : w'.st.activity = w.st.activity := by rw [hw']; rfl
  have hnamed := fun f hf => hlive.named not_false hst.2 f hf
  rw [Work.grant, Work.withCall_live (show w.st.call? x.handle = some r from hr)]
  dsimp only
  rw [← hw']
  split
  · next hpk =>
    refine h1.resume hr' hpk fun f hf => ?_
    have := hnamed f hf
    unfold CallRecord.activityOf at this
    rw [hpk] at this
    rw [hact]
    cases hd : r.dir <;> rw [hd] at this <;> exact (Option.some.inj this).symm
  · next hpk =>
    have hwl : r.state = .waitingLane := hW.resolve_right hpk
    have hdown : r.dir = .down → ∀ f, r.far = .floor f → w'.st.activity[f.slot] = .originating x.handle := fun hd f hf => by
      have := hnamed f hf
      unfold CallRecord.activityOf at this
      rw [hwl, hd] at this
      rw [hact]
      exact (Option.some.inj this).symm
    unfold Work.goOn
    split
    · next f hd hf =>
      have hpend : w'.st.activity[f.slot].handle? = some x.handle := by
        have := hnamed f hf
        unfold CallRecord.activityOf at this
        rw [hwl, hd] at this
        rw [hact, ← Option.some.inj this]
        rfl
      have hoffer := h1.startOffers hr' hwl hd hf (.inr hpend)
      split
      · split
        · next a _ => exact h1.connectFlat hr' (fun _ hv => hv) (.inl rfl) (by simp [hwl]) hf (.inr hpend) a
        · exact hoffer
      · exact hoffer
    · next hd hf =>
      cases hfar : r.far with
      | floor f => exact absurd hfar (hf f)
      | none => simp [CallRecord.ownedPort, hfar] at hp
      | high side => exact h1.forwardSetup hr' hwl hfar
    · next hd _ => exact h1.grantUpper hr' hwl hd (hdown hd)
    · next hd _ => exact h1.setupDown hr' hwl hd (hdown hd)

/-! ## The walk -/

/-- What a walk over the entries of the list has granted: the first of the port's, which have lanes of it now. -/
structure Work.Granted (w u : Work) (p : Owned) (first left : List WaitEntry) : Prop where
  waiting : u.st.waiting = w.st.waiting.filter fun x => decide (x.handle ∉ first.map WaitEntry.handle)
  lanes   : ∀ x ∈ first, ∃ i, u.st.holder p i = some x.handle
  keeps   : ∀ i v, w.st.holder p i = some v → u.st.holder p i = some v
  stops   : ∀ x, left.head? = some x → u.st.admitLane p (u.st.entryPriority x) = none

theorem entriesAt_filter (p : Owned) (l : List WaitEntry) (f : WaitEntry → Bool) :
    entriesAt p (l.filter f) = (entriesAt p l).filter f := by
  simp only [entriesAt, List.filter_filter, Bool.and_comm]

theorem Work.Ready.walk (p : Owned) (l : List WaitEntry) {w : Work} (hw : w.Ready noneLoose busy)
    (hl : entriesAt p w.st.waiting = entriesAt p l) : (w.walk p l).Ready noneLoose busy ∧
      ∃ first left, entriesAt p l = first ++ left ∧ w.Granted (w.walk p l) p first left := by
  induction l generalizing w with
  | nil => exact ⟨hw, [], [], rfl, by simp [Work.walk], by simp, fun _ _ h => h, by simp⟩
  | cons x l ih =>
    unfold Work.walk
    split
    · next hx =>
      have he : entriesAt p (x :: l) = x :: entriesAt p l := List.filter_cons_of_pos (by simpa using hx)
      rw [he] at hl ⊢
      cases hi : w.st.admitLane p (w.st.entryPriority x) with
      | none =>
        refine ⟨hw, [], _, rfl, by simp, by simp, fun _ _ h => h, fun y hy => ?_⟩
        cases hy
        exact hi
      | some i =>
        have hmem : x ∈ w.st.waiting := (List.mem_filter.1 (hl ▸ List.mem_cons_self : x ∈ entriesAt p w.st.waiting)).1
        obtain ⟨hfree, hlt⟩ := State.free_of_admitLane hi
        subst hx
        obtain ⟨r, hr, -⟩ := hw.fits.entry hmem
        have hg := hw.grant hmem hfree hlt
        have hwait : (w.grant x.handle x.port i).st.waiting = w.st.waiting.filter fun y => !(y.handle == x.handle) :=
          Work.grant_waiting hr x.port i
        have hhold : ∀ j, (w.grant x.handle x.port i).st.holder x.port j = if j = i then some x.handle else w.st.holder x.port j :=
          fun j => by
          rw [State.holder_congr (t := w.grant x.handle x.port i |>.st) (s := w.st.laneTaken x.port i x.handle)
            (by unfold State.map; rw [Work.grant_maps x.handle r hr]), State.holder_eq]
          have hm : (w.st.laneTaken x.port i x.handle).map x.port = (w.st.map x.port).taken i x.handle :=
            (State.map_set w.st x.port x.port _).trans (if_pos rfl)
          rw [hm, LaneMap.holder_taken _ ((hw.fits.lengths x.port).symm ▸ hlt)]
          rfl
        have hnd : x.handle ∉ (entriesAt x.port l).map WaitEntry.handle := by
          have h1 : ((entriesAt x.port w.st.waiting).map WaitEntry.handle).Nodup :=
            hw.fits.nodup.sublist (List.filter_sublist.map _)
          rw [hl, List.map_cons, List.nodup_cons] at h1
          exact h1.1
        have hleft : entriesAt x.port (w.grant x.handle x.port i).st.waiting = entriesAt x.port l := by
          rw [hwait, entriesAt_filter, hl, List.filter_cons_of_neg (by simp), List.filter_eq_self]
          intro y hy
          have : y.handle ≠ x.handle := fun e => hnd (e ▸ List.mem_map_of_mem hy)
          simpa using this
        obtain ⟨hr2, first, left, hfl, hgr⟩ := ih hg hleft
        refine ⟨hr2, x :: first, left, by rw [hfl]; rfl, ?_, fun y hy => ?_, fun j v hv => ?_, hgr.stops⟩
        · rw [hgr.waiting, hwait, List.filter_filter]
          refine List.filter_congr fun y _ => ?_
          rw [Bool.eq_iff_iff]
          simp [and_comm]
        · rcases List.mem_cons.1 hy with rfl | hy
          · exact ⟨i, hgr.keeps i _ (by rw [hhold, if_pos rfl])⟩
          · exact hgr.lanes y hy
        · refine hgr.keeps j v ?_
          rw [hhold, if_neg, hv]
          rintro rfl
          rw [hfree] at hv; cases hv
    · next hx =>
      have he : entriesAt p (x :: l) = entriesAt p l := List.filter_cons_of_neg (by simpa using hx)
      rw [he] at hl ⊢
      exact ih hw hl

/-- The entries for the port that a walk leaves. -/
theorem Work.Granted.left {w u : Work} {first left : List WaitEntry} (hg : w.Granted u p first left)
    (hn : (w.st.waiting.map WaitEntry.handle).Nodup) (hl : entriesAt p w.st.waiting = first ++ left) :
    entriesAt p u.st.waiting = left := by
  have h1 : ((entriesAt p w.st.waiting).map WaitEntry.handle).Nodup := hn.sublist (List.filter_sublist.map _)
  rw [hl, List.map_append, List.nodup_append] at h1
  rw [hg.waiting, entriesAt_filter, hl, List.filter_append, List.filter_eq_nil_iff.2 fun x hx => by
    simpa using ⟨x, hx, rfl⟩, List.nil_append, List.filter_eq_self]
  intro x hx
  simpa using fun y hy e => h1.2.2 y.handle (List.mem_map_of_mem hy) x.handle (List.mem_map_of_mem hx) e

/-- A walk leaves the port with nothing to grant. -/
theorem Work.Ready.walk_quiet (hw : w.Ready noneLoose busy) (p : Owned) : (w.walk p w.st.waiting).st.Quiet p := by
  obtain ⟨hr, first, left, hfl, hg⟩ := hw.walk p w.st.waiting rfl
  rw [State.quiet_iff hr.fits.sorted]
  intro x hx
  refine hg.stops x ?_
  rw [← hg.left hw.fits.nodup hfl, ← hx, List.head?_filter]

end

end Sys2Proof.Machine
end

