-- ==== Sys2Proof/Proofs/ArbiterGrants.lean ====
section
/-! PROOFS. The arbiter's run that a LANE_IN begins (O43): no grant, one grant, the grants in order, and what is true however many
are granted (R62, R72 to R77). -/

namespace Sys2Proof.Machine

section
variable {s : State} {q : Request} {p : Owned}

theorem State.laneCameIn_same (s : State) (q : Request) (p : Owned) : s.SameTables (s.laneCameIn q p) := by
  have h : (s.laneCameIn q p).bare = (s.marked p q.field.toNat false).bare := State.bare_sentL ..
  have := State.SameTables.of_bare h.symm
  exact ⟨this.calls, this.maps, this.mirror, this.waiting, this.activity, this.crosses⟩

/-- However many are granted, they are the first entries for the port, in order, and each has a lane of it (R72 to R74). -/
theorem exec_laneIn_general (ht : s.takes q) (hl : s.locked = false) (hp : Port.ofNumber q.index.toNat = some p.port)
    (hq : q.field.toNat < laneCount p) (hst : s.laneState p q.field.toNat = .out) {u : State} (hi : s.Inv) (hs : s.Linked)
    (hu : exec (.laneIn q) s = .next u) :
    (u.waiting.filter fun y => y.port = p) <:+ (s.waiting.filter fun y => y.port = p) ∧
    (u.waiting.filter fun y => y.port ≠ p) = (s.waiting.filter fun y => y.port ≠ p) ∧
    (∀ x ∈ s.waiting, x ∉ u.waiting → ∃ r i, u.call? x.handle = some r ∧ r.ownedPort = some p ∧
      r.ownedLane = some i ∧ u.holder p i = some x.handle ∧ ¬ r.Waits) ∧
    ∀ x, (u.waiting.find? fun y => y.port = p) = some x → u.admitLane p (u.entryPriority x) = none := by
  obtain ⟨w, hw⟩ : ∃ w, w = laneInWork s q p := ⟨_, rfl⟩
  have hm : w.Makes False (s.laneCameIn q p) := hw ▸ laneInWork_makes False q p False.elim
  have hready : w.Ready noneLoose fun _ => True :=
    hm.ready ((hs.fits hi.lanes).same (s.laneCameIn_same q p)) fun _ h => absurd trivial h
  have hwait : w.st.waiting = s.waiting := (State.bare_waiting hm.bare).trans (s.laneCameIn_same q p).waiting
  rw [exec_laneIn_runs ht hl hp hq hst, ← hw, ← hwait] at hu
  obtain ⟨hr, first, left, hfl, hg⟩ := hready.walk p w.st.waiting rfl
  have hquiet := hready.walk_quiet p
  obtain ⟨t, ht'⟩ : ∃ t, t = w.walk p w.st.waiting := ⟨_, rfl⟩
  rw [← ht'] at hr hg hquiet hu
  have hb : t.st.bare = u.bare := by
    cases hu
    exact (Work.flush_bare t).symm
  have hf : u.Fits noneLoose := hr.fits.bare hb
  have huw : u.waiting = t.st.waiting := (State.bare_waiting hb).symm
  have hhold : ∀ i, u.holder p i = t.st.holder p i := fun i => State.holder_congr (State.bare_map hb p).symm i
  have hnd := hready.fits.nodup
  rw [← hwait]
  have hleft := hg.left hnd hfl
  have hfirst : ∀ x ∈ first, x ∈ w.st.waiting ∧ x.port = p := fun x hx => by
    have hm : x ∈ entriesAt p w.st.waiting := hfl ▸ List.mem_append_left left hx
    simpa using List.mem_filter.1 hm
  refine ⟨?_, ?_, fun x hx hxu => ?_, (State.quiet_iff hf.sorted).1 (hquiet.bare hb)⟩
  · exact ⟨first, by rw [huw]; exact (congrArg (first ++ ·) hleft).trans hfl.symm⟩
  · rw [huw, hg.waiting, List.filter_filter]
    refine List.filter_congr fun x hx => ?_
    by_cases hxp : x.port = p
    · simp [hxp]
    · have : x.handle ∉ first.map WaitEntry.handle := fun hm => by
        obtain ⟨y, hy, he⟩ := List.mem_map.1 hm
        have := List.inj_on_of_nodup_map hnd (hfirst y hy).1 hx he
        exact hxp (this ▸ (hfirst y hy).2)
      simp only [hxp, this, not_false_eq_true, decide_true, Bool.and_true, ne_eq]
  · rw [huw, hg.waiting, List.mem_filter, not_and] at hxu
    have hmem : x.handle ∈ first.map WaitEntry.handle := by simpa using hxu hx
    obtain ⟨y, hy, he⟩ := List.mem_map.1 hmem
    obtain ⟨i, hi⟩ := hg.lanes y hy
    rw [he, ← hhold] at hi
    cases hr' : u.call? x.handle with
    | none => exact absurd hi ((hf.gone _ hr').lane p i)
    | some r =>
      have hlive := hf.live _ r hr'
      obtain ⟨hport, hlane⟩ := (hlive.lane p i).1 hi
      refine ⟨r, i, rfl, hport, hlane, hi, fun hW => ?_⟩
      obtain ⟨z, hz, hze⟩ := (hlive.queued not_false).2 hW
      have := (hlive.waits z hz hze).2
      rw [hlane] at this; cases this

/-- Settles O43: each number of grants from the walk, and the rest from the tables that it keeps in agreement. -/
theorem arbiterGrants : Obligations.ArbiterGrants := by
  intro s q p ht hl hp hq hst
  refine ⟨fun hno hroom => exec_laneIn_none ht hl hroom hp hq hst hno, ?one,
    fun hline hgrant hroom => exec_laneIn_grants ht hl hroom hp hq hst hline hgrant,
    fun u hi hs hu => exec_laneIn_general ht hl hp hq hst hi hs hu⟩
  intro pre post x r i hsplit hpre hx hr hW hpr hlow hi
  exact fun hno hL hH hF => exec_laneIn_one ht hl hp hq hst hsplit hpre hx hr hW hpr hlow hi hno hL hH hF

end

end Sys2Proof.Machine
end

