-- ==== Sys2Proof/Proofs/EventSettled.lean ====
section
/-! PROOFS. The end of an event whose tables agree, and the operations that end calls (R72, R82, R145, R147, R162, R169 to R172). -/

namespace Sys2Proof.Machine

/-- The tables of an event agree, and whatever the arbiter could grant it is to run for. -/
abbrev Work.Settled (w : Work) : Prop := w.Ready noneLoose w.Due

section
variable {w w' : Work} {loose loose' : Handle → Prop} {busy busy' : Owned → Prop} {h : Handle} {r r' : CallRecord} {p : Owned}
  {s t u : State}

/-! ## The end of an event -/

theorem Work.Ready.runFor (hw : w.Ready noneLoose busy) (hb : ∀ q, busy q → w.Due q) (p : Owned) :
    (w.runFor p).Ready noneLoose fun q => busy q ∧ q ≠ p := by
  unfold Work.runFor
  split
  · obtain ⟨h1, -⟩ := hw.walk p w.st.waiting rfl
    refine ⟨h1.fits, fun q hq => ?_⟩
    by_cases hqp : q = p
    · exact hqp ▸ hw.walk_quiet p
    · exact h1.quiet q fun hbq => hq ⟨hbq, hqp⟩
  · next hp => exact hw.mono fun q hq => ⟨hq, fun e => hp (e ▸ hb q hq)⟩

theorem Work.Ready.runPorts (l : List Owned) {w : Work} (hw : w.Ready noneLoose busy) (hb : ∀ q, busy q → w.Due q) :
    (l.foldl Work.runFor w).Ready noneLoose fun q => busy q ∧ q ∉ l := by
  induction l generalizing w busy with
  | nil => exact hw.mono fun q hq => ⟨hq, by simp⟩
  | cons p l ih =>
    refine (ih (hw.runFor hb p) fun q hq => ?_).mono fun q hq => ?_
    · rw [Work.Due, Work.runFor_runs]
      exact hb q hq.1
    · exact ⟨hq.1.1, by simp [hq.1.2, hq.2]⟩

/-- An event whose tables agree leaves a state whose tables agree. -/
theorem Work.Settled.finish (hw : w.Settled) : w.finish.Linked := by
  have h1 := Work.Ready.runPorts allOwned hw fun _ h => h
  have hb : w.runArbiter.st.bare = w.finish.bare := (Work.flush_bare _).symm
  exact (h1.fits.bare hb).linked fun p => (h1.quiet p fun h => h.2 (mem_allOwned p)).bare hb

/-! ## Tables that stand -/

/-- Other parts of the state change, and no port for which the arbiter is not to run becomes easier. -/
theorem Work.Ready.same (hw : w.Ready loose busy) (hs : w.st.SameTables w'.st)
    (hq : ∀ p, ¬ busy' p → ¬ busy p ∧ w.st.NoEasier w'.st p) : w'.Ready loose busy' := by
  refine ⟨hw.fits.same hs, fun p hp => ?_⟩
  obtain ⟨hb, he⟩ := hq p hp
  refine (hw.quiet p hb).sublist he (fun x hx => hs.waiting ▸ hx) fun x _ => State.entryPriority_congr ?_
  unfold State.call?
  rw [hs.calls]

theorem State.NoEasier.of_same (hs : s.SameTables t) (hu : t.usable p = true → s.usable p = true)
    (hset : t.retained.settings = s.retained.settings) (hm : t.retained.outMarks = s.retained.outMarks) : s.NoEasier t p :=
  State.noEasier_of_holders hu hset hm fun i hi => by
    unfold State.holder State.map at hi ⊢
    rwa [hs.maps] at hi

/-- The state changes in parts that neither the tables nor the admission test read. -/
theorem Work.Settled.modState (hw : w.Settled) {f : State → State} (hs : w.st.SameTables (f w.st))
    (hu : ∀ p, (f w.st).usable p = true → w.st.usable p = true) (hset : (f w.st).retained.settings = w.st.retained.settings)
    (hm : (f w.st).retained.outMarks = w.st.retained.outMarks) : (w.modState f).Settled :=
  Work.Ready.same hw hs fun p hp => ⟨hp, .of_same hs (hu p) hset hm⟩

theorem Work.Settled.plain (hw : w.Settled) (hp : w.Plain w') : w'.Settled := (Work.Ready.plain hw hp).due hp.runs

/-! ## Releases -/

theorem Work.release_due (hr : w.call? h = some r) (c : Cause) (p : Owned) :
    (w.release h c).Due p ↔ r.freedPort = some p ∨ w.Due p := by
  unfold Work.Due
  rw [Work.release_runs hr, List.contains_iff_mem, List.contains_iff_mem, List.mem_append, Option.mem_toList]

theorem Work.Ready.release (hw : w.Ready loose busy) (hr : w.call? h = some r) (c : Cause)
    (hE : ∀ v, v ≠ h → (loose' v ↔ loose v)) (hE' : ¬ loose' h) :
    (w.release h c).Ready loose' fun p => r.freedPort = some p ∨ busy p :=
  (w.makes_self.release hr c False.elim False.elim False.elim).ready (hw.fits.ended hr c hE hE') fun p hp =>
    (hw.quiet p fun hb => hp (.inr hb)).ended c fun hf => hp (.inl hf)

/-- The release of a record that stood outside the wait list. -/
theorem Work.Ready.releaseLoose (hw : w.Ready (· = h) w.Due) (hr : w.call? h = some r) (c : Cause) : (w.release h c).Settled :=
  (hw.release hr c (fun _ hv => only_self hv) not_false).mono fun p => (Work.release_due hr c p).2

theorem Work.Settled.withCall {k : CallRecord → Work} (hw : w.Settled) (hk : ∀ r, w.call? h = some r → (k r).Settled) :
    (w.withCall h k).Settled := by
  unfold Work.withCall
  split
  · next r hr => exact hk r hr
  · exact hw

theorem Work.Settled.release (hw : w.Settled) (h : Handle) (c : Cause) : (w.release h c).Settled := by
  cases hr : w.call? h with
  | none =>
    rw [Work.release, Work.withCall, hr]
    exact hw
  | some r => exact (Work.Ready.release hw hr c (fun _ _ => Iff.rfl) not_false).mono fun p => (Work.release_due hr c p).2

/-! ## Records in CLEARING -/

theorem Work.Settled.freeCall (hw : w.Settled) (hr : w.call? h = some r) (hc : r.state = .clearing) : (w.freeCall h).Settled :=
  Work.Ready.due ((w.makes_self.freeCall hr).ready (hw.fits.freed hr hc not_false) fun p hp =>
    (hw.quiet p hp).freed hw.fits hr hc not_false) (w.freeCall_runs h)

theorem CallRecord.closeSide_openKey_some {q p : Riser} {key : Key} (hk : (r.closeSide p).openKey q = some key) :
    r.openKey q = some key := by
  by_cases hpq : p = q
  · subst hpq
    cases p with
    | L =>
      unfold CallRecord.closeSide CallRecord.openKey at hk
      unfold RiserSide.close at hk
      cases hl : r.low <;> rw [hl] at hk <;> simp [RiserSide.key?] at hk
    | H =>
      unfold CallRecord.closeSide CallRecord.openKey at hk
      cases hf : r.far with
      | high side =>
        rw [hf] at hk
        cases side <;> simp [Far.riser?, RiserSide.close, RiserSide.key?] at hk
      | _ => rw [hf] at hk; simp [Far.riser?, hf] at hk
  · rwa [CallRecord.openKey_closeSide_ne r hpq] at hk

/-- A side that closes is nothing to the tables, as long as a record in CLEARING keeps an open one. -/
theorem CallRecord.closeSide_alike (r : CallRecord) (p : Riser) (h : Handle)
    (ho : r.state = .clearing → (r.closeSide p).anyOpen = true) : r.Alike (r.closeSide p) h := by
  have hkeys : ∀ q key, (r.closeSide p).openKey q = some key → r.openKey q = some key := fun q key =>
    CallRecord.closeSide_openKey_some
  cases p with
  | L => exact ⟨rfl, rfl, rfl, rfl, rfl, Iff.rfl, Iff.rfl, Iff.rfl, fun _ => rfl, fun f hf => ⟨f, hf, rfl, rfl⟩,
      fun f hf => ⟨f, hf, rfl⟩, hkeys, ho⟩
  | H =>
    cases hf : r.far with
    | high side =>
      have he : r.closeSide .H = { r with far := .high side.close } := by simp only [CallRecord.closeSide, hf]
      rw [he] at hkeys ho ⊢
      exact ⟨rfl, by simp [CallRecord.ownedPort, hf], rfl, rfl, rfl, Iff.rfl, Iff.rfl, Iff.rfl, fun _ => rfl,
        fun f hf' => (by simp at hf'), fun f hf' => (by rw [hf] at hf'; cases hf'), hkeys, ho⟩
    | _ =>
      have he : r.closeSide .H = r := by simp only [CallRecord.closeSide, hf]
      rw [he] at hkeys ho ⊢
      exact ⟨rfl, rfl, rfl, rfl, rfl, Iff.rfl, Iff.rfl, Iff.rfl, fun _ => rfl, fun f hf => ⟨f, hf, rfl, rfl⟩,
        fun f hf => ⟨f, hf, rfl⟩, hkeys, ho⟩

theorem Work.Settled.modCall (hw : w.Settled) (hr : w.call? h = some r) {f : CallRecord → CallRecord} (ha : r.Alike (f r) h) :
    (w.modCall h f).Settled :=
  (Work.Ready.modCall hw hr ha).due (w.modCall_runs h f)

theorem Work.Settled.closeCleared (hw : w.Settled) (hr : w.call? h = some r) (hc : r.state = .clearing) (p : Riser) :
    (w.closeCleared h p).Settled := by
  refine Work.Ready.due ?_ (w.closeCleared_runs h p)
  have hm := w.makes_self.closeCleared hr p
  split at hm
  · next ho => exact hm.ready (hw.fits.alike hr (r.closeSide_alike p h fun _ => ho)) fun q hq =>
      (hw.quiet q hq).putCall hr (r.closeSide_alike p h fun _ => ho).cls w.st.crosses w.st.activity
  · exact hm.ready (hw.fits.freed hr hc not_false) fun q hq => (hw.quiet q hq).freed hw.fits hr hc not_false

theorem Work.Settled.cutCall (hw : w.Settled) (hr : w.call? h = some r) (p : Riser) (c : Cause) : (w.cutCall h r p c).Settled := by
  unfold Work.cutCall
  split
  · next hc => exact hw.closeCleared hr hc p
  · next hc => exact (hw.modCall hr (r.closeSide_alike p h fun e => absurd e hc)).release h c

/-! ## Every record, every entry -/

theorem Work.Settled.eachCall {f : Work → Handle → CallRecord → Work} (hw : w.Settled)
    (hf : ∀ w h r, w.Settled → w.call? h = some r → (f w h r).Settled) : (w.eachCall f).Settled := by
  unfold Work.eachCall
  generalize allHandles = l
  induction l generalizing w with
  | nil => exact hw
  | cons h l ih => exact ih (hw.withCall fun r hr => hf w h r hw hr)

theorem Work.Settled.purge (hw : w.Settled) (l : List WaitEntry) : (w.purge l).Settled := by
  induction l generalizing w with
  | nil => exact hw
  | cons x l ih =>
    rw [Work.purge_cons]
    refine ih (hw.withCall fun r hr => ?_)
    split
    · exact hw.release x.handle .fireMode
    · exact hw

/-- A source of fire mode changes (R161, R162). -/
theorem Work.Settled.changeSources {f : State → State} (hw : (w.modState f).Settled) : (w.changeSources f).Settled := by
  have h1 := Work.Settled.plain hw (Work.Plain.raise .fireLocal)
  unfold Work.changeSources
  dsimp only
  split
  · split
    · exact h1.purge _
    · exact h1
  · split
    · exact hw.purge _
    · exact hw

/-! ## The mirror emptied -/

theorem State.Fits.mirrorless (hs : s.Fits loose) : s.mirrorless.Fits loose := by
  have hcall := s.call?_mirrorless
  have hpri : ∀ x, s.mirrorless.entryPriority x = s.entryPriority x := fun x => State.entryPriority_congr (by
    rw [hcall, Option.map_map]
    rfl)
  refine ⟨⟨hs.lengths, hs.orders, hs.nodup, ?_, List.nodup_nil, fun p h key ho => ?_⟩, fun h r hr => ?_, fun h hn => ?_⟩
  · exact hs.sorted.imp fun hab => by rwa [hpri, hpri]
  · have hopen : ∀ p v, s.mirrorless.openAt p v = s.openAt p v := fun p v => by
      unfold State.openAt
      rw [hcall]
      cases s.call? v <;> cases p <;> rfl
    simp only [hopen] at ho ⊢
    exact hs.keys p h key ho
  · rw [hcall] at hr
    obtain ⟨r', hr', rfl⟩ := Option.map_eq_some_iff.1 hr
    have hlive := hs.live h r' hr'
    refine ⟨hlive.lane, fun l => ?_, hlive.queued, hlive.outside, hlive.waits, hlive.activity, hlive.named, fun x _ => ?_,
      fun hc => ?_, fun hb => ⟨rfl, (hlive.below hb).2⟩⟩
    · rw [s.mirrorless_mirrorless.mirror]
      simp
    · refine iff_of_false (by rw [s.mirrorless_mirrorless.crosses]; simp) fun hj => ?_
      cases hj.lLane
    · exact ⟨(hlive.clearing hc).1, rfl, (hlive.clearing hc).2.2⟩
  · rw [hcall, Option.map_eq_none_iff] at hn
    have hgone := hs.gone h hn
    refine ⟨hgone.lane, fun l => ?_, hgone.outside, hgone.activity, fun x hx => ?_⟩
    · rw [s.mirrorless_mirrorless.mirror]
      simp
    · rw [s.mirrorless_mirrorless.crosses] at hx
      cases hx

theorem Work.Settled.emptyWholeMirror (hw : w.Settled) : w.emptyWholeMirror.Settled := by
  refine Work.Makes.ready w.makes_self.emptyWholeMirror hw.fits.mirrorless fun p hp => ?_
  refine (hw.quiet p hp).sublist (fun _ he => he) (fun _ hx => hx) fun x _ => State.entryPriority_congr ?_
  rw [State.call?_mirrorless, Option.map_map]
  rfl

end

end Sys2Proof.Machine
end

