-- ==== Sys2Proof/Proofs/MirrorSettled.lean ====
section
/-! PROOFS. A call connects, and its L lane is entered in the mirror or leaves it, while the tables agree (R46, R47, R100, R133,
R136, R139, R150, R151). -/

namespace Sys2Proof.Machine

section
variable {s t : State} {loose loose' : Handle → Prop} {busy : Owned → Prop} {h v : Handle} {r r' : CallRecord} {p : Owned}
  {l : LLane} {w w' : Work}

/-! ## The mirror -/

/-- A lane that passes the mirror test is entered (R46). -/
theorem State.Fits.mirrorFilled (hs : s.Fits loose) (hr : s.call? h = some r) (ht : s.mirrorTest h r l = true)
    (hl : r'.lLane = some l) : MirrorFor s.mirror (s.mirror.set l (some h)) h fun a => r'.lLane = some a := by
  obtain ⟨hm, ho⟩ : (s.mirror[l] = none ∨ s.mirror[l] = some h) ∧ (r.lLane = none ∨ r.lLane = some l) := by
    simpa [State.mirrorTest] using ht
  refine ⟨fun a v hv => ?_, fun a => ?_⟩
  · rw [getElem_set_lane]
    split
    · next e =>
      subst e
      refine iff_of_false (fun e => hv (Option.some.inj e).symm) fun e => ?_
      rw [e] at hm
      rcases hm with hm | hm
      · cases hm
      · exact hv (Option.some.inj hm)
    · rfl
  · rw [getElem_set_lane, hl]
    split
    · next e => simp [e]
    · next e =>
      rw [(hs.live h r hr).mirror a]
      refine iff_of_false (fun e' => ?_) fun e' => e (Option.some.inj e').symm
      rw [e'] at ho
      rcases ho with ho | ho
      · cases ho
      · exact e (Option.some.inj ho)

/-- A record's entry is emptied (R47). -/
theorem State.Fits.mirrorGone (hs : s.Fits loose) (hr : s.call? h = some r) (hm : t.mirror = (s.mirrorEmptied h r).mirror)
    (hl : r'.lLane = none) : MirrorFor s.mirror t.mirror h fun a => r'.lLane = some a := by
  have he : (s.mirrorEmptied h r).mirror = (s.callOver h r .normal).mirror := by
    unfold State.mirrorEmptied State.callOver
    cases r.lLane <;> rfl
  have hg := (hs.callOver_tables hr .normal).mirror
  rw [hm, he]
  exact ⟨hg.other, fun a => (hg.own a).trans (by simp [hl])⟩

/-- With its L lane a record loses its cross-connect (R47). -/
theorem State.Fits.crossesGone (hs : s.Fits loose) (hr : s.call? h = some r) (hx : t.crosses = (s.mirrorEmptied h r).crosses)
    (hl : r'.lLane = none) : CrossesFor s.crosses t.crosses h fun l p i => r'.Joined l p i := by
  have hlive := hs.live h r hr
  have he : t.crosses = s.crosses.filter fun x => !(r.lLane == some x.lLane) :=
    hx.trans (congrArg State.crosses (State.mirrorEmptied_eq hr))
  rw [he]
  refine ⟨hs.apart.filter _, fun x hx => ⟨fun hm => (List.mem_filter.1 hm).1, fun hm => List.mem_filter.2 ⟨hm, ?_⟩⟩, fun x hx => ?_⟩
  · have hn : s.mirror[x.lLane] = some x.handle := by
      cases hn : s.call? x.handle with
      | none => exact absurd rfl ((hs.gone _ hn).crosses x hm)
      | some a =>
        have hj := ((hs.live _ a hn).crosses x rfl).1 hm
        exact ((hs.live _ a hn).mirror x.lLane).2 hj.lLane
    by_contra hb
    have hlx : r.lLane = some x.lLane := by simpa using hb
    rw [(hlive.mirror _).2 hlx] at hn
    exact hx (Option.some.inj hn).symm
  · refine iff_of_false (fun hm => ?_) fun hj => ?_
    · have hj := (hlive.crosses x hx).1 (List.mem_filter.1 hm).1
      have := (List.mem_filter.1 hm).2
      simp [hj.lLane] at this
    · have := hj.lLane
      rw [hl] at this; cases this

/-- A record not in CLEARING changes with its mirror entry and its cross-connects; it waits, has its lane and is told of as before. -/
theorem State.Fits.withMirror (hs : s.Fits noneLoose) (hr : s.call? h = some r) {m : Vector (Option Handle) 12} {x : List Cross}
    (hm : MirrorFor s.mirror m h fun a => r'.lLane = some a) (hx : CrossesFor s.crosses x h fun l p i => r'.Joined l p i)
    (hcls : r'.cls = r.cls) (hfar : r'.far = r.far) (hlow : r'.low = r.low) (hlane : r'.ownedLane = r.ownedLane)
    (hW : r'.Waits ↔ r.Waits) (hc : r.state ≠ .clearing) (hc' : r'.state ≠ .clearing)
    (hact : ∀ a, r.activityOf h = some a → r'.activityOf h = some a)
    (hbelow : r'.heldBelow = true → r'.lLane = none ∧ (r'.state = .connected ∨ r'.state = .parked ∨ r'.state = .clearing)) :
    ({ s.putCall h r' with mirror := m, crosses := x } : State).Fits noneLoose := by
  have hlive := hs.live h r hr
  have hport : r'.ownedPort = r.ownedPort := by unfold CallRecord.ownedPort; rw [hfar]
  obtain ⟨t, ht⟩ : ∃ t : State, t = { s.putCall h r' with mirror := m, crosses := x } := ⟨_, rfl⟩
  have hcall : ∀ v, v ≠ h → t.call? v = s.call? v := fun v hv => by
    rw [ht]; exact State.call?_putCall_ne s r' (Ne.symm hv)
  have hself : t.call? h = some r' := by rw [ht]; exact State.call?_putCall_self s h r'
  have hkeys : NewKeys s h r r' := fun q key hk => .inl (by
    cases q with
    | L => rwa [CallRecord.openKey_L, hlow] at hk
    | H => unfold CallRecord.openKey at hk ⊢; rwa [hfar] at hk)
  have hwt : t.waiting = s.waiting := by rw [ht]; rfl
  have hac : t.activity = s.activity := by rw [ht]; rfl
  have hfit : t.Fits noneLoose := by
    refine hs.recast (fun _ _ => Iff.rfl) hself ⟨hcall, hs.keysFor hr hcall hself hkeys, hs.lanesFor hr (by rw [ht]; rfl) hport hlane,
      by rw [ht]; exact hm, hs.waitingFor hwt fun v => ?_, by rw [ht]; exact hx, .same hac h⟩ ⟨fun hl => ?_, False.elim,
      fun y hy he => ?_, fun i hi => ⟨hc', ?_⟩, fun _ _ f hf => ?_, fun e => absurd e hc', hbelow⟩
    · rw [ht]; exact State.putCall_cls hr hcls v
    · rw [hwt, hW]; exact hlive.queued hl
    · rw [hwt] at hy
      rw [hport, hlane]
      exact hlive.waits y hy he
    · rw [hac] at hi
      rw [hfar]
      exact (hlive.activity i hi).2
    · rw [hac]
      exact hact _ (hlive.named not_false hc f (hfar ▸ hf))
  exact ht ▸ hfit

theorem State.Quiet.withMirror (hq : s.Quiet p) (hr : s.call? h = some r) (hcls : r'.cls = r.cls)
    (m : Vector (Option Handle) 12) (x : List Cross) : ({ s.putCall h r' with mirror := m, crosses := x } : State).Quiet p :=
  hq.sublist (fun _ he => he) (fun _ hy => hy) fun y _ => State.entryPriority_congr (State.putCall_cls hr hcls y.handle)

/-- The event of such a change. -/
theorem Work.Ready.withMirror (hw : w.Ready noneLoose busy) (hr : w.call? h = some r) {m : Vector (Option Handle) 12}
    {x : List Cross} (hmk : w'.Makes False { w.st.putCall h r' with mirror := m, crosses := x })
    (hf : ({ w.st.putCall h r' with mirror := m, crosses := x } : State).Fits noneLoose) (hcls : r'.cls = r.cls) :
    w'.Ready noneLoose busy :=
  hmk.ready hf fun p hp => (hw.quiet p hp).withMirror hr hcls m x

/-! ## A call connects -/

/-- A call that was on its way connects at this switch or through it (R100, R136). -/
theorem Work.Ready.connects (hw : w.Ready noneLoose busy) (hr : w.call? h = some r) (hst : r.state = .forwarded ∨ r.state = .ringing)
    {act : Vector Activity 96} (hst' : r'.state = .connected) (hcls : r'.cls = r.cls) (hfar : r'.far = r.far) (hlow : r'.low = r.low)
    (hlane : r'.ownedLane = r.ownedLane) (hl : r'.lLane = r.lLane) (hb : r'.heldBelow = r.heldBelow)
    (hmk : w'.Makes False (w.st.withCallTables h r' (w.st.crosses ++ r'.joins h) act))
    (hact : (∀ f, r.far ≠ .floor f) ∧ act = w.st.activity ∨
      ∃ f, r.far = .floor f ∧ act = w.st.activity.set f.slot (.engaged h)) : w'.Ready noneLoose busy := by
  have hlive := hw.fits.live h r hr
  have hno : r.state ≠ .connected ∧ r.state ≠ .parked ∧ r.state ≠ .clearing ∧ ¬ r.Waits := by
    unfold CallRecord.Waits
    rcases hst with e | e <;> rw [e] <;> simp
  obtain ⟨hn1, hn2, hn3, hn4⟩ := hno
  have hbelow : r'.heldBelow = false := hb.trans (hlive.notBelow ⟨hn1, hn2, hn3⟩)
  have hport : r'.ownedPort = r.ownedPort := by unfold CallRecord.ownedPort; rw [hfar]
  have hactOf : r'.activityOf h = some (.engaged h) := by
    unfold CallRecord.activityOf
    rw [hst']
    cases r'.dir <;> rfl
  refine hw.withCallTables hr hmk hcls (hw.fits.withCall hr (fun _ _ => Iff.rfl) not_false hcls hport hlane hl
    (iff_of_false (by simp [CallRecord.Waits, hst']) fun e => hn4 e.2)
    (hw.fits.crossesJoined (t := { w.st with crosses := w.st.crosses ++ _ }) hr rfl (fun l p i hj => hn1 hj.state) hst' hbelow)
    ?_ (fun i hi => ⟨by simp [hst'], ?_⟩) (fun _ f hf => ?_) (fun e => by rw [hst'] at e; cases e)
    (fun e => by rw [hbelow] at e; cases e) fun q key hk => .inl ?_)
  · rcases hact with ⟨-, rfl⟩ | ⟨f, hf, rfl⟩
    · exact .same rfl h
    · refine .set (.inr ?_) (.inr rfl)
      exact CallRecord.activityOf_handle (hlive.named not_false hn3 f hf)
  · rw [hfar]
    rcases hact with ⟨-, rfl⟩ | ⟨f, hf, rfl⟩
    · exact (hlive.activity i hi).2
    · exact ⟨f, hf, hlive.activity_set hf i hi⟩
  · rw [hfar] at hf
    rcases hact with ⟨hnf, -⟩ | ⟨f', hf', rfl⟩
    · exact absurd hf (hnf f)
    · cases hf.symm.trans hf'
      rw [hactOf, getElem_set_slot, if_pos rfl]
  · cases q with
    | L => rwa [CallRecord.openKey_L, hlow] at hk
    | H => unfold CallRecord.openKey at hk ⊢; rwa [hfar] at hk

end

end Sys2Proof.Machine
end

