-- ==== Sys2Proof/Proofs/RecordSettled.lean ====
section
/-! PROOFS. Cells of the riser segments that change a record, its mirror entry or its cross-connect, in an event whose tables
agree (sections 5.7, 7.4, 8.4, 8.5). -/

namespace Sys2Proof.Machine

section
variable {w : Work} {h : Handle} {r : CallRecord} {l : LLane}

/-! ## Cells that change nothing the tables tell -/

theorem Work.Settled.raise (hw : w.Settled) (e : Event) : (w.raise e).Settled := hw.plain (.raise e)

theorem Work.Settled.sendL (hw : w.Settled) (c : RiserCell) : (w.sendL c).Settled := hw.plain (.sendL c)

theorem Work.Settled.sendH (hw : w.Settled) (c : RiserCell) : (w.sendH c).Settled := hw.plain (.sendH c)

theorem Work.Settled.sendF (hw : w.Settled) (k : Floor) (c : FloorCell) : (w.sendF k c).Settled := hw.plain (.sendF k c)

theorem Work.Settled.live (hw : w.Settled) (hr : w.call? h = some r) : w.st.Live h False r := hw.fits.live h r hr

/-- A record keeps its state, its sides and its lanes; its timer changes. -/
theorem Work.Settled.retimed (hw : w.Settled) (hr : w.call? h = some r) (m : Option Timer) :
    (w.modCall h fun r => { r with timer := m }).Settled :=
  hw.modCall hr (.of_state h rfl rfl rfl rfl rfl rfl rfl (.inl rfl) fun hc => ((hw.live hr).clearing hc).1)

/-- A call on its way rings (R96, R113, R135). -/
theorem Work.Settled.rings (hw : w.Settled) (hr : w.call? h = some r) (m : Option Timer)
    (hst : r.state = .forwarded ∧ ((∀ f, r.far ≠ .floor f) ∨ r.dir = .down) ∨ r.state = .offering) :
    (w.modCall h fun r => { r with state := .ringing, timer := m }).Settled := by
  obtain ⟨h1, h2, h3, h4⟩ : r.state ≠ .clearing ∧ r.state ≠ .connected ∧ r.state ≠ .parked ∧ ¬ r.Waits := by
    unfold CallRecord.Waits
    rcases hst with ⟨e, -⟩ | e <;> rw [e] <;> simp
  have hb := (hw.live hr).notBelow ⟨h2, h3, h1⟩
  refine hw.modCall hr ⟨rfl, rfl, rfl, rfl, rfl, iff_of_false (by simp [CallRecord.Waits]) h4, iff_of_false (by simp) h1,
    iff_of_false (by simp) h2, fun e => ?_, fun f hf => ⟨f, hf, rfl, ?_⟩, fun f hf => ⟨f, hf, rfl⟩, fun _ _ hk => hk,
    fun e => absurd e h1⟩
  · rw [hb] at e; cases e
  · have hf' : r.far = .floor f := hf
    unfold CallRecord.activityOf
    rcases hst with ⟨e, hno | hd⟩ | e
    · exact absurd hf' (hno f)
    · rw [e, hd]
    · rw [e]
      cases hd : r.dir with
      | up => rfl
      | down =>
        have := (hw.live hr).named not_false h1 f hf'
        unfold CallRecord.activityOf at this
        rw [e, hd] at this
        cases this

/-- A record that waits for its grant, or for its call to be answered, gets its L lane (R133). -/
theorem Work.Settled.granted (hw : w.Settled) (hr : w.call? h = some r) (hst : r.state = .awaitingGrant)
    (ht : w.st.mirrorTest h r l = true) (m : Option Timer) :
    ((w.fillMirror h l).modCall h fun r => { r with state := .forwarded, timer := m }).Settled := by
  have hlive := hw.live hr
  obtain ⟨r', hr'⟩ : ∃ r' : CallRecord, r' = { r with lLane := some l, state := .forwarded, timer := m } := ⟨_, rfl⟩
  have hstate : r'.state = .forwarded := by rw [hr']
  have hb : r'.heldBelow = false := by rw [hr']; exact hlive.notBelow (by simp [hst])
  have hf : ({ w.st.putCall h r' with mirror := w.st.mirror.set l (some h), crosses := w.st.crosses } : State).Fits noneLoose := by
    refine hw.fits.withMirror hr (hw.fits.mirrorFilled hr ht (by rw [hr'])) (hw.fits.crossesFor (t := w.st) hr rfl fun l p i => ?_)
      (by rw [hr']) (by rw [hr']) (by rw [hr']) (by rw [hr']) ?_ (by simp [hst]) (by simp [hstate]) (fun a ha => ?_) fun e => ?_
    · refine iff_of_false (fun hj => ?_) fun hj => ?_
      · have := hj.state
        rw [hstate] at this; cases this
      · have := hj.state
        rw [hst] at this; cases this
    · simp [CallRecord.Waits, hstate, hst]
    · unfold CallRecord.activityOf at ha ⊢
      rw [hst] at ha
      rw [hstate, hr']
      cases hd : r.dir <;> rw [hd] at ha
      · cases ha
      · exact ha
    · rw [hb] at e; cases e
  refine (Work.Ready.withMirror hw hr (r' := r') ?_ hf (by rw [hr'])).due (by simp)
  have h1 := (w.makes_self.fillMirror hr l).modCall (f := fun r => { r with state := .forwarded, timer := m })
    (State.call?_putCall_self ..)
  rw [State.putCall_putCall] at h1
  rw [hr']
  exact h1

/-- A record on a call loses its L lane while it is held below (R150). -/
theorem Work.Settled.heldBelow (hw : w.Settled) (hr : w.call? h = some r) (hst : r.state = .connected ∨ r.state = .parked) :
    ((w.emptyMirror h).modCall h fun r => { r with heldBelow := true }).Settled := by
  obtain ⟨u, hu⟩ : ∃ u, u = w.st.mirrorEmptied h r := ⟨_, rfl⟩
  obtain ⟨r', hr'⟩ : ∃ r' : CallRecord, r' = { r with lLane := none, heldBelow := true } := ⟨_, rfl⟩
  have hc : r.state ≠ .clearing := by rcases hst with e | e <;> simp [e]
  have hf : ({ w.st.putCall h r' with mirror := u.mirror, crosses := u.crosses } : State).Fits noneLoose := by
    refine hw.fits.withMirror hr (hw.fits.mirrorGone (t := u) hr (by rw [hu]) (by rw [hr']))
      (hw.fits.crossesGone (t := u) hr (by rw [hu]) (by rw [hr'])) (by rw [hr']) (by rw [hr']) (by rw [hr']) (by rw [hr'])
      (by rw [hr']) hc (by rw [hr']; exact hc) (fun a ha => by rw [hr']; exact ha) fun _ => ⟨by rw [hr'], ?_⟩
    rw [hr']
    exact hst.imp_right .inl
  refine (Work.Ready.withMirror hw hr (r' := r') ?_ hf (by rw [hr'])).due (by simp)
  have h1 := (w.makes_self.emptyMirror hr).modCall (f := fun r => { r with heldBelow := true })
    (State.call?_mirrorEmptied hr)
  rw [← hu] at h1
  have he : u.putCall h { r with lLane := none, heldBelow := true } =
      { w.st.putCall h r' with mirror := u.mirror, crosses := u.crosses } := by
    rw [hu, State.mirrorEmptied_eq hr, hr']
    simp [State.putCall]
  rw [← he]
  exact h1

/-- A record held below gets its L lane again (R151). -/
theorem Work.Settled.resumedBelow (hw : w.Settled) (hr : w.call? h = some r) (hb : r.heldBelow = true)
    (hst : r.state = .connected ∨ r.state = .parked) (ht : w.st.mirrorTest h r l = true) {w' : Work}
    (hm : w'.Makes False { w.st.putCall h { r with lLane := some l, heldBelow := false } with
      mirror := w.st.mirror.set l (some h)
      crosses := if r.state = .connected then w.st.crosses ++ ({ r with lLane := some l, heldBelow := false } : CallRecord).joins h
        else w.st.crosses }) (hruns : w'.runs = w.runs) : w'.Settled := by
  obtain ⟨r', hr'⟩ : ∃ r' : CallRecord, r' = { r with lLane := some l, heldBelow := false } := ⟨_, rfl⟩
  obtain ⟨x, hx⟩ : ∃ x, x = if r.state = .connected then w.st.crosses ++ r'.joins h else w.st.crosses := ⟨_, rfl⟩
  have hstate : r'.state = r.state := by rw [hr']
  rw [← hr', ← hx] at hm
  have hc : r.state ≠ .clearing := by rcases hst with e | e <;> simp [e]
  have hnj : ∀ l p i, ¬ r.Joined l p i := fun l p i hj => by
    have := hj.below
    rw [hb] at this; cases this
  have hcross : CrossesFor w.st.crosses x h fun l p i => r'.Joined l p i := by
    rw [hx]
    split
    · next e =>
      exact hw.fits.crossesJoined (t := { w.st with crosses := w.st.crosses ++ r'.joins h }) hr rfl hnj (hstate.trans e)
        (by rw [hr'])
    · next e =>
      exact hw.fits.crossesFor (t := w.st) hr rfl fun l p i => iff_of_false (fun hj => e (hstate.symm.trans hj.state)) (hnj l p i)
  have hf : ({ w.st.putCall h r' with mirror := w.st.mirror.set l (some h), crosses := x } : State).Fits noneLoose :=
    hw.fits.withMirror hr (hw.fits.mirrorFilled hr ht (by rw [hr'])) hcross
      (by rw [hr']) (by rw [hr']) (by rw [hr']) (by rw [hr']) (by rw [hr']) hc (by rw [hr']; exact hc)
      (fun a ha => by rw [hr']; exact ha) fun e => by rw [hr'] at e; cases e
  exact (Work.Ready.withMirror hw hr hm hf (by rw [hr'])).due hruns

end

end Sys2Proof.Machine
end

