-- ==== Sys2Proof/Proofs/RecordMade.lean ====
section
/-! PROOFS. A command makes a record, which stands outside the wait list until its lane request is answered (R90, R127, R132). -/

namespace Sys2Proof.Machine

section
variable {s t : State} {w : Work} {busy : Owned → Prop} {h v : Handle} {r rv : CallRecord} {p : Owned} {i : Nat} {c : Cause}

/-! ## The record -/

/-- No record has a side open with a key that names none. -/
theorem State.Linked.keyed_none (hs : s.Linked) {p : Riser} {key : Key} (hk : s.keyed p key = none) (v : Handle) :
    s.openAt p v ≠ some key := fun ho => by
  obtain ⟨r, hr, hkr⟩ := State.openAt_some.1 ho
  rw [(State.keyed_iff hs p key v).2 ⟨r, hr, hkr⟩] at hk
  cases hk

/-- A record is made with a free handle, in WAITING_LANE, its open sides with keys of their own (R90). -/
theorem State.Fits.made (hs : s.Fits noneLoose) (hn : s.call? h = none) (hcall : ∀ v, v ≠ h → t.call? v = s.call? v)
    (hself : t.call? h = some r) (hmaps : t.maps = s.maps) (hwait : t.waiting = s.waiting) (hx : t.crosses = s.crosses)
    (hm : MirrorFor s.mirror t.mirror h fun l => r.lLane = some l) (hact : ActivitiesFor s.activity t.activity h)
    (hfloor : ∀ i : SlotNo, t.activity[i].handle? = some h → ∃ f, r.far = .floor f ∧ f.slot = i) (hlane : r.ownedLane = none)
    (hst : r.state = .waitingLane) (hb : r.heldBelow = false)
    (hk : ∀ p key, r.openKey p = some key → key.side ≠ ownSide p ∧ ∀ v, s.openAt p v ≠ some key) : t.Fits (· = h) := by
  have hgone := hs.gone h hn
  have hmap : ∀ p, t.map p = s.map p := fun p => by unfold State.map; rw [hmaps]
  have hself' : s.waiting.filter (fun x => !(x.handle == h)) = s.waiting :=
    List.filter_eq_self.2 fun x hx => by simp [hgone.outside x hx]
  have hw : WaitingFor s t h False := hs.waitingGone (hwait.trans hself'.symm) hcall
  refine hs.recast (fun v hv => iff_of_false hv not_false) hself ⟨hcall, hs.keys.change hcall fun p key ho => ?_,
    ⟨fun p => hmap p ▸ hs.lengths p, fun p => hmap p ▸ hs.orders p, fun p i v _ => by rw [State.holder_congr (hmap p)],
      fun p i => ?_⟩, hm, hw, ⟨hx ▸ hs.apart, fun _ _ => by rw [hx], fun x he => ?_⟩, hact⟩
    ⟨fun hl => absurd rfl hl, fun _ x hx he => hw.own.1 ⟨x, hx, he⟩, fun x hx he => absurd ⟨x, hx, he⟩ fun e => hw.own.1 e,
      fun i hi => ⟨by simp [hst], hfloor i hi⟩, fun hl => absurd rfl hl, fun e => (nomatch hst.symm.trans e),
      fun e => (nomatch hb.symm.trans e)⟩
  · obtain ⟨r', hr', hkr⟩ := State.openAt_some.1 ho
    cases hself.symm.trans hr'
    exact .inr (.inr (hk p key hkr))
  · rw [State.holder_congr (hmap p), hlane]
    exact iff_of_false (hgone.lane p i) (by simp)
  · rw [hx]
    refine iff_of_false (fun hm => hgone.crosses x hm he) fun hj => ?_
    have := hj.state
    rw [hst] at this; cases this

/-- The same in the event that makes it. -/
theorem Work.Settled.made (hs : (Work.start s).Settled) (hf : t.Fits (· = h)) (hn : s.call? h = none)
    (hcall : ∀ v, v ≠ h → t.call? v = s.call? v) (hmaps : t.maps = s.maps) (hwait : t.waiting = s.waiting)
    (hu : ∀ p, t.usable p = s.usable p) (hd : t.retained = s.retained) : (Work.start t).Ready (· = h) (Work.start t).Due := by
  refine ⟨hf, fun p hp => ?_⟩
  refine (hs.quiet p hp).sublist (State.noEasier_of_holders (fun e => (hu p) ▸ e) (congrArg Retained.settings hd)
    (congrArg Retained.outMarks hd) fun i hi => ?_)
    (fun x hx => hwait ▸ hx) fun x hx => ?_
  · have hi' : t.holder p i = none := hi
    rwa [State.holder_congr (s := s) (by unfold State.map; rw [hmaps])] at hi'
  · have hx' : x ∈ s.waiting := hwait ▸ hx
    exact State.entryPriority_congr (congrArg _ (hcall _ ((hs.fits.gone h hn).outside x hx')))

/-- The record of an upward SETUP is routed (R91 to R95). -/
theorem Work.Ready.routed (hw : w.Ready (· = h) busy) (hr : w.call? h = some r) (hst : r.state = .waitingLane)
    (hno : r.ownedLane = none) (hfar : r.far = .none) {far : Far} (hf : ∀ side, far = .high side → side = .unopened) :
    (w.modCall h fun r => { r with far := far }).Ready (· = h) busy := by
  have hlive := hw.fits.live h r hr
  obtain ⟨r', hr'⟩ : ∃ r' : CallRecord, r' = { r with far := far } := ⟨_, rfl⟩
  have hm : (w.modCall h fun r => { r with far := far }).Makes False (w.st.putCall h r') := hr' ▸ w.makes_self.modCall hr
  have hcall : ∀ v, v ≠ h → (w.st.putCall h r').call? v = w.st.call? v := fun v hv => State.call?_putCall_ne _ _ (Ne.symm hv)
  have hcls : r'.cls = r.cls := by rw [hr']
  have hnoact : ∀ i : SlotNo, w.st.activity[i].handle? ≠ some h := fun i hi => by
    obtain ⟨-, f, hf', -⟩ := hlive.activity i hi
    rw [hfar] at hf'; cases hf'
  have hkeys : NewKeys w.st h r r' := fun q key hk => .inl (by
    rw [hr'] at hk
    cases q with
    | L => exact hk
    | H =>
      cases hfar' : far with
      | none => simp [CallRecord.openKey, hfar', Far.riser?] at hk
      | floor f => simp [CallRecord.openKey, hfar', Far.riser?] at hk
      | high side => simp [CallRecord.openKey, hfar', Far.riser?, hf side hfar', RiserSide.key?] at hk)
  refine hm.ready ?_ fun q hq => (hw.quiet q hq).putCall hr hcls w.st.crosses w.st.activity
  refine hw.fits.recast (fun _ _ => Iff.rfl) (State.call?_putCall_self ..) ⟨hcall,
    hw.fits.keysFor hr hcall (State.call?_putCall_self ..) hkeys, hw.fits.lanesNone (r' := r') hr rfl hno (by rw [hr']; exact hno),
    hw.fits.mirrorFor (r' := r') hr rfl (by rw [hr']), hw.fits.waitingFor rfl (State.putCall_cls hr hcls),
    hw.fits.crossesFor (r' := r') hr rfl fun l p i => ?_, .same rfl h⟩
    ⟨fun hl => absurd rfl hl, fun _ => hlive.outside rfl, fun x hx he => absurd he (hlive.outside rfl x hx),
      fun i hi => absurd hi (hnoact i), fun hl => absurd rfl hl, fun e => ?_, fun e => ?_⟩
  · refine iff_of_false (fun hj => ?_) fun hj => ?_
    · have := hj.state
      rw [hr', show ({ r with far := far } : CallRecord).state = r.state from rfl, hst] at this
      cases this
    · have := hj.state
      rw [hst] at this; cases this
  · rw [hr', show ({ r with far := far } : CallRecord).state = r.state from rfl, hst] at e
    cases e
  · rw [hr'] at e ⊢
    exact hlive.below e

end

end Sys2Proof.Machine
end

