-- ==== Sys2Proof/Proofs/LaneAsked.lean ====
section
/-! PROOFS. The outcomes of a lane request keep the agreement of the tables: the new record takes a lane, wins it from another,
or joins the wait list, where it may displace the tail (R54 to R59, R65 to R67). -/

namespace Sys2Proof.Machine

/-- The flat of a record that asks for a lane: of no record for an upward call, and ORIGINATING it for a downward one. -/
def FlatReady (act : Vector Activity 96) (h : Handle) (r : CallRecord) : Prop :=
  ∀ f, r.far = .floor f → (r.dir = .up → act[f.slot].handle? = none) ∧ (r.dir = .down → act[f.slot] = .originating h)

/-- A new record stands ready to be answered. -/
structure Work.Asking (w : Work) (h : Handle) (r : CallRecord) : Prop where
  ready : w.Ready (· = h) w.Due
  call  : w.call? h = some r
  flat  : FlatReady w.st.activity h r

section
variable {s t : State} {w w' : Work} {loose : Handle → Prop} {busy : Owned → Prop} {h v : Handle} {r rv : CallRecord} {p : Owned}
  {i : Nat} {c : Cause}

/-! ## The end of another call -/

theorem State.callOver_activity (s : State) (v : Handle) (rv : CallRecord) (c : Cause) (i : SlotNo) :
    (s.callOver v rv c).activity[i] = s.activity[i] ∨
      (s.activity[i].handle? = some v ∧ (s.callOver v rv c).activity[i] = .idle) := by
  by_cases hi : ∃ f, rv.far = .floor f ∧ f.slot = i ∧ s.activity[i].handle? = some v
  · obtain ⟨f, hf, rfl, ha⟩ := hi
    exact .inr ⟨ha, State.callOver_activity_idle s c hf ha⟩
  · exact .inl (State.callOver_activity_same s c fun f hf hfi ha => hi ⟨f, hf, hfi, ha⟩)

theorem FlatReady.callOver (hf : FlatReady s.activity h r) (hv : v ≠ h) (rv : CallRecord) (c : Cause) :
    FlatReady (s.callOver v rv c).activity h r := fun f hfar => by
  obtain ⟨hup, hdown⟩ := hf f hfar
  rcases s.callOver_activity v rv c f.slot with he | ⟨ha, hi⟩
  · rw [he]
    exact ⟨hup, hdown⟩
  · refine ⟨fun _ => by rw [hi]; rfl, fun hd => ?_⟩
    rw [hdown hd] at ha
    exact absurd (Option.some.inj ha).symm hv

/-- The release of another record leaves the new one as it was. -/
theorem Work.Ready.releaseOther (hw : w.Ready loose w.Due) (hr : w.call? v = some rv) (hv : ¬ loose v) (c : Cause) :
    (w.release v c).Ready loose (w.release v c).Due :=
  (hw.release hr c (fun _ _ => Iff.rfl) hv).mono fun p => (Work.release_due hr c p).2

theorem Work.release_call?_ne (hr : w.call? v = some rv) (hv : v ≠ h) (c : Cause) : (w.release v c).call? h = w.call? h :=
  (State.bare_call? (w.makes_self.release hr c False.elim False.elim False.elim).bare h).trans (State.ended_call?_ne _ _ _ _ hv)

theorem Work.release_activity (hr : w.call? v = some rv) (c : Cause) :
    (w.release v c).st.activity = (w.st.callOver v rv c).activity :=
  State.bare_activity ((w.makes_self.release hr c False.elim False.elim False.elim).bare.trans (State.bare_ended ..))

theorem Work.Asking.releaseOther (hw : w.Asking h r) (hr : w.call? v = some rv) (hv : v ≠ h) (c : Cause) :
    (w.release v c).Asking h r where
  ready := hw.ready.releaseOther hr hv c
  call := (Work.release_call?_ne hr hv c).trans hw.call
  flat := by rw [Work.release_activity hr]; exact hw.flat.callOver hv rv c

theorem Work.Asking.plain (hw : w.Asking h r) (hp : w.Plain w') : w'.Asking h r where
  ready := (hw.ready.plain hp).due hp.runs
  call := (hp.call? h).trans hw.call
  flat := by rw [State.bare_activity hp.bare]; exact hw.flat

theorem Work.Asking.outside (hw : w.Asking h r) : ∀ x ∈ w.st.waiting, x.handle ≠ h := (hw.ready.fits.live h r hw.call).outside rfl

/-! ## A lane is taken -/

theorem Work.Asking.taken (hw : w.Asking h r) (hst : r.state = .waitingLane) (hp : r.ownedPort = some p) (hno : r.ownedLane = none)
    (hi : w.st.admitLane p (effPriority r.cls 0) = some i) : (w.takeLane h p i).Asking h (r.onLane i) := by
  obtain ⟨hfree, hlt⟩ := State.free_of_admitLane hi
  have hm := w.makes_self.takeLane hw.call p i
  have hg := hw.ready.fits.gained hw.call (fun _ _ => Iff.rfl) rfl hp hno hfree hlt (by simp [hst]) (by simp [hst])
  have hq := fun q hq => (hw.ready.quiet q hq).gained (h := h) (r' := r.onLane i) hw.ready.fits.lengths hlt
  rw [State.gained_eq hw.outside] at hg hq
  exact ⟨(hm.ready hg hq).due rfl, (State.bare_call? hm.bare h).trans (State.call?_putCall_self ..), hw.flat⟩

/-! ## A lane is won -/

/-- A lane passes from its holder to the new record (R57). -/
theorem State.lanePassed_eq (hp : rv.ownedPort = some p) (hi : rv.ownedLane = some i) (s : State) (h v : Handle) :
    (s.lanePassed p i h).putCall v { rv with ownedLane := none } = (s.laneFreed v rv).laneTaken p i h := by
  have hmap : (s.laneFreed v rv).map p = (s.map p).freed i := by
    simp only [State.laneFreed, hp, hi]
    exact (State.map_set s p p _).trans (if_pos rfl)
  unfold State.laneTaken
  rw [hmap]
  simp only [State.laneFreed, hp, hi, State.lanePassed, State.laneTaken, State.putCall, Vector.set_set, List.set_set,
    List.filter_filter, Bool.and_self]

theorem Work.laneWon_makes (hr : w.call? h = some r) (hv : w.call? v = some rv) (hne : v ≠ h) (hp : rv.ownedPort = some p)
    (hi : rv.ownedLane = some i) :
    (w.laneWon h p i v).Makes False (((w.st.laneFreed v rv).laneTaken p i h).putCall h (r.onLane i)) := by
  have h1 : (w.laneWon h p i v).Makes False
      (((w.st.lanePassed p i h).putCall h (r.onLane i)).putCall v { rv with ownedLane := none }) := by
    refine Work.Makes.modCall (f := fun r => { r with ownedLane := none }) (Work.Makes.raise_bare ?_ _)
      ((State.call?_putCall_ne _ _ hne.symm).trans hv)
    exact (w.makes_self.takeLane hr p i).setCrosses _
  rwa [State.putCall_comm _ hne.symm, State.lanePassed_eq hp hi] at h1

theorem State.laneFreed_holder (hp : rv.ownedPort = some p) (hi : rv.ownedLane = some i) (s : State) (v : Handle) (q : Owned)
    (j : Nat) : (s.laneFreed v rv).holder q j = if p = q ∧ i = j then none else s.holder q j := by
  rw [State.holder_congr (t := s.laneFreed v rv) (s := s.callOver v rv .normal) (s.laneFreed_map v rv .normal q),
    State.callOver_holder, hp, hi]
  simp

/-- No other lane has changed, and the new record holds the one that has passed. -/
theorem State.laneWon_noEasier (hlen : ∀ p : Owned, (s.map p).holders.length = laneCount p) (hp : rv.ownedPort = some p)
    (hi : rv.ownedLane = some i) (hlt : i < laneCount p) (q : Owned) (x : CallRecord) :
    s.NoEasier (((s.laneFreed v rv).laneTaken p i h).putCall h x) q := by
  have hmap : (s.laneFreed v rv).map p = (s.map p).freed i := by
    simp only [State.laneFreed, hp, hi]
    exact (State.map_set s p p _).trans (if_pos rfl)
  have hset : ∀ j, (((s.laneFreed v rv).laneTaken p i h).putCall h x).map j =
      if j = p then ((s.map p).freed i).taken i h else (s.laneFreed v rv).map j := fun j =>
    hmap ▸ State.map_set (s.laneFreed v rv) p j _
  refine State.noEasier_of_holders (s := s) (fun hu => ?_) ?_ ?_ fun j hj => ?_
  · simp only [State.laneFreed, hp, hi] at hu
    exact hu
  · simp only [State.laneFreed, hp, hi]
    rfl
  · simp only [State.laneFreed, hp, hi]
    rfl
  · rw [State.holder_eq, hset] at hj
    by_cases hq : q = p
    · subst hq
      rw [if_pos rfl, LaneMap.holder_taken _ (by rw [List.length_set, hlen]; exact hlt)] at hj
      split at hj
      · cases hj
      · next hji => rwa [LaneMap.holder_freed, if_neg hji] at hj
    · rw [if_neg hq] at hj
      have hj' : (s.laneFreed v rv).holder q j = none := hj
      rwa [State.laneFreed_holder hp hi, if_neg fun e => hq e.1.symm] at hj'

/-- The lane of another record has passed to the new one, and the other has to wait or to end. -/
theorem Work.Asking.won (hw : w.Asking h r) (hst : r.state = .waitingLane) (hp : r.ownedPort = some p) (hno : r.ownedLane = none)
    (hv : w.call? v = some rv) (hne : v ≠ h) (hvp : rv.ownedPort = some p) (hvi : rv.ownedLane = some i) :
    (w.laneWon h p i v).Ready (fun x => x = h ∨ x = v) w.Due ∧ w.st.NoEasier (w.laneWon h p i v).st p := by
  have hm := Work.laneWon_makes hw.call hv hne hvp hvi
  have hfits := hw.ready.fits
  have hlt : i < laneCount p := by
    have := LaneMap.holder_lt (((hfits.live v rv hv).lane p i).2 ⟨hvp, hvi⟩)
    rwa [hfits.lengths] at this
  have hharder := fun q => State.laneWon_noEasier (v := v) (h := h) hfits.lengths hvp hvi hlt q (r.onLane i)
  have hfree : (w.st.laneFreed v rv).holder p i = none := by
    rw [State.laneFreed_holder hvp hvi, if_pos ⟨rfl, rfl⟩]
  have hwait : (w.st.laneFreed v rv).waiting = w.st.waiting := by
    simp only [State.laneFreed, hvp, hvi]
    rfl
  have hcls : ∀ x, ((w.st.laneFreed v rv).call? x).map CallRecord.cls = (w.st.call? x).map CallRecord.cls := fun x => by
    simp only [State.laneFreed, hvp, hvi]
    exact State.putCall_cls (r' := { rv with ownedLane := none }) hv rfl x
  have hru : (w.st.laneFreed v rv).call? h = some r := by
    simp only [State.laneFreed, hvp, hvi]
    exact (State.call?_putCall_ne _ _ hne).trans hw.call
  obtain ⟨u, hu⟩ : ∃ u, u = w.st.laneFreed v rv := ⟨_, rfl⟩
  have h1 : u.Fits fun x => x = h ∨ x = v :=
    hu ▸ hfits.laneFreed hv (fun x hx => by simp [hx]) (.inr rfl) hvp hvi
  rw [← hu] at hm hfree hwait hcls hru hharder
  have hout := (h1.live h r hru).outside (.inl rfl)
  have hg := h1.gained hru (fun _ _ => Iff.rfl) (.inl rfl) hp hno hfree hlt (by simp [hst]) (by simp [hst])
  rw [State.gained_eq hout] at hg
  refine ⟨hm.ready hg fun q hq => (hw.ready.quiet q hq).sublist (hharder q) (fun x hx => hwait ▸ hx) fun x _ => ?_, fun e he => ?_⟩
  · exact State.entryPriority_congr ((State.putCall_cls (s := u.laneTaken p i h) (r' := r.onLane i) hru rfl x.handle).trans (hcls _))
  · rw [State.bare_admitLane hm.bare]
    exact hharder p e he

/-- The victim is parked or cleared, and the new record goes on (R58, R59). -/
theorem Work.Asking.endVictim (hw : w.Ready (fun x => x = h ∨ x = v) w.Due) (hr : w.call? h = some r)
    (hflat : FlatReady w.st.activity h r) (hv : w.call? v = some rv) (hne : v ≠ h) (hp : rv.ownedPort = some p)
    (hno : rv.ownedLane = none)
    (hnamed : rv.state = .connected → ∀ f, rv.far = .floor f → w.st.activity[f.slot] = .engaged v)
    (hfail : w.st.admitLane p (effPriority rv.cls 0) = none) : (w.endVictim v p).Asking h r := by
  have hE : ∀ x, x ≠ v → (x = h ↔ x = h ∨ x = v) := fun x hx => by simp [hx]
  have hlive := hw.fits.live v rv hv
  unfold Work.endVictim
  rw [Work.withCall_live (show w.st.call? v = some rv from hv)]
  split
  · next hc =>
    have hm := w.makes_self.joinWaiting hv p .parked
    have hjoin : (w.st.joined v rv p .parked).Fits (· = h) := by
      refine hw.fits.joined (act := w.st.activity) hv hE hne (hlive.outside (.inr rfl)) hp hno (.inr rfl) (fun _ => rfl)
        (.same rfl v) (fun n hn => (hlive.activity n hn).2) fun f hf => ?_
      rw [hnamed hc.1 f hf]
      unfold CallRecord.activityOf
      cases rv.dir <;> rfl
    have hquiet : ∀ q, ¬ w.Due q → (w.st.joined v rv p .parked).Quiet q := fun q hq =>
      (hw.quiet q hq).joined hv w.st.activity fun _ => hfail
    have h1 : (w.joinWaiting v p rv.cls .parked).Asking h r :=
      ⟨(hm.ready hjoin hquiet).due (by simp), (State.bare_call? hm.bare h).trans ((State.call?_putCall_ne _ _ hne).trans hr),
        by rw [State.bare_activity hm.bare]; exact hflat⟩
    have h2 : (match p with
        | .H => (w.joinWaiting v p rv.cls .parked).progressUp rv .held
        | .F _ => (w.joinWaiting v p rv.cls .parked).statusTo v rv .held).Asking h r := by
      cases p with
      | H => exact h1.plain (.progressUp ..)
      | F k => exact h1.plain (.statusTo ..)
    dsimp only
    split
    · exact h2
    · exact h2.plain (.progressDown ..)
  · refine ⟨(hw.release hv .preempted hE hne).mono fun q => (Work.release_due hv .preempted q).2,
      (Work.release_call?_ne hv hne _).trans hr, ?_⟩
    rw [Work.release_activity hv]
    exact hflat.callOver hne rv _

/-- A lane is won by preemption (R56 to R59). -/
theorem Work.Asking.preempted (hw : w.Asking h r) (hst : r.state = .waitingLane) (hp : r.ownedPort = some p)
    (hno : r.ownedLane = none) (hadm : w.st.admitLane p (effPriority r.cls 0) = none)
    (hpre : w.st.preemption p r.cls = some (i, v)) : (w.preempt h p i v).Asking h (r.onLane i) := by
  have hfits := hw.ready.fits
  obtain ⟨k, hbest⟩ : ∃ k, w.st.BestOf p r.cls (w.st.map p).order i v k := by
    unfold State.preemption at hpre
    split at hpre
    · exact State.victim_best (hfits.orders p).nodup hpre
    · cases hpre
  obtain ⟨rv, hheld, hv, hclear, hlt, -⟩ := State.candidate_iff.1 hbest.cand
  have hholder : w.st.holder p i = some v := ((State.laneState_eq_held_iff ..).1 hheld).1
  have hlive := hfits.live v rv hv
  obtain ⟨hvp, hvi⟩ := (hlive.lane p i).1 hholder
  have hne : v ≠ h := by
    rintro rfl
    cases hw.call.symm.trans hv
    rw [hno] at hvi; cases hvi
  obtain ⟨hwon, hharder⟩ := hw.won hst hp hno hv hne hvp hvi
  have hm := Work.laneWon_makes hw.call hv hne hvp hvi
  have hact : (w.laneWon h p i v).st.activity = w.st.activity := rfl
  have hcallv : (w.laneWon h p i v).call? v = some { rv with ownedLane := none } := by
    have h1 := (State.bare_call? hm.bare v).trans (State.call?_putCall_ne _ _ hne.symm)
    rw [← State.lanePassed_eq hvp hvi] at h1
    exact h1.trans (State.call?_putCall_self ..)
  rw [Work.preempt_eq]
  refine Work.Asking.endVictim (hwon.due rfl) ((State.bare_call? hm.bare h).trans (State.call?_putCall_self ..)) (hact ▸ hw.flat)
    hcallv hne hvp rfl (fun hc f hf => ?_) ?_
  · have h1 := hlive.named hne hclear f hf
    unfold CallRecord.activityOf at h1
    rw [show rv.state = .connected from hc] at h1
    rw [hact]
    cases hd : rv.dir <;> rw [hd] at h1 <;> exact (Option.some.inj h1).symm
  · refine hharder _ (State.admitLane_antitone ?_ hadm)
    rw [effPriority_zero, effPriority_zero]
    exact le_of_lt hlt

end

end Sys2Proof.Machine
end

