-- ==== Sys2Proof/Proofs/LaneAnswered.lean ====
section
/-! PROOFS. A lane request, whatever its outcome, leaves an event whose tables agree (R54 to R59, R65 to R67, R93, R95, R108,
R129, R132). -/

namespace Sys2Proof.Machine

section
variable {s t : State} {w w' : Work} {h v : Handle} {r rv : CallRecord} {p : Owned} {i : Nat} {c : Cause}
  {k : Work → LaneOutcome → Work}

/-! ## The wait list is joined -/

/-- A new record whose own test fails joins the wait list (R65). -/
theorem Work.Asking.joins (hw : w.Asking h r) (hst : r.state = .waitingLane) (hp : r.ownedPort = some p)
    (hno : r.ownedLane = none) (hadm : w.st.admitLane p (effPriority r.cls 0) = none) {act : Vector Activity 96}
    (hm : w'.Makes False { w.st.joined h r p .waitingLane with activity := act }) (hruns : w'.runs = w.runs)
    (hact : ActivitiesFor w.st.activity act h)
    (hfloor : ∀ n : SlotNo, act[n].handle? = some h → ∃ f, r.far = .floor f ∧ f.slot = n)
    (hnamed : ∀ f, r.far = .floor f → r.activityOf h = some act[f.slot]) : w'.Settled := by
  have hlive := hw.ready.fits.live h r hw.call
  have hb := hlive.notBelow (by simp [hst])
  have hself : ({ r with state := .waitingLane } : CallRecord) = r := by rw [← hst]
  refine Work.Ready.due (hm.ready (hw.ready.fits.joined hw.call (fun v hv => only_self hv) not_false hw.outside hp hno (.inl rfl)
    (fun e => ?_) hact hfloor fun f hf => ?_) fun q hq => (hw.ready.quiet q hq).joined hw.call act fun _ => hadm) hruns
  · rw [hb] at e; cases e
  · rw [hself]
    exact hnamed f hf

theorem Work.queued_makes (hr : w.call? h = some r) (p : Owned) :
    ((w.joinWaiting h p r.cls .waitingLane).tellQueued h r).Makes False (w.st.joined h r p .waitingLane) :=
  (Work.Plain.tellQueued h r).makes (w.makes_self.joinWaiting hr p .waitingLane)

/-- The tail of the list leaves it for the new record (R66). -/
theorem Work.Asking.displaces (hw : w.Asking h r) {x : WaitEntry} (hx : x ∈ w.st.waiting) :
    (((w.leaveWaiting x.handle).release x.handle .congestion).raise .displaced).Asking h r ∧
      w.st.NoEasier (((w.leaveWaiting x.handle).release x.handle .congestion).raise .displaced).st p := by
  have hne : x.handle ≠ h := hw.outside x hx
  have hfits := hw.ready.fits
  obtain ⟨rt, hrt, hlane⟩ : ∃ rt, w.call? x.handle = some rt ∧ rt.ownedLane = none := by
    cases hr : w.st.call? x.handle with
    | none => exact absurd rfl ((hfits.gone _ hr).outside x hx)
    | some rt => exact ⟨rt, hr, ((hfits.live _ rt hr).waits x hx rfl).2⟩
  have hfree : rt.freedPort = none := by
    unfold CallRecord.freedPort
    rw [hlane]
    rfl
  have hm := (w.makes_self.leaveWaiting x.handle).release hrt .congestion False.elim False.elim False.elim
  rw [State.ended_leftWaiting] at hm
  have hq : ∀ q, ¬ w.Due q → (w.st.ended x.handle rt .congestion).Quiet q := fun q hq =>
    (hw.ready.quiet q hq).ended .congestion (by simp [hfree])
  refine ⟨Work.Asking.plain ⟨(hm.ready (hfits.ended hrt .congestion (fun _ _ => Iff.rfl) hne) hq).due ?_, ?_, ?_⟩ (.raise _),
    fun e he => ?_⟩
  · exact Work.release_runs_noLane (w := w.leaveWaiting x.handle) hrt hlane _
  · exact (State.bare_call? hm.bare h).trans ((State.ended_call?_ne _ _ _ _ hne).trans hw.call)
  · rw [State.bare_activity (hm.bare.trans (State.bare_ended ..))]
    exact hw.flat.callOver hne rt _
  · have hb : (((w.leaveWaiting x.handle).release x.handle .congestion).raise .displaced).st.bare =
        (w.st.ended x.handle rt .congestion).bare := hm.bare
    rw [State.bare_admitLane hb]
    exact State.ended_noEasier w.st x.handle .congestion (by simp [hfree]) e he

/-! ## The request -/

/-- How a command goes on with the outcome of its lane request, the tables agreeing in each. -/
structure Answers (k : Work → LaneOutcome → Work) (h : Handle) (r : CallRecord) (p : Owned) : Prop where
  refused : ∀ w c, k w (.refused c) = w.release h c
  taken   : ∀ (w : Work) (i : Nat), w.Asking h (r.onLane i) → (k w .taken).Settled
  queued  : ∀ w : Work, w.Asking h r → w.st.admitLane p (effPriority r.cls 0) = none →
    (k ((w.joinWaiting h p r.cls .waitingLane).tellQueued h r) .queued).Settled

theorem Work.Asking.refused (hw : w.Asking h r) (hk : Answers k h r p) (c : Cause) : (k w (.refused c)).Settled := by
  rw [hk.refused]
  exact hw.ready.releaseLoose hw.call c

theorem Work.Asking.queueCall (hw : w.Asking h r) (hk : Answers k h r p) (hadm : w.st.admitLane p (effPriority r.cls 0) = none) :
    (k (w.queueCall h p r).1 (w.queueCall h p r).2).Settled := by
  unfold Work.queueCall
  split
  · split
    · next tail ht =>
      split
      · obtain ⟨h1, h2⟩ := hw.displaces (p := p) (List.mem_of_mem_getLast? ht)
        exact hk.queued _ h1 (h2 _ hadm)
      · exact (hw.plain (.raise _)).refused hk _
    · exact (hw.plain (.raise _)).refused hk _
  · exact hk.queued w hw hadm

/-- A lane request and the outcome that the command goes on with (R54). -/
theorem Work.Asking.lane (hw : w.Asking h r) (hst : r.state = .waitingLane) (hp : r.ownedPort = some p) (hno : r.ownedLane = none)
    (hk : Answers k h r p) : (w.lane h p k).Settled := by
  unfold Work.lane
  rw [Work.withCall_live (show w.st.call? h = some r from hw.call)]
  dsimp only
  unfold Work.requestLane
  split
  · split
    · next i hi => exact hk.taken _ i (hw.taken hst hp hno hi)
    · next hadm =>
      split
      · next i v hv => exact hk.taken _ i (hw.preempted hst hp hno hadm hv)
      · exact hw.queueCall hk hadm
  · exact hw.refused hk _

/-! ## The commands that ask -/

/-- An upward call routed HIGH (R93, R94). -/
theorem answers_high {side : RiserSide} (hst : r.state = .waitingLane) (hf : r.far = .high side)
    (hno : r.ownedLane = none) : Answers (afterHigh h) h r .H where
  refused _ _ := rfl
  taken w i hw := (hw.ready.forwardSetup hw.call hst (side := side) hf).due (by simp)
  queued w hw hadm := by
    have hp : r.ownedPort = some .H := by simp [CallRecord.ownedPort, hf]
    refine hw.joins hst hp hno hadm (Work.queued_makes hw.call .H) (by simp [afterHigh]) (.same rfl h) (fun n hn => ?_) fun f hf' => ?_
    · exact ((hw.ready.fits.live h r hw.call).activity n hn).2
    · rw [hf] at hf'; cases hf'

/-- A call to a flat of no record (R95, R108, R111). -/
theorem answers_flat {f : FloorSide} (hst : r.state = .waitingLane) (hd : r.dir = .up) (hf : r.far = .floor f)
    (hno : r.ownedLane = none) : Answers (afterFloor h f.slot) h r (.F f.port) where
  refused _ _ := rfl
  taken w i hw := by
    have hidle := (hw.flat f hf).1 hd
    exact (hw.ready.startOffers hw.call hst hd hf (.inl hidle)).due (by simp)
  queued w hw hadm := by
    have hp : r.ownedPort = some (.F f.port) := by simp [CallRecord.ownedPort, hf]
    have hm := (Work.queued_makes hw.call (.F f.port)).setActivity f.slot (.pending h)
    refine hw.joins hst hp hno hadm hm (by simp [afterFloor]) (.set (.inl ((hw.flat f hf).1 hd)) (.inr rfl)) (fun n hn => ?_)
      fun f' hf' => ?_
    · exact ⟨f, hf, (hw.ready.fits.live h r hw.call).activity_set hf n hn⟩
    · cases hf.symm.trans hf'
      have hset : (w.st.activity.set f.slot (.pending h))[f.slot] = .pending h := by
        rw [getElem_set_slot, if_pos rfl]
      refine Eq.trans ?_ (congrArg some hset.symm)
      unfold CallRecord.activityOf
      rw [hst, hd]

/-- A downward call, relayed or dialled (R129, R132). -/
theorem answers_down (hst : r.state = .waitingLane) (hd : r.dir = .down) (hp : r.ownedPort = some p) (hno : r.ownedLane = none) :
    Answers (afterDown h) h r p where
  refused _ _ := rfl
  taken w i hw := (hw.ready.grantUpper hw.call hst hd fun f hf => (hw.flat f hf).2 hd).due (by simp)
  queued w hw hadm := by
    refine hw.joins hst hp hno hadm (act := w.st.activity) (Work.queued_makes hw.call p) (by simp [afterDown]) (.same rfl h) (fun n hn => ?_) fun f hf => ?_
    · exact ((hw.ready.fits.live h r hw.call).activity n hn).2
    · rw [(hw.flat f hf).2 hd]
      unfold CallRecord.activityOf
      rw [hst, hd]

end

end Sys2Proof.Machine
end

