-- ==== Sys2Proof/Proofs/CallRouted.lean ====
section
/-! PROOFS. The commands that make a record leave a state whose tables agree (R88 to R95, R105 to R108, R126 to R132). -/

namespace Sys2Proof.Machine

/-- Whatever state a command leaves, its tables agree. -/
def LeavesLinked (o : Host.Outcome State Fault Refusal) : Prop := ∀ t, o = .next t → t.Linked

section
variable {s t : State} {w : Work} {h v : Handle} {r : CallRecord} {p : Owned} {rest : List Handle} {l : LLane} {cls : Class}
  {dest : Word}

/-! ## Events -/

/-- The state in which an event begins, with nothing for the arbiter to do. -/
theorem Work.Settled.linked (hs : (Work.start s).Settled) : s.Linked :=
  hs.fits.linked fun p => hs.quiet p (by simp [Work.Due, Work.start])

theorem event_linked {f : Work → Work} (hs : (Work.start s).Settled) (h : (f (Work.start s)).Settled) :
    LeavesLinked (event s f) := fun t ht => by
  rw [← Host.Outcome.next.inj ht]
  split
  · exact h.finish
  · exact hs.linked

theorem onRiser_linked {p : Riser} {f : Work → Work} (hs : (Work.start s).Settled) (h : (f (Work.start s)).Settled) :
    LeavesLinked (onRiser s p f) := by
  refine event_linked hs ?_
  split
  · exact h
  · exact hs

theorem onFloor_linked {k : Floor} {f : Work → Work} (hs : (Work.start s).Settled) (h : (f (Work.start s)).Settled) :
    LeavesLinked (onFloor s k f) := by
  refine event_linked hs ?_
  split
  · exact h
  · exact hs

/-! ## An upward call is routed -/

theorem State.route_ne_low (s : State) (n : Nat) : s.route n ≠ .low := by
  unfold State.route
  split
  · simp
  split
  · simp
  split
  · split <;> simp
  · simp
  · split
    · simp
    · split
      · simp
      · split <;> simp

/-- An activity names a live record, and its end makes the flat IDLE (R104). -/
theorem Work.Ready.releaseFlat {loose : Handle → Prop} {busy : Owned → Prop} (hw : w.Ready loose busy) {n : SlotNo}
    (ha : w.st.activity[n].handle? = some v) (c : Cause) : ∃ rv, w.call? v = some rv ∧
      (w.release v c).st.activity[n].handle? = none := by
  cases hv : w.st.call? v with
  | none => exact absurd ha ((hw.fits.gone v hv).activity n)
  | some rv =>
    obtain ⟨-, f, hf, rfl⟩ := (hw.fits.live v rv hv).activity n ha
    refine ⟨rv, hv, ?_⟩
    rw [Work.release_activity hv, State.callOver_activity_idle _ c hf ha]
    rfl

theorem Work.Ready.routeFloor (hw : w.Ready (· = h) w.Due) (hr : w.call? h = some r) (hst : r.state = .waitingLane)
    (hno : r.ownedLane = none) (hfar : r.far = .none) (hd : r.dir = .up) (hclean : ∀ i : SlotNo, w.st.activity[i].handle? ≠ some h)
    {k : Floor} {n : SlotNo} (hport : w.st.retained.slots[n].port = k) : (w.routeFloor h cls k n).Settled := by
  obtain ⟨f, hf⟩ : ∃ f, f = w.st.retained.slots[n].capture n none := ⟨_, rfl⟩
  obtain ⟨w₁, hw₁⟩ : ∃ w₁, w₁ = w.modCall h fun r => { r with far := .floor f } := ⟨_, rfl⟩
  obtain ⟨r₁, hr₁⟩ : ∃ r₁ : CallRecord, r₁ = { r with far := .floor f } := ⟨_, rfl⟩
  have hready : w₁.Ready (· = h) w₁.Due :=
    hw₁ ▸ (hw.routed hr hst hno hfar (far := .floor f) fun side e => nomatch e).due rfl
  have hcall : w₁.call? h = some r₁ := by
    have hm := w.makes_self.modCall (f := fun r => { r with far := .floor f }) hr
    rw [hw₁, hr₁]
    exact (State.bare_call? hm.bare h).trans (State.call?_putCall_self ..)
  have hact : w₁.st.activity = w.st.activity := by rw [hw₁]; rfl
  have hfar₁ : r₁.far = .floor f := by rw [hr₁]
  have hslot : f.slot = n ∧ f.port = k := by rw [hf]; exact ⟨rfl, hport⟩
  have hk : Answers (afterFloor h n) h r₁ (.F k) := by
    have := answers_flat (h := h) (r := r₁) (by rw [hr₁]; exact hst) (by rw [hr₁]; exact hd) hfar₁ (by rw [hr₁]; exact hno)
    rwa [hslot.1, hslot.2] at this
  have hown : r₁.ownedPort = some (.F k) := by
    rw [CallRecord.ownedPort, hfar₁]
    exact congrArg (fun k => some (Owned.F k)) hslot.2
  have hask : ∀ u : Work, u.Asking h r₁ → (u.askFloor h k n).Settled := fun u hu =>
    hu.lane (k := afterFloor h n) (by rw [hr₁]; exact hst) hown
      (by rw [hr₁]; exact hno) hk
  have hdir : r₁.dir = .up := by rw [hr₁]; exact hd
  have hflat : ∀ u : Work, u.st.activity[n].handle? = none → FlatReady u.st.activity h r₁ := fun u hu g hg => by
    cases hfar₁.symm.trans hg
    refine ⟨fun _ => (congrArg (fun i : SlotNo => u.st.activity[i].handle?) hslot.1).trans hu, fun e => ?_⟩
    rw [hdir] at e; cases e
  have hrelease : ∀ c, (w₁.release h c).Settled := hready.releaseLoose hcall
  unfold Work.routeFloor
  dsimp only
  rw [← hf, ← hw₁]
  split
  · split
    · next hn => exact hask w₁ ⟨hready, hcall, hflat w₁ hn⟩
    · next v hv =>
      split
      · have h1 : (w₁.raise .preemption).Ready (· = h) (w₁.raise .preemption).Due := (hready.plain (.raise _)).due rfl
        obtain ⟨rv, hrv, hidle⟩ := h1.releaseFlat hv .preempted
        have hne : v ≠ h := fun e => hclean n (by rw [← hact, hv, e])
        exact hask _ ⟨h1.releaseOther hrv hne _, (Work.release_call?_ne hrv hne _).trans hcall, hflat _ hidle⟩
      · exact hrelease _
  · exact hrelease _

/-- The record of an upward SETUP is tested for fire mode and routed (R91 to R95). -/
theorem Work.Ready.routeUp (hw : w.Ready (· = h) w.Due) (hr : w.call? h = some r) (hst : r.state = .waitingLane)
    (hno : r.ownedLane = none) (hfar : r.far = .none) (hd : r.dir = .up)
    (hclean : ∀ i : SlotNo, w.st.activity[i].handle? ≠ some h) : (w.routeUp h cls dest).Settled := by
  unfold Work.routeUp
  split
  · exact hw.releaseLoose hr _
  · split
    · obtain ⟨r₁, hr₁⟩ : ∃ r₁ : CallRecord, r₁ = { r with far := .high .unopened } := ⟨_, rfl⟩
      have hm := w.makes_self.modCall (f := fun r => { r with far := .high .unopened }) hr
      have hfar₁ : r₁.far = .high .unopened := by rw [hr₁]
      have hask : (w.modCall h fun r => { r with far := .high .unopened }).Asking h r₁ := by
        refine ⟨(hw.routed hr hst hno hfar fun side e => by cases e; rfl).due rfl, ?_, fun f hf => ?_⟩
        · rw [hr₁]
          exact (State.bare_call? hm.bare h).trans (State.call?_putCall_self ..)
        · rw [hfar₁] at hf; cases hf
      exact hask.lane (k := afterHigh h) (by rw [hr₁]; exact hst) (by rw [CallRecord.ownedPort, hfar₁]) (by rw [hr₁]; exact hno)
        (answers_high (by rw [hr₁]; exact hst) hfar₁ (by rw [hr₁]; exact hno))
    · next k n hroute => exact hw.routeFloor hr hst hno hfar hd hclean (State.route_floor hroute)
    · next c b _ =>
      split
      · exact Work.Ready.releaseLoose ((hw.plain (.raise _)).due rfl) hr _
      · exact hw.releaseLoose hr _
    · next hroute => exact absurd hroute (State.route_ne_low _ _)

/-- The record of a downward call is tested for fire mode and for service, and asks for its lane (R128, R132). -/
theorem Work.Asking.routeCallDown (hw : w.Asking h r) (hst : r.state = .waitingLane) (hp : r.ownedPort = some p)
    (hno : r.ownedLane = none) (hd : r.dir = .down) : (w.routeCallDown h cls dest p).Settled := by
  unfold Work.routeCallDown
  split
  · exact hw.ready.releaseLoose hw.call _
  · split
    · exact hw.ready.releaseLoose hw.call _
    · exact hw.lane (k := afterDown h) hst hp hno (answers_down hst hd hp hno)

end

end Sys2Proof.Machine
end

