-- ==== Sys2Proof/Proofs/SetupLinked.lean ====
section
/-! PROOFS. SETUP from below, SETUP from above and DIAL: the record that each makes, ready to be routed (R90, R127, R132). -/

namespace Sys2Proof.Machine

section
variable {s t : State} {w : Work} {h v : Handle} {r : CallRecord} {p : Owned} {rest : List Handle} {l : LLane} {cls : Class}
  {dest : Word} {key : Key}

/-- The handle at the head of the free-handle list names no record (R80, R81). -/
theorem State.HandlesOk.head_free (hs : s.HandlesOk) (hf : s.freeHandles = h :: rest) : s.call? h = none :=
  (hs.2 h).2 (hf ▸ List.mem_cons_self)

theorem State.Fits.noActivity (hs : s.Fits noneLoose) (hn : s.call? h = none) (i : SlotNo) : s.activity[i].handle? ≠ some h :=
  (hs.gone h hn).activity i

/-- The record of an upward SETUP, with its L lane in the mirror (R90). -/
theorem Work.Settled.madeUp (hs : (Work.start s).Settled) (hn : s.call? h = none) (hm : s.mirror[l] = none)
    (hside : key.side = .low) (hk : s.keyed .L key = none) (base : Class) (o : Origin) (dest : Word) :
    (Work.start (s.madeUp h rest l (newUpward base o dest key l .none))).Ready (· = h)
      (Work.start (s.madeUp h rest l (newUpward base o dest key l .none))).Due := by
  have hfits : s.Fits noneLoose := hs.fits
  have hcall : ∀ v, v ≠ h → (s.madeUp h rest l (newUpward base o dest key l .none)).call? v = s.call? v := fun v hv =>
    State.call?_putCall_ne _ _ (Ne.symm hv)
  refine hs.made (hfits.made hn hcall (State.call?_putCall_self ..) rfl rfl rfl ⟨fun a v hv => ?_, fun a => ?_⟩ (.same rfl h)
    (fun i hi => absurd hi (hfits.noActivity hn i)) rfl rfl rfl fun p key' ho => ?_) hn hcall rfl rfl (fun p => ?_) rfl
  · rw [State.putCall_mirror, getElem_set_lane]
    split
    · next e =>
      subst e
      rw [hm]
      exact iff_of_false (fun e => hv (Option.some.inj e).symm) (by simp)
    · rfl
  · rw [State.putCall_mirror, getElem_set_lane]
    split
    · next e => simp [newUpward, e]
    · next e => exact iff_of_false ((hfits.gone h hn).mirror a) fun e' => e (Option.some.inj e').symm
  · cases p with
    | L =>
      cases ho
      exact ⟨by rw [hside]; decide, hs.linked.keyed_none hk⟩
    | H => cases ho
  · cases p <;> rfl

/-- The record of a downward call, its flat ORIGINATING it if it is dialled (R127, R132). -/
theorem Work.Settled.madeDown (hs : (Work.start s).Settled) (hn : s.call? h = none) {far : Far} {act : Vector Activity 96}
    (hact : ActivitiesFor s.activity act h)
    (hfloor : ∀ i : SlotNo, act[i].handle? = some h → ∃ f, far = .floor f ∧ f.slot = i)
    (hflat : ∀ f, far = .floor f → act[f.slot] = .originating h)
    (hk : ∀ key, far.riser?.bind RiserSide.key? = some key → key.side = .high ∧ s.keyed .H key = none) (o : Origin) (dest : Word) :
    (Work.start { s.madeDown h rest (newDownward cls o dest far) with activity := act }).Asking h
      (newDownward cls o dest far) := by
  have hfits : s.Fits noneLoose := hs.fits
  obtain ⟨t, ht⟩ : ∃ t : State, t = { s.madeDown h rest (newDownward cls o dest far) with activity := act } := ⟨_, rfl⟩
  have hcall : ∀ v, v ≠ h → t.call? v = s.call? v := fun v hv => by
    rw [ht]; exact State.call?_putCall_ne (s := { s with freeHandles := rest }) _ (Ne.symm hv)
  have hself : t.call? h = some (newDownward cls o dest far) := by
    rw [ht]; exact State.call?_putCall_self { s with freeHandles := rest } h _
  have hmade := hs.made (hfits.made hn hcall hself (by rw [ht]; rfl) (by rw [ht]; rfl) (by rw [ht]; rfl)
    ⟨fun a v _ => by rw [ht]; rfl, fun a => ?_⟩ (by rw [ht]; exact hact) (by rw [ht]; exact hfloor) rfl rfl rfl fun p key ho => ?_)
    hn hcall (by rw [ht]; rfl) (by rw [ht]; rfl) (fun p => by rw [ht]; cases p <;> rfl) (by rw [ht]; rfl)
  · rw [← ht]
    refine ⟨hmade, hself, fun f hf => ⟨(fun e => nomatch e), fun _ => ?_⟩⟩
    rw [ht]
    exact hflat f hf
  · rw [ht]
    exact iff_of_false ((hfits.gone h hn).mirror a) (by simp [newDownward])
  · cases p with
    | L => cases ho
    | H =>
      obtain ⟨hside, hkeyed⟩ := hk key ho
      exact ⟨by rw [hside]; decide, hs.linked.keyed_none hkeyed⟩

/-! ## The commands -/

theorem setupFromBelow_linked (hs : (Work.start s).Settled) (hh : s.HandlesOk) (key : Key) (lane : Byte) (dest : Word) (cls : Class)
    (okind : BitVec 2) (origin : Word) : LeavesLinked (execSetupFromBelow key lane dest cls okind origin s) := by
  refine onRiser_linked hs ?_
  split
  · split
    · next hcond =>
      obtain ⟨-, hside, hk, hm⟩ := hcond
      split
      · exact (hs.sendL _).raise _
      · next h rest hf =>
        have hn := hh.head_free hf
        dsimp only
        rw [Work.start_st, Work.start_madeUp]
        exact (hs.madeUp hn hm hside hk _ _ _).routeUp (State.call?_putCall_self ..) rfl rfl rfl rfl (hs.fits.noActivity hn)
    · exact hs.raise _
  · exact hs.raise _

theorem setupFromAbove_linked (hs : (Work.start s).Settled) (hh : s.HandlesOk) (key : Key) (lane : Byte) (dest : Word) (cls : Class)
    (okind : BitVec 2) (origin : Word) : LeavesLinked (execSetupFromAbove key lane dest cls okind origin s) := by
  refine onRiser_linked hs ?_
  split
  · next o _ =>
    split
    · next hcond =>
      obtain ⟨-, -, hside, hk⟩ := hcond
      split
      · exact (hs.sendH _).raise _
      · next h rest hf =>
        have hn := hh.head_free hf
        exact (hs.madeDown (cls := cls) (rest := rest) hn (far := .high (.opened key)) (act := s.activity) (.same rfl h)
          (fun i hi => absurd hi (hs.fits.noActivity hn i)) (fun f hf => nomatch hf)
          (fun key' hk' => by cases hk'; exact ⟨hside, hk⟩) o dest).routeCallDown rfl rfl rfl rfl
    · exact hs.raise _
  · exact hs.raise _

/-- A DIAL from a handset of an IDLE flat (R127 to R129). -/
theorem Work.Settled.callDown (hs : (Work.start s).Settled) (hh : s.HandlesOk) {k : Floor} {n : SlotNo}
    (ha : s.activity[n] = .idle) (hport : s.retained.slots[n].port = k) (a : Addr) : ((Work.start s).callDown k a n).Settled := by
  unfold Work.callDown
  split
  · exact (hs.sendF _ _).raise _
  · next h rest hf =>
    have hn := hh.head_free hf
    have hidle : s.activity[n].handle? = none := by rw [ha]; rfl
    obtain ⟨f, hfl⟩ : ∃ f, f = s.retained.slots[n].capture n (some a) := ⟨_, rfl⟩
    have hslot : f.slot = n := by rw [hfl]; rfl
    have hown : f.port = k := by rw [hfl]; exact hport
    have hset : (s.activity.set n (.originating h))[f.slot] = .originating h := by
      rw [getElem_set_slot, if_pos hslot]
    have hmade := hs.madeDown (cls := s.retained.slots[n].callDown) (rest := rest) hn (far := .floor f)
      (act := s.activity.set n (.originating h)) (.set (.inl hidle) (.inr rfl)) (fun i hi => ⟨f, rfl, ?_⟩)
      (fun f' hf' => by cases hf'; exact hset) (fun key hk => nomatch hk) (.dialled n) 0
    · have hp : (newDownward s.retained.slots[n].callDown (.dialled n) 0 (.floor f)).ownedPort = some (.F k) :=
        congrArg (fun k => some (Owned.F k)) hown
      rw [hfl] at hmade hp
      exact hmade.routeCallDown rfl hp rfl rfl
    · rw [getElem_set_slot] at hi
      split at hi
      · next e => rw [hslot, e]
      · exact absurd hi (hs.fits.noActivity hn i)

end

end Sys2Proof.Machine
end

