-- ==== Sys2Proof/Proofs/HandsetLinked.lean ====
section
/-! PROOFS. The responses of the handsets, DIAL, HOOK, UNLATCH and QUIET leave a state whose tables agree (sections 6.5 to 6.7,
8.3, 8.6). -/

namespace Sys2Proof.Machine

section
variable {s : State} {w w' : Work} {h : Handle} {r : CallRecord} {f : FloorSide} {k : Floor} {a : Addr}

/-! ## The offers of a call -/

/-- A record's offers change, and its flat and its port stand (R113 to R118). -/
theorem Work.Settled.modFloor (hw : w.Settled) (hr : w.call? h = some r) {g : FloorSide → FloorSide}
    (hg : ∀ f, (g f).slot = f.slot ∧ (g f).port = f.port) : (w.modCall h fun r => r.modFloor g).Settled := by
  refine hw.modCall hr ?_
  have ho : r.state = .clearing → r.anyOpen = true := fun hc => ((hw.live hr).clearing hc).1
  unfold CallRecord.modFloor
  split
  · next f hf => exact .of_state h rfl rfl rfl rfl rfl rfl rfl (.inr ⟨f, g f, hf, rfl, (hg f).1, (hg f).2⟩) ho
  · exact .refl r h ho

theorem Work.Settled.modEntry (hw : w.Settled) (hr : w.call? h = some r) (i : Nat) (g : OfferEntry → OfferEntry) :
    (w.modEntry h i g).Settled := hw.modFloor hr fun _ => ⟨rfl, rfl⟩

theorem Work.offerAlone_plain (w : Work) (h : Handle) (a : Addr) : w.Plain (w.offerAlone h a) := by
  unfold Work.offerAlone Work.withCall
  split
  · dsimp only
    split
    · exact .sendF _ _
    · exact .refl w
  · exact .refl w

theorem Work.Settled.offerAlone (hw : w.Settled) (h : Handle) (a : Addr) : (w.offerAlone h a).Settled :=
  hw.plain (w.offerAlone_plain h a)

theorem Work.Settled.followOn (hw : w.Settled) (h : Handle) : (w.followOn h).Settled := by
  refine hw.withCall fun r hr => ?_
  split
  · split
    · split
      · refine Work.Settled.offerAlone (hw.modFloor hr ?_) h _
        exact fun _ => ⟨rfl, rfl⟩
      · exact hw
    · exact hw
  · exact hw

theorem Work.Settled.countEntries (hw : w.Settled) (h : Handle) : (w.countEntries h).Settled := by
  refine hw.withCall fun r _ => ?_
  split
  · split
    · exact hw.release h _
    · exact hw
  · exact hw

theorem Work.Settled.windowEnds (hw : w.Settled) (hr : w.call? h = some r) (i : Nat) (e : OfferEntry) :
    (w.windowEnds h i e).Settled := by
  unfold Work.windowEnds
  split
  · exact (hw.modEntry hr i _).offerAlone h _
  · exact (((hw.modEntry hr i _).raise _).followOn h).countEntries h

/-- A call in progress of a flat connects at its switch (R114, R120). -/
theorem Work.Settled.connectFlat (hw : w.Settled) (hr : w.call? h = some r) (hst : r.state = .offering ∨ r.state = .ringing)
    (a : Addr) : (w.connectFlat h a).Settled := by
  obtain ⟨h1, h2, h3, h4⟩ : r.state ≠ .connected ∧ r.state ≠ .parked ∧ r.state ≠ .clearing ∧ ¬ r.Waits := by
    unfold CallRecord.Waits
    rcases hst with e | e <;> rw [e] <;> simp
  cases hf : r.far with
  | floor f =>
    have hact := CallRecord.activityOf_handle ((hw.live hr).named not_false h3 f hf)
    exact (Work.Ready.connectFlat hw hr (fun _ _ => not_false) (.inr h4) ⟨h1, h2, h3⟩ hf (.inr hact) a).due (by simp)
  | _ =>
    unfold Work.connectFlat
    rw [Work.withCall_live (show w.st.call? h = some r from hr), hf]
    exact hw

/-! ## Responses -/

theorem State.floorCall_call? {h : Handle} {x : CallRecord × FloorSide} (hx : s.floorCall k h = some x) :
    s.call? h = some x.1 ∧ x.1.far = .floor x.2 := by
  unfold State.floorCall at hx
  split at hx
  · next r hr =>
    split at hx
    · next f hf =>
      split at hx
      · cases hx
        exact ⟨hr, hf⟩
      · cases hx
    · cases hx
  · cases hx

/-- A response that matches is for a record in OFFERING or RINGING (R112). -/
theorem State.matchedEntry_call? {x : Nat × OfferEntry} (hx : s.matchedEntry k a h = some x) :
    ∃ r, s.call? h = some r ∧ (r.state = .offering ∨ r.state = .ringing) := by
  unfold State.matchedEntry at hx
  split at hx
  · next r f hf =>
    split at hx
    · next hst => exact ⟨r, (State.floorCall_call? hf).1, hst⟩
    · cases hx
  · cases hx

theorem onResponse_linked (hs : (Work.start s).Settled) (k : Floor) (a : Addr) (b : Byte) (c : Bool)
    {g : Work → Handle → Nat → OfferEntry → Work}
    (hg : ∀ w h r i e, w.Settled → w.call? h = some r → (r.state = .offering ∨ r.state = .ringing) → (g w h i e).Settled) :
    LeavesLinked (onResponse s k a b c g) := by
  refine onFloor_linked hs ?_
  split
  · exact hs.raise _
  · split
    · next i e he =>
      obtain ⟨r, hr, hst⟩ := State.matchedEntry_call? he
      exact hg _ _ r i e hs hr hst
    · split
      · exact hs.sendF _ _
      · exact hs

theorem alert_linked (hs : (Work.start s).Settled) (k : Floor) (a : Addr) (b : Byte) : LeavesLinked (execAlert k a b s) :=
  onResponse_linked hs k a b _ fun w h r i e hw hr _ => by
    have h1 := hw.modEntry hr i fun e => { e with state := .alerting, window := none }
    refine h1.withCall fun r hr => ?_
    split
    · next hst => exact (h1.rings hr _ (.inr hst)).plain (.progressDown ..)
    · exact h1

theorem answer_linked (hs : (Work.start s).Settled) (k : Floor) (a : Addr) (b : Byte) : LeavesLinked (execAnswer k a b s) :=
  onResponse_linked hs k a b _ fun _ _ _ _ _ hw hr hst => hw.connectFlat hr hst a

theorem refuse_linked (hs : (Work.start s).Settled) (k : Floor) (a : Addr) (b : Byte) : LeavesLinked (execRefuse k a b s) :=
  onResponse_linked hs k a b _ fun _ h _ i _ hw hr _ => ((hw.modEntry hr i _).followOn h).countEntries h

theorem repeatOffer_linked (hs : (Work.start s).Settled) (k : Floor) (a : Addr) (b : Byte) :
    LeavesLinked (execRepeatOffer k a b s) :=
  onResponse_linked hs k a b _ fun _ h _ i e hw hr _ => by
    split
    · exact hw.windowEnds hr i e
    · exact hw.offerAlone h a

theorem responseWindowExpiry_linked (hs : (Work.start s).Settled) (h : Handle) (i : Fin 2) :
    LeavesLinked (execResponseWindowExpiry h i s) := by
  refine event_linked hs (hs.withCall fun r hr => ?_)
  split
  · split
    · split
      · exact hs.windowEnds hr _ _
      · exact hs
    · exact hs
  · exact hs

/-! ## DIAL -/

theorem Work.Settled.preAnswer (hw : w.Settled) (h : Handle) (k : Floor) (a : Addr) : (w.preAnswer h k a).Settled := by
  refine hw.withCall fun r hr => ?_
  split
  · split
    · exact hw.sendF _ _
    · refine Work.Settled.sendF (hw.modFloor hr ?_) _ _
      exact fun _ => ⟨rfl, rfl⟩
  · exact hw

theorem CallRecord.activityOf_offered {v : Handle} (ha : r.activityOf h = some (.offered v)) :
    r.state = .offering ∨ r.state = .ringing := by
  unfold CallRecord.activityOf at ha
  split at ha <;> simp_all

/-- A flat's activity names a record in the state that it tells (R103). -/
theorem State.Fits.ofActivity (hs : s.Fits noneLoose) {n : SlotNo} (ha : s.activity[n].handle? = some h) :
    ∃ r, s.call? h = some r ∧ r.activityOf h = some s.activity[n] := by
  cases hr : s.call? h with
  | none => exact absurd ha ((hs.gone h hr).activity n)
  | some r =>
    obtain ⟨hc, f, hf, rfl⟩ := (hs.live h r hr).activity n ha
    exact ⟨r, rfl, (hs.live h r hr).named not_false hc f hf⟩

theorem dial_linked (hs : (Work.start s).Settled) (hh : s.HandlesOk) (k : Floor) (a : Addr) : LeavesLinked (execDial k a s) := by
  refine onFloor_linked hs ?_
  split
  · exact hs.sendF _ _
  · next n role hn =>
    split
    · next ha => exact hs.callDown hh ha (Retained.handset_port hn) a
    · next v ha =>
      obtain ⟨r, hr, hact⟩ := hs.fits.ofActivity (n := n) (h := v) (by rw [ha]; rfl)
      rw [ha] at hact
      exact hs.connectFlat hr (CallRecord.activityOf_offered hact) a
    · exact hs.preAnswer _ k a
    · exact hs.sendF _ _
    · exact hs.sendF _ _

/-! ## HOOK, UNLATCH, QUIET -/

theorem hook_linked (hs : (Work.start s).Settled) (k : Floor) (a : Addr) : LeavesLinked (execHook k a s) := by
  refine onFloor_linked hs ?_
  split
  · exact hs.release _ _
  · exact hs

theorem unlatch_linked (hs : (Work.start s).Settled) (k : Floor) (a : Addr) : LeavesLinked (execUnlatch k a s) := by
  refine onFloor_linked hs ?_
  split
  · exact hs.sendF _ _
  · refine hs.withCall fun r _ => ?_
    split
    · exact hs.sendF _ _
    · split
      · exact (hs.sendL _).sendF _ _
      · exact hs.sendF _ _

theorem quiet_linked (hs : (Work.start s).Settled) (k : Floor) (a : Addr) (b : Byte) : LeavesLinked (execQuiet k a b s) := by
  refine onFloor_linked hs ?_
  split
  · split
    · exact hs
    · refine Work.Settled.sendF (Work.Settled.modState hs ⟨rfl, rfl, rfl, rfl, rfl, rfl⟩ (fun p => ?_) rfl rfl) _ _
      cases p <;> exact id
  · exact hs.raise _

end

end Sys2Proof.Machine
end

