-- ==== Sys2Proof/Proofs/CellsLinked.lean ====
section
/-! PROOFS. The cells of the riser segments that name a record leave a state whose tables agree (sections 5.7, 7.4, 8.4 to
8.6). -/

namespace Sys2Proof.Machine

section
variable {s : State} {w w' : Work} {h : Handle} {r : CallRecord} {key : Key} {lane : Byte}

/-! ## A cell and the record of its key -/

theorem Work.Settled.named (hw : w.Settled) {p : Riser} {k : Handle → CallRecord → Work}
    (hk : ∀ h r, w.call? h = some r → r.openKey p = some key → r.state ≠ .clearing → (k h r).Settled) :
    (w.named p key k).Settled := by
  unfold Work.named
  split
  · next h hkeyed =>
    obtain ⟨r, hr, ho⟩ := State.keyed_spec hkeyed
    rw [Work.withCall_live hr]
    split
    · exact hw
    · next hc => exact hk h r hr ho hc
  · exact hw.raise _

theorem onProgress_linked (hs : (Work.start s).Settled) {p : Riser} {k : Work → Handle → CallRecord → Work}
    (hk : ∀ w h r, w.Settled → w.call? h = some r → r.openKey p = some key → r.state ≠ .clearing → (k w h r).Settled) :
    LeavesLinked (onProgress s p key lane k) := by
  refine onRiser_linked hs ?_
  split
  · exact hs.named fun h r => hk _ h r hs
  · exact hs.raise _

theorem onlyFromBelow_linked (hs : (Work.start s).Settled) {p : Riser} {e : Event} {f : Work → Work}
    (h : (f (Work.start s)).Settled) : LeavesLinked (onlyFromBelow s p e f) := by
  refine onRiser_linked hs ?_
  cases p with
  | L => exact h
  | H => exact hs.raise _

/-! ## From above -/

/-- A record with an open side on port H has no floor side. -/
theorem CallRecord.openKey_noFloor (ho : r.openKey .H = some key) (f : FloorSide) : r.far ≠ .floor f := fun hf => by
  simp [CallRecord.openKey, hf, Far.riser?] at ho

theorem alertingFromAbove_linked (hs : (Work.start s).Settled) (key : Key) (lane : Byte) :
    LeavesLinked (execAlertingFromAbove key lane s) :=
  onProgress_linked hs fun w h r hw hr ho _ => by
    split
    · next hc => exact (hw.rings hr none (.inl ⟨hc.2, .inl (CallRecord.openKey_noFloor ho)⟩)).plain (.progressDown ..)
    · split
      · exact hw.plain (.progressDown ..)
      · exact hw.raise _

theorem queuedFromAbove_linked (hs : (Work.start s).Settled) (key : Key) (lane : Byte) :
    LeavesLinked (execQueuedFromAbove key lane s) :=
  onProgress_linked hs fun w h r hw hr ho _ => by
    split
    · exact (hw.retimed hr _).plain (.progressDown ..)
    · exact hw.raise _

theorem Work.Settled.relayHold (hw : w.Settled) (r : CallRecord) (c : Progress) : (w.relayHold r c).Settled := by
  unfold Work.relayHold
  split
  · exact hw.plain (.progressDown ..)
  · split
    · exact hw
    · exact hw.raise _

theorem limitNearFromAbove_linked (hs : (Work.start s).Settled) (p : Riser) (key : Key) (lane : Byte) :
    LeavesLinked (execLimitNearFromAbove p key lane s) :=
  onProgress_linked hs fun w h r hw hr ho _ => by
    split
    · exact hw.plain (.progressDown ..)
    · exact hw.raise _

/-- A call on its way connects through this switch (R100, R136). -/
theorem Work.Settled.connectsThrough (hw : w.Settled) (hr : w.call? h = some r) (hst : r.state = .forwarded ∨ r.state = .ringing)
    (hf : ∀ f, r.far ≠ .floor f) (p : Riser) :
    (((w.modCall h fun r => { r with state := .connected, timer := none }).crossConnect h).connectToward r p).Settled := by
  obtain ⟨r', hr'⟩ : ∃ r' : CallRecord, r' = { r with state := .connected, timer := none } := ⟨_, rfl⟩
  have hm : (((w.modCall h fun r => { r with state := .connected, timer := none }).crossConnect h).connectToward r p).Makes False
      (w.st.withCallTables h r' (w.st.crosses ++ r'.joins h) w.st.activity) := by
    refine (Work.Plain.connectToward r p).makes (Work.Makes.crossConnect ?_ (State.call?_putCall_self ..))
    exact hr' ▸ w.makes_self.modCall hr
  exact (Work.Ready.connects hw hr hst (by rw [hr']) (by rw [hr']) (by rw [hr']) (by rw [hr']) (by rw [hr']) (by rw [hr'])
    (by rw [hr']) hm (.inl ⟨hf, rfl⟩)).due (by simp)

theorem connectFromAbove_linked (hs : (Work.start s).Settled) (key : Key) : LeavesLinked (execConnectFromAbove key s) := by
  refine onRiser_linked hs (hs.named fun h r hr ho _ => ?_)
  split
  · next hc => exact hs.connectsThrough hr hc.2 (CallRecord.openKey_noFloor ho) .L
  · exact hs.raise _

/-! ## From below -/

theorem queuedFromBelow_linked (hs : (Work.start s).Settled) (key : Key) (lane : Byte) :
    LeavesLinked (execQueuedFromBelow key lane s) :=
  onProgress_linked hs fun w h r hw hr _ _ => by
    split
    · exact (hw.retimed hr _).plain (.tellOrigin ..)
    · split
      · exact (hw.retimed hr _).plain (.tellOrigin ..)
      · exact hw.raise _

theorem alertingFromBelow_linked (hs : (Work.start s).Settled) (key : Key) (lane : Byte) :
    LeavesLinked (execAlertingFromBelow key lane s) :=
  onProgress_linked hs fun w h r hw hr _ _ => by
    split
    · next hc =>
      have hrings := fun m => hw.rings hr m (.inl ⟨hc.2, .inr hc.1⟩)
      split
      · exact (hrings _).plain (.statusTo ..)
      · exact (hrings _).plain (.progressUp ..)
    · split
      · split
        · exact hw
        · exact hw.plain (.progressUp ..)
      · exact hw.raise _

/-- A call-down connects at this switch (R136). -/
theorem Work.Settled.connectsFlat (hw : w.Settled) (hr : w.call? h = some r) (hst : r.state = .forwarded ∨ r.state = .ringing)
    {f : FloorSide} (hf : r.far = .floor f) (m : CallRecord → Option Timer) (l : Option Nat) :
    ((((w.modCall h fun r => { r with state := .connected, talkOwner := true, timer := m r }).crossConnect h).statusTo h r
      .connected 0 l).setActivity f.slot (.engaged h)).Settled := by
  obtain ⟨r', hr'⟩ : ∃ r' : CallRecord, r' = { r with state := .connected, talkOwner := true, timer := m r } := ⟨_, rfl⟩
  have hm : ((((w.modCall h fun r => { r with state := .connected, talkOwner := true, timer := m r }).crossConnect h).statusTo h r
      .connected 0 l).setActivity f.slot (.engaged h)).Makes False
      (w.st.withCallTables h r' (w.st.crosses ++ r'.joins h) (w.st.activity.set f.slot (.engaged h))) := by
    refine Work.Makes.setActivity ((Work.Plain.statusTo ..).makes (Work.Makes.crossConnect (u := w.st.putCall h r') ?_
      (State.call?_putCall_self ..))) f.slot (.engaged h)
    exact hr' ▸ w.makes_self.modCall hr
  exact (Work.Ready.connects hw hr hst (by rw [hr']) (by rw [hr']) (by rw [hr']) (by rw [hr']) (by rw [hr']) (by rw [hr'])
    (by rw [hr']) hm (.inr ⟨f, hf, rfl⟩)).due (by simp)

theorem connectFromBelow_linked (hs : (Work.start s).Settled) (key : Key) : LeavesLinked (execConnectFromBelow key s) := by
  refine onRiser_linked hs ?_
  generalize Work.start s = w at hs ⊢
  refine hs.named fun h r hr _ _ => ?_
  split
  · next hc =>
    split
    · next f hf => exact hs.connectsFlat hr hc.2 hf (fun r => w.st.talkTimer r.cls) r.ownedLane
    · next hf => exact hs.connectsThrough hr hc.2 hf .H
  · exact hs.raise _

theorem laneGrant_linked (hs : (Work.start s).Settled) (p : Riser) (key : Key) (lane : Byte) :
    LeavesLinked (execLaneGrant p key lane s) := by
  refine onlyFromBelow_linked hs ?_
  split
  · exact hs.raise _
  · refine hs.named fun h r hr _ _ => ?_
    split
    · next hc => exact hs.granted hr hc.1 hc.2 _
    · exact hs.raise _

theorem heldFromBelow_linked (hs : (Work.start s).Settled) (key : Key) (lane : Byte) :
    LeavesLinked (execHeldFromBelow key lane s) :=
  onProgress_linked hs fun w h r hw hr _ _ => by
    split
    · next hc =>
      have h1 := hw.heldBelow hr hc.2
      dsimp only
      split
      · exact h1.plain (.tellOrigin ..)
      · exact h1
    · exact hw.raise _

theorem resumedFromBelow_linked (hs : (Work.start s).Settled) (key : Key) (lane : Byte) :
    LeavesLinked (execResumedFromBelow key lane s) := by
  refine onRiser_linked hs ?_
  split
  · exact hs.raise _
  · next l _ =>
    refine hs.named fun h r hr _ _ => ?_
    split
    · next hc =>
      obtain ⟨hb, hst, ht⟩ := hc
      have hm := ((Work.start s).makes_self.fillMirror hr l).modCall (f := fun r => { r with heldBelow := false })
        (State.call?_putCall_self ..)
      rw [State.putCall_putCall] at hm
      dsimp only
      split
      · next hconn =>
        have hx := hm.crossConnect (State.call?_putCall_self ..)
        split
        · refine hs.resumedBelow hr hb hst ht ((Work.Plain.statusTo ..).makes ?_) (by simp)
          rw [if_pos hconn]
          exact hx
        · refine hs.resumedBelow hr hb hst ht ((Work.Plain.progressUp ..).makes ?_) (by simp)
          rw [if_pos hconn]
          exact hx
      · next hconn =>
        refine hs.resumedBelow hr hb hst ht ?_ (by simp)
        rw [if_neg hconn]
        exact hm
    · exact hs.raise _

/-! ## The release handshake and UNLATCH -/

theorem release_linked (hs : (Work.start s).Settled) (p : Riser) (key : Key) (code : Byte) :
    LeavesLinked (execRelease p key code s) := by
  refine onRiser_linked hs ?_
  split
  · exact hs.plain (.sendRiser ..)
  · refine hs.withCall fun r hr => ?_
    split
    · next hc => exact hs.closeCleared hr hc p
    · next hc =>
      have hp : (Work.start s).Plain ((Work.start s).sendRiser p (releaseDoneCell key)) := .sendRiser ..
      exact (Work.Settled.modCall (hs.plain hp) ((hp.call? _).trans hr)
        (r.closeSide_alike p _ fun e => absurd e hc)).release _ _

theorem releaseDone_linked (hs : (Work.start s).Settled) (p : Riser) (key : Key) : LeavesLinked (execReleaseDone p key s) := by
  refine onRiser_linked hs ?_
  split
  · exact hs.raise _
  · refine hs.withCall fun r hr => ?_
    split
    · next hc => exact hs.closeCleared hr hc p
    · exact hs.raise _

theorem unlatchFromAbove_linked (hs : (Work.start s).Settled) (p : Riser) (key : Key) (okind : BitVec 2) (origin : Word) :
    LeavesLinked (execUnlatchFromAbove p key okind origin s) := by
  refine onRiser_linked hs ?_
  split
  · exact hs.raise _
  · split
    · refine hs.named fun h r _ _ _ => ?_
      split
      · exact hs.raise _
      · split
        · exact hs
        · split
          · split
            · exact hs
            · exact hs.sendL _
          · exact hs
          · exact hs.raise _
    · exact hs.raise _

end

end Sys2Proof.Machine
end

