-- ==== Sys2Proof/Proofs/TimersLinked.lean ====
section
/-! PROOFS. The timers keep the tables in agreement: an expiry, an ageing step, and the passing of time (R68, R69, R141, R142,
R148). -/

namespace Sys2Proof.Machine

section
variable {s t : State} {w w' : Work} {loose : Handle → Prop} {busy : Owned → Prop} {h : Handle} {r : CallRecord} {p : Owned}

/-! ## Expiries -/

theorem onExpiry_linked (hs : (Work.start s).Settled) (h : Handle) (m : Purpose) {k : Work → CallRecord → Work}
    (hk : ∀ w r, w.Settled → w.call? h = some r → (k w r).Settled) : LeavesLinked (onExpiry s h m k) := by
  refine event_linked hs (hs.withCall fun r hr => ?_)
  split
  · exact hk _ r hs hr
  · exact hs

theorem releaseExpiry_linked (hs : (Work.start s).Settled) (h : Handle) (m : Purpose) (x : CallState) (c : Cause) :
    LeavesLinked (onExpiry s h m fun w r => if r.state = x then w.release h c else w) :=
  onExpiry_linked hs h m fun w r hw _ => by
    split
    · exact hw.release h c
    · exact hw

theorem laneWaitExpiry_linked (hs : (Work.start s).Settled) (h : Handle) : LeavesLinked (execLaneWaitExpiry h s) :=
  onExpiry_linked hs h _ fun w r hw _ => by
    split
    · exact (hw.raise _).release h _
    · exact hw

theorem limitNear_linked (hs : (Work.start s).Settled) (h : Handle) : LeavesLinked (execLimitNear h s) :=
  onExpiry_linked hs h _ fun w r hw hr => by
    split
    · split
      · exact ((hw.retimed hr _).plain (.progressDown ..)).plain (.statusTo ..)
      · exact hw
    · exact hw

theorem guardTimerExpiry_linked (hs : (Work.start s).Settled) (h : Handle) : LeavesLinked (execGuardTimerExpiry h s) :=
  onExpiry_linked hs h _ fun w r hw hr => by
    split
    · next hc => exact (hw.freeCall hr hc).raise _
    · exact hw

/-! ## An ageing step -/

/-- An entry is placed again (R69). -/
theorem State.Fits.placedAgain (hs : s.Fits noneLoose) (hr : s.call? h = some r) {x y : WaitEntry} (hx : x ∈ s.waiting)
    (hxh : x.handle = h) (hy : y.handle = h) (hyp : y.port = x.port) {e : Nat} (he : s.entryPriority y = e) :
    ({ s with waiting := s.placed y e (s.waiting.filter fun z => !(z.handle == h)) } : State).Fits noneLoose := by
  have hlive := hs.live h r hr
  obtain ⟨l, hl⟩ : ∃ l, l = s.waiting.filter fun z => !(z.handle == h) := ⟨_, rfl⟩
  obtain ⟨t, ht⟩ : ∃ t : State, t = { s with waiting := s.placed y e l } := ⟨_, rfl⟩
  have hmem : ∀ z, z ∈ l ↔ z ∈ s.waiting ∧ z.handle ≠ h := fun z => by simp [hl]
  have hperm := s.placed_perm y e l
  have hw : WaitingFor s t h True := by
    refine hs.waitingPlaced (l := l) (e := e) (hl ▸ List.filter_sublist) (fun z hz => by simp [hmem, hz]) (fun z hz => ((hmem z).1 hz).2) hy
      (by rw [ht]; exact he) (by rw [ht]; rfl) fun v _ => by rw [ht]; rfl
  have hfit : t.Fits noneLoose := by
    refine hs.recast (r := r) (fun _ _ => Iff.rfl) (by rw [ht]; exact hr) ⟨fun v _ => by rw [ht]; rfl, by rw [ht]; exact hs.keys,
      hs.lanesFor hr (by rw [ht]) rfl rfl, hs.mirrorFor hr (by rw [ht]) rfl, hw,
      hs.crossesFor hr (by rw [ht]) fun _ _ _ => Iff.rfl, .same (by rw [ht]) h⟩
      ⟨fun _ => hw.own.trans (iff_of_true trivial ((hlive.queued not_false).1 ⟨x, hx, hxh⟩)), False.elim, fun z hz hzh => ?_,
        by rw [ht]; exact hlive.activity, fun _ => by rw [ht]; exact hlive.named not_false, hlive.clearing, hlive.below⟩
    rw [ht] at hz
    rcases List.mem_cons.1 (hperm.mem_iff.1 hz) with rfl | hz
    · rw [hyp]; exact hlive.waits x hx hxh
    · exact absurd hzh ((hmem z).1 hz).2
  exact hl ▸ ht ▸ hfit

theorem ageingStep_linked (hs : (Work.start s).Settled) (h : Handle) : LeavesLinked (execAgeingStep h s) := by
  refine event_linked hs ?_
  generalize Work.start s = w at hs
  refine hs.withCall fun r hr => ?_
  split
  · next x hx =>
    have hmem := List.mem_of_find?_eq_some hx
    have hxh : x.handle = h := by
      have := List.find?_some hx
      simp at this
      exact this.1
    dsimp only
    refine Work.Ready.runDue (busy := fun q => q = x.port ∨ w.Due q) ⟨?_, fun q hq => ?_⟩ fun q hq => hq
    · refine hs.fits.placedAgain (y := { x with
      steps := x.steps + 1, ageing := w.st.ageingStart (effPriority r.cls (x.steps + 1)) }) hr hmem hxh hxh rfl ?_
      have hr' : w.st.call? x.handle = some r := hxh ▸ hr
      simp only [State.entryPriority, hr']
    · refine State.Quiet.step (hs.quiet q fun hd => hq (.inr hd)) (fun e he => he) fun z hz hzq => .inl ?_
      rcases List.mem_cons.1 ((State.placed_perm ..).mem_iff.1 hz) with rfl | hz
      · exact absurd hzq.symm fun e => hq (.inl e)
      · exact ⟨(List.mem_filter.1 hz).1, Nat.le_refl _⟩
  · exact hs

/-! ## Entries that keep their places -/

/-- The ageing steps under way change, and the entries stand where they are. -/
theorem State.Fits.remapped (hs : s.Fits loose) {g : WaitEntry → WaitEntry}
    (hg : ∀ x, (g x).handle = x.handle ∧ (g x).port = x.port ∧ (g x).steps = x.steps) :
    ({ s with waiting := s.waiting.map g } : State).Fits loose := by
  have hpri : ∀ x, s.entryPriority (g x) = s.entryPriority x := fun x => by
    unfold State.entryPriority
    rw [(hg x).1, (hg x).2.2]
  have hex : ∀ h, (∃ x ∈ s.waiting.map g, x.handle = h) ↔ ∃ x ∈ s.waiting, x.handle = h := fun h => by
    refine ⟨fun ⟨x, hx, he⟩ => ?_, fun ⟨x, hx, he⟩ => ⟨g x, List.mem_map_of_mem hx, (hg x).1.trans he⟩⟩
    obtain ⟨y, hy, rfl⟩ := List.mem_map.1 hx
    exact ⟨y, hy, (hg y).1.symm.trans he⟩
  refine ⟨⟨hs.lengths, hs.orders, ?_, ?_, hs.apart, hs.keys⟩, fun h r hr => ?_, fun h hn => ?_⟩
  · rw [List.map_map, show WaitEntry.handle ∘ g = WaitEntry.handle from funext fun x => (hg x).1]
    exact hs.nodup
  · refine List.pairwise_map.2 (hs.sorted.imp fun {a b} hab => ?_)
    have h1 : s.entryPriority (g b) ≤ s.entryPriority (g a) := by rwa [hpri, hpri]
    exact h1
  · obtain ⟨h1, h2, h3, h4, h5, h6, h7, h8, h9, h10⟩ := hs.live h r hr
    refine ⟨h1, h2, fun hl => (hex h).trans (h3 hl), fun hl x hx => ?_, fun x hx he => ?_, h6, h7, h8, h9, h10⟩
    · obtain ⟨y, hy, rfl⟩ := List.mem_map.1 hx
      rw [(hg y).1]
      exact h4 hl y hy
    · obtain ⟨y, hy, rfl⟩ := List.mem_map.1 hx
      rw [(hg y).2.1]
      exact h5 y hy ((hg y).1 ▸ he)
  · obtain ⟨h1, h2, h3, h4, h5⟩ := hs.gone h hn
    refine ⟨h1, h2, fun x hx => ?_, h4, h5⟩
    obtain ⟨y, hy, rfl⟩ := List.mem_map.1 hx
    rw [(hg y).1]
    exact h3 y hy

theorem State.Quiet.remapped (hq : s.Quiet p) {g : WaitEntry → WaitEntry}
    (hg : ∀ x, (g x).handle = x.handle ∧ (g x).port = x.port ∧ (g x).steps = x.steps) :
    ({ s with waiting := s.waiting.map g } : State).Quiet p := fun x hx hp => by
  obtain ⟨y, hy, rfl⟩ := List.mem_map.1 hx
  have hpri : s.entryPriority (g y) = s.entryPriority y := by
    unfold State.entryPriority
    rw [(hg y).1, (hg y).2.2]
  have h1 : s.admitLane p (s.entryPriority (g y)) = none := hpri ▸ hq y hy ((hg y).2.1 ▸ hp)
  exact h1

end

end Sys2Proof.Machine
end

