-- ==== Sys2Proof/Proofs/LinesLinked.lean ====
section
/-! PROOFS. Resets, supplies, line events, the fire commands and the RESTARTs of the neighbours leave a state whose tables agree
(sections 1.5, 1.6, 9.1 to 9.5, chapter 10). -/

namespace Sys2Proof.Machine

section
variable {s t : State} {w w' : Work} {loose : Handle → Prop} {busy : Owned → Prop} {h : Handle} {r : CallRecord} {p : Owned}

/-! ## Resets and supplies -/

theorem State.AtReset.linked {pins : Pins} (h : t.AtReset pins) : t.Linked :=
  State.linked_of_noCalls h.lanes h.mirror h.crosses h.waiting h.calls h.activity

theorem powerUpReset_linked (pins : Pins) (s : State) : LeavesLinked (execPowerUpReset pins s) := fun t ht => by
  rw [← Host.Outcome.next.inj ht]
  have h := fun d => s.restarted_atReset d pins false false fun _ => false
  split
  · exact (h _).evaluateFire.linked
  · exact ((h _).withStatus rfl rfl).evaluateFire.linked

theorem remoteReset_linked (hs : s.Linked) (pins : Pins) : LeavesLinked (execRemoteReset pins s) := fun t ht => by
  rw [← Host.Outcome.next.inj ht]
  split
  · exact (s.remoteReset_atReset pins).linked
  · exact hs

theorem mainSupplyLoss_linked (hs : s.Linked) (b : Bool) : LeavesLinked (execMainSupplyLoss b s) := fun t ht => by
  rw [← Host.Outcome.next.inj ht]
  split
  · have h := s.restarted_atReset s.retained s.pins false false fun _ => false
    exact State.linked_of_noCalls h.lanes h.mirror h.crosses h.waiting h.calls h.activity
  · exact hs

/-- Parts that neither the tables nor the admission test read have changed. -/
theorem Work.Settled.start_same (hs : (Work.start s).Settled) (hb : s.SameTables t) (hu : ∀ p, t.usable p = true → s.usable p = true)
    (hd : t.retained.settings = s.retained.settings) (hm : t.retained.outMarks = s.retained.outMarks) :
    (Work.start t).Settled :=
  Work.Ready.same (w' := Work.start t) hs hb fun p hp => ⟨hp, .of_same hb (hu p) hd hm⟩

theorem standbySupplyLow_linked (hs : (Work.start s).Settled) : LeavesLinked (execStandbySupplyLow s) := fun t ht => by
  rw [← Host.Outcome.next.inj ht]
  split
  · exact hs.linked
  · refine Work.Settled.linked (hs.start_same ⟨rfl, rfl, rfl, rfl, rfl, rfl⟩ (fun p => ?_) rfl rfl)
    cases p <;> exact id

theorem State.resetAtOnce_linked (hs : t.Linked) (s : State) (q : Request) : (s.resetAtOnce q t).Linked := by
  unfold State.resetAtOnce
  split
  · exact (t.remoteReset_atReset _).linked
  · exact hs

theorem State.resetIfEmptied_linked (hs : t.Linked) : t.resetIfEmptied.Linked := by
  unfold State.resetIfEmptied
  split
  · exact (t.remoteReset_atReset _).linked
  · exact hs

/-! ## Riser links -/

theorem Work.sendAllL_plain (w : Work) (l : List RiserCell) : w.Plain (w.sendAllL l) := by
  induction l generalizing w with
  | nil => exact .refl w
  | cons c l ih => exact (Work.Plain.sendL c).trans (ih (w.sendL c))

theorem Work.announceFire_plain (w : Work) : w.Plain w.announceFire := by
  unfold Work.announceFire
  split
  · exact .sendH _
  · exact .refl w

theorem Work.Settled.modPortL (hw : w.Settled) (f : RiserPort → RiserPort) : (w.modPortL f).Settled := by
  refine Work.Settled.modState hw ⟨rfl, rfl, rfl, rfl, rfl, rfl⟩ (fun p => ?_) rfl rfl
  cases p <;> exact id

/-- Port H's interface changes, and its link does not come UP. -/
theorem Work.Settled.modPortH (hw : w.Settled) {f : RiserPort → RiserPort}
    (hf : (f w.st.portH).link = .up → w.st.portH.link = .up) : (w.modPortH f).Settled := by
  refine Work.Settled.modState hw ⟨rfl, rfl, rfl, rfl, rfl, rfl⟩ (fun p hp => ?_) rfl rfl
  cases p with
  | H => exact beq_iff_eq.2 (hf (beq_iff_eq.1 hp))
  | F k => exact hp

/-- A port comes UP, and the arbiter is to run for it (R72). -/
theorem Work.Settled.comesUp (hw : w.Settled) {f : State → State} (p : Owned) (hs : w.st.SameTables (f w.st))
    (hu : ∀ q, q ≠ p → (f w.st).usable q = w.st.usable q) (hd : (f w.st).retained = w.st.retained)
    (hp : (w.modState f).Plain w') : (w'.run p).Settled := by
  have h1 : (w.modState f).Ready noneLoose fun q => q = p ∨ w.Due q := Work.Ready.same hw hs fun q hq =>
    ⟨fun h => hq (.inr h), .of_same hs (fun e => hu q (fun e => hq (.inl e)) ▸ e) (congrArg Retained.settings hd) (congrArg Retained.outMarks hd)⟩
  refine (h1.plain hp).runDue fun q hq => hq.imp_right fun hd => ?_
  rw [Work.Due, hp.runs]
  exact hd

theorem linkUp_linked (hs : (Work.start s).Settled) (p : Riser) : LeavesLinked (execLinkUp p s) := by
  refine event_linked hs ?_
  split
  · exact hs
  · cases p with
    | L => exact ((hs.modPortL _).sendL _).plain (Work.sendAllL_plain _ _)
    | H =>
      dsimp only
      split
      · exact hs
      · refine hs.comesUp (f := fun s => { s with portH := s.portH.raised }) .H ⟨rfl, rfl, rfl, rfl, rfl, rfl⟩ (fun q hq => ?_) rfl
          ((Work.Plain.sendH riserRestart).trans (Work.announceFire_plain _))
        cases q with
        | H => exact absurd rfl hq
        | F k => rfl

theorem Work.Settled.runs (hw : w.Settled) (p : Owned) : (w.run p).Settled :=
  Work.Ready.runDue hw fun _ hq => .inr hq

theorem linkDown_linked (hs : (Work.start s).Settled) (p : Riser) : LeavesLinked (execLinkDown p s) := fun t ht => by
  rw [← Host.Outcome.next.inj ht]
  split
  · cases p with
    | L =>
      exact State.resetIfEmptied_linked (((hs.modPortL _).raise _).emptyWholeMirror.eachCall fun w h r hw hr =>
        hw.cutCall hr .L _).finish
    | H =>
      have h1 : ((Work.start s).modPortH RiserPort.lowered).Settled := hs.modPortH fun e => nomatch e
      refine Work.Settled.finish (Work.Settled.runs ((h1.raise _).eachCall fun w h r hw hr => ?_) .H)
      split
      · exact hw.cutCall hr .H _
      · exact hw
  · exact hs.linked

theorem RiserPort.framed_link (p : RiserPort) (a : Bool) : (p.framed a).link = p.link := by
  unfold RiserPort.framed
  split <;> rfl

theorem framer_linked (hs : (Work.start s).Settled) (p : Riser) (a : Bool) : LeavesLinked (event s fun w => w.framer p a) := by
  refine event_linked hs ?_
  cases p with
  | L => exact hs.modPortL fun p => p.framed a
  | H =>
    unfold Work.framer
    dsimp only
    split
    · exact hs
    · exact hs.modPortH fun e => by rwa [RiserPort.framed_link] at e

/-! ## Floor lines -/

/-- A floor port's interface changes, and its line does not come UP. -/
theorem Work.Settled.modFloorPort (hw : w.Settled) (k : Floor) {f : FloorPort → FloorPort}
    (hf : (f w.st.floors[k]).line = .up → w.st.floors[k].line = .up) : (w.modFloorPort k f).Settled := by
  refine Work.Settled.modState hw ⟨rfl, rfl, rfl, rfl, rfl, rfl⟩ (fun p hp => ?_) rfl rfl
  cases p with
  | H => exact hp
  | F j =>
    have hp' : (w.st.floors.set k (f w.st.floors[k]))[j].line = .up := beq_iff_eq.1 hp
    refine beq_iff_eq.2 ?_
    by_cases hj : k = j
    · subst hj
      simp only [Fin.getElem_fin, Vector.getElem_set_self] at hp'
      exact hf hp'
    · have : k.val ≠ j.val := fun e => hj (Fin.ext e)
      simpa [this] using hp'

theorem Work.Settled.endFloorCalls (hw : w.Settled) (k : Floor) (c : Cause) : (w.endFloorCalls k c).Settled := by
  refine Work.Settled.runs (hw.eachCall fun w h r hw _ => ?_) (.F k)
  split
  · exact hw.release h c
  · exact hw

theorem floorFault_linked (hs : (Work.start s).Settled) (k : Floor) : LeavesLinked (execFloorFault k s) := by
  refine event_linked hs ?_
  split
  · exact ((hs.modFloorPort k (f := FloorPort.faulted) fun e => nomatch e).raise _).endFloorCalls k _
  · exact hs

theorem floorLineGood_linked (hs : (Work.start s).Settled) (k : Floor) : LeavesLinked (execFloorLineGood k s) := by
  refine event_linked hs ?_
  split
  · refine hs.comesUp (f := fun s => { s with floors := s.floors.set k (FloorPort.raised s.floors[k]) }) (.F k)
      ⟨rfl, rfl, rfl, rfl, rfl, rfl⟩ (fun q hq => ?_) rfl (.sendF k floorRestart)
    cases q with
    | H => rfl
    | F j =>
      have : k.val ≠ j.val := fun e => hq (by rw [Fin.ext e])
      simp [State.usable, State.floorUp, this]
  · exact hs

theorem lineMonitorReportChange_linked (hs : (Work.start s).Settled) (k : Floor) (good : Bool) :
    LeavesLinked (execLineMonitorReportChange k good s) := by
  refine event_linked hs (hs.modFloorPort k fun e => ?_)
  unfold FloorPort.reported at e
  split at e <;> exact e

/-! ## Cells on the line -/

theorem FloorPort.sent_line (p : FloorPort) : p.sent.line = p.line := by
  unfold FloorPort.sent
  split <;> rfl

theorem transmitCell_linked (hs : (Work.start s).Settled) (p : Port) : LeavesLinked (execTransmitCell p s) := by
  refine event_linked hs ?_
  cases p with
  | L =>
    refine Work.Settled.modState hs ⟨rfl, rfl, rfl, rfl, rfl, rfl⟩ (fun p => ?_) rfl rfl
    cases p <;> exact id
  | H => exact hs.modPortH fun e => by rwa [RiserPort.sent_link] at e
  | F k => exact hs.modFloorPort k fun e => by rwa [FloorPort.sent_line] at e

theorem cellCheckFailed_linked (hs : (Work.start s).Settled) (p : Port) (bytes : List Byte) :
    LeavesLinked (execCellCheckFailed p bytes s) := by
  refine event_linked hs ?_
  split
  · split
    · exact hs.raise _
    · exact hs.raise _
    · exact hs
  · exact hs

/-! ## The RESTARTs of the neighbours -/

theorem restartFromBelow_linked (hs : (Work.start s).Settled) : LeavesLinked (execRestartFromBelow s) := by
  refine onRiser_linked hs (hs.emptyWholeMirror.eachCall fun w h r hw hr => ?_)
  split
  · exact hw.cutCall hr .L _
  · exact hw

theorem restartFromAbove_linked (hs : (Work.start s).Settled) : LeavesLinked (execRestartFromAbove s) := by
  refine onRiser_linked hs (Work.Settled.plain (hs.eachCall fun w h r hw hr => ?_) (Work.announceFire_plain _))
  split
  · exact hw.cutCall hr .H _
  · exact hw

/-! ## Fire -/

theorem Work.relayFire_plain (w : Work) (c : RiserCell) : w.Plain (w.relayFire c) := by
  unfold Work.relayFire
  split
  · exact .refl w
  · exact .sendH c

/-- Volatile parts that are no table and no interface. -/
theorem Work.Settled.modVolatile (hw : w.Settled) {f : State → State} (hs : w.st.SameTables (f w.st))
    (hp : (f w.st).portH = w.st.portH ∧ (f w.st).floors = w.st.floors) (hd : (f w.st).retained = w.st.retained) :
    (w.modState f).Settled := by
  refine Work.Settled.modState hw hs (fun p h => ?_) (congrArg Retained.settings hd) (congrArg Retained.outMarks hd)
  cases p with
  | H => unfold State.usable State.riserUp at h ⊢; rwa [hp.1] at h
  | F k => unfold State.usable State.floorUp at h ⊢; rwa [hp.2] at h

/-- The sources of fire mode are no part of the tables or of the admission test. -/
theorem Work.Settled.modSources (hw : w.Settled) {f : State → State} (hs : w.st.SameTables (f w.st))
    (hp : (f w.st).portH = w.st.portH ∧ (f w.st).floors = w.st.floors) (hd : (f w.st).retained = w.st.retained) :
    (w.changeSources f).Settled :=
  Work.Settled.changeSources (hw.modVolatile hs hp hd)

theorem fireEdge_linked (hs : (Work.start s).Settled) (b : Bool) : LeavesLinked (execFireEdge b s) := by
  refine event_linked hs ?_
  split
  · exact hs
  · exact hs.modSources ⟨rfl, rfl, rfl, rfl, rfl, rfl⟩ ⟨rfl, rfl⟩ rfl

theorem fireOn_linked (hs : (Work.start s).Settled) (p : Riser) : LeavesLinked (execFireOn p s) := by
  refine onlyFromBelow_linked hs ?_
  have h1 := hs.plain (Work.relayFire_plain _ fireOnCell)
  dsimp only
  split
  · exact h1
  · exact (h1.raise _).modSources ⟨rfl, rfl, rfl, rfl, rfl, rfl⟩ ⟨rfl, rfl⟩ rfl

theorem fireOff_linked (hs : (Work.start s).Settled) (p : Riser) : LeavesLinked (execFireOff p s) := by
  refine onlyFromBelow_linked hs (Work.Settled.plain ?_ (Work.relayFire_plain _ _))
  exact hs.modSources ⟨rfl, rfl, rfl, rfl, rfl, rfl⟩ ⟨rfl, rfl⟩ rfl

end

end Sys2Proof.Machine
end

