-- ==== Sys2Proof/Proofs/MgmtLinked.lean ====
section
/-! PROOFS. The management operations leave a state whose tables agree (chapter 11). -/

namespace Sys2Proof.Machine

section
variable {s t : State} {w w' : Work} {p q : Owned}

/-! ## Changes of the retained contents -/

/-- Retained contents that are no reserve, no threshold and no mark of a lane. -/
theorem Work.Settled.modRetained (hw : w.Settled) {f : Retained → Retained} (hs : (f w.st.retained).settings = w.st.retained.settings)
    (hm : (f w.st.retained).outMarks = w.st.retained.outMarks) : (w.modRetained f).Settled := by
  refine Work.Settled.modState hw ⟨rfl, rfl, rfl, rfl, rfl, rfl⟩ (fun p => ?_) hs hm
  cases p <;> exact id

/-- Retained contents with which no port but those for which the arbiter is to run becomes easier. -/
theorem Work.Settled.storing (hw : w.Settled) {f : Retained → Retained} {busy : Owned → Prop}
    (hb : ∀ q, ¬ busy q → ¬ w.Due q ∧ w.st.NoEasier (w.modRetained f).st q) : (w.modRetained f).Ready noneLoose busy :=
  Work.Ready.same hw ⟨rfl, rfl, rfl, rfl, rfl, rfl⟩ hb

theorem State.usable_storing {d : Retained} (h : (s.storing d).usable p = true) : s.usable p = true := by
  cases p <;> exact h

theorem State.settings_storing_set_ne (hpq : p ≠ q) (x : PortSettings) :
    (s.storing { s.retained with settings := s.retained.settings.set p.idx x }).settings q = s.settings q := by
  have : p.idx.val ≠ q.idx.val := fun e => hpq (Owned.idx_inj (Fin.ext e))
  simp [State.settings, State.storing, this]

theorem State.settings_storing_set_self (x : PortSettings) :
    (s.storing { s.retained with settings := s.retained.settings.set p.idx x }).settings p = x := by
  simp [State.settings, State.storing]

/-- A written setting makes nothing easier on another port. -/
theorem State.noEasier_settings_ne (hpq : p ≠ q) (x : PortSettings) :
    s.NoEasier (s.storing { s.retained with settings := s.retained.settings.set p.idx x }) q := by
  refine State.noEasier_of_free State.usable_storing ?_ ?_ fun i hi => hi
  · rw [State.settings_storing_set_ne hpq]
  · rw [State.settings_storing_set_ne hpq]

/-- A preemption threshold is no part of the admission test (R55). -/
theorem State.noEasier_threshold (v : Nat) :
    s.NoEasier (s.storing { s.retained with settings := s.retained.settings.set p.idx { s.settings p with threshold := v } }) q := by
  by_cases hpq : p = q
  · subst hpq
    refine State.noEasier_of_free State.usable_storing ?_ ?_ fun i hi => hi
    · rw [State.settings_storing_set_self]
    · rw [State.settings_storing_set_self]
  · exact State.noEasier_settings_ne hpq _

/-- A mark makes nothing easier on another port. -/
theorem State.noEasier_marked_ne (hpq : p ≠ q) (i : Nat) (b : Bool) : s.NoEasier (s.marked p i b) q := by
  have hidx : p.idx.val ≠ q.idx.val := fun e => hpq (Owned.idx_inj (Fin.ext e))
  have hout : ∀ j, (s.marked p i b).outMark q j = s.outMark q j := fun j => by simp [State.outMark, State.storing, hidx]
  refine State.noEasier_of_free State.usable_storing rfl rfl fun j hj => ?_
  rw [State.laneState_eq_free_iff, hout] at hj
  exact (State.laneState_eq_free_iff ..).2 hj

/-- A lane without a mark after a mark was set had none before. -/
theorem State.outMark_marked_true {i : Nat} (h : (s.marked p i true).outMark p i = false) : s.outMark p i = false := by
  by_cases hi : i < s.retained.outMarks[p.idx.val].length
  · simp [State.outMark, State.storing, hi] at h
  · simp [State.outMark, hi]

/-- Where no OUT lane comes in, a mark makes nothing easier (R43, R61, R62). -/
theorem State.noEasier_marked {i : Nat} {b : Bool} (hb : b = false → s.laneState p i ≠ .out) :
    s.NoEasier (s.marked p i b) q := by
  by_cases hpq : p = q
  · subst hpq
    refine State.noEasier_of_free State.usable_storing rfl rfl fun j hj => ?_
    rw [State.laneState_eq_free_iff, State.holder_storing] at hj
    obtain ⟨hh, ho⟩ := hj
    refine (State.laneState_eq_free_iff ..).2 ⟨hh, ?_⟩
    by_cases hij : i = j
    · subst hij
      cases b with
      | false => exact Bool.eq_false_iff.2 fun e => hb rfl ((State.laneState_eq_out_iff ..).2 ⟨hh, e⟩)
      | true => exact State.outMark_marked_true ho
    · rwa [s.outMark_storing_set_ne p b hij] at ho
  · exact State.noEasier_marked_ne hpq i b

/-! ## Written fields -/

theorem Work.Settled.setting (hw : w.Settled) (f : SettingField) (v : Nat) : (w.writeField (.setting p f) v).1.Settled := by
  obtain ⟨x, hx⟩ : ∃ x, x = (w.st.settings p).write (laneCount p) f v := ⟨_, rfl⟩
  have h1 : (w.modRetained fun d => { d with settings := d.settings.set p.idx x.2 }).Ready noneLoose fun q => q = p ∨ w.Due q :=
    hw.storing fun q hq => ⟨fun h => hq (.inr h), State.noEasier_settings_ne (fun e => hq (.inl e.symm)) _⟩
  unfold Work.writeField
  dsimp only
  rw [← hx]
  split
  · next hf =>
    subst hf hx
    exact hw.storing fun q hq => ⟨hq, State.noEasier_threshold _⟩
  · exact h1.runDue fun q hq => hq

theorem Work.Settled.remapped (hw : w.Settled) {g : WaitEntry → WaitEntry}
    (hg : ∀ x, (g x).handle = x.handle ∧ (g x).port = x.port ∧ (g x).steps = x.steps) :
    (w.setWaiting (w.st.waiting.map g)).Settled :=
  ⟨hw.fits.remapped hg, fun p hp => (hw.quiet p hp).remapped hg⟩

theorem Work.Settled.rewriteAgeing (hw : w.Settled) (m n : Nat) : (w.rewriteAgeing m n).Settled := by
  unfold Work.rewriteAgeing
  split
  · exact .remapped hw fun _ => ⟨rfl, rfl, rfl⟩
  · split
    · exact .remapped hw fun _ => ⟨rfl, rfl, rfl⟩
    · exact hw

theorem Work.Settled.writeField (hw : w.Settled) (f : FieldRef) (v : Nat) : (w.writeField f v).1.Settled := by
  cases f with
  | setting p f => exact hw.setting f v
  | timer f =>
    have h1 := hw.modRetained (f := fun d => { d with timers := d.timers.store f (clampTo f.range.1 f.range.2 v) }) rfl rfl
    unfold Work.writeField
    dsimp only
    split
    · exact h1.rewriteAgeing _ _
    · exact h1
  | senseMode =>
    unfold Work.writeField
    dsimp only
    split
    · next m _ =>
      refine Work.Settled.changeSources (Work.Settled.modState hw ⟨rfl, rfl, rfl, rfl, rfl, rfl⟩ (fun p => ?_) rfl rfl)
      cases p <;> exact id
    · exact hw
  | window x f =>
    refine hw.modRetained (f := fun d => d.setWindow x ((w.st.retained.window x).write f v).2) ?_ ?_
    · cases x <;> rfl
    · cases x <;> rfl
  | slot i f => exact hw.modRetained (f := fun d => { d with slots := d.slots.set i (w.st.writeSlot i f v).2 }) rfl rfl
  | ceiling n => exact hw.modRetained (f := fun d => { d with ceilings := d.ceilings.set n (clampClass v) }) rfl rfl
  | talkLimit c => exact hw.modRetained (f := fun d => { d with talkLimits := d.talkLimits.set c (clampTalk v) }) rfl rfl
  | fireClass => exact hw.modRetained (f := fun d => { d with fireClass := clampClass v }) rfl rfl
  | _ => exact hw

/-! ## Operations -/

theorem Work.Settled.reply (hw : w.Settled) (op : MgmtOp) (q : Request) (r : Result) (v : Nat) : (w.reply op q r v).Settled :=
  hw.sendL _

theorem Work.Settled.drawFree (hw : w.Settled) : w.drawFree.Settled :=
  hw.modVolatile ⟨rfl, rfl, rfl, rfl, rfl, rfl⟩ ⟨rfl, rfl⟩ rfl

theorem Work.Settled.ifUnlocked (hw : w.Settled) (op : MgmtOp) (q : Request) {k : Work → Work} (hk : (k w).Settled) :
    (w.ifUnlocked op q k).Settled := by
  unfold Work.ifUnlocked
  split
  · exact (hw.raise _).reply _ _ _ _
  · exact hk

theorem Work.Settled.readOp (hw : w.Settled) (q : Request) : (w.readOp q).Settled := by
  unfold Work.readOp
  split
  · exact hw.reply _ _ _ _
  · split
    · exact hw.reply _ _ _ _
    · exact (hw.reply _ _ _ _).drawFree

theorem Work.Settled.writeOp (hw : w.Settled) (q : Request) : (w.writeOp q).Settled := by
  unfold Work.writeOp
  split
  · exact hw.reply _ _ _ _
  · exact hw.ifUnlocked _ _ ((hw.writeField _ _).reply _ _ _ _).drawFree

theorem Work.Settled.updateOp (hw : w.Settled) (q : Request) : (w.updateOp q).Settled := by
  unfold Work.updateOp
  split
  · exact hw.reply _ _ _ _
  · refine hw.ifUnlocked _ _ ?_
    dsimp only
    split
    · exact hw.reply _ _ _ _
    · exact ((hw.writeField _ _).reply _ _ _ _).drawFree

theorem Work.Settled.setAgain (hw : w.Settled) (g : Group) (named : Word) : (w.setAgain g named).Settled := by
  unfold Work.setAgain
  refine List.foldlRecOn (motive := fun w : Work => w.Settled) lastingEvents _ hw fun w hw e _ => ?_
  split
  · exact hw.raise e
  · exact hw

theorem Work.Settled.clearEventsOp (hw : w.Settled) (q : Request) : (w.clearEventsOp q).Settled := by
  unfold Work.clearEventsOp
  split
  · exact hw.reply _ _ _ _
  · next g _ =>
    have h1 := hw.modVolatile (f := fun s => { s with status := s.status.set g (s.status.get g &&& ~~~q.value) })
      ⟨rfl, rfl, rfl, rfl, rfl, rfl⟩ ⟨rfl, rfl⟩ rfl
    exact (h1.setAgain _ _).reply _ _ _ _

theorem Work.Settled.setMasksOp (hw : w.Settled) (q : Request) : (w.setMasksOp q).Settled := by
  unfold Work.setMasksOp
  split
  · exact hw.reply _ _ _ _
  · exact (hw.modRetained rfl rfl).reply _ _ _ _

theorem Work.Settled.portOp (hw : w.Settled) (op : MgmtOp) (q : Request) {k : Work → Port → Work} (hk : ∀ p, (k w p).Settled) :
    (w.portOp op q k).Settled := by
  unfold Work.portOp
  split
  · exact hw.reply _ _ _ _
  · exact hw.ifUnlocked _ _ (hk _)

theorem Work.Settled.setMark (hw : w.Settled) {i : Nat} {b : Bool} (hb : b = false → w.st.laneState p i ≠ .out) :
    (w.setMark p i b).Settled :=
  hw.storing fun _ hq => ⟨hq, State.noEasier_marked hb⟩

theorem Work.Settled.laneOutOp (hw : w.Settled) (q : Request) : (w.laneOutOp q).Settled := by
  refine hw.portOp _ q fun p => ?_
  split
  · exact (hw.setMark (b := true) fun e => nomatch e).reply _ _ _ _
  · exact hw.reply _ _ _ _

theorem Work.Settled.laneInOp (hw : w.Settled) (q : Request) : (w.laneInOp q).Settled := by
  refine hw.portOp _ q fun p => ?_
  split
  · next o i _ =>
    dsimp only
    split
    · have h1 : (w.setMark o i false).Ready noneLoose fun q => q = o ∨ w.Due q :=
        hw.storing fun q hq => ⟨fun h => hq (.inr h), State.noEasier_marked_ne (fun e => hq (.inl e.symm)) i false⟩
      have hp : Work.Plain _ ((w.setMark o i false).reply .laneIn q .done 0) := .sendL _
      refine (h1.plain hp).runDue fun q hq => hq.imp_right fun hd => ?_
      rw [Work.Due, hp.runs]
      exact hd
    · next hout => exact (hw.setMark fun _ => hout).reply _ _ _ _
  · exact hw.reply _ _ _ _

theorem Work.Settled.setDisabled (hw : w.Settled) (k : Floor) (b : Bool) : (w.setDisabled k b).Settled :=
  hw.modRetained (f := fun d => { d with disabled := d.disabled.set k b }) rfl rfl

theorem Work.Settled.disablePort (hw : w.Settled) (k : Floor) : (w.disablePort k).Settled := by
  have h1 : ((w.modFloorPort k fun p => { p with line := .disabled, faultMark := false, count := 0, queue := [] }).setDisabled
      k true).Settled := by
    refine Work.Settled.setDisabled (hw.modFloorPort k ?_) k true
    exact fun e => nomatch e
  unfold Work.disablePort
  dsimp only
  split
  · exact h1.endFloorCalls _ _
  · exact h1

theorem Work.Settled.enablePort (hw : w.Settled) (k : Floor) : (w.enablePort k).Settled := by
  refine Work.Settled.setDisabled (hw.modFloorPort k ?_) k false
  exact fun e => nomatch e

theorem Work.Settled.portDisableOp (hw : w.Settled) (q : Request) : (w.portDisableOp q).Settled := by
  refine hw.portOp _ q fun p => ?_
  split
  · refine Work.Settled.reply ?_ _ _ _ _
    split
    · exact hw
    · exact hw.disablePort _
  · exact hw.reply _ _ _ _

theorem Work.Settled.portEnableOp (hw : w.Settled) (q : Request) : (w.portEnableOp q).Settled := by
  refine hw.portOp _ q fun p => ?_
  split
  · refine Work.Settled.reply ?_ _ _ _ _
    split
    · exact hw.enablePort _
    · exact hw
  · exact hw.reply _ _ _ _

theorem Work.Settled.setServiceOp (hw : w.Settled) (q : Request) : (w.setServiceOp q).Settled := by
  refine hw.ifUnlocked _ _ ?_
  split
  · exact (hw.modRetained rfl rfl).reply _ _ _ _
  · exact (hw.modRetained rfl rfl).reply _ _ _ _
  · exact hw.reply _ _ _ _

theorem Work.Settled.lockOp (hw : w.Settled) (q : Request) : (w.lockOp q).Settled :=
  (hw.modVolatile ⟨rfl, rfl, rfl, rfl, rfl, rfl⟩ ⟨rfl, rfl⟩ rfl).reply _ _ _ _

theorem Work.Settled.resetOp (hw : w.Settled) (q : Request) : (w.resetOp q).Settled :=
  (hw.modVolatile ⟨rfl, rfl, rfl, rfl, rfl, rfl⟩ ⟨rfl, rfl⟩ rfl).reply _ _ _ _

theorem Work.Settled.serve (hw : w.Settled) (op : MgmtOp) (q : Request) : (w.serve op q).Settled := by
  cases op with
  | read => exact hw.readOp q
  | write => exact hw.writeOp q
  | update => exact hw.updateOp q
  | clearEvents => exact hw.clearEventsOp q
  | setMasks => exact hw.setMasksOp q
  | laneOut => exact hw.laneOutOp q
  | laneIn => exact hw.laneInOp q
  | portDisable => exact hw.portDisableOp q
  | portEnable => exact hw.portEnableOp q
  | setService => exact hw.setServiceOp q
  | lock => exact hw.lockOp q
  | reset => exact hw.resetOp q

/-! ## The commands -/

theorem Work.Settled.forwardRequest (hw : w.Settled) (op : Byte) (q : Request) : (w.forwardRequest op q).Settled := by
  unfold Work.forwardRequest
  split
  · exact hw
  · exact hw.sendH _

theorem onRequest_linked (hs : (Work.start s).Settled) {op : MgmtOp} {q : Request} {f : Work → Work}
    (hf : (f (Work.start s)).Settled) : LeavesLinked (onRequest s op q f) := by
  refine onRiser_linked hs ?_
  split
  · exact hs.raise _
  · split
    · exact hf
    · exact hs.forwardRequest _ _

theorem reset_linked (hs : (Work.start s).Settled) (q : Request) : LeavesLinked (execReset q s) := fun t ht => by
  unfold execReset at ht
  split at ht
  · next u hu =>
    cases ht
    exact State.resetAtOnce_linked (onRequest_linked hs (hs.resetOp q) u hu) s q
  · next hne => exact absurd ht (hne t)

theorem mgmtRequestForward_linked (hs : (Work.start s).Settled) (p : Riser) (op : Byte) (q : Request) :
    LeavesLinked (execMgmtRequestForward p op q s) := fun t ht => by
  unfold execMgmtRequestForward at ht
  split at ht
  · next u hu =>
    have hl : u.Linked := by
      refine onlyFromBelow_linked hs ?_ u hu
      split
      · exact hs.raise _
      · split
        · exact hs.raise _
        · split
          · exact hs.serve _ _
          · exact hs.forwardRequest _ _
    cases ht
    split
    · exact State.resetAtOnce_linked hl s q
    · exact hl
  · next hne => exact absurd ht (hne t)

theorem mgmtRelayDown_linked (hs : (Work.start s).Settled) (p : Riser) (notice : Bool) (op : Byte) (q : Request) :
    LeavesLinked (execMgmtRelayDown p notice op q s) := by
  refine onRiser_linked hs ?_
  cases p with
  | L => exact hs.raise _
  | H => exact hs.sendL _

end

end Sys2Proof.Machine
end

