-- ==== Sys2Proof/Proofs/StepLinked.lean ====
section
/-! PROOFS. Every step leaves a state whose tables agree (O9): one command, or one timer unit. -/

namespace Sys2Proof.Machine

section
variable {s t : State} {r : CallRecord} {h : Handle} {p : Owned} {loose : Handle → Prop}

/-! ## One timer unit -/

theorem CallRecord.tick_cls (r : CallRecord) : r.tick.cls = r.cls := by
  unfold CallRecord.tick CallRecord.modFloor
  split <;> rfl

/-- A record's timers are nothing to the tables. -/
theorem CallRecord.tick_alike (r : CallRecord) (h : Handle) (ho : r.state = .clearing → r.anyOpen = true) : r.Alike r.tick h := by
  unfold CallRecord.tick CallRecord.modFloor
  split
  · next f hf =>
    exact .of_state h rfl rfl rfl rfl rfl rfl rfl (.inr ⟨f, { f with entries := f.entries.map OfferEntry.tick }, hf, rfl, rfl, rfl⟩) ho
  · exact .of_state h rfl rfl rfl rfl rfl rfl rfl (.inl rfl) ho

/-- An ageing step under way, one timer unit on. -/
abbrev WaitEntry.ticked (x : WaitEntry) : WaitEntry := { x with ageing := x.ageing.map (· - 1) }

/-- One timer unit for the interfaces and the records; the wait list stands. -/
abbrev State.ticking (s : State) : State :=
  { s with
    portL := s.portL.tick
    portH := if s.top then s.portH else s.portH.tick
    floors := Vector.ofFn fun k => s.floors[k].tick
    calls := Vector.ofFn fun h => s.calls[h].map CallRecord.tick }

theorem State.tick_eq (s : State) :
    s.tick = { s.ticking with waiting := s.ticking.waiting.map WaitEntry.ticked } := rfl

theorem State.call?_ticking (s : State) (h : Handle) : s.ticking.call? h = (s.call? h).map CallRecord.tick := by
  simp [State.call?]

theorem State.usable_ticking (s : State) (p : Owned) : s.ticking.usable p = s.usable p := by
  cases p with
  | H =>
    simp only [State.usable, State.riserUp]
    split
    · rfl
    · rw [RiserPort.tick_link]
  | F k => simp [State.usable, State.floorUp]

theorem State.Fits.ticking (hs : s.Fits loose) : s.ticking.Fits loose := by
  refine hs.allAlike ⟨rfl, rfl, rfl, rfl, rfl, fun h hn => ?_, fun h r' hr => ?_⟩
  · rwa [State.call?_ticking, Option.map_eq_none_iff] at hn
  · rw [State.call?_ticking] at hr
    obtain ⟨r, hr', rfl⟩ := Option.map_eq_some_iff.1 hr
    exact ⟨r, hr', r.tick_alike h fun hc => ((hs.live h r hr').clearing hc).1⟩

theorem State.Quiet.ticking (hq : s.Quiet p) : s.ticking.Quiet p := by
  refine hq.sublist ?_ (fun _ hx => hx) fun x _ => State.entryPriority_congr ?_
  · exact State.noEasier_of_holders (fun e => (s.usable_ticking p) ▸ e) rfl rfl fun _ hi => hi
  · rw [State.call?_ticking, Option.map_map]
    refine congrArg (fun f => (s.call? x.handle).map f) (funext fun r => ?_)
    exact r.tick_cls

theorem State.tick_linked (hs : s.Fits noneLoose) (hq : ∀ p, s.Quiet p) : s.tick.Linked := by
  rw [State.tick_eq]
  have hg : ∀ x : WaitEntry, x.ticked.handle = x.handle ∧ x.ticked.port = x.port ∧ x.ticked.steps = x.steps := fun _ =>
    ⟨rfl, rfl, rfl⟩
  exact (hs.ticking.remapped hg).linked fun p => (hq p).ticking.remapped hg

/-! ## One command -/

/-- Every command leaves a state whose tables agree. -/
theorem exec_linked (c : Instr) (hs : (Work.start s).Settled) (hh : s.HandlesOk) : LeavesLinked (exec c s) := by
  cases c with
  | powerUpReset pins => exact powerUpReset_linked pins s
  | remoteReset pins => exact remoteReset_linked hs.linked pins
  | linkUp p => exact linkUp_linked hs p
  | linkDown p => exact linkDown_linked hs p
  | floorFault k => exact floorFault_linked hs k
  | floorLineGood k => exact floorLineGood_linked hs k
  | fireEdge b => exact fireEdge_linked hs b
  | transmitCell p => exact transmitCell_linked hs p
  | cellCheckFailed p bytes => exact cellCheckFailed_linked hs p bytes
  | setupFromBelow key lane dest cls okind origin => exact setupFromBelow_linked hs hh key lane dest cls okind origin
  | setupFromAbove key lane dest cls okind origin => exact setupFromAbove_linked hs hh key lane dest cls okind origin
  | laneGrant p key lane => exact laneGrant_linked hs p key lane
  | alertingFromAbove key lane => exact alertingFromAbove_linked hs key lane
  | queuedFromAbove key lane => exact queuedFromAbove_linked hs key lane
  | heldFromAbove key lane => exact onProgress_linked (k := fun w _ r => w.relayHold r .held) hs fun _ _ r hw _ _ _ => hw.relayHold r _
  | resumedFromAbove key lane => exact onProgress_linked (k := fun w _ r => w.relayHold r .resumed) hs fun _ _ r hw _ _ _ => hw.relayHold r _
  | limitNearFromAbove p key lane => exact limitNearFromAbove_linked hs p key lane
  | connectFromAbove key => exact connectFromAbove_linked hs key
  | queuedFromBelow key lane => exact queuedFromBelow_linked hs key lane
  | alertingFromBelow key lane => exact alertingFromBelow_linked hs key lane
  | connectFromBelow key => exact connectFromBelow_linked hs key
  | heldFromBelow key lane => exact heldFromBelow_linked hs key lane
  | resumedFromBelow key lane => exact resumedFromBelow_linked hs key lane
  | release p key code => exact release_linked hs p key code
  | releaseDone p key => exact releaseDone_linked hs p key
  | unlatchFromAbove p key okind origin => exact unlatchFromAbove_linked hs p key okind origin
  | restartFromBelow => exact restartFromBelow_linked hs
  | restartFromAbove => exact restartFromAbove_linked hs
  | fireOn p => exact fireOn_linked hs p
  | fireOff p => exact fireOff_linked hs p
  | mgmtRequestForward p op q => exact mgmtRequestForward_linked hs p op q
  | mgmtRelayDown p notice op q => exact mgmtRelayDown_linked hs p notice op q
  | read q => exact onRequest_linked (f := fun w => w.readOp q) hs (hs.readOp q)
  | write q => exact onRequest_linked (f := fun w => w.writeOp q) hs (hs.writeOp q)
  | update q => exact onRequest_linked (f := fun w => w.updateOp q) hs (hs.updateOp q)
  | clearEvents q => exact onRequest_linked (f := fun w => w.clearEventsOp q) hs (hs.clearEventsOp q)
  | setMasks q => exact onRequest_linked (f := fun w => w.setMasksOp q) hs (hs.setMasksOp q)
  | laneOut q => exact onRequest_linked (f := fun w => w.laneOutOp q) hs (hs.laneOutOp q)
  | laneIn q => exact onRequest_linked (f := fun w => w.laneInOp q) hs (hs.laneInOp q)
  | portDisable q => exact onRequest_linked (f := fun w => w.portDisableOp q) hs (hs.portDisableOp q)
  | portEnable q => exact onRequest_linked (f := fun w => w.portEnableOp q) hs (hs.portEnableOp q)
  | setService q => exact onRequest_linked (f := fun w => w.setServiceOp q) hs (hs.setServiceOp q)
  | lock q => exact onRequest_linked (f := fun w => w.lockOp q) hs (hs.lockOp q)
  | reset q => exact reset_linked hs q
  | alert k a b => exact alert_linked hs k a b
  | answer k a b => exact answer_linked hs k a b
  | refuse k a b => exact refuse_linked hs k a b
  | repeatOffer k a b => exact repeatOffer_linked hs k a b
  | responseWindowExpiry h i => exact responseWindowExpiry_linked hs h i
  | dial k a => exact dial_linked hs hh k a
  | hook k a => exact hook_linked hs k a
  | quiet k a b => exact quiet_linked hs k a b
  | unlatch k a => exact unlatch_linked hs k a
  | handsetRestart k a => exact event_linked (f := id) hs hs
  | laneWaitExpiry h => exact laneWaitExpiry_linked hs h
  | ageingStep h => exact ageingStep_linked hs h
  | progressWaitExpiry h => exact releaseExpiry_linked hs h .progressWait .forwarded .noProgress
  | grantWaitExpiry h => exact releaseExpiry_linked hs h .grantWait .awaitingGrant .noProgress
  | ringTimerExpiry h => exact releaseExpiry_linked hs h .ringTime .ringing .noAnswer
  | limitNear h => exact limitNear_linked hs h
  | talkLimitExpiry h => exact releaseExpiry_linked hs h .talkLimit .connected .talkLimit
  | guardTimerExpiry h => exact guardTimerExpiry_linked hs h
  | frameAlignmentLoss p => exact framer_linked hs p _
  | frameAlignmentReturn p => exact framer_linked hs p _
  | lineMonitorReportChange k good => exact lineMonitorReportChange_linked hs k good
  | mainSupplyLoss b => exact mainSupplyLoss_linked hs.linked b
  | standbySupplyLow => exact standbySupplyLow_linked hs

end

/-- Settles O9: a step runs one command, which keeps the tables in agreement, or lets one timer unit pass. -/
theorem stepKeepsLinks : Obligations.StepKeepsLinks := by
  intro s t hi hs h
  have hready := Work.start_ready hs hi.lanes
  unfold step at h
  split at h
  · cases h
    unfold State.idle
    split
    · exact State.tick_linked hready.fits hs.quiet
    · exact hs
  · next c rest _ =>
    have hrest : (Work.start { s with pending := rest }).Settled := by
      refine Work.Settled.start_same hready ⟨rfl, rfl, rfl, rfl, rfl, rfl⟩ (fun p => ?_) rfl rfl
      cases p <;> exact id
    exact exec_linked c hrest hi.handles t h

end Sys2Proof.Machine
end
